-- ==== Sys2Proof/Word.lean ====
section
/-! DEFINITION. The word types of the HUFF core (spec/10_state.md): 32-bit registers and counts, 10-bit node
indices, 9-bit symbols, 8-bit bytes, and bit strings in stream order (R11). -/

namespace Sys2Proof

/-- A host-visible register, a histogram counter or a node weight: 32 bits, unsigned (R32, R9 `W_CNT`). -/
abbrev Word := BitVec 32

/-- A node index: `IDX_W` = 10 bits (R9). -/
abbrev Idx := BitVec 10

/-- A Symbol field: 9 bits (R8 `LEAF_W`). -/
abbrev Sym := BitVec 9

/-- A bit string, first bit in stream order first (R11). -/
abbrev Bits := List Bool

end Sys2Proof
end

