-- ==== Sys2Proof/Syntax.lean ====
section
/-! DEFINITION. The commands of the HUFF core, one constructor per row of spec/opcode_table.json (R122, R123).
A command has no operand (R121); the two illegal rows keep the bits of the word that the table leaves open, since
the CMD read-back returns them (R152). -/

namespace Sys2Proof

inductive Instr where
  /-- NOP, 0x00000000 (R170). -/
  | nop
  /-- COUNT, 0x00000001 (R190). -/
  | count
  /-- BUILD, 0x00000002 (R210). -/
  | build
  /-- GENCODES, 0x00000003 (R240). -/
  | gencodes
  /-- SERIALIZE, 0x00000004 (R260). -/
  | serialize
  /-- DESERIALIZE, 0x00000005 (R270). -/
  | deserialize
  /-- ENCODE, 0x00000006 (R290). -/
  | encode
  /-- DECODE, 0x00000007 (R320). -/
  | decode
  /-- COMPRESS, 0x00000008 (R300). -/
  | compress
  /-- INRESET, 0x00000009 (R171). -/
  | inreset
  /-- OUTCLOSE, 0x0000000A (R172). -/
  | outclose
  /-- CLEAR, 0x0000000B (R173). -/
  | clear
  /-- A word with RES = 0 and OP = 0xC + low (R123, R174). -/
  | illegalOp (low : BitVec 2)
  /-- A word with RES ≠ 0 (R123, R174). -/
  | illegalRes (res : BitVec 28) (op : BitVec 4)
  deriving DecidableEq, Repr

end Sys2Proof
end

