-- ==== Sys2Proof/WellFormed.lean ====
section
/-! DEFINITION. Which terms of `Instr` stand for a command word: all of them, but for an `illegalRes` whose reserved
field is 0 (those words belong to the other rows, R123). -/

namespace Sys2Proof

/-- R123: the row ILLEGAL_RES holds the words whose RES field is not 0. -/
def Instr.wellFormed : Instr → Bool
  | .illegalRes res _ => res != 0#28
  | .nop | .count | .build | .gencodes | .serialize | .deserialize | .encode | .decode | .compress
  | .inreset | .outclose | .clear | .illegalOp _ => true

/-- An instruction term that is some command word's. -/
abbrev WellFormed (i : Instr) : Prop := i.wellFormed = true

end Sys2Proof
end

