-- ==== Sys2Proof/Decode.lean ====
section
/-! DEFINITION. Decoding a command word (R124) and its inverse, the encoder (R120, R122). Every 32-bit word decodes;
a number that is no 32-bit word is rejected by name (R82, R120: a command is exactly one 32-bit CMD write). -/

namespace Sys2Proof

/-- Field OP of R120: bits 3:0. -/
def opField (w : Word) : BitVec 4 := w.extractLsb' 0 4

/-- Field RES of R120: bits 31:4. -/
def resField (w : Word) : BitVec 28 := w.extractLsb' 4 28

/-- R124, the case on OP for a word whose RES field is 0. -/
def decodeOp (op : BitVec 4) : Instr :=
  match op.toNat with
  | 0x0 => .nop
  | 0x1 => .count
  | 0x2 => .build
  | 0x3 => .gencodes
  | 0x4 => .serialize
  | 0x5 => .deserialize
  | 0x6 => .encode
  | 0x7 => .decode
  | 0x8 => .compress
  | 0x9 => .inreset
  | 0xA => .outclose
  | 0xB => .clear
  | _ => .illegalOp (op.extractLsb' 0 2)

/-- R124: a total function on 32-bit words. -/
def decode (w : Word) : Instr :=
  if resField w = 0#28 then decodeOp (opField w) else .illegalRes (resField w) (opField w)

/-- R122, R123: the command word of an instruction. -/
def encode : Instr → Word
  | .nop => 0x00000000#32
  | .count => 0x00000001#32
  | .build => 0x00000002#32
  | .gencodes => 0x00000003#32
  | .serialize => 0x00000004#32
  | .deserialize => 0x00000005#32
  | .encode => 0x00000006#32
  | .decode => 0x00000007#32
  | .compress => 0x00000008#32
  | .inreset => 0x00000009#32
  | .outclose => 0x0000000A#32
  | .clear => 0x0000000B#32
  | .illegalOp low => (3#30 ++ low : BitVec 32)
  | .illegalRes res op => (res ++ op : BitVec 32)

/-- Why a number is no command word. -/
inductive DecodeReject where
  /-- It does not fit in the 32 bits of a CMD write (R82, R120). -/
  | widerThanCommandWord
  deriving DecidableEq, Repr

/-- The command written by `nbits` bits of value `w`, the bits above them 0 (R120). -/
def decodeBits (nbits w : Nat) : Except DecodeReject Instr :=
  if w % 2 ^ nbits < 2 ^ 32 then .ok (decode (BitVec.ofNat 32 (w % 2 ^ nbits)))
  else .error .widerThanCommandWord

/-- The decoder's answer to a word numbered as spec/opcode_table.json numbers it. -/
def decodeTableWord (nbits w : Nat) : Option Instr :=
  match decodeBits nbits w with
  | .ok i => some i
  | .error _ => none

end Sys2Proof
end

