-- ==== Sys2Proof/Config.lean ====
section
/-! DEFINITION. What is fixed for the hardware (R8, R9), the parameters the spec leaves OPEN (`MAGIC`, `TIE`,
`HUFF_BASE`) and the draws under no law (`PAD`, window reads while BUSY, a port after an `IoErr`, an endless input).
The open values are opaque, so that nothing can be proved of them; `HUFF_BASE` is a field of State only (log 2). -/

namespace Sys2Proof.Config

/-- `ID_VALUE`, ASCII "HUFF" (R9, R32). -/
def idValue : Word := 0x48554646#32

/-- `EOF_SYM` = 256 (R8). -/
def eofSym : Sym := 256#9

/-- `NODE_CAP` = 513 node slots (R9). -/
def nodeCap : Nat := 513

/-- `NIL` = 0x3FF (R9). -/
def nil : Idx := 0x3FF#10

/-- Largest value of a `W_CNT`-bit count or weight, 2^32 − 1 (R190, R210). -/
def maxCount : Nat := 4294967295

/-- The parameter `MAGIC` of the machine of `State.reset` (R9, R10: OPEN). No value is known of it. -/
opaque magic : Word

/-- The open part of the parameter `TIE` (R214): which of the minimum-weight elements an unnamed policy takes, as
an unknown function of HIST and of the selections already made (newest first). `select` reduces it to a position
among the candidates, so that the selection law holds whatever this function is. -/
opaque tieChoice : List (Nat × Word) → List Idx → Nat

/-- The draw `PAD` (R90): the value of the padding bit drawn at count `n`. -/
opaque padBit : Nat → Bool

/-- The draw of R105: what a window read answers while BUSY = 1, at draw count `n`. -/
opaque busyRead : Nat → Word

/-- Whether the sink is closed after its environment answered `IoErr`, at draw count `n` (R90, I8, I10: no law). -/
opaque closedAfterFailure : Nat → Bool

/-- Whether an OutClose answered `IoErr` had already flushed its padding (R90: no law). -/
opaque paddedAfterFailure : Nat → Bool

/-- The bits an input port holds after it answered `IoErr`, at draw count `n` (I8, R410: no law). -/
opaque bitsAfterFailure : Nat → Bits

/-- How that port goes on after those bits, as the field `endless` of an input port says it. -/
opaque endlessAfterFailure : Nat → Option Nat

/-- The position of that port. -/
opaque posAfterFailure : Nat → Nat

/-- The end-of-stream latch of that port. -/
opaque eofAfterFailure : Nat → Bool

/-- Whether that port can rewind. -/
opaque rewindableAfterFailure : Nat → Bool

/-- Bit `k` of the endless input stream number `e` (R325, I9: an input that never ends, of which nothing else is
known). -/
opaque streamBit : Nat → Nat → Bool

end Sys2Proof.Config
end

