-- ==== Sys2Proof/Machine/State.lean ====
section
/-! DEFINITION. Everything spec/10_state.md gives the machine, as plain data: the host-visible registers (R32-R46),
the internal memories (R50-R54), the validity flags and datapath registers (R55-R60), the two ports (R61), the
parameters (R9), and the queue of host and platform events. -/

namespace Sys2Proof.Machine

/-- STATUS.PHASE, the sequencer phases of R33 that are produced. -/
inductive Phase where
  | idle | counting | building | gencodes | serializing | headerMagic | traversingHeader | encodingBody
  | traversingBody | closing | inResetting | clearing | done | failed
  deriving DecidableEq, Repr

/-- The seven error kinds of R350. -/
inductive ErrKind where
  | unrecognizedFormat | corruptHeader | truncatedStream | portError | illegalCommand | notReady | uncodedSymbol
  deriving DecidableEq, Repr

/-- The parameter `TIE` (R9, R214): the two policies the spec names, and one of which nothing is known but the
selection law. -/
inductive TiePolicy where
  /-- `LOWEST_INDEX`: the smallest node index among the minimum-weight elements (R214). -/
  | lowestIndex
  /-- `HIGHEST_INDEX`: the largest one (95_test_vectors.md V-B8). -/
  | highestIndex
  /-- Any deterministic function of the BUILD state (R214), given by `Config.tieChoice`. -/
  | implementationDefined
  deriving DecidableEq, Repr

/-- The parameters of R9 and R80, fixed for the machine. -/
structure Params where
  magic    : Word
  tie      : TiePolicy
  basePage : Nat
  deriving DecidableEq, Repr

/-- A memory: the cells that differ from what an unlisted cell holds, addresses strictly rising. -/
abbrev Memory (α : Type) := List (Nat × α)

/-- One slot of NODE (R51). -/
structure Node where
  leaf   : Bool
  sym    : Sym
  left   : Idx
  right  : Idx
  weight : Word
  deriving DecidableEq, Repr

/-- One entry of CODE (R53); its `len` is the length of its bit string. -/
structure CodeEntry where
  valid : Bool
  bits  : Bits
  deriving DecidableEq, Repr

/-- `CODE[s].len` (R53). -/
abbrev CodeEntry.len (e : CodeEntry) : Nat := e.bits.length

/-- One element of the traversal stack (R58): a node index, the partial code string of GENCODES, and, for the tree
reader, whether the node's left child has been read. -/
structure Frame where
  idx      : Idx
  path     : Bits
  leftDone : Bool
  deriving DecidableEq, Repr

/-- The input port (R61, R86, R88). `bits`, `pos` and `eof` are the state of R86. A port with `endless = some e`
never ends: its sequence is `bits`, then the stream number `e` (R325, I9; log 26). `fails` are the failures its
environment will draw, one for each request, none once the list is empty. A port that has `failed` answered `IoErr`:
its later answers follow no law (I8; log 7). A `silent` port does not answer at all (R93). -/
structure InPort where
  bits       : Bits
  endless    : Option Nat
  pos        : Nat
  eof        : Bool
  fails      : List Bool
  failed     : Bool
  rewindable : Bool
  silent     : Bool
  deriving DecidableEq, Repr

/-- The output port (R61, R89, R90): its bit sequence and latch; `fails`, `failed` and `silent` as for `InPort`. -/
structure OutPort where
  bits   : Bits
  closed : Bool
  fails  : List Bool
  failed : Bool
  silent : Bool
  deriving DecidableEq, Repr

/-- The stages the commands are made of (R300 runs five of them in a row, R290 and R320 share the tree codec). -/
inductive Stage where
  | count | rewind | build | gencodes | writeTree | readTree
  deriving DecidableEq, Repr

/-- The position inside the running command's pseudocode (R31), with the pseudocode's local variables. Each
position is followed by at most one port transaction. -/
inductive Pos where
  /-- No command runs: BUSY = 0. -/
  | idle
  /-- Accepted (R152), before the prerequisite check (R153). -/
  | start
  /-- R190, the loop's `InRead(8)`. -/
  | countRead
  /-- R171 and R300, `InReset()`. -/
  | rewind
  /-- R210, the merge loop: next free slot `n`, and the selections made so far, newest first (R214). -/
  | merge (n : Nat) (picks : List Idx)
  /-- R240, `Walk` over the traversal stack. -/
  | walk
  /-- R290, `OutWrite(32, MAGIC)`. -/
  | putMagic
  /-- R260, `WriteTree`: the tag of the stack's top node. -/
  | writeTree
  /-- R260, `OutWrite(9, NODE[i].sym)`. -/
  | writeSym (i : Idx)
  /-- R271, `InRead(1)` of `ReadNode`, with the locals `n` and `leaves`. -/
  | readTag (n leaves : Nat)
  /-- R271, `InRead(9)` for slot `i`. -/
  | readSym (i : Idx) (n leaves : Nat)
  /-- R290, the body's `InRead(8)`. -/
  | encodeRead
  /-- R290, the `OutWrite` of `Emit(b)` for an input byte. -/
  | emit (b : BitVec 8)
  /-- R290, the `OutWrite` of `Emit(256)`. -/
  | emitEof
  /-- R320, `InRead(32)`. -/
  | getMagic
  /-- R320, the body's `InRead(1)`. -/
  | decodeRead
  /-- R320, `OutWrite(8, NODE[cur].sym)`. -/
  | putByte
  /-- The checked `OutClose()` of R172, R290 and R320. -/
  | close
  /-- The unchecked `OutClose()` of the failure epilogue (R356), with the error kind K. -/
  | failClose (k : ErrKind)
  /-- The end of a stage: what follows depends on the running command. -/
  | endOf (st : Stage)
  deriving DecidableEq, Repr

/-- What the host or the platform does (R7, R101): accesses of `size` bytes at a bus address; the polling of R125
(`wait`); hardware reset (R390); connecting a port (R393, R396). -/
inductive HostOp where
  | write (addr size : Nat) (v : Word)
  | read (addr size : Nat)
  | waitIdle
  | hardwareReset
  | plugIn (p : InPort)
  | plugOut (p : OutPort)
  deriving DecidableEq, Repr

/-- An event, and how many turns a running command takes before it (none where the core is idle). -/
structure HostEvent where
  wait : Nat
  op   : HostOp
  deriving DecidableEq, Repr

/-- The machine. -/
structure State where
  par        : Params
  ie         : Bool
  cmd        : Word
  done       : Bool
  fail       : Bool
  dropped    : Bool
  errcode    : Option ErrKind
  phase      : Phase
  treeValid  : Bool
  codesValid : Bool
  root       : Idx
  nnodes     : BitVec 10
  nleaves    : BitVec 9
  inBits     : Word
  outBits    : Word
  syms       : Word
  nodeSel    : BitVec 10
  codeSel    : BitVec 9
  hist       : Memory Word
  node       : Memory Node
  code       : Memory CodeEntry
  pq         : List Idx
  stack      : List Frame
  cur        : Idx
  pos        : Pos
  inp        : InPort
  out        : OutPort
  host       : List HostEvent
  reads      : List Word
  draws      : Nat
  deriving DecidableEq, Repr

/-- STATUS.BUSY (R33): 1 from the acceptance of a command until its epilogue ends. -/
def State.busy (s : State) : Bool := s.pos != .idle

/-- What stops the machine. -/
inductive Fault where
  /-- COUNT or COMPRESS meets a counter at 2^32 − 1 (R190, I3). The spec's own stop. Safe. -/
  | countOverflow
  /-- BUILD or COMPRESS meets a weight sum above 2^32 − 1 (R210, R221, I3). The spec's own stop. Safe. -/
  | weightOverflow
  /-- A tree walk of GENCODES, SERIALIZE, ENCODE, DECODE or COMPRESS reaches a node index at or above 513: NODE has
  no such slot (R51), and R52 rules it out wherever TREE_VALID = 1. Safe. -/
  | noSuchNode
  deriving DecidableEq, Repr

/-- What the model gives no step. -/
inductive Refusal where
  /-- An instruction without a meaning: no arm of `exec` answers it. Safe. -/
  | notModelled (mnemonic : String)
  /-- A host access that is no whole aligned 32-bit word (R82, I7). Raised by `step`. Safe. -/
  | notAlignedWord
  /-- A host access outside the 4 KiB register space (R80): no access to this core. Raised by `step`. Safe. -/
  | outsideRegisterSpace
  deriving DecidableEq, Repr

/-- What a step answers. -/
abbrev Result := Host.Outcome State Fault Refusal

/-- The input port that `State.reset` is connected to (DESIGN CHOICE, log 6: empty; the spec's ports are not reset). -/
def InPort.empty : InPort :=
  { bits := [], endless := none, pos := 0, eof := false, fails := [], failed := false, rewindable := true
    silent := false }

/-- The output port that `State.reset` is connected to (DESIGN CHOICE, log 6: empty and open). -/
def OutPort.empty : OutPort :=
  { bits := [], closed := false, fails := [], failed := false, silent := false }

/-- The machine right after reset (R62, R391), with unknown `MAGIC` and `TIE` (R9), `HUFF_BASE` 0 and
empty ports. DESIGN CHOICE (logs 2, 6, 13, 15, 16): `HUFF_BASE`, the ports, an unwritten NODE slot, the bits of an
invalid CODE entry and `cur`, unsafe. -/
def State.reset : State :=
  { par := { magic := Config.magic, tie := .implementationDefined, basePage := 0 }
    ie := false
    cmd := 0#32
    done := false
    fail := false
    dropped := false
    errcode := none
    phase := .idle
    treeValid := false
    codesValid := false
    root := Config.nil
    nnodes := 0#10
    nleaves := 0#9
    inBits := 0#32
    outBits := 0#32
    syms := 0#32
    nodeSel := 0#10
    codeSel := 0#9
    hist := []
    node := []
    code := []
    pq := []
    stack := []
    cur := 0#10
    pos := .idle
    inp := InPort.empty
    out := OutPort.empty
    host := []
    reads := []
    draws := 0 }

end Sys2Proof.Machine
end

