-- ==== Sys2Proof/Machine/Flags.lean ====
section
/-! DEFINITION. The fields of STATUS and how they read and are written (R33, R350, R362). -/

namespace Sys2Proof.Machine

/-- The PHASE encoding of R33. -/
def phaseCode : Phase → BitVec 4
  | .idle => 0x0#4
  | .counting => 0x1#4
  | .building => 0x2#4
  | .gencodes => 0x3#4
  | .serializing => 0x4#4
  | .headerMagic => 0x5#4
  | .traversingHeader => 0x6#4
  | .encodingBody => 0x7#4
  | .traversingBody => 0x8#4
  | .closing => 0x9#4
  | .inResetting => 0xA#4
  | .clearing => 0xB#4
  | .done => 0xE#4
  | .failed => 0xF#4

/-- The error codes of R350. -/
def errKindCode : ErrKind → BitVec 4
  | .unrecognizedFormat => 1#4
  | .corruptHeader => 2#4
  | .truncatedStream => 3#4
  | .portError => 4#4
  | .illegalCommand => 5#4
  | .notReady => 6#4
  | .uncodedSymbol => 7#4

/-- STATUS.ERRCODE (R33, R350). -/
def errcodeField : Option ErrKind → BitVec 4
  | none => 0#4
  | some k => errKindCode k

/-- The level of the interrupt output (R362). -/
def irq (s : State) : Bool := s.ie && (s.done || s.fail)

/-- A read of STATUS: the field layout of R33. -/
def statusWord (s : State) : Word :=
  (0#17 ++ BitVec.ofBool (irq s) ++ BitVec.ofBool s.codesValid ++ BitVec.ofBool s.treeValid ++ phaseCode s.phase
    ++ errcodeField s.errcode ++ BitVec.ofBool s.dropped ++ BitVec.ofBool s.fail ++ BitVec.ofBool s.done
    ++ BitVec.ofBool s.busy : BitVec 32)

/-- A write of STATUS (R33): DONE, FAIL and DROPPED are cleared by a 1, everything else ignores the write. -/
def writeStatus (v : Word) (s : State) : State :=
  { s with
    done := s.done && !v.getLsbD 1
    fail := s.fail && !v.getLsbD 2
    dropped := s.dropped && !v.getLsbD 3 }

/-- A read of CTRL (R34). -/
def ctrlWord (s : State) : Word := (0#31 ++ BitVec.ofBool s.ie : BitVec 32)

/-- A write of CTRL (R34). -/
def writeCtrl (v : Word) (s : State) : State := { s with ie := v.getLsbD 0 }

end Sys2Proof.Machine
end

