-- ==== Sys2Proof/Machine/Memory.lean ====
section
/-! DEFINITION. The operations over a memory of R50, R51 and R53 (HIST, NODE, CODE), and its canonical form: addresses
strictly rising and below the memory's size, and no entry equal to what an unlisted address holds. Equal memories
are equal lists. -/

namespace Sys2Proof.Machine

variable {α : Type} [DecidableEq α]

/-- Read cell `k`; a cell that is not listed holds `d`. -/
def Memory.get (d : α) : Memory α → Nat → α
  | [], _ => d
  | (j, v) :: m, k => if k = j then v else Memory.get d m k

/-- Write `v` to cell `k`. -/
def Memory.set (d : α) : Memory α → Nat → α → Memory α
  | [], k, v => if v = d then [] else [(k, v)]
  | (j, w) :: m, k, v =>
    if k < j then (if v = d then (j, w) :: m else (k, v) :: (j, w) :: m)
    else if k = j then (if v = d then m else (k, v) :: m)
    else (j, w) :: Memory.set d m k v

/-- The canonical form above the addresses below `lo`. -/
def Memory.wfFrom (d : α) (size : Nat) : Nat → Memory α → Bool
  | _, [] => true
  | lo, (j, v) :: m => decide (lo ≤ j) && decide (j < size) && decide (v ≠ d) && Memory.wfFrom d size (j + 1) m

/-- The canonical form of a memory of `size` cells. -/
def Memory.wf (d : α) (size : Nat) (m : Memory α) : Bool := Memory.wfFrom d size 0 m

end Sys2Proof.Machine
end

