-- ==== Sys2Proof/Machine/Ports.lean ====
section
/-! DEFINITION. Bit strings (R11) and the two bit-stream ports (R81, R85-R93) as the core sees them. -/

namespace Sys2Proof.Machine

/-- `bin_n(v mod 2^n)` of R11, R89: `n` bits of `v`, most significant first. -/
def bin : Nat → Nat → Bits
  | 0, _ => []
  | n + 1, v => v.testBit n :: bin n v

/-- `val(s)` of R11: the value of a bit string, most significant bit first. -/
def val (s : Bits) : Nat := s.foldl (fun a b => 2 * a + b.toNat) 0

/-- The answer to an InRead (R13, R86, R87). -/
inductive InAns where
  | val (v : Nat)
  | eof
  | ioErr
  deriving DecidableEq, Repr

/-- `environment_fails()` (R86, R88-R90): the draw for this request, and the draws still to come. -/
def drawFail : List Bool → Bool × List Bool
  | [] => (false, [])
  | b :: rest => (b, rest)

/-- Bits `k` to `k + m - 1` of the endless stream number `e`. -/
def streamed (e k m : Nat) : Bits := (List.range m).map fun j => Config.streamBit e (k + j)

/-- The next `n` bits of the port, if that many remain (R86); they always do where the port never ends. -/
def InPort.next (n : Nat) (p : InPort) : Option Bits :=
  let u := (p.bits.drop p.pos).take n
  match p.endless with
  | none => if p.pos + n ≤ p.bits.length then some u else none
  | some e => some (u ++ streamed e (p.pos + u.length) (n - u.length))

/-- Any state of the port whatever, at draw count `d` (I8; log 7). -/
def InPort.redraw (d : Nat) (p : InPort) : InPort :=
  { p with
    bits := Config.bitsAfterFailure d
    endless := Config.endlessAfterFailure d
    pos := Config.posAfterFailure d
    eof := Config.eofAfterFailure d
    rewindable := Config.rewindableAfterFailure d
    failed := true }

/-- The state in which a port serves a request: after an `IoErr` it is drawn anew for each, so that the answers
follow no law (I8; log 7). -/
def InPort.settle (d : Nat) (p : InPort) : InPort × Nat := if p.failed then (p.redraw d, d + 1) else (p, d)

/-- InRead(n) where the environment does not fail, R86. -/
def InPort.serve (n : Nat) (p : InPort) : InAns × InPort :=
  if p.eof then (.eof, p)
  else
    match p.next n with
    | some u => (.val (val u), { p with pos := p.pos + n })
    | none => (.eof, { p with eof := true })

/-- InRead(n), R86, with the draw count before and after. After an `IoErr` the port's state is any value: R86's
"port state unchanged" is one of them, and I8 and R410 fix none (log 7). -/
def InPort.read (n d : Nat) (p : InPort) : InAns × InPort × Nat :=
  let q := { p with fails := (drawFail p.fails).2 }
  if (drawFail p.fails).1 then (.ioErr, q.redraw d, d + 1)
  else (((q.settle d).1.serve n).1, ((q.settle d).1.serve n).2, (q.settle d).2)

/-- InReset(), R88, with the draw count before and after; `true` is `Ok`, `false` is `IoErr`. After an `IoErr` the
port's state is any value (I8; log 7). -/
def InPort.rewind (d : Nat) (p : InPort) : Bool × InPort × Nat :=
  let q := { p with fails := (drawFail p.fails).2 }
  if (drawFail p.fails).1 then (false, q.redraw d, d + 1)
  else
    let r := q.settle d
    if r.1.rewindable then (true, { r.1 with pos := 0, eof := false }, r.2) else (false, r.1.redraw r.2, r.2 + 1)

/-- Any state of the latch whatever, at draw count `d` (I8, I10; log 7). The bits accepted stay (R89). -/
def OutPort.redraw (d : Nat) (p : OutPort) : OutPort :=
  { p with closed := Config.closedAfterFailure d, failed := true }

/-- The state in which a sink serves a request, as for `InPort.settle`. -/
def OutPort.settle (d : Nat) (p : OutPort) : OutPort × Nat := if p.failed then (p.redraw d, d + 1) else (p, d)

/-- OutWrite(n, v), R89, with the draw count before and after. R89 says that an environment failure leaves the bits
as they are; the closed latch is then any value (I8; log 7). -/
def OutPort.write (n v d : Nat) (p : OutPort) : Bool × OutPort × Nat :=
  let q := { p with fails := (drawFail p.fails).2 }
  if (drawFail p.fails).1 then (false, q.redraw d, d + 1)
  else
    let r := q.settle d
    if r.1.closed then (false, r.1, r.2) else (true, { r.1 with bits := r.1.bits ++ bin n v }, r.2)

/-- The number of padding bits of R90. -/
def padCount (bits : Bits) : Nat := (8 - bits.length % 8) % 8

/-- `k` padding bits, drawn from count `d` on (R90 `PAD`). -/
def padding (d k : Nat) : Bits := (List.range k).map fun j => Config.padBit (d + j)

/-- OutClose(), R90, with the draw count before and after. On an `IoErr` the sink is closed or not, and padded or
not, as two draws say (I10; log 11); a sink closed before gets no padding. -/
def OutPort.close (d : Nat) (p : OutPort) : Bool × OutPort × Nat :=
  let r := OutPort.settle d { p with fails := (drawFail p.fails).2 }
  let k := if r.1.closed then 0 else padCount r.1.bits
  if (drawFail p.fails).1 then
    (false,
      OutPort.redraw r.2 { r.1 with
        bits := if Config.paddedAfterFailure r.2 then r.1.bits ++ padding (r.2 + 1) k else r.1.bits },
      r.2 + 1 + k)
  else (true, { r.1 with bits := r.1.bits ++ padding r.2 k, closed := true }, r.2 + k)

/-- R91: the bits of a medium's bytes, the first stream bit the most significant bit of the first byte. -/
def bitsOfBytes (bytes : List Nat) : Bits := bytes.flatMap (bin 8)

/-- R91: the whole bytes of a bit string, a trailing group of fewer than 8 bits left out. -/
def bytesOfBits : Bits → List Nat
  | a :: b :: c :: d :: e :: f :: g :: h :: rest => val [a, b, c, d, e, f, g, h] :: bytesOfBits rest
  | _ => []

end Sys2Proof.Machine
end

