-- ==== Sys2Proof/Machine/Operands.lean ====
section
/-! DEFINITION. What a command reads: it has no operand fields (R121), only fixed state, so this file holds the cells
of HIST, NODE and CODE, the running command and its prerequisites, and the host's view of all of it: the register
map (R32) and the windows (R42-R46). -/

namespace Sys2Proof.Machine

/-- A NODE slot that no command has written (R51: contents unspecified; DESIGN CHOICE, log 13). -/
def Node.blank : Node := { leaf := false, sym := 0#9, left := 0#10, right := 0#10, weight := 0#32 }

/-- An invalid CODE entry (R53; DESIGN CHOICE, log 15). -/
def CodeEntry.invalid : CodeEntry := { valid := false, bits := [] }

/-- `HIST[c]` (R50). -/
def State.histAt (s : State) (c : Nat) : Word := Memory.get 0#32 s.hist c

/-- `NODE[i]` (R51). -/
def State.nodeAt (s : State) (i : Idx) : Node := Memory.get Node.blank s.node i.toNat

/-- `CODE[c]` (R53). -/
def State.codeAt (s : State) (c : Nat) : CodeEntry := Memory.get CodeEntry.invalid s.code c

/-- `HIST[c] <- v` (R50). -/
def State.setHist (c : Nat) (v : Word) (s : State) : State := { s with hist := Memory.set 0#32 s.hist c v }

/-- `NODE[i] <- v` (R51). -/
def State.setNode (i : Idx) (v : Node) (s : State) : State := { s with node := Memory.set Node.blank s.node i.toNat v }

/-- `CODE[c] <- v` (R53). -/
def State.setCode (c : Nat) (v : CodeEntry) (s : State) : State :=
  { s with code := Memory.set CodeEntry.invalid s.code c v }

/-- The running command: the one that the last accepted word carries (R151, R152). -/
def running (s : State) : Instr := decode s.cmd

/-- `closes_output(command)` of R357, for a command past its prerequisite check. -/
def closesOutput : Instr → Bool
  | .encode | .decode | .compress => true
  | .nop | .count | .build | .gencodes | .serialize | .deserialize | .inreset | .outclose | .clear
  | .illegalOp _ | .illegalRes _ _ => false

/-- The prerequisites of R153. -/
def ready (i : Instr) (s : State) : Bool :=
  match i with
  | .gencodes | .serialize => s.treeValid
  | .encode => s.treeValid && s.codesValid
  | .nop | .count | .build | .deserialize | .decode | .compress | .inreset | .outclose | .clear
  | .illegalOp _ | .illegalRes _ _ => true

/-- The registers of R32. -/
inductive Reg where
  | id | ctrl | cmd | status | magic | root | nnodes | nleaves | inBits | outBits | syms | nodeSel | nodeInfo
  | nodeWeight | codeSel | codeLen
  | codeWord (k : Nat)
  | hist (c : Nat)
  | reserved
  deriving DecidableEq, Repr

/-- The register map of R32, for an aligned offset. -/
def regAt (off : Nat) : Reg :=
  if off = 0x000 then .id
  else if off = 0x004 then .ctrl
  else if off = 0x008 then .cmd
  else if off = 0x00C then .status
  else if off = 0x010 then .magic
  else if off = 0x014 then .root
  else if off = 0x018 then .nnodes
  else if off = 0x01C then .nleaves
  else if off = 0x020 then .inBits
  else if off = 0x024 then .outBits
  else if off = 0x028 then .syms
  else if off = 0x02C then .nodeSel
  else if off = 0x030 then .nodeInfo
  else if off = 0x034 then .nodeWeight
  else if off = 0x038 then .codeSel
  else if off = 0x03C then .codeLen
  else if 0x040 ≤ off ∧ off < 0x060 then .codeWord ((off - 0x040) / 4)
  else if 0x400 ≤ off ∧ off < 0x800 then .hist ((off - 0x400) / 4)
  else .reserved

/-- The base address of the register space, `HUFF_BASE` (R80: 4 KiB aligned). -/
def State.base (s : State) : Nat := 4096 * s.par.basePage

/-- The register an access reaches: only whole aligned 32-bit words of the register space are accesses (R80, R82). -/
def target (s : State) (addr size : Nat) : Except Refusal Reg :=
  if s.base ≤ addr ∧ addr < s.base + 4096 then
    if size = 4 ∧ addr % 4 = 0 then .ok (regAt (addr - s.base)) else .error .notAlignedWord
  else .error .outsideRegisterSpace

/-- NODE_INFO, R42. -/
def nodeInfoWord (s : State) : Word :=
  if s.nodeSel < s.nnodes then
    if (s.nodeAt s.nodeSel).leaf then
      (1#1 ++ 1#1 ++ Config.nil ++ Config.nil ++ 0#1 ++ (s.nodeAt s.nodeSel).sym : BitVec 32)
    else
      (1#1 ++ 0#1 ++ (s.nodeAt s.nodeSel).right ++ (s.nodeAt s.nodeSel).left ++ 0#10 : BitVec 32)
  else 0#32

/-- NODE_WEIGHT, R43. -/
def nodeWeightWord (s : State) : Word :=
  if s.nodeSel < s.nnodes then (s.nodeAt s.nodeSel).weight else 0#32

/-- The entry that CODE_SEL selects; 257..511 select none (R44). -/
def selectedCode (s : State) : CodeEntry :=
  if s.codeSel.toNat ≤ 256 then s.codeAt s.codeSel.toNat else CodeEntry.invalid

/-- CODE_LEN, R45. -/
def codeLenWord (s : State) : Word :=
  if (selectedCode s).valid then (1#1 ++ 0#22 ++ BitVec.ofNat 9 (selectedCode s).len : BitVec 32) else 0#32

/-- CODE_WORDk, R46: the code's bits 32k..32k+31, left-aligned. -/
def codeWordK (k : Nat) (s : State) : Word :=
  if (selectedCode s).valid then
    let c := ((selectedCode s).bits.drop (32 * k)).take 32
    BitVec.ofNat 32 (val (c ++ List.replicate (32 - c.length) false))
  else 0#32

/-- The current value of a register (R32); at BUSY = 1 the windows answer a draw instead (`isWindow`). -/
def regValue (s : State) : Reg → Word
  | .id => Config.idValue
  | .ctrl => ctrlWord s
  | .cmd => s.cmd
  | .status => statusWord s
  | .magic => s.par.magic
  | .root => s.root.setWidth 32
  | .nnodes => s.nnodes.setWidth 32
  | .nleaves => s.nleaves.setWidth 32
  | .inBits => s.inBits
  | .outBits => s.outBits
  | .syms => s.syms
  | .nodeSel => s.nodeSel.setWidth 32
  | .nodeInfo => nodeInfoWord s
  | .nodeWeight => nodeWeightWord s
  | .codeSel => s.codeSel.setWidth 32
  | .codeLen => codeLenWord s
  | .codeWord k => codeWordK k s
  | .hist c => s.histAt c
  | .reserved => 0#32

/-- The registers whose read is unspecified while BUSY = 1 (R105). -/
def isWindow : Reg → Bool
  | .hist _ | .nodeInfo | .nodeWeight | .codeLen | .codeWord _ => true
  | .id | .ctrl | .cmd | .status | .magic | .root | .nnodes | .nleaves | .inBits | .outBits | .syms | .nodeSel
  | .codeSel | .reserved => false

end Sys2Proof.Machine
end

