-- ==== Sys2Proof/Machine/Ops.lean ====
section
/-! DEFINITION. The operations every command shares: acceptance (R152), the success epilogue (R160), raising an error
and the failure epilogue (R356-R358, this core's only way of taking an exception; R361: there is no return from it,
the host issues the next command), the port transactions with their counters (R38, R39), and hardware reset
(R390). -/

namespace Sys2Proof.Machine

/-- Sequencing: the next turn after one that answered a next state. -/
def andThen (r : Result) (f : State → Result) : Result :=
  match r with
  | .next s => f s
  | .fault e => .fault e
  | .refused e => .refused e

/-- Move to another position of the pseudocode (R31). -/
def State.goto (p : Pos) (s : State) : State := { s with pos := p }

/-- `PHASE <- p` (R154). -/
def State.setPhase (p : Phase) (s : State) : State := { s with phase := p }

/-- Acceptance of command word `w`, one atomic step with the CMD write (R152). -/
def accept (w : Word) (s : State) : State :=
  { s with
    cmd := w
    pos := .start
    done := false
    fail := false
    errcode := none
    inBits := 0#32
    outBits := 0#32
    syms := 0#32 }

/-- The success epilogue, `finish` (R160). The traversal stack and PQ are empty outside their commands (R57, R58). -/
def finish (s : State) : State :=
  { s with phase := .done, done := true, pos := .idle, stack := [], pq := [] }

/-- The last line of the failure epilogue (R356). -/
def failWith (k : ErrKind) (s : State) : State :=
  { s with errcode := some k, fail := true, phase := .failed, pos := .idle, stack := [], pq := [] }

/-- `raise Error(K)` (R356, R357): a command that closes the output does so first. -/
def raise (k : ErrKind) (s : State) : State :=
  if closesOutput (running s) then { s with phase := .closing, pos := .failClose k } else failWith k s

/-- What BUILD, a tree read and CLEAR begin with (R210, R271, R173; R55, R56). -/
def clearTree (s : State) : State :=
  { s with treeValid := false, codesValid := false, root := Config.nil, nnodes := 0#10, nleaves := 0#9 }

/-- A host write that is dropped because BUSY = 1 (R104). -/
def dropWrite (s : State) : State := { s with dropped := true }

/-- IN_BITS after an answer to `InRead(n)`: only `Val` counts (R38). -/
def countIn (n : Nat) (r : InAns) (c : Word) : Word :=
  match r with
  | .val _ => c + BitVec.ofNat 32 n
  | .eof => c
  | .ioErr => c

/-- InRead(n) as a transaction of the running command (R86, R38). -/
def inRead (n : Nat) (s : State) : InAns × State :=
  ((s.inp.read n s.draws).1,
    { s with
      inp := (s.inp.read n s.draws).2.1
      draws := (s.inp.read n s.draws).2.2
      inBits := countIn n (s.inp.read n s.draws).1 s.inBits })

/-- InReset() (R88). -/
def inReset (s : State) : Bool × State :=
  ((s.inp.rewind s.draws).1, { s with inp := (s.inp.rewind s.draws).2.1, draws := (s.inp.rewind s.draws).2.2 })

/-- OutWrite(n, v) (R89, R39). -/
def outWrite (n v : Nat) (s : State) : Bool × State :=
  ((s.out.write n v s.draws).1,
    { s with
      out := (s.out.write n v s.draws).2.1
      draws := (s.out.write n v s.draws).2.2
      outBits := if (s.out.write n v s.draws).1 then s.outBits + BitVec.ofNat 32 n else s.outBits })

/-- OutClose() (R90); padding is not counted in OUT_BITS (R39). -/
def outClose (s : State) : Bool × State :=
  ((s.out.close s.draws).1, { s with out := (s.out.close s.draws).2.1, draws := (s.out.close s.draws).2.2 })

/-- Use `NODE[i]`; an index at or above 513 names no slot (R51). -/
def withNode (i : Idx) (s : State) (k : Node → Result) : Result :=
  if i.toNat < Config.nodeCap then k (s.nodeAt i) else .fault .noSuchNode

/-- SYMS after one more symbol (R40). -/
def State.countSym (s : State) : State := { s with syms := s.syms + 1#32 }

/-- Hardware reset (R390): all core state takes its reset value (R62); the ports, the parameters and what the host
holds stay. -/
def hardwareReset (s : State) : State :=
  { State.reset with
    par := s.par
    inp := s.inp
    out := s.out
    host := s.host
    reads := s.reads
    draws := s.draws }

end Sys2Proof.Machine
end

