-- ==== Sys2Proof/Machine/Build.lean ====
section
/-! DEFINITION. The Huffman tree builder (spec/42_tree_builder.md R210), with its selection by the parameter `TIE`
(R214). -/

namespace Sys2Proof.Machine

/-- The leaves of R210 and R211, in slot order (R220): each byte value of non-zero count, then EOF_SYM of weight 1. -/
def leafList (s : State) : List (Sym × Word) :=
  (List.range 256).filterMap (fun c => if s.histAt c ≠ 0#32 then some (BitVec.ofNat 9 c, s.histAt c) else none)
    ++ [(Config.eofSym, 1#32)]

/-- `NODE[n] <- {leaf 1, sym, weight}` for consecutive slots from `n` on; `left` and `right`, not meaningful in a
leaf (R51), keep their bits. -/
def placeLeaves : Nat → List (Sym × Word) → State → State
  | _, [], s => s
  | n, (c, w) :: rest, s =>
    let i := BitVec.ofNat 10 n
    placeLeaves (n + 1) rest (s.setNode i { s.nodeAt i with leaf := true, sym := c, weight := w })

/-- R210 up to the merge loop. -/
def beginBuild (s : State) : State :=
  let leaves := leafList s
  let t := placeLeaves 0 leaves (clearTree (s.setPhase .building))
  { t with
    pq := (List.range leaves.length).map (BitVec.ofNat 10)
    nleaves := BitVec.ofNat 9 leaves.length
    pos := .merge leaves.length [] }

/-- The weight of a slot, as the number it is. -/
def State.weightAt (s : State) (i : Idx) : Nat := (s.nodeAt i).weight.toNat

/-- The minimum weight of a set of node indices (R214); 2^32, above every weight, for the empty set. -/
def minWeight (s : State) (p : List Idx) : Nat := p.foldr (fun i m => min (s.weightAt i) m) (Config.maxCount + 1)

/-- The elements of `p` whose weight is `w`. -/
def ofWeight (s : State) (p : List Idx) (w : Nat) : List Idx := p.filter fun i => s.weightAt i == w

/-- The minimum-weight elements of a set of node indices (R214). -/
def lightest (s : State) (p : List Idx) : List Idx := ofWeight s p (minWeight s p)

/-- `TIE(P)` of R214, for P listed in ascending order; `picks` are the selections already made. -/
def select (s : State) (picks p : List Idx) : Idx :=
  match s.par.tie with
  | .lowestIndex => (lightest s p).headD Config.nil
  | .highestIndex => (lightest s p).getLastD Config.nil
  | .implementationDefined =>
    (lightest s p).getD (Config.tieChoice s.hist picks % (lightest s p).length) Config.nil

/-- `NODE[n] <- {leaf 0, left a, right b, weight}` and `PQ <- PQ ∪ {n}` of R210 and R215, where `rest` is PQ without
`a` and `b`; `sym`, not meaningful in an internal node (R51), keeps its bits. -/
def mergeNodes (n : Nat) (picks : List Idx) (a b : Idx) (rest : List Idx) (s : State) : State :=
  let i := BitVec.ofNat 10 n
  { s.setNode i { s.nodeAt i with
        leaf := false, left := a, right := b, weight := (s.nodeAt a).weight + (s.nodeAt b).weight } with
    pq := rest ++ [i]
    pos := .merge (n + 1) (b :: a :: picks) }

/-- The end of R210: the single element of PQ is the root. -/
def buildDone (n : Nat) (s : State) : State :=
  { s with
    root := s.pq.headD Config.nil
    pq := []
    nnodes := BitVec.ofNat 10 n
    treeValid := true
    pos := .endOf .build }

/-- One pass of the `while` of R210. -/
def mergeTurn (n : Nat) (picks : List Idx) (s : State) : Result :=
  if 1 < s.pq.length then
    let a := select s picks s.pq
    let p := s.pq.erase a
    let b := select s (a :: picks) p
    if Config.maxCount < s.weightAt a + s.weightAt b then .fault .weightOverflow
    else .next (mergeNodes n picks a b (p.erase b) s)
  else .next (buildDone n s)

end Sys2Proof.Machine
end

