-- ==== Sys2Proof/Machine/Control.lean ====
section
/-! DEFINITION. The pseudocode of the control commands NOP, INRESET, OUTCLOSE, CLEAR and of illegal words
(spec/40_command_execution.md R170-R174), and the two forms of OutClose every command shares (R161, R356). -/

namespace Sys2Proof.Machine

/-- NOP, R170. -/
def beginNop (s : State) : State := finish s

/-- INRESET, R171, up to its port transaction. -/
def beginInreset (s : State) : State := (s.setPhase .inResetting).goto .rewind

/-- OUTCLOSE, R172, up to its port transaction. -/
def beginOutclose (s : State) : State := (s.setPhase .closing).goto .close

/-- CLEAR, R173. DESIGN CHOICE, log 27: its pseudocode, which makes no port transaction, is one turn, as R155 allows,
so no state of a run shows `PHASE` = CLEARING. -/
def beginClear (s : State) : State :=
  finish { clearTree (s.setPhase .clearing) with hist := [], code := [] }

/-- An illegal word, R174. -/
def beginIllegal (s : State) : State := raise .illegalCommand s

/-- `r <- InReset(); check(r)` of R171 and R300. -/
def rewindTurn (s : State) : Result :=
  if (inReset s).1 then .next ((inReset s).2.goto (.endOf .rewind)) else .next (raise .portError (inReset s).2)

/-- The checked `OutClose()` that ends OUTCLOSE, ENCODE, DECODE and COMPRESS; a failure of it is not retried
(R357 `raised_by_OutClose`). -/
def closeTurn (s : State) : Result :=
  if (outClose s).1 then .next (finish (outClose s).2) else .next (failWith .portError (outClose s).2)

/-- The `OutClose()` of the failure epilogue: its answer is ignored (R356, R358). -/
def failCloseTurn (k : ErrKind) (s : State) : Result := .next (failWith k (outClose s).2)

end Sys2Proof.Machine
end

