-- ==== Sys2Proof/Machine/Count.lean ====
section
/-! DEFINITION. The frequency counter (spec/41_frequency_counter.md R190), also the first pass of COMPRESS (R300). -/

namespace Sys2Proof.Machine

/-- R190 up to the loop: `PHASE <- COUNTING` and every counter set to 0. -/
def beginCount (s : State) : State := { s.setPhase .counting with hist := [], pos := .countRead }

/-- `HIST[b] <- HIST[b] + 1` and, but for COMPRESS, `SYMS <- SYMS + 1` (R190, R300, R40). -/
def countByte (b : Nat) (s : State) : State :=
  let t := s.setHist b (s.histAt b + 1#32)
  if running s = .compress then t else t.countSym

/-- One pass of the loop of R190. -/
def countReadTurn (s : State) : Result :=
  match (inRead 8 s).1 with
  | .eof => .next ((inRead 8 s).2.goto (.endOf .count))
  | .ioErr => .next (raise .portError (inRead 8 s).2)
  | .val b =>
    if (s.histAt b).toNat = Config.maxCount then .fault .countOverflow else .next (countByte b (inRead 8 s).2)

end Sys2Proof.Machine
end

