-- ==== Sys2Proof/Machine/TreeCodec.lean ====
section
/-! DEFINITION. The tree serializer and deserializer (spec/44_tree_codec.md): `WriteTree` (R260) and `ReadTree`
(R271), each over the traversal stack (R58). -/

namespace Sys2Proof.Machine

/-- `WriteTree(ROOT)` begins (R260, R290). -/
def beginWriteTree (s : State) : State :=
  { s.setPhase .serializing with stack := [{ idx := s.root, path := [], leftDone := false }], pos := .writeTree }

/-- SERIALIZE, R260. -/
def beginSerialize (s : State) : State := beginWriteTree s

/-- `check(OutWrite(n, v))`, then go on with `k` (R14). -/
def checkWrite (n v : Nat) (s : State) (k : State → State) : Result :=
  if (outWrite n v s).1 then .next (k (outWrite n v s).2) else .next (raise .portError (outWrite n v s).2)

/-- One call of `WriteTree(i)` of R260 up to its first transaction's answer: the tag of the top node. -/
def writeTreeTurn (s : State) : Result :=
  match s.stack with
  | [] => .next (s.goto (.endOf .writeTree))
  | f :: rest =>
    withNode f.idx s fun nd =>
      if nd.leaf then checkWrite 1 1 s fun t => { t with stack := rest, pos := .writeSym f.idx }
      else
        checkWrite 1 0 s fun t =>
          { t with
            stack := { idx := nd.left, path := [], leftDone := false }
              :: { idx := nd.right, path := [], leftDone := false } :: rest }

/-- `check(OutWrite(9, NODE[i].sym))` of R260. -/
def writeSymTurn (i : Idx) (s : State) : Result :=
  withNode i s fun nd => checkWrite 9 nd.sym.toNat s fun t => t.goto .writeTree

/-- `ReadTree()` up to its first tag (R271). -/
def beginReadTree (s : State) : State :=
  { clearTree (s.setPhase .traversingHeader) with stack := [], pos := .readTag 0 0 }

/-- DESERIALIZE, R270. -/
def beginDeserialize (s : State) : State := beginReadTree s

/-- `return i` of `ReadNode` (R271): the waiting callers, innermost first, take `i` as their left or right child;
a caller whose left child it is goes on to read its right one; with no caller left the tree is complete. -/
def returnNode (n leaves : Nat) : List Frame → Idx → State → State
  | [], i, s =>
    { s with
      root := i
      nnodes := BitVec.ofNat 10 n
      nleaves := BitVec.ofNat 9 leaves
      treeValid := true
      stack := []
      pos := .endOf .readTree }
  | f :: rest, i, s =>
    if f.leftDone then returnNode n leaves rest f.idx (s.setNode f.idx { s.nodeAt f.idx with right := i })
    else
      { s.setNode f.idx { s.nodeAt f.idx with left := i } with
        stack := { f with leftDone := true } :: rest
        pos := .readTag n leaves }

/-- `ReadNode` after a tag bit `Val(v)` (R271): slot `n` is taken, and 0 begins an internal node, 1 a leaf. -/
def tagRead (v n leaves : Nat) (s : State) : State :=
  if n = Config.nodeCap then raise .corruptHeader s
  else
    let i := BitVec.ofNat 10 n
    if v = 0 then
      { s.setNode i { s.nodeAt i with leaf := false, weight := 0#32 } with
        stack := { idx := i, path := [], leftDone := false } :: s.stack
        pos := .readTag (n + 1) leaves }
    else s.goto (.readSym i (n + 1) leaves)

/-- `r <- InRead(1)` of `ReadNode` (R271). -/
def readTagTurn (n leaves : Nat) (s : State) : Result :=
  match (inRead 1 s).1 with
  | .eof => .next (raise .corruptHeader (inRead 1 s).2)
  | .ioErr => .next (raise .portError (inRead 1 s).2)
  | .val v => .next (tagRead v n leaves (inRead 1 s).2)

/-- `q <- InRead(9)` of `ReadNode`, the leaf it makes, and its `return i` (R271). -/
def readSymTurn (i : Idx) (n leaves : Nat) (s : State) : Result :=
  match (inRead 9 s).1 with
  | .eof => .next (raise .corruptHeader (inRead 9 s).2)
  | .ioErr => .next (raise .portError (inRead 9 s).2)
  | .val v =>
    let t := (inRead 9 s).2
    .next (returnNode n (leaves + 1) t.stack i
      (t.setNode i { t.nodeAt i with leaf := true, sym := BitVec.ofNat 9 v, weight := 0#32 }))

end Sys2Proof.Machine
end

