-- ==== Sys2Proof/Machine/Encoder.lean ====
section
/-! DEFINITION. The streaming encoder (spec/45_encoder.md R290), also the last stage of COMPRESS (R300). -/

namespace Sys2Proof.Machine

/-- R290 from `PHASE <- HEADER_MAGIC` on. -/
def beginEncode (s : State) : State := (s.setPhase .headerMagic).goto .putMagic

/-- Step 1 of R290: `check(OutWrite(32, MAGIC))`, and then step 2 begins. -/
def putMagicTurn (s : State) : Result := checkWrite 32 s.par.magic.toNat s beginWriteTree

/-- Step 3 of R290 begins. -/
def beginBody (s : State) : State := (s.setPhase .encodingBody).goto .encodeRead

/-- `Emit(c)` of R290 for an entry of positive length: `check(OutWrite(CODE[c].len, val(CODE[c].bits)))`. -/
def emitCode (c : Nat) (s : State) (k : State → State) : Result :=
  checkWrite (s.codeAt c).len (val (s.codeAt c).bits) s k

/-- The close of R290 and R320 begins. -/
def beginClose (s : State) : State := (s.setPhase .closing).goto .close

/-- Step 4 of R290: the terminator; a zero-length code issues no transaction (R292). -/
def terminator (s : State) : State :=
  if (s.codeAt 256).valid then
    if 0 < (s.codeAt 256).len then s.goto .emitEof else beginClose s
  else raise .uncodedSymbol s

/-- An input byte `b` in step 3 of R290; a zero-length code issues no transaction (R292). -/
def encodeByte (b : Nat) (s : State) : State :=
  if (s.codeAt b).valid then
    if 0 < (s.codeAt b).len then s.goto (.emit (BitVec.ofNat 8 b)) else s.countSym
  else raise .uncodedSymbol s

/-- One pass of the loop of R290. -/
def encodeReadTurn (s : State) : Result :=
  match (inRead 8 s).1 with
  | .eof => .next (terminator (inRead 8 s).2)
  | .ioErr => .next (raise .portError (inRead 8 s).2)
  | .val b => .next (encodeByte b (inRead 8 s).2)

/-- `Emit(b)`, then `SYMS <- SYMS + 1` (R290). -/
def emitTurn (b : BitVec 8) (s : State) : Result := emitCode b.toNat s fun t => t.countSym.goto .encodeRead

/-- `Emit(256)`, then step 5 begins (R290). -/
def emitEofTurn (s : State) : Result := emitCode 256 s beginClose

end Sys2Proof.Machine
end

