-- ==== Sys2Proof/Machine/Decoder.lean ====
section
/-! DEFINITION. The streaming decoder (spec/46_decoder.md R320). -/

namespace Sys2Proof.Machine

/-- R320 up to its first transaction. -/
def beginDecode (s : State) : State := (s.setPhase .headerMagic).goto .getMagic

/-- Step 1 of R320: the magic check; `Eof` equals no `Val(MAGIC)` (R87, R321). -/
def getMagicTurn (s : State) : Result :=
  match (inRead 32 s).1 with
  | .ioErr => .next (raise .portError (inRead 32 s).2)
  | .eof => .next (raise .unrecognizedFormat (inRead 32 s).2)
  | .val v =>
    if v = s.par.magic.toNat then .next (beginReadTree (inRead 32 s).2)
    else .next (raise .unrecognizedFormat (inRead 32 s).2)

/-- Step 3 of R320 begins: the cursor at the root, and the one-leaf tree (R326). DESIGN CHOICE, log 27: for a one-leaf
tree this and what `PHASE` becomes next are one turn, as R155 allows, so no state of a run shows TRAVERSING_BODY. -/
def beginWalkBody (s : State) : Result :=
  let t := { s.setPhase .traversingBody with cur := s.root }
  withNode s.root s fun nd =>
    if nd.leaf then
      if nd.sym = Config.eofSym then .next (beginClose t) else .next (raise .corruptHeader t)
    else .next (t.goto .decodeRead)

/-- The cursor has moved to `i` (R320): an EOF_SYM leaf ends the loop, another leaf's symbol is to be written. -/
def arriveAt (i : Idx) (s : State) : Result :=
  let t := { s with cur := i }
  withNode i t fun nd =>
    if nd.leaf then
      if nd.sym = Config.eofSym then .next (beginClose t) else .next (t.goto .putByte)
    else .next (t.goto .decodeRead)

/-- One bit of the loop of R320: bit 0 selects the left child, bit 1 the right one. -/
def decodeReadTurn (s : State) : Result :=
  match (inRead 1 s).1 with
  | .eof => .next (raise .truncatedStream (inRead 1 s).2)
  | .ioErr => .next (raise .portError (inRead 1 s).2)
  | .val v =>
    withNode s.cur s fun nd => arriveAt (if v = 0 then nd.left else nd.right) (inRead 1 s).2

/-- `check(OutWrite(8, NODE[cur].sym))` (R320; the low 8 bits of the symbol, R324), and back to the root. -/
def putByteTurn (s : State) : Result :=
  withNode s.cur s fun nd =>
    checkWrite 8 nd.sym.toNat s fun t => { t.countSym with cur := t.root, pos := .decodeRead }

end Sys2Proof.Machine
end

