-- ==== Sys2Proof/Machine/Gencodes.lean ====
section
/-! DEFINITION. The code-table generator (spec/43_code_table.md R240), its walk over an explicit stack (R58). -/

namespace Sys2Proof.Machine

/-- R240 up to the walk. -/
def beginGencodes (s : State) : State :=
  { s.setPhase .gencodes with
    codesValid := false
    code := []
    stack := [{ idx := s.root, path := [], leftDone := false }]
    pos := .walk }

/-- `Walk` at a leaf of symbol `c` with path `p` (R240, R243). -/
def recordCode (c : Sym) (p : Bits) (s : State) : State :=
  if c.toNat ≤ 256 then s.setCode c.toNat { valid := true, bits := p } else s

/-- One call of `Walk(i, p)` of R240: the left subtree's call is on top of the right one's. -/
def walkTurn (s : State) : Result :=
  match s.stack with
  | [] => .next { s with codesValid := true, pos := .endOf .gencodes }
  | f :: rest =>
    withNode f.idx s fun nd =>
      if nd.leaf then .next (recordCode nd.sym f.path { s with stack := rest })
      else
        .next { s with
          stack := { idx := nd.left, path := f.path ++ [false], leftDone := false }
            :: { idx := nd.right, path := f.path ++ [true], leftDone := false } :: rest }

end Sys2Proof.Machine
end

