-- ==== Sys2Proof/Machine/Sequencer.lean ====
section
/-! DEFINITION. The core sequencer (R7, R31, R103, R151): one turn runs one straight piece of the running command's
pseudocode, with at most one port transaction; `run` gives turns until the command ends or the host acts. -/

namespace Sys2Proof.Machine

/-- The first piece of each command's pseudocode (R151). -/
def beginCommand (i : Instr) (s : State) : State :=
  match i with
  | .nop => beginNop s
  | .count => beginCount s
  | .build => beginBuild s
  | .gencodes => beginGencodes s
  | .serialize => beginSerialize s
  | .deserialize => beginDeserialize s
  | .encode => beginEncode s
  | .decode => beginDecode s
  | .compress => beginCount s
  | .inreset => beginInreset s
  | .outclose => beginOutclose s
  | .clear => beginClear s
  | .illegalOp _ => beginIllegal s
  | .illegalRes _ _ => beginIllegal s

/-- R151, R153: the prerequisite check comes first; a failed one closes nothing (R357). -/
def startTurn (s : State) : Result :=
  if ready (running s) s then .next (beginCommand (running s) s) else .next (failWith .notReady s)

/-- What follows a stage: COMPRESS goes on to its next stage (R300), WriteTree is part of SERIALIZE or of an
encoding (R260, R290), ReadTree of DESERIALIZE or of DECODE (R270, R320). -/
def endOfTurn (st : Stage) (s : State) : Result :=
  match st with
  | .count => .next (if running s = .compress then beginInreset s else finish s)
  | .rewind => .next (if running s = .compress then beginBuild s else finish s)
  | .build => .next (if running s = .compress then beginGencodes s else finish s)
  | .gencodes => .next (if running s = .compress then beginEncode s else finish s)
  | .writeTree => .next (if running s = .serialize then finish s else beginBody s)
  | .readTree => if running s = .decode then beginWalkBody s else .next (finish s)

/-- Whether a position's piece is a transaction of the input port. -/
def asksInput : Pos → Bool
  | .countRead | .rewind | .readTag _ _ | .readSym _ _ _ | .encodeRead | .getMagic | .decodeRead => true
  | .idle | .start | .merge _ _ | .walk | .putMagic | .writeTree | .writeSym _ | .emit _ | .emitEof | .putByte
  | .close | .failClose _ | .endOf _ => false

/-- Whether a position's piece is a transaction of the output port. -/
def asksOutput (s : State) : Bool :=
  match s.pos with
  | .writeTree => !s.stack.isEmpty
  | .putMagic | .writeSym _ | .emit _ | .emitEof | .putByte | .close | .failClose _ => true
  | .idle | .start | .countRead | .rewind | .merge _ _ | .walk | .readTag _ _ | .readSym _ _ _ | .encodeRead
  | .getMagic | .decodeRead | .endOf _ => false

/-- The core waits for a port that does not answer (R93, R370, I9). -/
def waiting (s : State) : Bool := (asksInput s.pos && s.inp.silent) || (asksOutput s && s.out.silent)

/-- The piece of pseudocode at the current position. -/
def pieceAt (s : State) : Result :=
  match s.pos with
  | .idle => .next s
  | .start => startTurn s
  | .countRead => countReadTurn s
  | .rewind => rewindTurn s
  | .merge n picks => mergeTurn n picks s
  | .walk => walkTurn s
  | .putMagic => putMagicTurn s
  | .writeTree => writeTreeTurn s
  | .writeSym i => writeSymTurn i s
  | .readTag n leaves => readTagTurn n leaves s
  | .readSym i n leaves => readSymTurn i n leaves s
  | .encodeRead => encodeReadTurn s
  | .emit b => emitTurn b s
  | .emitEof => emitEofTurn s
  | .getMagic => getMagicTurn s
  | .decodeRead => decodeReadTurn s
  | .putByte => putByteTurn s
  | .close => closeTurn s
  | .failClose k => failCloseTurn k s
  | .endOf st => endOfTurn st s

/-- One turn of the sequencer; a waiting core stays as it is. -/
def turn (s : State) : Result := if waiting s then .next s else pieceAt s

/-- At most `n` turns, fewer where the command ends. -/
def run : Nat → State → Result
  | 0, s => .next s
  | n + 1, s => if s.busy then andThen (turn s) (run n) else .next s

/-- More turns than any command takes on the ports it stands at, from a state that a run reaches, if the input ends
(log 5): a command reads each input bit at most twice and writes at most one byte or code for each. A command that
still runs goes on in the next step. -/
def turnsToEnd (s : State) : Nat := 2 * s.inp.bits.length + 5000

/-- The turns the sequencer has before the host or the platform next acts (R101). -/
def budget (s : State) : Nat :=
  match s.host with
  | [] => turnsToEnd s
  | e :: _ => if e.op = .waitIdle then turnsToEnd s else e.wait

/-- The next event has waited for its turns. -/
def spend (s : State) : State :=
  match s.host with
  | [] => s
  | e :: rest => { s with host := { e with wait := 0 } :: rest }

/-- The running command goes on until it ends or the next event is due. -/
def resume (s : State) : Result := run (budget s) (spend s)

/-- A host write of word `w` to CMD: dropped while BUSY (R104, R150), else accepted and run (R151). -/
def issue (w : Word) (s : State) : Result := if s.busy then .next (dropWrite s) else resume (accept w s)

end Sys2Proof.Machine
end

