-- ==== Sys2Proof/Machine/Commands.lean ====
section
/-! DEFINITION. The meaning of each command: the host's CMD write of its word (R150), its acceptance (R152), and its
pseudocode (R151) until its epilogue, or until the host's or the platform's next event is due while it runs (R101).
The pieces of the pseudocode stand in the families' files and are put together by the sequencer. -/

namespace Sys2Proof.Machine

/-- NOP, R170 (`beginNop`). -/
def execNop (s : State) : Result := issue (encode .nop) s

/-- COUNT, R190 (`beginCount`, `countReadTurn`). -/
def execCount (s : State) : Result := issue (encode .count) s

/-- BUILD, R210 (`beginBuild`, `mergeTurn`). -/
def execBuild (s : State) : Result := issue (encode .build) s

/-- GENCODES, R240 (`beginGencodes`, `walkTurn`). -/
def execGencodes (s : State) : Result := issue (encode .gencodes) s

/-- SERIALIZE, R260 (`beginSerialize`, `writeTreeTurn`, `writeSymTurn`). -/
def execSerialize (s : State) : Result := issue (encode .serialize) s

/-- DESERIALIZE, R270 (`beginDeserialize`, `readTagTurn`, `readSymTurn`). -/
def execDeserialize (s : State) : Result := issue (encode .deserialize) s

/-- ENCODE, R290 (`beginEncode`, `putMagicTurn`, `writeTreeTurn`, `encodeReadTurn`, `emitTurn`, `closeTurn`). -/
def execEncode (s : State) : Result := issue (encode .encode) s

/-- DECODE, R320 (`beginDecode`, `getMagicTurn`, `readTagTurn`, `decodeReadTurn`, `putByteTurn`, `closeTurn`). -/
def execDecode (s : State) : Result := issue (encode .decode) s

/-- COMPRESS, R300: the stages of COUNT, INRESET, BUILD, GENCODES and ENCODE (`endOfTurn`). -/
def execCompress (s : State) : Result := issue (encode .compress) s

/-- INRESET, R171 (`beginInreset`, `rewindTurn`). -/
def execInreset (s : State) : Result := issue (encode .inreset) s

/-- OUTCLOSE, R172 (`beginOutclose`, `closeTurn`). -/
def execOutclose (s : State) : Result := issue (encode .outclose) s

/-- CLEAR, R173 (`beginClear`). -/
def execClear (s : State) : Result := issue (encode .clear) s

/-- A reserved OP, R174 (`beginIllegal`). -/
def execIllegalOp (low : BitVec 2) (s : State) : Result := issue (encode (.illegalOp low)) s

/-- A RES field that is not 0, R174 (`beginIllegal`). -/
def execIllegalRes (res : BitVec 28) (op : BitVec 4) (s : State) : Result := issue (encode (.illegalRes res op)) s

end Sys2Proof.Machine
end

