-- ==== Sys2Proof/Machine/Dispatch.lean ====
section
/-! DEFINITION. One arm per command. -/

namespace Sys2Proof.Machine

def exec (i : Instr) (s : State) : Host.Outcome State Fault Refusal :=
  match i with
  | .nop => Sys2Proof.Machine.execNop s
  | .count => Sys2Proof.Machine.execCount s
  | .build => Sys2Proof.Machine.execBuild s
  | .gencodes => Sys2Proof.Machine.execGencodes s
  | .serialize => Sys2Proof.Machine.execSerialize s
  | .deserialize => Sys2Proof.Machine.execDeserialize s
  | .encode => Sys2Proof.Machine.execEncode s
  | .decode => Sys2Proof.Machine.execDecode s
  | .compress => Sys2Proof.Machine.execCompress s
  | .inreset => Sys2Proof.Machine.execInreset s
  | .outclose => Sys2Proof.Machine.execOutclose s
  | .clear => Sys2Proof.Machine.execClear s
  | .illegalOp low => Sys2Proof.Machine.execIllegalOp low s
  | .illegalRes res op => Sys2Proof.Machine.execIllegalRes res op s

end Sys2Proof.Machine
end

