-- ==== Sys2Proof/Machine/HostAccess.lean ====
section
/-! DEFINITION. What the host and the platform do to the core: register reads and writes (R32, R82, R84, R104, R105),
hardware reset (R390) and connecting a port (R393, R396). -/

namespace Sys2Proof.Machine

/-- A host write that is dropped while BUSY = 1 (R104). -/
def whenIdle (s : State) (k : State → State) : State := if s.busy then dropWrite s else k s

/-- A host write of `v` to a register (R32, R33, R34, R41, R44, R50, R104); a CMD write starts a command (R150). -/
def writeReg (r : Reg) (v : Word) (s : State) : Result :=
  match r with
  | .cmd => exec (decode v) s
  | .ctrl => .next (writeCtrl v s)
  | .status => .next (writeStatus v s)
  | .nodeSel => .next (whenIdle s fun t => { t with nodeSel := v.setWidth 10 })
  | .codeSel => .next (whenIdle s fun t => { t with codeSel := v.setWidth 9 })
  | .hist c => .next (whenIdle s fun t => t.setHist c v)
  | .id | .magic | .root | .nnodes | .nleaves | .inBits | .outBits | .syms | .nodeInfo | .nodeWeight | .codeLen
  | .codeWord _ | .reserved => .next s

/-- What a host read answers: the register's value, or a draw for a window while BUSY = 1 (R84, R105). -/
def readValue (r : Reg) (s : State) : Word :=
  if isWindow r && s.busy then Config.busyRead s.draws else regValue s r

/-- A host read: no side effect in the core (R84); the answer is the host's, and a draw is used up. -/
def readReg (r : Reg) (s : State) : State :=
  { s with
    reads := readValue r s :: s.reads
    draws := if isWindow r && s.busy then s.draws + 1 else s.draws }

/-- One host or platform event. `waitIdle` ends with the STATUS read that shows BUSY = 0 (R125). -/
def perform (op : HostOp) (s : State) : Result :=
  match op with
  | .write addr size v =>
    match target s addr size with
    | .ok r => writeReg r v s
    | .error e => .refused e
  | .read addr size =>
    match target s addr size with
    | .ok r => .next (readReg r s)
    | .error e => .refused e
  | .waitIdle => .next (readReg .status s)
  | .hardwareReset => .next (hardwareReset s)
  | .plugIn p => .next { s with inp := p }
  | .plugOut p => .next { s with out := p }

/-- Whether an event is due: an idle core takes it at once; a running one first takes its turns, and `waitIdle`
(R125) is due only at BUSY = 0. -/
def due (e : HostEvent) (s : State) : Bool := !s.busy || (e.wait == 0 && e.op != .waitIdle)

/-- What the host and the core do next: the first event if it is due, else the running command goes on. -/
def hostStep (s : State) : Result :=
  match s.host with
  | [] => if s.busy then resume s else .next s
  | e :: rest => if due e s then perform e.op { s with host := rest } else resume s

/-- The host's next act is to write command word `w` to CMD. -/
def placeCommand (w : Word) (s : State) : State :=
  { s with host := { wait := 0, op := .write (s.base + 0x008) 4 w } :: s.host, pos := .idle }

end Sys2Proof.Machine
end

