-- ==== Sys2Proof/Machine/Step.lean ====
section
/-! DEFINITION. One step of the machine: the host's (or the platform's) next event with what the core does in answer,
or, while a command runs and no event is due, the running command's next turns. -/

namespace Sys2Proof.Machine

def step (s : State) : Host.Outcome State Fault Refusal := hostStep s

/-- `s` with the command word of value `w` as the host's next CMD write, on an idle core (the core fetches no
instructions, R31, R108: a command takes effect from the CMD write that carries it). -/
def State.withFetchWord (s : State) (nbits w : Nat) : State := placeCommand (BitVec.ofNat 32 (w % 2 ^ nbits)) s

end Sys2Proof.Machine
end

