-- ==== Sys2Proof/Safety.lean ====
section
/-! DEFINITION. The terms that statements about the machine are made in: resting states and answering ports, how a
command ends, trees as the spec's data model has them (spec/10_state.md R51, R52; spec/30_encoding.md R127), and the
invariants. -/

namespace Sys2Proof.Machine

/-- Whether the host does nothing until the core is idle again: it has no event left, or goes on with `wait`
(R125). -/
def undisturbed : List HostEvent → Bool
  | [] => true
  | e :: _ => e.wait == 0 && e.op == .waitIdle

/-- No command runs, and nothing interrupts the next one: `run MNEMONIC` of R125. -/
abbrev Quiet (s : State) : Prop := s.pos = .idle ∧ undisturbed s.host = true

/-- The input port answers every request as R86 and R88 say, and its environment draws no failure (R93). -/
abbrev InputAnswers (p : InPort) : Prop := p.silent = false ∧ p.fails = [] ∧ p.failed = false

/-- The input is a finite sequence of bits (R81). -/
abbrev InputEnds (p : InPort) : Prop := p.endless = none

/-- The output port answers every request as R89 and R90 say, and its environment draws no failure (R93). -/
abbrev OutputAnswers (p : OutPort) : Prop := p.silent = false ∧ p.fails = [] ∧ p.failed = false

/-- An open sink that answers (R395: "an open, empty sink", here with any earlier bits). -/
abbrev SinkOpen (p : OutPort) : Prop := OutputAnswers p ∧ p.closed = false

/-- The bits an input port still delivers, up to where an endless one goes on: none once its end-of-stream latch is
set (R86). -/
def unread (p : InPort) : Bits := if p.eof then [] else p.bits.drop p.pos

/-- The input port after `n` more bits. -/
def advance (n : Nat) (p : InPort) : InPort := { p with pos := p.pos + n }

/-- The input port after `n` more bits and an end of stream (R86). -/
def exhausted (n : Nat) (p : InPort) : InPort := { p with pos := p.pos + n, eof := true }

/-- `s` after command `i` was accepted (R152) and ended through the success epilogue (R160), if nothing else
happened. -/
def completed (i : Instr) (s : State) : State :=
  { s with
    cmd := encode i
    done := true
    fail := false
    errcode := none
    phase := .done
    inBits := 0#32
    outBits := 0#32
    syms := 0#32
    stack := []
    pq := []
    pos := .idle }

/-- `s` after command `i` was accepted (R152) and ended through the failure epilogue (R356) with kind `k`, if nothing
else happened. -/
def failed (i : Instr) (k : ErrKind) (s : State) : State :=
  { s with
    cmd := encode i
    done := false
    fail := true
    errcode := some k
    phase := .failed
    inBits := 0#32
    outBits := 0#32
    syms := 0#32
    stack := []
    pq := []
    pos := .idle }

/-- A sink of `bits` after `more` bits and a closing OutClose whose padding is `pad` (R89, R90). -/
def closedWith (more pad : Bits) (p : OutPort) : OutPort := { p with bits := p.bits ++ more ++ pad, closed := true }

/-- `pad` pads a stream of bits to whole bytes with 0 to 7 bits (R90). -/
abbrev PadsToBytes (bits pad : Bits) : Prop := pad.length ≤ 7 ∧ (bits.length + pad.length) % 8 = 0

/-- A strict binary tree with a Symbol at each leaf (R52, Glossary). -/
inductive HuffTree where
  | leaf (sym : Sym)
  | node (left right : HuffTree)
  deriving DecidableEq, Repr

/-- The number of leaves. -/
def HuffTree.leaves : HuffTree → Nat
  | .leaf _ => 1
  | .node l r => l.leaves + r.leaves

/-- The number of nodes, leaves and internal ones. -/
def HuffTree.size : HuffTree → Nat
  | .leaf _ => 1
  | .node l r => l.size + r.size + 1

/-- The leaf Symbols in preorder. -/
def HuffTree.syms : HuffTree → List Sym
  | .leaf c => [c]
  | .node l r => l.syms ++ r.syms

/-- The preorder serialization: the grammar of R127. -/
def HuffTree.bits : HuffTree → Bits
  | .leaf c => true :: bin 9 c.toNat
  | .node l r => false :: (l.bits ++ r.bits)

/-- The leaves in preorder with their root-to-leaf paths after `p`: 0 to the left, 1 to the right (R240). -/
def HuffTree.paths (p : Bits) : HuffTree → List (Sym × Bits)
  | .leaf c => [(c, p)]
  | .node l r => l.paths (p ++ [false]) ++ r.paths (p ++ [true])

/-- The entry CODE holds for symbol `c`: the path of the last leaf of that symbol in preorder (R240, R243). -/
def HuffTree.codeOf (t : HuffTree) (c : Nat) : CodeEntry :=
  match (t.paths []).reverse.find? (fun e => e.1.toNat == c) with
  | some e => { valid := true, bits := e.2 }
  | none => CodeEntry.invalid

/-- The weighted path length of R222, `Σ weight · depth` over the leaves. -/
def HuffTree.cost (w : Sym → Nat) (t : HuffTree) : Nat := ((t.paths []).map fun e => w e.1 * e.2.length).sum

/-- Slot `i` of a node memory and what hangs below it is the tree `t`. -/
def holds (m : Memory Node) (i : Idx) : HuffTree → Bool
  | .leaf c =>
    decide (i.toNat < Config.nodeCap) && (Memory.get Node.blank m i.toNat).leaf
      && (Memory.get Node.blank m i.toNat).sym == c
  | .node l r =>
    decide (i.toNat < Config.nodeCap) && !(Memory.get Node.blank m i.toNat).leaf
      && holds m (Memory.get Node.blank m i.toNat).left l && holds m (Memory.get Node.blank m i.toNat).right r

/-- The slots of the tree `t` at slot `i`, in preorder. -/
def slotsOf (m : Memory Node) (i : Idx) : HuffTree → List Nat
  | .leaf _ => [i.toNat]
  | .node l r =>
    i.toNat :: (slotsOf m (Memory.get Node.blank m i.toNat).left l
      ++ slotsOf m (Memory.get Node.blank m i.toNat).right r)

/-- R52: ROOT is a strict binary tree whose nodes are slots 0..NNODES−1, each exactly once, with NLEAVES leaves. -/
def StrictTree (s : State) : Prop :=
  ∃ t : HuffTree, holds s.node s.root t = true ∧ (slotsOf s.node s.root t).Perm (List.range s.nnodes.toNat)
    ∧ t.leaves = s.nleaves.toNat

/-- BUILD's part of a tree, next free slot `n` (R210, R215): each element of PQ is the root of a tree of its own, the
trees together are slots 0..n−1, each exactly once, and have NLEAVES leaves. -/
def MergeForest (s : State) (n : Nat) : Prop :=
  ∃ f : List (Idx × HuffTree), f.map (fun e => e.1) = s.pq ∧ (∀ e ∈ f, holds s.node e.1 e.2 = true) ∧
    (f.flatMap fun e => slotsOf s.node e.1 e.2).Perm (List.range n) ∧
    (f.map fun e => e.2.leaves).sum = s.nleaves.toNat

/-- The slots a waiting caller of `ReadNode` and its finished left child fill. -/
def frameSlots (m : Memory Node) (f : Frame) : Option HuffTree → List Nat
  | none => [f.idx.toNat]
  | some t => f.idx.toNat :: slotsOf m (Memory.get Node.blank m f.idx.toNat).left t

/-- ReadTree's part of a tree (R271): each waiting caller is an internal node whose left child, where it has been
read, is a tree; `taken` and the slots of the callers are slots 0..n−1, each exactly once, and the left children have
`leaves` leaves. -/
def ReadForest (s : State) (taken : List Nat) (n leaves : Nat) : Prop :=
  ∃ f : List (Frame × Option HuffTree), f.map (fun e => e.1) = s.stack ∧
    (∀ e ∈ f, (s.nodeAt e.1.idx).leaf = false ∧ e.1.leftDone = e.2.isSome ∧
      ∀ t, e.2 = some t → holds s.node (s.nodeAt e.1.idx).left t = true) ∧
    (taken ++ f.flatMap fun e => frameSlots s.node e.1 e.2).Perm (List.range n) ∧
    (f.map fun e => (e.2.map HuffTree.leaves).getD 0).sum = leaves

/-- What stands in NODE while a tree is being made: TREE_VALID is 0 (R55), and the slots in use are parts of one. -/
def PartialTree (s : State) : Prop :=
  match s.pos with
  | .merge n _ => s.treeValid = false ∧ MergeForest s n
  | .readTag n leaves => s.treeValid = false ∧ ReadForest s [] n leaves
  | .readSym i n leaves => s.treeValid = false ∧ ReadForest s [i.toNat] n leaves
  | _ => True

/-- Whether the NODE slot that the position's piece reads exists (R51). -/
def slotExists (s : State) : Bool :=
  match s.pos with
  | .writeTree => s.stack.all fun f => decide (f.idx.toNat < Config.nodeCap)
  | .writeSym i => decide (i.toNat < Config.nodeCap)
  | .putByte => decide (s.cur.toNat < Config.nodeCap)
  | _ => true

/-- Whether a position's piece is an OutClose. -/
def asksClose : Pos → Bool
  | .close | .failClose _ => true
  | _ => false

/-- The tree `t` stands at slots `n`, n + 1, … in preorder (R273), every weight 0 (R272). -/
def preorderAt (m : Memory Node) (n : Nat) : HuffTree → Bool
  | .leaf c =>
    (Memory.get Node.blank m n).leaf && (Memory.get Node.blank m n).sym == c
      && (Memory.get Node.blank m n).weight == 0#32
  | .node l r =>
    !(Memory.get Node.blank m n).leaf && (Memory.get Node.blank m n).weight == 0#32
      && (Memory.get Node.blank m n).left.toNat == n + 1
      && (Memory.get Node.blank m n).right.toNat == n + 1 + l.size
      && preorderAt m (n + 1) l && preorderAt m (n + 1 + l.size) r

/-- The sum of HIST (R216). -/
def histTotal (s : State) : Nat := ((List.range 256).map fun c => (s.histAt c).toNat).sum

/-- The byte values of non-zero count, ascending (R211). -/
def codedBytes (s : State) : List Nat := (List.range 256).filter fun c => s.histAt c != 0#32

/-- The leaf weight of a symbol (R211): its count, and 1 for EOF_SYM. -/
def leafWeight (s : State) (c : Sym) : Nat := if c = Config.eofSym then 1 else (s.histAt c.toNat).toNat

/-- The errors each command may raise, R351. -/
def mayRaise (i : Instr) (k : ErrKind) : Bool :=
  match i with
  | .nop | .build | .clear => false
  | .count | .inreset | .outclose => k == .portError
  | .gencodes => k == .notReady
  | .serialize => k == .portError || k == .notReady
  | .deserialize => k == .corruptHeader || k == .portError
  | .encode => k == .portError || k == .notReady || k == .uncodedSymbol
  | .decode => k == .unrecognizedFormat || k == .corruptHeader || k == .truncatedStream || k == .portError
  | .compress => k == .portError || k == .uncodedSymbol
  | .illegalOp _ | .illegalRes _ _ => k == .illegalCommand

/-- The commands that write NODE, ROOT, NNODES, NLEAVES and TREE_VALID (R54, R55). -/
def writesTree : Instr → Bool
  | .build | .deserialize | .decode | .compress | .clear => true
  | .nop | .count | .gencodes | .serialize | .encode | .inreset | .outclose | .illegalOp _ | .illegalRes _ _ => false

/-- The commands that write CODE (R53, R54). -/
def writesCode : Instr → Bool
  | .gencodes | .compress | .clear => true
  | .nop | .count | .build | .serialize | .deserialize | .encode | .decode | .inreset | .outclose
  | .illegalOp _ | .illegalRes _ _ => false

/-- The commands that write HIST (R50). -/
def writesHist : Instr → Bool
  | .count | .compress | .clear => true
  | .nop | .build | .gencodes | .serialize | .deserialize | .encode | .decode | .inreset | .outclose
  | .illegalOp _ | .illegalRes _ _ => false

/-- The commands that use the input port (their rules' Operands). -/
def usesInput : Instr → Bool
  | .count | .deserialize | .encode | .decode | .compress | .inreset => true
  | .nop | .build | .gencodes | .serialize | .outclose | .clear | .illegalOp _ | .illegalRes _ _ => false

/-- The commands that use the output port (their rules' Operands). -/
def usesOutput : Instr → Bool
  | .serialize | .encode | .decode | .compress | .outclose => true
  | .nop | .count | .build | .gencodes | .deserialize | .inreset | .clear | .illegalOp _ | .illegalRes _ _ => false

/-- Every waiting caller of `ReadNode` stands at a slot that exists. -/
def framesInRange (s : State) : Bool := s.stack.all fun f => decide (f.idx.toNat < Config.nodeCap)

/-- The pseudocode's slot counters stay within NODE (R51): while BUILD merges, the slots still to fill number one
fewer than PQ's elements; ReadTree takes slots below 513. -/
def countersInRange (s : State) : Bool :=
  match s.pos with
  | .merge n _ => decide (0 < s.pq.length) && decide (n + s.pq.length ≤ Config.nodeCap + 1)
  | .readTag n _ => decide (n ≤ Config.nodeCap) && framesInRange s
  | .readSym i n _ => decide (i.toNat < Config.nodeCap) && decide (n ≤ Config.nodeCap) && framesInRange s
  | _ => true

/-- The memories are in their canonical form and within their sizes (R50, R51, R53), and so stay the slot counters. -/
def memoryForm (s : State) : Bool :=
  Memory.wf 0#32 256 s.hist && Memory.wf Node.blank Config.nodeCap s.node && Memory.wf CodeEntry.invalid 257 s.code
    && countersInRange s

/-- `memoryForm` as a proposition. -/
abbrev MemoryForm (s : State) : Prop := memoryForm s = true

/-- The tree invariant of R52 with what it needs between two steps of a command. -/
structure TreeInv (s : State) : Prop where
  /-- R50, R51, R53. -/
  form : MemoryForm s
  /-- R52. -/
  tree : s.treeValid = true → StrictTree s
  /-- The trees of BUILD and of ReadTree in the making. -/
  parts : PartialTree s

/-- Positions of BUILD's and GENCODES's code that run only with a tree. -/
def treeNeeded : Pos → Bool
  | .walk | .endOf .build => true
  | _ => false

/-- Whether BUILD is merging: the one place where NLEAVES is set before TREE_VALID (R210). -/
def merging : Pos → Bool
  | .merge _ _ => true
  | _ => false

/-- The lifecycle of STATUS and of what hangs on it. -/
structure Lifecycle (s : State) : Prop where
  /-- R363: DONE and FAIL are never 1 together. -/
  notBoth : ¬(s.done = true ∧ s.fail = true)
  /-- R152: while a command runs, DONE, FAIL and ERRCODE are 0. -/
  running : s.pos ≠ .idle → s.done = false ∧ s.fail = false ∧ s.errcode = none
  /-- R33: at rest PHASE is IDLE, DONE or FAILED; R57, R58: PQ and the stack are empty outside their commands. -/
  resting : s.pos = .idle → (s.phase = .idle ∨ s.phase = .done ∨ s.phase = .failed) ∧ s.stack = [] ∧ s.pq = []
  /-- R160: DONE goes with PHASE = DONE. -/
  donePhase : s.done = true → s.phase = .done
  /-- R356: FAIL goes with PHASE = FAILED. -/
  failPhase : s.fail = true → s.phase = .failed
  /-- R33, R350: at rest ERRCODE is not 0 exactly when the last command failed. -/
  errPhase : s.pos = .idle → (s.errcode ≠ none ↔ s.phase = .failed)
  /-- R56: a code table is valid only with its tree. -/
  codesNeedTree : s.codesValid = true → s.treeValid = true
  /-- R35, R173, R271: without a tree ROOT is NIL and NNODES is 0, and NLEAVES is 0 but while BUILD merges. -/
  noTree : s.treeValid = false → s.root = Config.nil ∧ s.nnodes = 0#10 ∧ (merging s.pos = false → s.nleaves = 0#9)
  /-- The code of BUILD's end and of GENCODES's walk runs only with a tree (R153, R300). -/
  treeAt : treeNeeded s.pos = true → s.treeValid = true

end Sys2Proof.Machine
end

