-- ==== Sys2Proof/Certificates/Slice0/Obligations.lean ====
section
/-! DEFINITION. The statements for the provers, from the numbered rules of spec/. Most results are stated as the whole
next state, `completed i s` or `failed i k s` with what the command changes written out, so that each of them also
says what the command leaves unchanged. That such a state keeps `cur` under every command but DECODE is the
model's choice (R60, I13; log 16), and so are the bits of an invalid CODE entry in it (R53; log 15). -/

open Sys2Proof Sys2Proof.Machine

/-! ### Encoding -/

/-- R120, R122, R123: decoding the encoded word of any well-formed instruction gives it back. -/
def Obligations.DecodeOfEncode : Prop := ∀ i : Instr, WellFormed i → decode (encode i) = i

/-- R123: every one of the 2^32 words is the word of a well-formed instruction, the one it decodes to. -/
def Obligations.EncodeOfDecode : Prop := ∀ w : Word, WellFormed (decode w) ∧ encode (decode w) = w

/-- R124: decoding, case by case. -/
def Obligations.DecodeFollowsTheOpcodeMap : Prop := ∀ w : Word,
  (w.extractLsb' 4 28 ≠ 0#28 → ∃ r o, decode w = .illegalRes r o) ∧
  (w.extractLsb' 4 28 = 0#28 →
    (w.extractLsb' 0 4 = 0x0#4 → decode w = .nop) ∧
    (w.extractLsb' 0 4 = 0x1#4 → decode w = .count) ∧
    (w.extractLsb' 0 4 = 0x2#4 → decode w = .build) ∧
    (w.extractLsb' 0 4 = 0x3#4 → decode w = .gencodes) ∧
    (w.extractLsb' 0 4 = 0x4#4 → decode w = .serialize) ∧
    (w.extractLsb' 0 4 = 0x5#4 → decode w = .deserialize) ∧
    (w.extractLsb' 0 4 = 0x6#4 → decode w = .encode) ∧
    (w.extractLsb' 0 4 = 0x7#4 → decode w = .decode) ∧
    (w.extractLsb' 0 4 = 0x8#4 → decode w = .compress) ∧
    (w.extractLsb' 0 4 = 0x9#4 → decode w = .inreset) ∧
    (w.extractLsb' 0 4 = 0xA#4 → decode w = .outclose) ∧
    (w.extractLsb' 0 4 = 0xB#4 → decode w = .clear) ∧
    (0xC#4 ≤ w.extractLsb' 0 4 → ∃ l, decode w = .illegalOp l))

/-- R122: words written out from the opcode map and what they decode to. -/
def Obligations.SampleWordsDecode : Prop :=
  decodeTableWord 32 0x00000000 = some .nop ∧ decodeTableWord 32 0x00000001 = some .count ∧
  decodeTableWord 32 0x00000004 = some .serialize ∧ decodeTableWord 32 0x00000007 = some .decode ∧
  decodeTableWord 32 0x0000000A = some .outclose ∧ decodeTableWord 32 0x0000000E = some (.illegalOp 2#2) ∧
  decodeTableWord 32 0x00000016 = some (.illegalRes 1#28 6#4)

/-! ### Steps, acceptance and the host's accesses -/

/-- R150, R151: on an idle core a CMD write that is the host's next event runs the command its word decodes to, and
`withFetchWord` places such a write. With nothing to do the machine stays as it is; a running command with no event
due goes on. -/
def Obligations.StepRunsTheWrittenCommand : Prop :=
  (∀ (s : State) (n : Nat) (w : Word) (rest : List HostEvent), s.pos = .idle →
    s.host = { wait := n, op := .write (s.base + 0x008) 4 w } :: rest →
    step s = exec (decode w) { s with host := rest }) ∧
  (∀ (s : State) (w : Word), step (s.withFetchWord 32 w.toNat) = exec (decode w) { s with pos := .idle }) ∧
  (∀ s : State, s.pos = .idle → s.host = [] → step s = .next s) ∧
  (∀ s : State, s.pos ≠ .idle → s.host = [] → step s = run (turnsToEnd s) s)

/-- R152: where the next event is due at once, `exec` on an idle core answers the state right after acceptance. -/
def Obligations.AcceptanceEffects : Prop :=
  ∀ (i : Instr) (s : State) (op : HostOp) (rest : List HostEvent), s.pos = .idle → op ≠ .waitIdle →
    s.host = { wait := 0, op := op } :: rest →
    exec i s = .next { s with
      cmd := encode i, pos := .start, done := false, fail := false, errcode := none
      inBits := 0#32, outBits := 0#32, syms := 0#32 }

/-- R104: while BUSY = 1, a write to CMD, NODE_SEL, CODE_SEL or any HIST[s] changes nothing but DROPPED; a write to
CTRL or STATUS takes effect; a write to any other offset is ignored. -/
def Obligations.BusyWrites : Prop :=
  ∀ (s : State) (off : Nat) (v : Word) (rest : List HostEvent), s.pos ≠ .idle → off < 4096 → off % 4 = 0 →
    s.host = { wait := 0, op := .write (s.base + off) 4 v } :: rest →
    step s = .next
      (if off = 0x008 ∨ off = 0x02C ∨ off = 0x038 ∨ (0x400 ≤ off ∧ off < 0x800) then
        { s with host := rest, dropped := true }
      else if off = 0x004 then { s with host := rest, ie := v.getLsbD 0 }
      else if off = 0x00C then
        { s with
          host := rest, done := s.done && !v.getLsbD 1, fail := s.fail && !v.getLsbD 2
          dropped := s.dropped && !v.getLsbD 3 }
      else { s with host := rest })

/-- R15, R84, R104, R156: no register access of the host changes a running command's state; it reaches CTRL.IE, the
W1C bits, and what the host itself holds. -/
def Obligations.HostCannotDisturbARunningCommand : Prop :=
  ∀ (s t : State) (op : HostOp) (rest : List HostEvent), s.pos ≠ .idle →
    (∃ addr size v, op = .write addr size v) ∨ (∃ addr size, op = .read addr size) →
    s.host = { wait := 0, op := op } :: rest → step s = .next t →
    t = { s with
      host := rest, ie := t.ie, done := t.done, fail := t.fail, dropped := t.dropped
      reads := t.reads, draws := t.draws }

/-- R32, R84, R105: what a read at each offset answers, and that it changes nothing in the core; a window read while
BUSY = 1 answers a free value instead (the model's `Config.busyRead`, log 10). -/
def Obligations.ReadsHaveNoSideEffect : Prop :=
  ∀ (s : State) (n off : Nat) (rest : List HostEvent), off < 4096 → off % 4 = 0 →
    s.host = { wait := n, op := .read (s.base + off) 4 } :: rest →
    (s.pos = .idle ∨
        (n = 0 ∧ ¬(off = 0x030 ∨ off = 0x034 ∨ (0x03C ≤ off ∧ off < 0x060) ∨ (0x400 ≤ off ∧ off < 0x800))) →
      ∃ v, step s = .next { s with host := rest, reads := v :: s.reads } ∧
        (off = 0x000 → v = 0x48554646#32) ∧ (off = 0x004 → v = if s.ie then 1#32 else 0#32) ∧
        (off = 0x008 → v = s.cmd) ∧ (off = 0x00C → v = statusWord s) ∧ (off = 0x010 → v = s.par.magic) ∧
        (off = 0x014 → v = s.root.setWidth 32) ∧ (off = 0x018 → v = s.nnodes.setWidth 32) ∧
        (off = 0x01C → v = s.nleaves.setWidth 32) ∧ (off = 0x020 → v = s.inBits) ∧ (off = 0x024 → v = s.outBits) ∧
        (off = 0x028 → v = s.syms) ∧ (off = 0x02C → v = s.nodeSel.setWidth 32) ∧
        (off = 0x030 → v = nodeInfoWord s) ∧ (off = 0x034 → v = nodeWeightWord s) ∧
        (off = 0x038 → v = s.codeSel.setWidth 32) ∧ (off = 0x03C → v = codeLenWord s) ∧
        (∀ k < 8, off = 0x040 + 4 * k → v = codeWordK k s) ∧ (∀ c < 256, off = 0x400 + 4 * c → v = s.histAt c) ∧
        ((0x060 ≤ off ∧ off < 0x400) ∨ 0x800 ≤ off → v = 0#32)) ∧
    (s.pos ≠ .idle → n = 0 →
      off = 0x030 ∨ off = 0x034 ∨ (0x03C ≤ off ∧ off < 0x060) ∨ (0x400 ≤ off ∧ off < 0x800) →
      step s = .next { s with
        host := rest, reads := Config.busyRead s.draws :: s.reads, draws := s.draws + 1 })

/-- R32, R41, R44, R50: host writes on an idle core to HIST, NODE_SEL, CODE_SEL, the read-only registers and reserved
offsets. -/
def Obligations.IdleHostWrites : Prop :=
  ∀ (s : State) (n off : Nat) (v : Word) (rest : List HostEvent), s.pos = .idle → MemoryForm s → off % 4 = 0 →
    s.host = { wait := n, op := .write (s.base + off) 4 v } :: rest →
    (∀ c < 256, off = 0x400 + 4 * c →
      ∃ h, step s = .next { s with host := rest, hist := h } ∧ Memory.get 0#32 h c = v ∧
        ∀ k, k ≠ c → Memory.get 0#32 h k = s.histAt k) ∧
    (off = 0x02C → step s = .next { s with host := rest, nodeSel := v.extractLsb' 0 10 }) ∧
    (off = 0x038 → step s = .next { s with host := rest, codeSel := v.extractLsb' 0 9 }) ∧
    (off = 0x000 ∨ (0x010 ≤ off ∧ off < 0x02C) ∨ off = 0x030 ∨ off = 0x034 ∨ (0x03C ≤ off ∧ off < 0x060) →
      step s = .next { s with host := rest }) ∧
    ((0x060 ≤ off ∧ off < 0x400) ∨ (0x800 ≤ off ∧ off < 0x1000) → step s = .next { s with host := rest })

/-- R33, R350, R362: where each field of STATUS stands, its PHASE and ERRCODE encodings, and the level of IRQ. -/
def Obligations.StatusWordFields : Prop := ∀ s : State,
  (statusWord s).getLsbD 0 = s.busy ∧ (statusWord s).getLsbD 1 = s.done ∧ (statusWord s).getLsbD 2 = s.fail ∧
  (statusWord s).getLsbD 3 = s.dropped ∧ (statusWord s).extractLsb' 4 4 = errcodeField s.errcode ∧
  (statusWord s).extractLsb' 8 4 = phaseCode s.phase ∧ (statusWord s).getLsbD 12 = s.treeValid ∧
  (statusWord s).getLsbD 13 = s.codesValid ∧ (statusWord s).getLsbD 14 = (s.ie && (s.done || s.fail)) ∧
  (statusWord s).extractLsb' 15 17 = 0#17 ∧
  [Phase.idle, .counting, .building, .gencodes, .serializing, .headerMagic, .traversingHeader, .encodingBody,
    .traversingBody, .closing, .inResetting, .clearing].map phaseCode = (List.range 12).map (BitVec.ofNat 4) ∧
  phaseCode .done = 0xE#4 ∧ phaseCode .failed = 0xF#4 ∧
  [none, some .unrecognizedFormat, some .corruptHeader, some .truncatedStream, some .portError, some .illegalCommand,
    some .notReady, some .uncodedSymbol].map errcodeField = (List.range 8).map (BitVec.ofNat 4)

/-- R33, R34: writes of STATUS (W1C: DONE, FAIL, DROPPED) and of CTRL take effect at any time (R104). -/
def Obligations.StatusAndCtrlWrites : Prop :=
  ∀ (s : State) (n : Nat) (v : Word) (rest : List HostEvent), s.pos = .idle ∨ n = 0 →
    (s.host = { wait := n, op := .write (s.base + 0x00C) 4 v } :: rest →
      step s = .next { s with
        host := rest, done := s.done && !v.getLsbD 1, fail := s.fail && !v.getLsbD 2
        dropped := s.dropped && !v.getLsbD 3 }) ∧
    (s.host = { wait := n, op := .write (s.base + 0x004) 4 v } :: rest →
      step s = .next { s with host := rest, ie := v.getLsbD 0 })

/-- R42, R43: the NODE window. -/
def Obligations.NodeWindow : Prop := ∀ s : State,
  (s.nodeSel < s.nnodes →
    (nodeInfoWord s).getLsbD 31 = true ∧
    (nodeInfoWord s).getLsbD 30 = (s.nodeAt s.nodeSel).leaf ∧
    (nodeInfoWord s).extractLsb' 20 10
      = (if (s.nodeAt s.nodeSel).leaf then 0x3FF#10 else (s.nodeAt s.nodeSel).right) ∧
    (nodeInfoWord s).extractLsb' 10 10
      = (if (s.nodeAt s.nodeSel).leaf then 0x3FF#10 else (s.nodeAt s.nodeSel).left) ∧
    (nodeInfoWord s).getLsbD 9 = false ∧
    (nodeInfoWord s).extractLsb' 0 9 = (if (s.nodeAt s.nodeSel).leaf then (s.nodeAt s.nodeSel).sym else 0#9) ∧
    nodeWeightWord s = (s.nodeAt s.nodeSel).weight) ∧
  (s.nnodes ≤ s.nodeSel → nodeInfoWord s = 0#32 ∧ nodeWeightWord s = 0#32)

/-- R45, R46: the CODE window; bit 31 − j of CODE_WORDk is code bit 32k + j, and 0 past the code's end. -/
def Obligations.CodeWindow : Prop := ∀ s : State,
  (s.codeSel.toNat ≤ 256 → (s.codeAt s.codeSel.toNat).valid = true →
    (codeLenWord s).getLsbD 31 = true ∧
    (codeLenWord s).extractLsb' 9 22 = 0#22 ∧
    (codeLenWord s).extractLsb' 0 9 = BitVec.ofNat 9 (s.codeAt s.codeSel.toNat).len ∧
    ∀ k < 8, ∀ j < 32,
      (codeWordK k s).getLsbD (31 - j) = (s.codeAt s.codeSel.toNat).bits.getD (32 * k + j) false) ∧
  (256 < s.codeSel.toNat ∨ (s.codeAt s.codeSel.toNat).valid = false →
    codeLenWord s = 0#32 ∧ ∀ k, codeWordK k s = 0#32)

/-- R80, R82: an access of the register space that is no whole aligned word has no step, nor has one outside it (the
model's refusals, log 12). -/
def Obligations.OnlyAlignedWordsAreAccesses : Prop :=
  ∀ (s : State) (n addr size : Nat) (v : Word) (op : HostOp) (rest : List HostEvent),
    s.pos = .idle ∨ n = 0 → op = .write addr size v ∨ op = .read addr size →
    s.host = { wait := n, op := op } :: rest →
    (s.base ≤ addr → addr < s.base + 4096 → size ≠ 4 ∨ addr % 4 ≠ 0 → step s = .refused .notAlignedWord) ∧
    (addr < s.base ∨ s.base + 4096 ≤ addr → step s = .refused .outsideRegisterSpace)

/-! ### Reset -/

/-- R390, R62: hardware reset, also of a running command, gives all core state its reset value and keeps the ports
(and the parameters and what the host holds); no port transaction is made. The reset value of NODE, of `cur` and of
the bits of an invalid CODE entry is the model's (logs 13, 15, 16). -/
def Obligations.HardwareResetRestoresTheCore : Prop :=
  ∀ (s : State) (n : Nat) (rest : List HostEvent), s.pos = .idle ∨ n = 0 →
    s.host = { wait := n, op := .hardwareReset } :: rest →
    step s = .next { State.reset with
      par := s.par, inp := s.inp, out := s.out, host := rest, reads := s.reads, draws := s.draws }

/-- R62: the value of each register and memory at reset; hardware reset keeps the ports and leaves every register at
its reset value. -/
def Obligations.ResetRegisterValues : Prop :=
  (∀ s : State, (hardwareReset s).inp = s.inp ∧ (hardwareReset s).out = s.out ∧
    regValue (hardwareReset s) .magic = s.par.magic ∧
    ∀ r, r ≠ .magic → regValue (hardwareReset s) r = regValue .reset r) ∧
  regValue .reset .id = 0x48554646#32 ∧ regValue .reset .ctrl = 0#32 ∧ regValue .reset .cmd = 0#32 ∧
  regValue .reset .status = 0#32 ∧ regValue .reset .root = 0x000003FF#32 ∧ regValue .reset .nnodes = 0#32 ∧
  regValue .reset .nleaves = 0#32 ∧ regValue .reset .inBits = 0#32 ∧ regValue .reset .outBits = 0#32 ∧
  regValue .reset .syms = 0#32 ∧ regValue .reset .nodeSel = 0#32 ∧ regValue .reset .codeSel = 0#32 ∧
  (∀ k, regValue { State.reset with nodeSel := k } .nodeInfo = 0#32 ∧
    regValue { State.reset with nodeSel := k } .nodeWeight = 0#32) ∧
  (∀ c, regValue { State.reset with codeSel := c } .codeLen = 0#32 ∧
    ∀ k, regValue { State.reset with codeSel := c } (.codeWord k) = 0#32) ∧ irq .reset = false ∧
  (∀ c, State.reset.histAt c = 0#32) ∧ (∀ c, (State.reset.codeAt c).valid = false ∧ (State.reset.codeAt c).len = 0) ∧
  State.reset.pq = [] ∧ State.reset.stack = []

/-! ### Control commands -/

/-- R170: NOP. -/
def Obligations.NopCompletes : Prop := ∀ s : State, Quiet s → exec .nop s = .next (completed .nop s)

/-- R174: an illegal word fails IllegalCommand and does nothing else; the output is not closed (R357). -/
def Obligations.IllegalWordFails : Prop := ∀ s : State, Quiet s →
  (∀ low, exec (.illegalOp low) s = .next (failed (.illegalOp low) .illegalCommand s)) ∧
  (∀ res op, res ≠ 0#28 → exec (.illegalRes res op) s = .next (failed (.illegalRes res op) .illegalCommand s))

/-- R153: GENCODES and SERIALIZE without a tree, and ENCODE without a tree or codes, fail NotReady with no other
effect: no memory written, no port transaction, the output not closed. -/
def Obligations.NotReadyTouchesNothing : Prop := ∀ s : State, Quiet s →
  (s.treeValid = false →
    exec .gencodes s = .next (failed .gencodes .notReady s) ∧
    exec .serialize s = .next (failed .serialize .notReady s)) ∧
  (s.treeValid = false ∨ s.codesValid = false → exec .encode s = .next (failed .encode .notReady s))

/-- R171, R88: INRESET rewinds the port and clears its latch; a port that cannot rewind, or whose environment draws a
failure, gives PortError, and where the port then stands nothing says (I8). -/
def Obligations.InresetRewindsTheInput : Prop := ∀ s : State, Quiet s → s.inp.silent = false →
  s.inp.failed = false →
  ((drawFail s.inp.fails).1 = false → s.inp.rewindable = true →
    exec .inreset s = .next { completed .inreset s with
      inp := { s.inp with pos := 0, eof := false, fails := (drawFail s.inp.fails).2 } }) ∧
  ((drawFail s.inp.fails).1 = true ∨ s.inp.rewindable = false →
    ∃ p d, exec .inreset s = .next { failed .inreset .portError s with inp := p, draws := d })

/-- R172, R90: OUTCLOSE pads the sink to a byte boundary and closes it; a closed sink stays as it is; an `IoErr` is
PortError, and what the sink then is nothing says (I10). -/
def Obligations.OutcloseFlushesAndCloses : Prop := ∀ s : State, Quiet s → s.out.silent = false →
  s.out.failed = false →
  ((drawFail s.out.fails).1 = false → s.out.closed = true →
    exec .outclose s = .next { completed .outclose s with out := { s.out with fails := (drawFail s.out.fails).2 } }) ∧
  ((drawFail s.out.fails).1 = false → s.out.closed = false →
    ∃ pad d, exec .outclose s = .next { completed .outclose s with
        out := { closedWith [] pad s.out with fails := (drawFail s.out.fails).2 }, draws := d } ∧
      PadsToBytes s.out.bits pad) ∧
  ((drawFail s.out.fails).1 = true →
    ∃ o d, exec .outclose s = .next { failed .outclose .portError s with out := o, draws := d })

/-- R173: CLEAR. -/
def Obligations.ClearEmptiesTheMemories : Prop := ∀ s : State, Quiet s →
  ∃ h c, exec .clear s = .next { completed .clear s with
      hist := h, code := c, treeValid := false, codesValid := false, root := 0x3FF#10, nnodes := 0#10
      nleaves := 0#9 } ∧
    (∀ k, Memory.get 0#32 h k = 0#32) ∧
    (∀ k, (Memory.get CodeEntry.invalid c k).valid = false ∧ (Memory.get CodeEntry.invalid c k).len = 0)

/-! ### COUNT -/

/-- R190, R191, R192: COUNT on an input whose whole bytes are `bs`. -/
def Obligations.CountBuildsTheHistogram : Prop := ∀ (s : State) (bs : List Nat), Quiet s → InputAnswers s.inp →
  InputEnds s.inp → bs = bytesOfBits (unread s.inp) → (∀ c, bs.count c ≤ Config.maxCount) →
  ∃ h, exec .count s = .next { completed .count s with
      hist := h, inBits := BitVec.ofNat 32 (8 * bs.length), syms := BitVec.ofNat 32 bs.length
      inp := exhausted (8 * bs.length) s.inp } ∧
    Memory.wf 0#32 256 h = true ∧ (∀ c < 256, (Memory.get 0#32 h c).toNat = bs.count c) ∧
    ((List.range 256).map fun c => (Memory.get 0#32 h c).toNat).sum = bs.length

/-- R190, R157: an `IoErr` at the read after `k` bytes ends COUNT with PortError, and HIST holds those `k` bytes'
counts; what the port then is nothing says (I8). -/
def Obligations.CountPortErrorKeepsTheCounts : Prop :=
  ∀ (s : State) (bs : List Nat) (k : Nat) (rest : List Bool), Quiet s → s.inp.silent = false →
    s.inp.failed = false → s.inp.fails = List.replicate k false ++ true :: rest → bs = bytesOfBits (unread s.inp) →
    k ≤ bs.length → (∀ c, (bs.take k).count c ≤ Config.maxCount) →
    ∃ h p d, exec .count s = .next { failed .count .portError s with
        hist := h, inBits := BitVec.ofNat 32 (8 * k), syms := BitVec.ofNat 32 k, inp := p, draws := d } ∧
      p.fails = rest ∧ (∀ c < 256, (Memory.get 0#32 h c).toNat = (bs.take k).count c)

/-- R190, I3: a byte whose counter is 2^32 − 1 stops the model. -/
def Obligations.CountOverflowStops : Prop := ∀ (s : State) (b : Nat) (rest : Bits),
  s.pos = .countRead → InputAnswers s.inp → b < 256 → unread s.inp = bin 8 b ++ rest →
  (s.histAt b).toNat = 4294967295 → turn s = .fault .countOverflow

/-! ### BUILD -/

/-- R211, R212, R216, R220, R231: the tree BUILD makes, for every `TIE`. Leaves stand in ascending symbol order with
EOF_SYM last, internal nodes after them in creation order, each the sum of its two earlier children; the slots form one
strict binary tree; everything else stays. That the slots at or above NNODES keep what they held is the model's choice
(R36 and I12 leave them unspecified; log 13). -/
def Obligations.BuildMakesTheTree : Prop := ∀ (s : State) (cs : List Nat) (n : Nat), Quiet s → MemoryForm s →
  cs = codedBytes s → n = cs.length + 1 → histTotal s + 1 ≤ Config.maxCount →
  ∃ m t, exec .build s = .next { completed .build s with
      node := m, root := BitVec.ofNat 10 (2 * n - 2), nnodes := BitVec.ofNat 10 (2 * n - 1)
      nleaves := BitVec.ofNat 9 n, treeValid := true, codesValid := false } ∧
    holds m (BitVec.ofNat 10 (2 * n - 2)) t = true ∧
    (slotsOf m (BitVec.ofNat 10 (2 * n - 2)) t).Perm (List.range (2 * n - 1)) ∧ t.leaves = n ∧
    (∀ k c, cs[k]? = some c →
      (Memory.get Node.blank m k).leaf = true ∧ (Memory.get Node.blank m k).sym = BitVec.ofNat 9 c ∧
      (Memory.get Node.blank m k).weight = s.histAt c) ∧
    ((Memory.get Node.blank m (n - 1)).leaf = true ∧ (Memory.get Node.blank m (n - 1)).sym = 256#9 ∧
      (Memory.get Node.blank m (n - 1)).weight = 1#32) ∧
    (∀ k, n ≤ k → k < 2 * n - 1 →
      (Memory.get Node.blank m k).leaf = false ∧
      (Memory.get Node.blank m k).left.toNat < k ∧ (Memory.get Node.blank m k).right.toNat < k ∧
      (Memory.get Node.blank m k).left ≠ (Memory.get Node.blank m k).right ∧
      (Memory.get Node.blank m k).weight.toNat
        = (Memory.get Node.blank m (Memory.get Node.blank m k).left.toNat).weight.toNat
          + (Memory.get Node.blank m (Memory.get Node.blank m k).right.toNat).weight.toNat) ∧
    (Memory.get Node.blank m (2 * n - 2)).weight.toNat = histTotal s + 1 ∧
    (∀ k, 2 * n - 1 ≤ k → Memory.get Node.blank m k = Memory.get Node.blank s.node k)

/-- R214, R215: a merge removes a minimum-weight node, then a minimum-weight node of the rest, and makes them the
left and the right child of a new node of their weight sum, which joins PQ; a sum above 2^32 − 1 stops the model.
Under `LOWEST_INDEX` the first is the smallest index among the minimum-weight ones. -/
def Obligations.MergeTakesTheTwoLightest : Prop := ∀ (s : State) (n : Nat) (picks : List Idx), MemoryForm s →
  s.pos = .merge n picks → 2 ≤ s.pq.length →
  ∃ a b, a ∈ s.pq ∧ (∀ j ∈ s.pq, s.weightAt a ≤ s.weightAt j) ∧
    b ∈ s.pq.erase a ∧ (∀ j ∈ s.pq.erase a, s.weightAt b ≤ s.weightAt j) ∧
    (s.par.tie = .lowestIndex → s.pq.Pairwise (· < ·) → ∀ j ∈ s.pq, s.weightAt j = s.weightAt a → a ≤ j) ∧
    (s.weightAt a + s.weightAt b ≤ Config.maxCount →
      ∃ u, turn s = .next u ∧ u.pq = (s.pq.erase a).erase b ++ [BitVec.ofNat 10 n] ∧
        (u.nodeAt (BitVec.ofNat 10 n)).leaf = false ∧ (u.nodeAt (BitVec.ofNat 10 n)).left = a ∧
        (u.nodeAt (BitVec.ofNat 10 n)).right = b ∧
        u.weightAt (BitVec.ofNat 10 n) = s.weightAt a + s.weightAt b ∧
        ∀ j : Idx, j ≠ BitVec.ofNat 10 n → u.nodeAt j = s.nodeAt j) ∧
    (Config.maxCount < s.weightAt a + s.weightAt b → turn s = .fault .weightOverflow)

/-- R221: BUILD stops with WeightOverflow exactly where the counts sum to more than 2^32 − 2. -/
def Obligations.BuildOverflowStops : Prop := ∀ s : State, Quiet s → MemoryForm s →
  (exec .build s = .fault .weightOverflow ↔ Config.maxCount < histTotal s + 1)

/-- R218: the trees of one and of two leaves. -/
def Obligations.BuildDegenerateTrees : Prop := ∀ s : State, Quiet s → MemoryForm s →
  (codedBytes s = [] →
    ∃ m, exec .build s = .next { completed .build s with
        node := m, root := 0#10, nnodes := 1#10, nleaves := 1#9, treeValid := true, codesValid := false } ∧
      holds m 0#10 (.leaf 256#9) = true ∧ (Memory.get Node.blank m 0).weight = 1#32) ∧
  (∀ c, codedBytes s = [c] → (s.histAt c).toNat < Config.maxCount →
    ∃ m, exec .build s = .next { completed .build s with
        node := m, root := 2#10, nnodes := 3#10, nleaves := 2#9, treeValid := true, codesValid := false } ∧
      (holds m 2#10 (.node (.leaf (BitVec.ofNat 9 c)) (.leaf 256#9)) = true ∨
        holds m 2#10 (.node (.leaf 256#9) (.leaf (BitVec.ofNat 9 c))) = true) ∧
      (Memory.get Node.blank m 0).leaf = true ∧ (Memory.get Node.blank m 0).sym = BitVec.ofNat 9 c ∧
      (Memory.get Node.blank m 0).weight = s.histAt c ∧
      (Memory.get Node.blank m 1).leaf = true ∧ (Memory.get Node.blank m 1).sym = 256#9 ∧
      (Memory.get Node.blank m 1).weight = 1#32 ∧
      (s.par.tie = .lowestIndex →
        (Memory.get Node.blank m 2).left = if s.histAt c = 1#32 then 0#10 else 1#10))

/-- R214: `TIE` is deterministic, so two BUILDs from equal HIST build equal trees. -/
def Obligations.BuildIsDeterministic : Prop := ∀ (s u t v : State) (tr : HuffTree), Quiet s → Quiet u →
  MemoryForm s → MemoryForm u → s.hist = u.hist → s.par.tie = u.par.tie →
  exec .build s = .next t → exec .build u = .next v → holds t.node t.root tr = true →
  v.root = t.root ∧ v.nnodes = t.nnodes ∧ v.nleaves = t.nleaves ∧ holds v.node v.root tr = true ∧
    slotsOf v.node v.root tr = slotsOf t.node t.root tr

/-- R222: the depths of BUILD's leaves minimise the weighted path length over all strict binary trees with the same
leaves, for every `TIE`. R222 marks its formula as general knowledge, not in the source (G2). -/
def Obligations.BuildIsOptimal : Prop := ∀ (s t : State) (tr other : HuffTree), Quiet s → MemoryForm s →
  exec .build s = .next t → holds t.node t.root tr = true → other.syms.Perm tr.syms →
  tr.cost (leafWeight s) ≤ other.cost (leafWeight s)

/-! ### GENCODES -/

/-- R240, R241, R243: GENCODES on a tree gives every symbol the path of its last leaf, and no other entry. -/
def Obligations.GencodesMakesTheCodeTable : Prop := ∀ (s : State) (t : HuffTree), Quiet s → s.treeValid = true →
  holds s.node s.root t = true → t.leaves ≤ 257 →
  ∃ c, exec .gencodes s = .next { completed .gencodes s with codesValid := true, code := c } ∧
    Memory.wf CodeEntry.invalid 257 c = true ∧ (∀ k ≤ 256, Memory.get CodeEntry.invalid c k = t.codeOf k)

/-- R242, R244: after GENCODES no valid code is a prefix of another, each is the path of exactly one leaf, and every
code has at most 256 bits. -/
def Obligations.CodesArePrefixFree : Prop := ∀ (s u : State) (t : HuffTree), Quiet s → s.treeValid = true →
  holds s.node s.root t = true → t.leaves ≤ 257 → exec .gencodes s = .next u →
  (∀ c ≤ 256, (u.codeAt c).len ≤ 256) ∧
  (∀ c ≤ 256, (u.codeAt c).valid = true →
    (t.paths []).filter (fun e => e.2 == (u.codeAt c).bits) = [(BitVec.ofNat 9 c, (u.codeAt c).bits)]) ∧
  (∀ c ≤ 256, ∀ d ≤ 256, c ≠ d → (u.codeAt c).valid = true → (u.codeAt d).valid = true →
    ¬ (u.codeAt c).bits <+: (u.codeAt d).bits)

/-- R245: after BUILD and GENCODES the valid entries are EOF_SYM's and those of the counted bytes. -/
def Obligations.CodesCoverTheCountedSymbols : Prop := ∀ s t u : State, Quiet s → MemoryForm s →
  exec .build s = .next t → exec .gencodes t = .next u →
  ∀ c ≤ 256, ((u.codeAt c).valid = true ↔ c = 256 ∨ (c < 256 ∧ s.histAt c ≠ 0#32))

/-! ### SERIALIZE and DESERIALIZE -/

/-- R260, R262, R127: SERIALIZE appends the preorder serialization of the tree and nothing else; the sink stays
open. -/
def Obligations.SerializeWritesTheTree : Prop := ∀ (s : State) (t : HuffTree), Quiet s → s.treeValid = true →
  holds s.node s.root t = true → t.leaves ≤ 257 → SinkOpen s.out →
  exec .serialize s = .next { completed .serialize s with
    out := { s.out with bits := s.out.bits ++ t.bits }, outBits := BitVec.ofNat 32 (11 * t.leaves - 1) }

/-- R128, R261: a serialized tree of L leaves has 11·L − 1 bits. -/
def Obligations.SerializedTreeLength : Prop := ∀ t : HuffTree, t.bits.length = 11 * t.leaves - 1

/-- R270, R271, R272, R273: DESERIALIZE reads exactly the bits of one tree and holds it in preorder slots. That the
slots at or above NNODES keep what they held is the model's choice (R36 and I12 leave them unspecified; log 13). -/
def Obligations.DeserializeReadsTheTree : Prop := ∀ (s : State) (t : HuffTree) (rest : Bits), Quiet s → MemoryForm s →
  InputAnswers s.inp → unread s.inp = t.bits ++ rest → t.leaves ≤ 257 →
  ∃ m, exec .deserialize s = .next { completed .deserialize s with
      node := m, root := 0#10, nnodes := BitVec.ofNat 10 (2 * t.leaves - 1), nleaves := BitVec.ofNat 9 t.leaves
      treeValid := true, codesValid := false, inBits := BitVec.ofNat 32 t.bits.length
      inp := advance t.bits.length s.inp } ∧
    holds m 0#10 t = true ∧ preorderAt m 0 t = true ∧
    (∀ k, 2 * t.leaves - 1 ≤ k → Memory.get Node.blank m k = Memory.get Node.blank s.node k)

/-- R271, R274, R276, R320: an input that does not go on with a tree of at most 257 leaves makes DESERIALIZE, and
DECODE after its magic, fail CorruptHeader, and leaves no tree; the slots written stay hidden. Where 514 tag bits are
read, the last is consumed and counted. DECODE closes the output (R357). -/
def Obligations.DeserializeRejectsOtherInput : Prop := ∀ (s : State) (header : Bits), Quiet s → MemoryForm s →
  InputAnswers s.inp → InputEnds s.inp →
  (∀ (t : HuffTree) (rest : Bits), header = t.bits ++ rest → 257 < t.leaves) →
  (unread s.inp = header →
    ∃ m p b, exec .deserialize s = .next { failed .deserialize .corruptHeader s with
        node := m, inp := p, inBits := b, root := 0x3FF#10, nnodes := 0#10, nleaves := 0#9
        treeValid := false, codesValid := false } ∧
      (∀ rest, header = List.replicate 514 false ++ rest → b = 514#32 ∧ p = advance 514 s.inp)) ∧
  (SinkOpen s.out → unread s.inp = bin 32 s.par.magic.toNat ++ header →
    ∃ m p b pad d, exec .decode s = .next { failed .decode .corruptHeader s with
        node := m, inp := p, inBits := b, root := 0x3FF#10, nnodes := 0#10, nleaves := 0#9
        treeValid := false, codesValid := false, out := closedWith [] pad s.out, draws := d } ∧
      PadsToBytes s.out.bits pad ∧
      (∀ rest, header = List.replicate 514 false ++ rest → b = 546#32 ∧ p = advance 546 s.inp))

/-- R275: what SERIALIZE writes for a tree, followed by any bits, DESERIALIZE reads as a tree of identical shape and
Symbols, and reads no bit more. -/
def Obligations.HeaderIdempotence : Prop := ∀ (s u : State) (t : HuffTree) (rest : Bits), Quiet s → s.treeValid = true →
  holds s.node s.root t = true → t.leaves ≤ 257 → SinkOpen s.out →
  Quiet u → MemoryForm u → InputAnswers u.inp →
  ∃ s' written, exec .serialize s = .next s' ∧ s'.done = true ∧ s'.out.bits = s.out.bits ++ written ∧
    (unread u.inp = written ++ rest →
      ∃ u', exec .deserialize u = .next u' ∧ u'.done = true ∧ u'.treeValid = true ∧
        holds u'.node u'.root t = true ∧ u'.inp = advance written.length u.inp)

/-! ### ENCODE and COMPRESS -/

/-- R290, R291, R292, R293, R296: the output of ENCODE. -/
def Obligations.EncodeOutputLaw : Prop := ∀ (s : State) (t : HuffTree) (bs : List Nat) (stream : Bits), Quiet s →
  s.treeValid = true → s.codesValid = true → holds s.node s.root t = true → t.leaves ≤ 257 →
  InputAnswers s.inp → InputEnds s.inp → SinkOpen s.out → bs = bytesOfBits (unread s.inp) →
  (∀ b ∈ bs, (s.codeAt b).valid = true) → (s.codeAt 256).valid = true →
  stream = bin 32 s.par.magic.toNat ++ t.bits ++ bs.flatMap (fun b => (s.codeAt b).bits) ++ (s.codeAt 256).bits →
  ∃ pad d, exec .encode s = .next { completed .encode s with
      out := closedWith stream pad s.out, outBits := BitVec.ofNat 32 stream.length
      inBits := BitVec.ofNat 32 (8 * bs.length), syms := BitVec.ofNat 32 bs.length
      inp := exhausted (8 * bs.length) s.inp, draws := d } ∧
    PadsToBytes (s.out.bits ++ stream) pad

/-- R295, R290: a byte without a code fails UncodedSymbol where it stands, after the bits already written, and so does
a missing EOF_SYM code at the terminator; the failure epilogue closes the sink (R357). -/
def Obligations.EncodeUncodedSymbol : Prop := ∀ (s : State) (t : HuffTree) (pre : List Nat) (stream : Bits), Quiet s →
  s.treeValid = true → s.codesValid = true → holds s.node s.root t = true → t.leaves ≤ 257 →
  InputAnswers s.inp → SinkOpen s.out → (∀ b ∈ pre, (s.codeAt b).valid = true) →
  stream = bin 32 s.par.magic.toNat ++ t.bits ++ pre.flatMap (fun b => (s.codeAt b).bits) →
  (∀ b post, bytesOfBits (unread s.inp) = pre ++ b :: post → (s.codeAt b).valid = false →
    ∃ pad d, exec .encode s = .next { failed .encode .uncodedSymbol s with
        out := closedWith stream pad s.out, outBits := BitVec.ofNat 32 stream.length
        inBits := BitVec.ofNat 32 (8 * (pre.length + 1)), syms := BitVec.ofNat 32 pre.length
        inp := advance (8 * (pre.length + 1)) s.inp, draws := d } ∧
      PadsToBytes (s.out.bits ++ stream) pad) ∧
  (InputEnds s.inp → bytesOfBits (unread s.inp) = pre → (s.codeAt 256).valid = false →
    ∃ pad d, exec .encode s = .next { failed .encode .uncodedSymbol s with
        out := closedWith stream pad s.out, outBits := BitVec.ofNat 32 stream.length
        inBits := BitVec.ofNat 32 (8 * pre.length), syms := BitVec.ofNat 32 pre.length
        inp := exhausted (8 * pre.length) s.inp, draws := d } ∧
      PadsToBytes (s.out.bits ++ stream) pad)

/-- R89, R403: on a closed sink SERIALIZE, ENCODE, DECODE and COMPRESS fail PortError at their first write: SERIALIZE
and ENCODE with no other effect, DECODE after the first code of a byte, COMPRESS with its tree and codes made. -/
def Obligations.ClosedSinkFails : Prop := ∀ s : State, Quiet s → OutputAnswers s.out → s.out.closed = true →
  (s.treeValid = true → s.root.toNat < 513 → exec .serialize s = .next (failed .serialize .portError s)) ∧
  (s.treeValid = true → s.codesValid = true → exec .encode s = .next (failed .encode .portError s)) ∧
  (∀ (t : HuffTree) (c : Sym) (p rest stream : Bits), MemoryForm s → InputAnswers s.inp → t.leaves ≤ 257 →
    (c, p) ∈ t.paths [] → c ≠ 256#9 → p ≠ [] → stream = bin 32 s.par.magic.toNat ++ t.bits ++ p →
    unread s.inp = stream ++ rest →
    ∃ m cur, exec .decode s = .next { failed .decode .portError s with
        node := m, root := 0#10, nnodes := BitVec.ofNat 10 (2 * t.leaves - 1), nleaves := BitVec.ofNat 9 t.leaves
        treeValid := true, codesValid := false, cur := cur, inBits := BitVec.ofNat 32 stream.length
        inp := advance stream.length s.inp } ∧
      holds m 0#10 t = true) ∧
  (∀ bs : List Nat, MemoryForm s → InputAnswers s.inp → InputEnds s.inp → s.inp.rewindable = true → s.inp.pos = 0 →
    s.inp.eof = false → bs = bytesOfBits s.inp.bits → bs.length + 1 ≤ Config.maxCount →
    ∃ h m c r nn nl, exec .compress s = .next { failed .compress .portError s with
        hist := h, node := m, code := c, root := r, nnodes := nn, nleaves := nl, treeValid := true, codesValid := true
        inBits := BitVec.ofNat 32 (8 * bs.length) } ∧
      (∀ k < 256, (Memory.get 0#32 h k).toNat = bs.count k))

/-- R302: COMPRESS leaves what COUNT; INRESET; BUILD; GENCODES; ENCODE leave, but for IN_BITS, which counts both passes
(R300), and CMD's read-back, which R302 does not list (R152; DEDUCED, log 23). -/
def Obligations.CompressEqualsTheSequence : Prop := ∀ s t u : State, Quiet s → MemoryForm s → InputAnswers s.inp →
  InputEnds s.inp → s.inp.rewindable = true → OutputAnswers s.out → exec .count s = .next t →
  andThen (exec .inreset t) (fun t2 => andThen (exec .build t2) fun t3 =>
    andThen (exec .gencodes t3) fun t4 => exec .encode t4) = .next u →
  exec .compress s = .next { u with cmd := encode .compress, inBits := t.inBits + u.inBits }

/-- R300, R296: COMPRESS of a byte sequence that the input port holds from its start, onto an open sink. -/
def Obligations.CompressWritesTheStream : Prop := ∀ (s : State) (bs : List Nat), Quiet s → MemoryForm s →
  InputAnswers s.inp → InputEnds s.inp → s.inp.rewindable = true → s.inp.pos = 0 → s.inp.eof = false → SinkOpen s.out →
  bs = bytesOfBits s.inp.bits → bs.length + 1 ≤ Config.maxCount →
  ∃ h m c t r stream pad d, exec .compress s = .next { completed .compress s with
      hist := h, node := m, code := c, root := r, nnodes := BitVec.ofNat 10 (2 * t.leaves - 1)
      nleaves := BitVec.ofNat 9 t.leaves, treeValid := true, codesValid := true
      out := closedWith stream pad s.out, outBits := BitVec.ofNat 32 stream.length
      inBits := BitVec.ofNat 32 (16 * bs.length), syms := BitVec.ofNat 32 bs.length
      inp := exhausted (8 * bs.length) s.inp, draws := d } ∧
    (∀ k < 256, (Memory.get 0#32 h k).toNat = bs.count k) ∧
    holds m r t = true ∧ (∀ k ≤ 256, Memory.get CodeEntry.invalid c k = t.codeOf k) ∧
    stream = bin 32 s.par.magic.toNat ++ t.bits ++ bs.flatMap (fun b => (t.codeOf b).bits) ++ (t.codeOf 256).bits ∧
    (∀ b ∈ bs, (t.codeOf b).valid = true) ∧ (t.codeOf 256).valid = true ∧
    PadsToBytes (s.out.bits ++ stream) pad

/-! ### DECODE -/

/-- R320, R323, R324: DECODE on magic, a tree, the paths of any leaves that are not EOF_SYM, and an EOF_SYM leaf's
path: it writes the low 8 bits of each symbol, stops at EOF_SYM and reads no bit more. That the slots at or above
NNODES keep what they held is the model's choice (R36 and I12 leave them unspecified; log 13). -/
def Obligations.DecodeWalksToEof : Prop :=
  ∀ (s : State) (t : HuffTree) (body : List (Sym × Bits)) (pe rest stream bytes : Bits), Quiet s → MemoryForm s →
    InputAnswers s.inp → SinkOpen s.out → t.leaves ≤ 257 →
    (∀ e ∈ body, e ∈ t.paths [] ∧ e.1 ≠ 256#9) → (256#9, pe) ∈ t.paths [] →
    stream = bin 32 s.par.magic.toNat ++ t.bits ++ body.flatMap (fun e => e.2) ++ pe →
    unread s.inp = stream ++ rest → bytes = body.flatMap (fun e => bin 8 e.1.toNat) →
    ∃ m cur pad d, exec .decode s = .next { completed .decode s with
        node := m, root := 0#10, nnodes := BitVec.ofNat 10 (2 * t.leaves - 1), nleaves := BitVec.ofNat 9 t.leaves
        treeValid := true, codesValid := false, cur := cur, inBits := BitVec.ofNat 32 stream.length
        outBits := BitVec.ofNat 32 bytes.length, syms := BitVec.ofNat 32 body.length
        inp := advance stream.length s.inp, out := closedWith bytes pad s.out, draws := d } ∧
      holds m 0#10 t = true ∧ preorderAt m 0 t = true ∧
      (∀ k, 2 * t.leaves - 1 ≤ k → Memory.get Node.blank m k = Memory.get Node.blank s.node k) ∧
      PadsToBytes (s.out.bits ++ bytes) pad

/-- R321: a stream that does not begin with MAGIC, or is shorter, fails UnrecognizedFormat: no tree bit is read, no
bit is written, the sink is closed. -/
def Obligations.DecodeUnrecognizedFormat : Prop := ∀ s : State, Quiet s → InputAnswers s.inp → SinkOpen s.out →
  (unread s.inp).take 32 ≠ bin 32 s.par.magic.toNat → 32 ≤ (unread s.inp).length ∨ InputEnds s.inp →
  ∃ pad d, exec .decode s = .next { failed .decode .unrecognizedFormat s with
      inBits := if 32 ≤ (unread s.inp).length then 32#32 else 0#32
      inp := if 32 ≤ (unread s.inp).length then advance 32 s.inp else exhausted 0 s.inp
      out := closedWith [] pad s.out, draws := d } ∧
    PadsToBytes s.out.bits pad ∧ (s.out.bits = [] → pad = [])

/-- R322: an input that ends inside a code fails TruncatedStream; the bytes written stay. With a tree of no EOF_SYM
leaf every input that ends does so (R325). -/
def Obligations.DecodeTruncatedStream : Prop :=
  ∀ (s : State) (t : HuffTree) (header : Bits), Quiet s → MemoryForm s → InputAnswers s.inp → InputEnds s.inp →
    SinkOpen s.out → t.leaves ≤ 257 → header = bin 32 s.par.magic.toNat ++ t.bits →
    (∀ (body : List (Sym × Bits)) (last : Sym × Bits) (part stream bytes : Bits),
      (∀ e ∈ body, e ∈ t.paths [] ∧ e.1 ≠ 256#9) → last ∈ t.paths [] → part <+: last.2 → part ≠ last.2 →
      stream = header ++ body.flatMap (fun e => e.2) ++ part → unread s.inp = stream →
      bytes = body.flatMap (fun e => bin 8 e.1.toNat) →
      ∃ m cur pad d, exec .decode s = .next { failed .decode .truncatedStream s with
          node := m, root := 0#10, nnodes := BitVec.ofNat 10 (2 * t.leaves - 1), nleaves := BitVec.ofNat 9 t.leaves
          treeValid := true, codesValid := false, cur := cur, inBits := BitVec.ofNat 32 stream.length
          outBits := BitVec.ofNat 32 bytes.length, syms := BitVec.ofNat 32 body.length
          inp := exhausted stream.length s.inp, out := closedWith bytes pad s.out, draws := d } ∧
        holds m 0#10 t = true ∧ PadsToBytes (s.out.bits ++ bytes) pad) ∧
    (∀ rest : Bits, 1 < t.leaves → 256#9 ∉ t.syms → unread s.inp = header ++ rest →
      ∃ u, exec .decode s = .next u ∧ u.pos = .idle ∧ u.errcode = some .truncatedStream ∧ u.out.closed = true ∧
        u.inp = exhausted (header.length + rest.length) s.inp)

/-- R326: a one-leaf tree of EOF_SYM ends DECODE at once, with no body bit read; one of another symbol fails
CorruptHeader before the body. -/
def Obligations.DecodeOneLeafTree : Prop := ∀ (s : State) (c : Sym) (rest : Bits), Quiet s → MemoryForm s →
  InputAnswers s.inp → SinkOpen s.out → unread s.inp = bin 32 s.par.magic.toNat ++ true :: bin 9 c.toNat ++ rest →
  ∃ m cur pad d, exec .decode s = .next
      { (if c = 256#9 then completed .decode s else failed .decode .corruptHeader s) with
        node := m, root := 0#10, nnodes := 1#10, nleaves := 1#9, treeValid := true, codesValid := false
        cur := cur, inBits := 42#32, inp := advance 42 s.inp, out := closedWith [] pad s.out, draws := d } ∧
    holds m 0#10 (.leaf c) = true ∧ PadsToBytes s.out.bits pad

/-- R327: the round trip. COMPRESS of any bytes, then DECODE of what it wrote with any padding, gives the bytes
back, for every MAGIC and TIE. -/
def Obligations.RoundTrip : Prop := ∀ (s : State) (bs : List Nat), Quiet s → MemoryForm s → InputAnswers s.inp →
  InputEnds s.inp → s.inp.rewindable = true → s.inp.pos = 0 → s.inp.eof = false → SinkOpen s.out → s.out.bits = [] →
  (∀ b ∈ bs, b < 256) → s.inp.bits = bitsOfBytes bs → bs.length + 1 ≤ Config.maxCount →
  ∃ t stream pad, exec .compress s = .next t ∧ t.done = true ∧ t.out.bits = stream ++ pad ∧ pad.length ≤ 7 ∧
    ∀ (u : State) (otherPad : Bits), Quiet u → MemoryForm u → u.par.magic = s.par.magic → InputAnswers u.inp →
      unread u.inp = stream ++ otherPad → SinkOpen u.out → u.out.bits = [] →
      ∃ v, exec .decode u = .next v ∧ v.done = true ∧ v.out.bits = bitsOfBytes bs ∧ v.out.closed = true ∧
        v.inp = advance stream.length u.inp

/-! ### Errors -/

/-- R86, R88, R89, R90, R350, R356, R357, R360: an `IoErr` that the environment draws, at an input request or an
OutWrite, ends the piece with PortError: the failure epilogue of a command that closes the output goes on with the
close, any other command has failed. An `IoErr` of the checked OutClose is PortError too, and is not retried. What the
port then is nothing says (I8), but for the bits that a sink has accepted (R89). -/
def Obligations.PortFailureIsPortError : Prop := ∀ (s : State) (rest : List Bool),
  (asksInput s.pos = true → s.inp.silent = false → s.inp.fails = true :: rest →
    ∃ p d, p.fails = rest ∧ turn s = .next
      (if closesOutput (running s) then
        { s with inp := p, draws := d, phase := .closing, pos := .failClose .portError }
      else
        { s with
          inp := p, draws := d, errcode := some .portError, fail := true, phase := .failed, pos := .idle
          stack := [], pq := [] })) ∧
  (asksOutput s = true → asksClose s.pos = false → slotExists s = true → s.out.silent = false →
    s.out.fails = true :: rest →
    ∃ o d, o.bits = s.out.bits ∧ o.fails = rest ∧ turn s = .next
      (if closesOutput (running s) then
        { s with out := o, draws := d, phase := .closing, pos := .failClose .portError }
      else
        { s with
          out := o, draws := d, errcode := some .portError, fail := true, phase := .failed, pos := .idle
          stack := [], pq := [] })) ∧
  (s.pos = .close → s.out.silent = false → s.out.fails = true :: rest →
    ∃ o d, o.fails = rest ∧ turn s = .next { s with
      out := o, draws := d, errcode := some .portError, fail := true, phase := .failed, pos := .idle
      stack := [], pq := [] })

/-- R356, R358: the failure epilogue's OutClose does not replace the error, whatever it answers. -/
def Obligations.FirstErrorWins : Prop := ∀ (s : State) (k : ErrKind), s.pos = .failClose k → s.out.silent = false →
  ∃ o d, turn s = .next { s with
    errcode := some k, fail := true, phase := .failed, pos := .idle, stack := [], pq := [], out := o, draws := d }

/-- R161, R357: ENCODE, DECODE and COMPRESS close the output on every exit path after their prerequisite check, and
no other command but OUTCLOSE closes it; both on a sink whose environment draws no failure, since the latch is any
value after one (I8, I10). -/
def Obligations.EveryExitClosesTheOutput : Prop := ∀ (i : Instr) (s t : State), WellFormed i → s.pos = .idle →
  exec i s = .next t →
  (closesOutput i = true → ready i s = true → s.out.fails = [] → t.pos = .idle → t.out.closed = true) ∧
  (closesOutput i = false → i ≠ .outclose → s.out.fails = [] → s.out.failed = false → t.out.closed = s.out.closed)

/-- R351: which errors each command can raise. -/
def Obligations.ErrorsByCommand : Prop := ∀ (i : Instr) (s t : State) (k : ErrKind), WellFormed i → s.pos = .idle →
  exec i s = .next t → t.errcode = some k → mayRaise i k = true

/-- R93, R156, R325, R370, I9: the two ways in which a command never ends. While the port that a running command asks
does not answer, nothing changes. DECODE with a tree of no EOF_SYM leaf, on an input that never ends, is still running
after any number of turns. -/
def Obligations.UnservedCommandsNeverEnd : Prop :=
  (∀ s : State, s.pos ≠ .idle → s.host = [] → waiting s = true → step s = .next s) ∧
  (∀ (s : State) (t : HuffTree) (rest : Bits), Quiet s → MemoryForm s → InputAnswers s.inp →
    s.inp.endless.isSome = true → s.inp.eof = false → SinkOpen s.out → t.leaves ≤ 257 → 1 < t.leaves →
    256#9 ∉ t.syms → unread s.inp = bin 32 s.par.magic.toNat ++ t.bits ++ rest →
    ∀ n, ∃ u, run n (accept (encode .decode) s) = .next u ∧ u.pos ≠ .idle)

/-! ### Frames and invariants over all commands and steps -/

/-- R54, R55, R81, R157: what no command changes, and which commands change HIST, NODE, CODE and the ports. That `cur`
changes only under DECODE is the model's (R60, I13; log 16), and the bits of the input are said to stay only where
its environment draws no failure (I8; log 7). -/
def Obligations.CommandFrame : Prop := ∀ (i : Instr) (s t : State), WellFormed i → s.pos = .idle →
  exec i s = .next t →
  t.par = s.par ∧ t.ie = s.ie ∧ t.dropped = s.dropped ∧ t.nodeSel = s.nodeSel ∧ t.codeSel = s.codeSel ∧
  t.reads = s.reads ∧ t.host.map HostEvent.op = s.host.map HostEvent.op ∧
  (s.inp.fails = [] → s.inp.failed = false → s.inp.rewindable = true →
    t.inp.bits = s.inp.bits ∧ t.inp.endless = s.inp.endless) ∧
  s.out.bits <+: t.out.bits ∧
  (writesHist i = false → t.hist = s.hist) ∧
  (writesTree i = false →
    t.node = s.node ∧ t.root = s.root ∧ t.nnodes = s.nnodes ∧ t.nleaves = s.nleaves ∧ t.treeValid = s.treeValid) ∧
  (writesTree i = false → i ≠ .gencodes → t.codesValid = s.codesValid) ∧
  (writesCode i = false → t.code = s.code) ∧
  (usesInput i = false → t.inp = s.inp) ∧
  (usesOutput i = false → t.out = s.out) ∧
  (usesOutput i = false →
    usesInput i = false ∨ (s.inp.fails = [] ∧ s.inp.failed = false ∧ s.inp.rewindable = true) →
    t.draws = s.draws) ∧
  (i ≠ .decode → t.cur = s.cur)

/-- R50, R51, R53: every step keeps the memories in canonical form and within their sizes. -/
def Obligations.StepKeepsMemoryForm : Prop := ∀ s t : State, MemoryForm s → step s = .next t → MemoryForm t

/-- R33, R152, R160, R356, R363, R35, R56: every step keeps the lifecycle of STATUS. -/
def Obligations.StepKeepsLifecycle : Prop := ∀ s t : State, Lifecycle s → step s = .next t → Lifecycle t

/-- The state after reset meets the three invariants. -/
def Obligations.ResetMeetsTheInvariants : Prop := MemoryForm .reset ∧ Lifecycle .reset ∧ TreeInv .reset

/-- R52, R231, R273: every step keeps the tree invariant, and so does every command from rest: TREE_VALID = 1 means a
strict binary tree in slots 0..NNODES−1, also where a command is cut by an event of the host and goes on in later
steps. The parts of a tree in the making are the model's own form (`PartialTree`). -/
def Obligations.StepKeepsTheStrictTree : Prop :=
  (∀ s t : State, TreeInv s → step s = .next t → TreeInv t) ∧
  (∀ (i : Instr) (s t : State), s.pos = .idle → TreeInv s → exec i s = .next t → TreeInv t)
end

