-- ==== Sys2Proof/Laws/Bits.lean ====
section
/-! SUPPORT. Bit strings: `bin` and `val` are inverse (R11, R85, R291), and whole bytes (R91). -/

namespace Sys2Proof.Machine

@[simp] theorem bin_length (n v : Nat) : (bin n v).length = n := by
  induction n with
  | zero => rfl
  | succ n ih => simp [bin, ih]

theorem foldl_val (s : Bits) (a : Nat) :
    s.foldl (fun a b => 2 * a + b.toNat) a = a * 2 ^ s.length + val s := by
  induction s generalizing a with
  | nil => simp [val]
  | cons b s ih =>
    simp only [List.foldl_cons, val, List.length_cons]
    rw [ih, ih (2 * 0 + b.toNat)]
    simp [pow_succ]
    ring

@[simp] theorem val_nil : val [] = 0 := rfl

theorem val_cons (b : Bool) (s : Bits) : val (b :: s) = b.toNat * 2 ^ s.length + val s := by
  rw [val, List.foldl_cons, foldl_val]
  simp

theorem val_append (s t : Bits) : val (s ++ t) = val s * 2 ^ t.length + val t := by
  rw [val, List.foldl_append, foldl_val]
  rfl

theorem val_lt (s : Bits) : val s < 2 ^ s.length := by
  induction s with
  | nil => simp
  | cons b s ih =>
    rw [val_cons, List.length_cons, pow_succ]
    cases b <;> simp <;> omega

theorem val_bin (n v : Nat) : val (bin n v) = v % 2 ^ n := by
  induction n with
  | zero => simp [bin, Nat.mod_one]
  | succ n ih =>
    rw [bin, val_cons, ih, bin_length, Nat.mod_pow_succ, Nat.toNat_testBit]
    ring

/-- Writing a code as a number of its length writes the code (R291). -/
@[simp] theorem bin_val (s : Bits) : bin s.length (val s) = s := by
  suffices h : ∀ (s : Bits) (a : Nat), bin s.length (a * 2 ^ s.length + val s) = s by
    simpa using h s 0
  intro s
  induction s with
  | nil => intro a; rfl
  | cons b s ih =>
    intro a
    simp only [List.length_cons, bin]
    have hv := val_lt s
    congr 1
    · rw [val_cons, Nat.testBit_eq_decide_div_mod_eq]
      have : (a * 2 ^ (s.length + 1) + (b.toNat * 2 ^ s.length + val s)) / 2 ^ s.length = 2 * a + b.toNat := by
        rw [show a * 2 ^ (s.length + 1) + (b.toNat * 2 ^ s.length + val s)
          = val s + (2 * a + b.toNat) * 2 ^ s.length by ring]
        rw [Nat.add_mul_div_right _ _ (Nat.two_pow_pos _), Nat.div_eq_of_lt hv]
        simp
      rw [this]
      cases b <;> simp
    · have := ih (2 * a + b.toNat)
      rw [val_cons]
      rw [show a * 2 ^ (s.length + 1) + (b.toNat * 2 ^ s.length + val s)
        = (2 * a + b.toNat) * 2 ^ s.length + val s by ring]
      exact this

theorem bin_inj {n v w : Nat} (hv : v < 2 ^ n) (hw : w < 2 ^ n) (h : bin n v = bin n w) : v = w := by
  have := congrArg val h
  rwa [val_bin, val_bin, Nat.mod_eq_of_lt hv, Nat.mod_eq_of_lt hw] at this

/-- The whole bytes of a byte followed by more bits. -/
theorem bytesOfBits_bin_append (b : Nat) (rest : Bits) :
    bytesOfBits (bin 8 b ++ rest) = b % 256 :: bytesOfBits rest := by
  have h : val (bin 8 b) = b % 256 := val_bin 8 b
  simp only [bin, List.cons_append, List.nil_append, bytesOfBits] at h ⊢
  rw [h]

/-- R91: the bytes of a byte stream's bits. -/
theorem bytesOfBits_bitsOfBytes {bs : List Nat} (h : ∀ b ∈ bs, b < 256) : bytesOfBits (bitsOfBytes bs) = bs := by
  induction bs with
  | nil => rfl
  | cons b bs ih =>
    rw [bitsOfBytes, List.flatMap_cons, bytesOfBits_bin_append, ← bitsOfBytes,
      ih fun c hc => h c (List.mem_cons_of_mem _ hc), Nat.mod_eq_of_lt (h b List.mem_cons_self)]

/-- A bit string of at least 8 bits begins with its first whole byte. -/
theorem bytesOfBits_of_le {s : Bits} (h : 8 ≤ s.length) :
    bytesOfBits s = val (s.take 8) :: bytesOfBits (s.drop 8) := by
  match s, h with
  | a :: b :: c :: d :: e :: f :: g :: i :: rest, _ => rfl

/-- Fewer than 8 bits hold no whole byte. -/
theorem bytesOfBits_of_lt {s : Bits} (h : s.length < 8) : bytesOfBits s = [] := by
  match s, h with
  | [], _ => rfl
  | [_], _ => rfl
  | [_, _], _ => rfl
  | [_, _, _], _ => rfl
  | [_, _, _, _], _ => rfl
  | [_, _, _, _, _], _ => rfl
  | [_, _, _, _, _, _], _ => rfl
  | [_, _, _, _, _, _, _], _ => rfl

/-- The padding of R90 ends on a byte boundary, with at most 7 bits. -/
theorem padCount_spec (s : Bits) : padCount s ≤ 7 ∧ (s.length + padCount s) % 8 = 0 := by
  unfold padCount
  omega

@[simp] theorem padding_length (d k : Nat) : (padding d k).length = k := by simp [padding]

end Sys2Proof.Machine
end

