-- ==== Sys2Proof/Laws/Memory.lean ====
section
/-! SUPPORT. The laws of a memory: read after write, the canonical form kept by every write, and that canonical
memories with equal cells are equal. -/

namespace Sys2Proof.Machine

@[simp] theorem Memory.get_nil {α : Type} (d : α) (k : Nat) : Memory.get d [] k = d := rfl

variable {α : Type} [DecidableEq α]

/-- A cell other than the one written is unchanged. -/
theorem Memory.get_set_other (d : α) (m : Memory α) {k j : Nat} (v : α) (h : j ≠ k) :
    Memory.get d (Memory.set d m k v) j = Memory.get d m j := by
  induction m with
  | nil => by_cases hv : v = d <;> simp [Memory.set, Memory.get, hv, h]
  | cons c m ih =>
    obtain ⟨i, w⟩ := c
    simp only [Memory.set]
    split
    · split <;> simp [Memory.get, h]
    · split
      · subst_vars
        split <;> simp [Memory.get, h]
      · simp [Memory.get, ih]

theorem Memory.get_below (d : α) {size lo : Nat} {m : Memory α} (h : Memory.wfFrom d size lo m = true) {k : Nat}
    (hk : k < lo) : Memory.get d m k = d := by
  induction m generalizing lo with
  | nil => rfl
  | cons c m ih =>
    obtain ⟨i, w⟩ := c
    simp only [Memory.wfFrom, Bool.and_eq_true, decide_eq_true_eq] at h
    obtain ⟨⟨⟨h1, h2⟩, h3⟩, h4⟩ := h
    have : k ≠ i := by omega
    simp [Memory.get, this, ih h4 (by omega)]

/-- In a canonical memory the cell written reads as the value written. -/
theorem Memory.get_set_self_of_wfFrom (d : α) {size lo : Nat} {m : Memory α} (h : Memory.wfFrom d size lo m = true)
    (k : Nat) (v : α) : Memory.get d (Memory.set d m k v) k = v := by
  induction m generalizing lo with
  | nil => by_cases hv : v = d <;> simp [Memory.set, Memory.get, hv]
  | cons c m ih =>
    obtain ⟨i, w⟩ := c
    simp only [Memory.wfFrom, Bool.and_eq_true, decide_eq_true_eq] at h
    obtain ⟨⟨⟨h1, h2⟩, h3⟩, h4⟩ := h
    simp only [Memory.set]
    split
    · next hlt =>
      split
      · next hv =>
        have : k ≠ i := by omega
        simp [Memory.get, this, Memory.get_below d h4 (show k < i + 1 by omega), hv]
      · simp [Memory.get]
    · split
      · next heq =>
        split
        · next hv => rw [heq, Memory.get_below d h4 (Nat.lt_succ_self i), hv]
        · simp [Memory.get]
      · next hne => simp [Memory.get, hne, ih h4]

theorem Memory.get_set_self (d : α) {size : Nat} {m : Memory α} (h : Memory.wf d size m = true) (k : Nat) (v : α) :
    Memory.get d (Memory.set d m k v) k = v := Memory.get_set_self_of_wfFrom d h k v

/-- A value other than the unlisted one is read back from any memory, canonical or not. -/
theorem Memory.get_set_self_of_ne (d : α) (m : Memory α) (k : Nat) {v : α} (hv : v ≠ d) :
    Memory.get d (Memory.set d m k v) k = v := by
  induction m with
  | nil => simp [Memory.set, Memory.get, hv]
  | cons c m ih =>
    obtain ⟨i, w⟩ := c
    simp only [Memory.set, hv, if_false]
    split
    · simp [Memory.get]
    · split
      · simp [Memory.get]
      · next hne => simp [Memory.get, hne, ih]

theorem Memory.wfFrom_mono (d : α) {size lo lo' : Nat} {m : Memory α} (hlo : lo' ≤ lo)
    (h : Memory.wfFrom d size lo m = true) : Memory.wfFrom d size lo' m = true := by
  cases m with
  | nil => rfl
  | cons c m =>
    obtain ⟨i, w⟩ := c
    simp only [Memory.wfFrom, Bool.and_eq_true, decide_eq_true_eq] at h ⊢
    exact ⟨⟨⟨by omega, h.1.1.2⟩, h.1.2⟩, h.2⟩

theorem Memory.wfFrom_set (d : α) {size lo : Nat} {m : Memory α} (h : Memory.wfFrom d size lo m = true) {k : Nat}
    (v : α) (hlo : lo ≤ k) (hk : k < size) : Memory.wfFrom d size lo (Memory.set d m k v) = true := by
  induction m generalizing lo with
  | nil => by_cases hv : v = d <;> simp [Memory.set, Memory.wfFrom, hv, hlo, hk]
  | cons c m ih =>
    obtain ⟨i, w⟩ := c
    have h0 := h
    simp only [Memory.wfFrom, Bool.and_eq_true, decide_eq_true_eq] at h
    obtain ⟨⟨⟨h1, h2⟩, h3⟩, h4⟩ := h
    simp only [Memory.set]
    split
    · next hlt =>
      split
      · exact h0
      · next hv =>
        simp only [Memory.wfFrom, Bool.and_eq_true, decide_eq_true_eq]
        exact ⟨⟨⟨hlo, hk⟩, hv⟩, ⟨⟨by omega, h2⟩, h3⟩, h4⟩
    · split
      · next heq =>
        subst heq
        split
        · exact Memory.wfFrom_mono d (by omega) h4
        · next hv =>
          simp only [Memory.wfFrom, Bool.and_eq_true, decide_eq_true_eq]
          exact ⟨⟨⟨hlo, hk⟩, hv⟩, h4⟩
      · next hne =>
        simp only [Memory.wfFrom, Bool.and_eq_true, decide_eq_true_eq]
        exact ⟨⟨⟨h1, h2⟩, h3⟩, ih h4 (by omega)⟩

/-- A write below the size keeps the canonical form. -/
theorem Memory.wf_set (d : α) {size : Nat} {m : Memory α} (h : Memory.wf d size m = true) {k : Nat} (v : α)
    (hk : k < size) : Memory.wf d size (Memory.set d m k v) = true := Memory.wfFrom_set d h v (Nat.zero_le k) hk

@[simp] theorem Memory.wf_nil (d : α) (size : Nat) : Memory.wf d size [] = true := rfl

/-- A canonical memory holds nothing at or above its size. -/
theorem Memory.get_above (d : α) {size lo : Nat} {m : Memory α} (h : Memory.wfFrom d size lo m = true) {k : Nat}
    (hk : size ≤ k) : Memory.get d m k = d := by
  induction m generalizing lo with
  | nil => rfl
  | cons c m ih =>
    obtain ⟨i, w⟩ := c
    simp only [Memory.wfFrom, Bool.and_eq_true, decide_eq_true_eq] at h
    have : k ≠ i := by omega
    simp [Memory.get, this, ih h.2]

theorem Memory.eq_of_get_eq_from (d : α) {size lo : Nat} {m m' : Memory α} (h : Memory.wfFrom d size lo m = true)
    (h' : Memory.wfFrom d size lo m' = true) (e : ∀ k, Memory.get d m k = Memory.get d m' k) : m = m' := by
  induction m generalizing lo m' with
  | nil =>
    cases m' with
    | nil => rfl
    | cons c m' =>
      obtain ⟨j, w⟩ := c
      simp only [Memory.wfFrom, Bool.and_eq_true, decide_eq_true_eq] at h'
      have := e j
      simp only [Memory.get, if_true] at this
      exact absurd this.symm h'.1.2
  | cons c m ih =>
    obtain ⟨i, v⟩ := c
    have hm := h
    simp only [Memory.wfFrom, Bool.and_eq_true, decide_eq_true_eq] at h
    cases m' with
    | nil =>
      have := e i
      simp only [Memory.get, if_true] at this
      exact absurd this h.1.2
    | cons c' m' =>
      obtain ⟨j, w⟩ := c'
      have hm' := h'
      simp only [Memory.wfFrom, Bool.and_eq_true, decide_eq_true_eq] at h'
      have hij : i = j := by
        rcases Nat.lt_trichotomy i j with hlt | heq | hgt
        · have := e i
          rw [Memory.get_below d (size := size) (m := (j, w) :: m') (lo := j)
            (by simp [Memory.wfFrom, h'.1.1.2, h'.1.2, h'.2]) hlt] at this
          simp only [Memory.get, if_true] at this
          exact absurd this h.1.2
        · exact heq
        · have := e j
          rw [Memory.get_below d (size := size) (m := (i, v) :: m) (lo := i)
            (by simp [Memory.wfFrom, h.1.1.2, h.1.2, h.2]) hgt] at this
          simp only [Memory.get, if_true] at this
          exact absurd this.symm h'.1.2
      subst hij
      have hv : v = w := by simpa [Memory.get] using e i
      subst hv
      congr 1
      refine ih h.2 h'.2 fun k => ?_
      by_cases hk : k = i
      · subst hk
        rw [Memory.get_below d h.2 (Nat.lt_succ_self k), Memory.get_below d h'.2 (Nat.lt_succ_self k)]
      · simpa [Memory.get, hk] using e k

/-- Canonical memories with equal cells are equal. -/
theorem Memory.eq_of_get_eq (d : α) {size : Nat} {m m' : Memory α} (h : Memory.wf d size m = true)
    (h' : Memory.wf d size m' = true) (e : ∀ k, Memory.get d m k = Memory.get d m' k) : m = m' :=
  Memory.eq_of_get_eq_from d h h' e

end Sys2Proof.Machine
end

