-- ==== Sys2Proof/Laws/Ports.lean ====
section
/-! SUPPORT. What a port transaction answers and leaves (R86, R88, R89, R90), for a port that draws no failure and
for one that draws one. -/

namespace Sys2Proof.Machine

/-- A draw of no failure leaves an empty list of draws. -/
@[simp] theorem drawFail_nil : drawFail [] = (false, []) := rfl

@[simp] theorem drawFail_cons (b : Bool) (l : List Bool) : drawFail (b :: l) = (b, l) := rfl

@[simp] theorem streamed_zero (e k : Nat) : streamed e k 0 = [] := rfl

@[simp] theorem streamed_length (e k m : Nat) : (streamed e k m).length = m := by simp [streamed]

@[simp] theorem InPort.settle_of_conforming {p : InPort} (d : Nat) (h : p.failed = false) : p.settle d = (p, d) := by
  simp [InPort.settle, h]

@[simp] theorem OutPort.settle_of_conforming {p : OutPort} (d : Nat) (h : p.failed = false) : p.settle d = (p, d) := by
  simp [OutPort.settle, h]

/-- The next bits of a port are `n` bits. -/
theorem InPort.next_length {n : Nat} {p : InPort} {u : Bits} (h : p.next n = some u) : u.length = n := by
  unfold InPort.next at h
  cases he : p.endless with
  | none =>
    simp only [he] at h
    split at h
    · cases h
      simp only [List.length_take, List.length_drop]
      omega
    · cases h
  | some e =>
    simp only [he] at h
    cases h
    simp only [List.length_append, List.length_take, List.length_drop, streamed_length]
    omega

@[simp] theorem InPort.settle_silent (d : Nat) (p : InPort) : (p.settle d).1.silent = p.silent := by
  unfold InPort.settle
  split <;> rfl

@[simp] theorem InPort.settle_fails (d : Nat) (p : InPort) : (p.settle d).1.fails = p.fails := by
  unfold InPort.settle
  split <;> rfl

@[simp] theorem OutPort.settle_silent (d : Nat) (p : OutPort) : (p.settle d).1.silent = p.silent := by
  unfold OutPort.settle
  split <;> rfl

@[simp] theorem OutPort.settle_fails (d : Nat) (p : OutPort) : (p.settle d).1.fails = p.fails := by
  unfold OutPort.settle
  split <;> rfl

@[simp] theorem OutPort.settle_bits (d : Nat) (p : OutPort) : (p.settle d).1.bits = p.bits := by
  unfold OutPort.settle
  split <;> rfl

/-- Everything a port does that serves an InRead. -/
theorem InPort.serve_cases (n : Nat) (p : InPort) :
    (p.serve n).2.silent = p.silent ∧ (p.serve n).2.fails = p.fails ∧
    (((p.serve n).1 = .eof ∧ (p.serve n).2.eof = true) ∨
     (∃ u : Bits, (p.serve n).1 = .val (val u) ∧ u.length = n ∧ (p.serve n).2.pos = p.pos + n)) := by
  unfold InPort.serve
  cases he : p.eof
  · cases hn : p.next n with
    | none => simp
    | some u =>
      simp only [Bool.false_eq_true, if_false]
      exact ⟨trivial, trivial, .inr ⟨u, rfl, InPort.next_length hn, trivial⟩⟩
  · simp [he]

/-- InRead whose environment draws a failure. -/
theorem InPort.read_fails {p : InPort} (n d : Nat) (h : (drawFail p.fails).1 = true) :
    p.read n d = (.ioErr, InPort.redraw d { p with fails := (drawFail p.fails).2 }, d + 1) := by
  simp [InPort.read, h]

/-- Everything InRead can do: an environment failure, `Eof` with the latch set, or `Val` of `n` bits. -/
theorem InPort.read_cases (n d : Nat) (p : InPort) :
    (p.read n d).2.1.silent = p.silent ∧ (p.read n d).2.1.fails = (drawFail p.fails).2 ∧
    (((p.read n d).1 = .ioErr ∧ (drawFail p.fails).1 = true) ∨
     ((p.read n d).1 = .eof ∧ (drawFail p.fails).1 = false ∧ (p.read n d).2.1.eof = true) ∨
     (∃ u : Bits, (p.read n d).1 = .val (val u) ∧ u.length = n ∧ (drawFail p.fails).1 = false)) := by
  cases hf : (drawFail p.fails).1
  · obtain ⟨h1, h2, h3⟩ :=
      InPort.serve_cases n (InPort.settle d { p with fails := (drawFail p.fails).2 }).1
    simp only [InPort.read, hf, Bool.false_eq_true, if_false]
    refine ⟨by rw [h1]; simp, by rw [h2]; simp, .inr ?_⟩
    obtain ⟨ha, hb⟩ | ⟨u, hu, hl, -⟩ := h3
    · exact .inl ⟨ha, trivial, hb⟩
    · exact .inr ⟨u, hu, hl, trivial⟩
  · rw [InPort.read_fails n d hf]
    exact ⟨rfl, rfl, .inl ⟨rfl, rfl⟩⟩

/-- What a conforming port keeps in every read that draws no failure. -/
theorem InPort.read_conforming {n d : Nat} {p : InPort} (hf : (drawFail p.fails).1 = false)
    (hp : p.failed = false) : (p.read n d).2.2 = d ∧ (p.read n d).2.1.bits = p.bits ∧
    (p.read n d).2.1.endless = p.endless ∧ (p.read n d).2.1.rewindable = p.rewindable ∧
    (p.read n d).2.1.failed = false := by
  unfold InPort.read
  simp only [hf, Bool.false_eq_true, if_false]
  rw [InPort.settle_of_conforming d (p := { p with fails := (drawFail p.fails).2 }) hp]
  simp only [InPort.serve]
  split
  · simp [hp]
  · split <;> simp [hp]

/-- A conforming port serves the request as it stands. -/
theorem InPort.read_of_answers {p : InPort} (n d : Nat) (ha : InputAnswers p) :
    p.read n d = ((p.serve n).1, (p.serve n).2, d) := by
  obtain ⟨-, hf, hp⟩ := ha
  obtain ⟨bits, endless, pos, eof, fails, failed, rewindable, silent⟩ := p
  simp only at hf hp
  subst hf hp
  simp [InPort.read]

/-- A read of bits that are there. -/
theorem InPort.read_val {n : Nat} {p : InPort} {u rest : Bits} (d : Nat) (ha : InputAnswers p) (hn : u.length = n)
    (h0 : 0 < n) (hu : unread p = u ++ rest) : p.read n d = (.val (val u), advance n p, d) := by
  rw [InPort.read_of_answers n d ha]
  unfold unread at hu
  cases he : p.eof
  · simp only [he, Bool.false_eq_true, if_false] at hu
    have hl : p.pos + n ≤ p.bits.length := by
      have := congrArg List.length hu
      simp only [List.length_drop, List.length_append] at this
      omega
    have ht : (p.bits.drop p.pos).take n = u := by
      rw [hu, ← hn, List.take_append_of_le_length (Nat.le_refl _), List.take_length]
    have hx : p.next n = some u := by
      unfold InPort.next
      cases p.endless <;> simp [ht, hl, hn]
    simp [InPort.serve, he, hx, advance]
  · simp only [he, if_true] at hu
    have := congrArg List.length hu
    simp only [List.length_nil, List.length_append] at this
    omega

/-- A short read of a port that ends sets the latch and delivers nothing. -/
theorem InPort.read_short {n : Nat} {p : InPort} (d : Nat) (ha : InputAnswers p) (hs : InputEnds p)
    (h : (unread p).length < n) : p.read n d = (.eof, exhausted 0 p, d) := by
  rw [InPort.read_of_answers n d ha]
  unfold unread at h
  cases he : p.eof
  · simp only [he, Bool.false_eq_true, if_false, List.length_drop] at h
    have hl : ¬ p.pos + n ≤ p.bits.length := by omega
    have hx : p.next n = none := by simp [InPort.next, show p.endless = none from hs, hl]
    simp [InPort.serve, he, hx, exhausted]
  · cases p
    simp_all [InPort.serve, exhausted]

/-- A port that never ends answers every read with a value (R325, I9). -/
theorem InPort.read_endless {n e : Nat} {p : InPort} (d : Nat) (ha : InputAnswers p) (he : p.eof = false)
    (hs : p.endless = some e) : ∃ u : Bits, u.length = n ∧ p.read n d = (.val (val u), advance n p, d) := by
  obtain ⟨u, hu⟩ : ∃ u, p.next n = some u := by simp [InPort.next, hs]
  refine ⟨u, InPort.next_length hu, ?_⟩
  rw [InPort.read_of_answers n d ha]
  simp [InPort.serve, he, hu, advance]

/-- What is unread after a read of `u`. -/
theorem unread_advance {n : Nat} {p : InPort} {u rest : Bits} (hn : u.length = n) (h0 : 0 < n)
    (hu : unread p = u ++ rest) : unread (advance n p) = rest := by
  unfold unread at hu ⊢
  cases he : p.eof
  · simp only [he, Bool.false_eq_true, if_false, advance] at hu ⊢
    rw [← List.drop_drop, hu, ← hn, List.drop_append_of_le_length (Nat.le_refl _), List.drop_length, List.nil_append]
  · simp only [he, if_true] at hu
    have := congrArg List.length hu
    simp only [List.length_nil, List.length_append] at this
    omega

@[simp] theorem unread_exhausted (n : Nat) (p : InPort) : unread (exhausted n p) = [] := rfl

@[simp] theorem advance_fails (n : Nat) (p : InPort) : (advance n p).fails = p.fails := rfl

@[simp] theorem advance_silent (n : Nat) (p : InPort) : (advance n p).silent = p.silent := rfl

@[simp] theorem advance_bits (n : Nat) (p : InPort) : (advance n p).bits = p.bits := rfl

@[simp] theorem advance_failed (n : Nat) (p : InPort) : (advance n p).failed = p.failed := rfl

@[simp] theorem advance_endless (n : Nat) (p : InPort) : (advance n p).endless = p.endless := rfl

@[simp] theorem advance_rewindable (n : Nat) (p : InPort) : (advance n p).rewindable = p.rewindable := rfl

@[simp] theorem advance_zero (p : InPort) : advance 0 p = p := rfl

theorem advance_advance (m n : Nat) (p : InPort) : advance m (advance n p) = advance (n + m) p := by
  simp [advance, Nat.add_assoc]

theorem exhausted_advance (m n : Nat) (p : InPort) : exhausted m (advance n p) = exhausted (n + m) p := by
  simp [advance, exhausted, Nat.add_assoc]

/-- A write to an open sink appends its bits. -/
theorem OutPort.write_open {p : OutPort} (n v d : Nat) (h : SinkOpen p) :
    p.write n v d = (true, { p with bits := p.bits ++ bin n v }, d) := by
  obtain ⟨⟨-, hf, hp⟩, hc⟩ := h
  cases p
  simp_all [OutPort.write, OutPort.settle]

/-- A write to a closed sink answers `IoErr` and does nothing. -/
theorem OutPort.write_closed {p : OutPort} (n v d : Nat) (h : OutputAnswers p) (hc : p.closed = true) :
    p.write n v d = (false, p, d) := by
  obtain ⟨-, hf, hp⟩ := h
  cases p
  simp_all [OutPort.write, OutPort.settle]

/-- Everything OutWrite can do. -/
theorem OutPort.write_cases (n v d : Nat) (p : OutPort) :
    (p.write n v d).2.1.silent = p.silent ∧ (p.write n v d).2.1.fails = (drawFail p.fails).2 ∧
    (((p.write n v d).1 = true ∧ (drawFail p.fails).1 = false ∧ (p.write n v d).2.1.bits = p.bits ++ bin n v ∧
        (p.write n v d).2.1.closed = false) ∨
     ((p.write n v d).1 = false ∧ (p.write n v d).2.1.bits = p.bits)) := by
  cases hf : (drawFail p.fails).1
  · cases hc : (OutPort.settle d { p with fails := (drawFail p.fails).2 }).1.closed <;>
      simp [OutPort.write, hf, hc]
  · simp [OutPort.write, hf, OutPort.redraw]

/-- OutWrite whose environment draws a failure. -/
theorem OutPort.write_fails {p : OutPort} (n v d : Nat) (h : (drawFail p.fails).1 = true) :
    p.write n v d = (false, OutPort.redraw d { p with fails := (drawFail p.fails).2 }, d + 1) := by
  simp [OutPort.write, h]

/-- A close of an open sink. -/
theorem OutPort.close_open {p : OutPort} (d : Nat) (h : SinkOpen p) :
    p.close d = (true, { p with bits := p.bits ++ padding d (padCount p.bits), closed := true },
      d + padCount p.bits) := by
  obtain ⟨⟨-, hf, hp⟩, hc⟩ := h
  cases p
  simp_all [OutPort.close, OutPort.settle]

/-- A close of a closed sink has no effect. -/
theorem OutPort.close_closed {p : OutPort} (d : Nat) (h : OutputAnswers p) (hc : p.closed = true) :
    p.close d = (true, p, d) := by
  obtain ⟨-, hf, hp⟩ := h
  cases p
  simp_all [OutPort.close, OutPort.settle, padding]

/-- A close that answers `Ok` leaves the sink closed, one only ever appends, and it fails only where the environment
draws a failure. -/
theorem OutPort.close_spec (d : Nat) (p : OutPort) :
    ((p.close d).1 = true → (p.close d).2.1.closed = true) ∧ p.bits <+: (p.close d).2.1.bits ∧
    (p.close d).1 = !(drawFail p.fails).1 := by
  cases hf : (drawFail p.fails).1
  · simp [OutPort.close, hf]
  · refine ⟨by simp [OutPort.close, hf], ?_, by simp [OutPort.close, hf]⟩
    by_cases h : Config.paddedAfterFailure (OutPort.settle d { p with fails := (drawFail p.fails).2 }).2 = true <;>
      simp [OutPort.close, hf, h, OutPort.redraw]

/-- A rewind of a port that can rewind. -/
theorem InPort.rewind_ok {p : InPort} (d : Nat) (ha : InputAnswers p) (hr : p.rewindable = true) :
    p.rewind d = (true, { p with pos := 0, eof := false }, d) := by
  obtain ⟨-, hf, hp⟩ := ha
  cases p
  simp_all [InPort.rewind, InPort.settle]

/-- Everything InReset can do. -/
theorem InPort.rewind_cases (d : Nat) (p : InPort) :
    (p.rewind d).2.1.silent = p.silent ∧ (p.rewind d).2.1.fails = (drawFail p.fails).2 ∧
    (((p.rewind d).1 = true ∧ (drawFail p.fails).1 = false ∧ (p.rewind d).2.1.pos = 0 ∧
        (p.rewind d).2.1.eof = false) ∨
     ((p.rewind d).1 = false ∧ (p.rewind d).2.1.failed = true)) := by
  cases hf : (drawFail p.fails).1
  · cases hw : (InPort.settle d { p with fails := (drawFail p.fails).2 }).1.rewindable <;>
      simp [InPort.rewind, hf, hw, InPort.redraw]
  · simp [InPort.rewind, hf, InPort.redraw]

end Sys2Proof.Machine
end

