-- ==== Sys2Proof/Laws/State.lean ====
section
/-! SUPPORT. What each update of State leaves in each field, so that no proof unfolds an update. -/

namespace Sys2Proof.Machine

variable (s : State)

section goto

@[simp] theorem goto_par (p : Pos) : (State.goto p s).par = s.par := rfl
@[simp] theorem goto_ie (p : Pos) : (State.goto p s).ie = s.ie := rfl
@[simp] theorem goto_cmd (p : Pos) : (State.goto p s).cmd = s.cmd := rfl
@[simp] theorem goto_done (p : Pos) : (State.goto p s).done = s.done := rfl
@[simp] theorem goto_fail (p : Pos) : (State.goto p s).fail = s.fail := rfl
@[simp] theorem goto_dropped (p : Pos) : (State.goto p s).dropped = s.dropped := rfl
@[simp] theorem goto_errcode (p : Pos) : (State.goto p s).errcode = s.errcode := rfl
@[simp] theorem goto_phase (p : Pos) : (State.goto p s).phase = s.phase := rfl
@[simp] theorem goto_treeValid (p : Pos) : (State.goto p s).treeValid = s.treeValid := rfl
@[simp] theorem goto_codesValid (p : Pos) : (State.goto p s).codesValid = s.codesValid := rfl
@[simp] theorem goto_root (p : Pos) : (State.goto p s).root = s.root := rfl
@[simp] theorem goto_nnodes (p : Pos) : (State.goto p s).nnodes = s.nnodes := rfl
@[simp] theorem goto_nleaves (p : Pos) : (State.goto p s).nleaves = s.nleaves := rfl
@[simp] theorem goto_inBits (p : Pos) : (State.goto p s).inBits = s.inBits := rfl
@[simp] theorem goto_outBits (p : Pos) : (State.goto p s).outBits = s.outBits := rfl
@[simp] theorem goto_syms (p : Pos) : (State.goto p s).syms = s.syms := rfl
@[simp] theorem goto_nodeSel (p : Pos) : (State.goto p s).nodeSel = s.nodeSel := rfl
@[simp] theorem goto_codeSel (p : Pos) : (State.goto p s).codeSel = s.codeSel := rfl
@[simp] theorem goto_hist (p : Pos) : (State.goto p s).hist = s.hist := rfl
@[simp] theorem goto_node (p : Pos) : (State.goto p s).node = s.node := rfl
@[simp] theorem goto_code (p : Pos) : (State.goto p s).code = s.code := rfl
@[simp] theorem goto_pq (p : Pos) : (State.goto p s).pq = s.pq := rfl
@[simp] theorem goto_stack (p : Pos) : (State.goto p s).stack = s.stack := rfl
@[simp] theorem goto_cur (p : Pos) : (State.goto p s).cur = s.cur := rfl
@[simp] theorem goto_pos (p : Pos) : (State.goto p s).pos = p := rfl
@[simp] theorem goto_inp (p : Pos) : (State.goto p s).inp = s.inp := rfl
@[simp] theorem goto_out (p : Pos) : (State.goto p s).out = s.out := rfl
@[simp] theorem goto_host (p : Pos) : (State.goto p s).host = s.host := rfl
@[simp] theorem goto_reads (p : Pos) : (State.goto p s).reads = s.reads := rfl
@[simp] theorem goto_draws (p : Pos) : (State.goto p s).draws = s.draws := rfl

end goto

section setPhase

@[simp] theorem setPhase_par (p : Phase) : (State.setPhase p s).par = s.par := rfl
@[simp] theorem setPhase_ie (p : Phase) : (State.setPhase p s).ie = s.ie := rfl
@[simp] theorem setPhase_cmd (p : Phase) : (State.setPhase p s).cmd = s.cmd := rfl
@[simp] theorem setPhase_done (p : Phase) : (State.setPhase p s).done = s.done := rfl
@[simp] theorem setPhase_fail (p : Phase) : (State.setPhase p s).fail = s.fail := rfl
@[simp] theorem setPhase_dropped (p : Phase) : (State.setPhase p s).dropped = s.dropped := rfl
@[simp] theorem setPhase_errcode (p : Phase) : (State.setPhase p s).errcode = s.errcode := rfl
@[simp] theorem setPhase_phase (p : Phase) : (State.setPhase p s).phase = p := rfl
@[simp] theorem setPhase_treeValid (p : Phase) : (State.setPhase p s).treeValid = s.treeValid := rfl
@[simp] theorem setPhase_codesValid (p : Phase) : (State.setPhase p s).codesValid = s.codesValid := rfl
@[simp] theorem setPhase_root (p : Phase) : (State.setPhase p s).root = s.root := rfl
@[simp] theorem setPhase_nnodes (p : Phase) : (State.setPhase p s).nnodes = s.nnodes := rfl
@[simp] theorem setPhase_nleaves (p : Phase) : (State.setPhase p s).nleaves = s.nleaves := rfl
@[simp] theorem setPhase_inBits (p : Phase) : (State.setPhase p s).inBits = s.inBits := rfl
@[simp] theorem setPhase_outBits (p : Phase) : (State.setPhase p s).outBits = s.outBits := rfl
@[simp] theorem setPhase_syms (p : Phase) : (State.setPhase p s).syms = s.syms := rfl
@[simp] theorem setPhase_nodeSel (p : Phase) : (State.setPhase p s).nodeSel = s.nodeSel := rfl
@[simp] theorem setPhase_codeSel (p : Phase) : (State.setPhase p s).codeSel = s.codeSel := rfl
@[simp] theorem setPhase_hist (p : Phase) : (State.setPhase p s).hist = s.hist := rfl
@[simp] theorem setPhase_node (p : Phase) : (State.setPhase p s).node = s.node := rfl
@[simp] theorem setPhase_code (p : Phase) : (State.setPhase p s).code = s.code := rfl
@[simp] theorem setPhase_pq (p : Phase) : (State.setPhase p s).pq = s.pq := rfl
@[simp] theorem setPhase_stack (p : Phase) : (State.setPhase p s).stack = s.stack := rfl
@[simp] theorem setPhase_cur (p : Phase) : (State.setPhase p s).cur = s.cur := rfl
@[simp] theorem setPhase_pos (p : Phase) : (State.setPhase p s).pos = s.pos := rfl
@[simp] theorem setPhase_inp (p : Phase) : (State.setPhase p s).inp = s.inp := rfl
@[simp] theorem setPhase_out (p : Phase) : (State.setPhase p s).out = s.out := rfl
@[simp] theorem setPhase_host (p : Phase) : (State.setPhase p s).host = s.host := rfl
@[simp] theorem setPhase_reads (p : Phase) : (State.setPhase p s).reads = s.reads := rfl
@[simp] theorem setPhase_draws (p : Phase) : (State.setPhase p s).draws = s.draws := rfl

end setPhase

section accept

@[simp] theorem accept_par (w : Word) : (accept w s).par = s.par := rfl
@[simp] theorem accept_ie (w : Word) : (accept w s).ie = s.ie := rfl
@[simp] theorem accept_cmd (w : Word) : (accept w s).cmd = w := rfl
@[simp] theorem accept_done (w : Word) : (accept w s).done = false := rfl
@[simp] theorem accept_fail (w : Word) : (accept w s).fail = false := rfl
@[simp] theorem accept_dropped (w : Word) : (accept w s).dropped = s.dropped := rfl
@[simp] theorem accept_errcode (w : Word) : (accept w s).errcode = none := rfl
@[simp] theorem accept_phase (w : Word) : (accept w s).phase = s.phase := rfl
@[simp] theorem accept_treeValid (w : Word) : (accept w s).treeValid = s.treeValid := rfl
@[simp] theorem accept_codesValid (w : Word) : (accept w s).codesValid = s.codesValid := rfl
@[simp] theorem accept_root (w : Word) : (accept w s).root = s.root := rfl
@[simp] theorem accept_nnodes (w : Word) : (accept w s).nnodes = s.nnodes := rfl
@[simp] theorem accept_nleaves (w : Word) : (accept w s).nleaves = s.nleaves := rfl
@[simp] theorem accept_inBits (w : Word) : (accept w s).inBits = 0#32 := rfl
@[simp] theorem accept_outBits (w : Word) : (accept w s).outBits = 0#32 := rfl
@[simp] theorem accept_syms (w : Word) : (accept w s).syms = 0#32 := rfl
@[simp] theorem accept_nodeSel (w : Word) : (accept w s).nodeSel = s.nodeSel := rfl
@[simp] theorem accept_codeSel (w : Word) : (accept w s).codeSel = s.codeSel := rfl
@[simp] theorem accept_hist (w : Word) : (accept w s).hist = s.hist := rfl
@[simp] theorem accept_node (w : Word) : (accept w s).node = s.node := rfl
@[simp] theorem accept_code (w : Word) : (accept w s).code = s.code := rfl
@[simp] theorem accept_pq (w : Word) : (accept w s).pq = s.pq := rfl
@[simp] theorem accept_stack (w : Word) : (accept w s).stack = s.stack := rfl
@[simp] theorem accept_cur (w : Word) : (accept w s).cur = s.cur := rfl
@[simp] theorem accept_pos (w : Word) : (accept w s).pos = .start := rfl
@[simp] theorem accept_inp (w : Word) : (accept w s).inp = s.inp := rfl
@[simp] theorem accept_out (w : Word) : (accept w s).out = s.out := rfl
@[simp] theorem accept_host (w : Word) : (accept w s).host = s.host := rfl
@[simp] theorem accept_reads (w : Word) : (accept w s).reads = s.reads := rfl
@[simp] theorem accept_draws (w : Word) : (accept w s).draws = s.draws := rfl

end accept

section finish

@[simp] theorem finish_par : (finish s).par = s.par := rfl
@[simp] theorem finish_ie : (finish s).ie = s.ie := rfl
@[simp] theorem finish_cmd : (finish s).cmd = s.cmd := rfl
@[simp] theorem finish_done : (finish s).done = true := rfl
@[simp] theorem finish_fail : (finish s).fail = s.fail := rfl
@[simp] theorem finish_dropped : (finish s).dropped = s.dropped := rfl
@[simp] theorem finish_errcode : (finish s).errcode = s.errcode := rfl
@[simp] theorem finish_phase : (finish s).phase = .done := rfl
@[simp] theorem finish_treeValid : (finish s).treeValid = s.treeValid := rfl
@[simp] theorem finish_codesValid : (finish s).codesValid = s.codesValid := rfl
@[simp] theorem finish_root : (finish s).root = s.root := rfl
@[simp] theorem finish_nnodes : (finish s).nnodes = s.nnodes := rfl
@[simp] theorem finish_nleaves : (finish s).nleaves = s.nleaves := rfl
@[simp] theorem finish_inBits : (finish s).inBits = s.inBits := rfl
@[simp] theorem finish_outBits : (finish s).outBits = s.outBits := rfl
@[simp] theorem finish_syms : (finish s).syms = s.syms := rfl
@[simp] theorem finish_nodeSel : (finish s).nodeSel = s.nodeSel := rfl
@[simp] theorem finish_codeSel : (finish s).codeSel = s.codeSel := rfl
@[simp] theorem finish_hist : (finish s).hist = s.hist := rfl
@[simp] theorem finish_node : (finish s).node = s.node := rfl
@[simp] theorem finish_code : (finish s).code = s.code := rfl
@[simp] theorem finish_pq : (finish s).pq = [] := rfl
@[simp] theorem finish_stack : (finish s).stack = [] := rfl
@[simp] theorem finish_cur : (finish s).cur = s.cur := rfl
@[simp] theorem finish_pos : (finish s).pos = .idle := rfl
@[simp] theorem finish_inp : (finish s).inp = s.inp := rfl
@[simp] theorem finish_out : (finish s).out = s.out := rfl
@[simp] theorem finish_host : (finish s).host = s.host := rfl
@[simp] theorem finish_reads : (finish s).reads = s.reads := rfl
@[simp] theorem finish_draws : (finish s).draws = s.draws := rfl

end finish

section failWith

@[simp] theorem failWith_par (k : ErrKind) : (failWith k s).par = s.par := rfl
@[simp] theorem failWith_ie (k : ErrKind) : (failWith k s).ie = s.ie := rfl
@[simp] theorem failWith_cmd (k : ErrKind) : (failWith k s).cmd = s.cmd := rfl
@[simp] theorem failWith_done (k : ErrKind) : (failWith k s).done = s.done := rfl
@[simp] theorem failWith_fail (k : ErrKind) : (failWith k s).fail = true := rfl
@[simp] theorem failWith_dropped (k : ErrKind) : (failWith k s).dropped = s.dropped := rfl
@[simp] theorem failWith_errcode (k : ErrKind) : (failWith k s).errcode = some k := rfl
@[simp] theorem failWith_phase (k : ErrKind) : (failWith k s).phase = .failed := rfl
@[simp] theorem failWith_treeValid (k : ErrKind) : (failWith k s).treeValid = s.treeValid := rfl
@[simp] theorem failWith_codesValid (k : ErrKind) : (failWith k s).codesValid = s.codesValid := rfl
@[simp] theorem failWith_root (k : ErrKind) : (failWith k s).root = s.root := rfl
@[simp] theorem failWith_nnodes (k : ErrKind) : (failWith k s).nnodes = s.nnodes := rfl
@[simp] theorem failWith_nleaves (k : ErrKind) : (failWith k s).nleaves = s.nleaves := rfl
@[simp] theorem failWith_inBits (k : ErrKind) : (failWith k s).inBits = s.inBits := rfl
@[simp] theorem failWith_outBits (k : ErrKind) : (failWith k s).outBits = s.outBits := rfl
@[simp] theorem failWith_syms (k : ErrKind) : (failWith k s).syms = s.syms := rfl
@[simp] theorem failWith_nodeSel (k : ErrKind) : (failWith k s).nodeSel = s.nodeSel := rfl
@[simp] theorem failWith_codeSel (k : ErrKind) : (failWith k s).codeSel = s.codeSel := rfl
@[simp] theorem failWith_hist (k : ErrKind) : (failWith k s).hist = s.hist := rfl
@[simp] theorem failWith_node (k : ErrKind) : (failWith k s).node = s.node := rfl
@[simp] theorem failWith_code (k : ErrKind) : (failWith k s).code = s.code := rfl
@[simp] theorem failWith_pq (k : ErrKind) : (failWith k s).pq = [] := rfl
@[simp] theorem failWith_stack (k : ErrKind) : (failWith k s).stack = [] := rfl
@[simp] theorem failWith_cur (k : ErrKind) : (failWith k s).cur = s.cur := rfl
@[simp] theorem failWith_pos (k : ErrKind) : (failWith k s).pos = .idle := rfl
@[simp] theorem failWith_inp (k : ErrKind) : (failWith k s).inp = s.inp := rfl
@[simp] theorem failWith_out (k : ErrKind) : (failWith k s).out = s.out := rfl
@[simp] theorem failWith_host (k : ErrKind) : (failWith k s).host = s.host := rfl
@[simp] theorem failWith_reads (k : ErrKind) : (failWith k s).reads = s.reads := rfl
@[simp] theorem failWith_draws (k : ErrKind) : (failWith k s).draws = s.draws := rfl

end failWith

section clearTree

@[simp] theorem clearTree_par : (clearTree s).par = s.par := rfl
@[simp] theorem clearTree_ie : (clearTree s).ie = s.ie := rfl
@[simp] theorem clearTree_cmd : (clearTree s).cmd = s.cmd := rfl
@[simp] theorem clearTree_done : (clearTree s).done = s.done := rfl
@[simp] theorem clearTree_fail : (clearTree s).fail = s.fail := rfl
@[simp] theorem clearTree_dropped : (clearTree s).dropped = s.dropped := rfl
@[simp] theorem clearTree_errcode : (clearTree s).errcode = s.errcode := rfl
@[simp] theorem clearTree_phase : (clearTree s).phase = s.phase := rfl
@[simp] theorem clearTree_treeValid : (clearTree s).treeValid = false := rfl
@[simp] theorem clearTree_codesValid : (clearTree s).codesValid = false := rfl
@[simp] theorem clearTree_root : (clearTree s).root = Config.nil := rfl
@[simp] theorem clearTree_nnodes : (clearTree s).nnodes = 0#10 := rfl
@[simp] theorem clearTree_nleaves : (clearTree s).nleaves = 0#9 := rfl
@[simp] theorem clearTree_inBits : (clearTree s).inBits = s.inBits := rfl
@[simp] theorem clearTree_outBits : (clearTree s).outBits = s.outBits := rfl
@[simp] theorem clearTree_syms : (clearTree s).syms = s.syms := rfl
@[simp] theorem clearTree_nodeSel : (clearTree s).nodeSel = s.nodeSel := rfl
@[simp] theorem clearTree_codeSel : (clearTree s).codeSel = s.codeSel := rfl
@[simp] theorem clearTree_hist : (clearTree s).hist = s.hist := rfl
@[simp] theorem clearTree_node : (clearTree s).node = s.node := rfl
@[simp] theorem clearTree_code : (clearTree s).code = s.code := rfl
@[simp] theorem clearTree_pq : (clearTree s).pq = s.pq := rfl
@[simp] theorem clearTree_stack : (clearTree s).stack = s.stack := rfl
@[simp] theorem clearTree_cur : (clearTree s).cur = s.cur := rfl
@[simp] theorem clearTree_pos : (clearTree s).pos = s.pos := rfl
@[simp] theorem clearTree_inp : (clearTree s).inp = s.inp := rfl
@[simp] theorem clearTree_out : (clearTree s).out = s.out := rfl
@[simp] theorem clearTree_host : (clearTree s).host = s.host := rfl
@[simp] theorem clearTree_reads : (clearTree s).reads = s.reads := rfl
@[simp] theorem clearTree_draws : (clearTree s).draws = s.draws := rfl

end clearTree

section dropWrite

@[simp] theorem dropWrite_par : (dropWrite s).par = s.par := rfl
@[simp] theorem dropWrite_ie : (dropWrite s).ie = s.ie := rfl
@[simp] theorem dropWrite_cmd : (dropWrite s).cmd = s.cmd := rfl
@[simp] theorem dropWrite_done : (dropWrite s).done = s.done := rfl
@[simp] theorem dropWrite_fail : (dropWrite s).fail = s.fail := rfl
@[simp] theorem dropWrite_dropped : (dropWrite s).dropped = true := rfl
@[simp] theorem dropWrite_errcode : (dropWrite s).errcode = s.errcode := rfl
@[simp] theorem dropWrite_phase : (dropWrite s).phase = s.phase := rfl
@[simp] theorem dropWrite_treeValid : (dropWrite s).treeValid = s.treeValid := rfl
@[simp] theorem dropWrite_codesValid : (dropWrite s).codesValid = s.codesValid := rfl
@[simp] theorem dropWrite_root : (dropWrite s).root = s.root := rfl
@[simp] theorem dropWrite_nnodes : (dropWrite s).nnodes = s.nnodes := rfl
@[simp] theorem dropWrite_nleaves : (dropWrite s).nleaves = s.nleaves := rfl
@[simp] theorem dropWrite_inBits : (dropWrite s).inBits = s.inBits := rfl
@[simp] theorem dropWrite_outBits : (dropWrite s).outBits = s.outBits := rfl
@[simp] theorem dropWrite_syms : (dropWrite s).syms = s.syms := rfl
@[simp] theorem dropWrite_nodeSel : (dropWrite s).nodeSel = s.nodeSel := rfl
@[simp] theorem dropWrite_codeSel : (dropWrite s).codeSel = s.codeSel := rfl
@[simp] theorem dropWrite_hist : (dropWrite s).hist = s.hist := rfl
@[simp] theorem dropWrite_node : (dropWrite s).node = s.node := rfl
@[simp] theorem dropWrite_code : (dropWrite s).code = s.code := rfl
@[simp] theorem dropWrite_pq : (dropWrite s).pq = s.pq := rfl
@[simp] theorem dropWrite_stack : (dropWrite s).stack = s.stack := rfl
@[simp] theorem dropWrite_cur : (dropWrite s).cur = s.cur := rfl
@[simp] theorem dropWrite_pos : (dropWrite s).pos = s.pos := rfl
@[simp] theorem dropWrite_inp : (dropWrite s).inp = s.inp := rfl
@[simp] theorem dropWrite_out : (dropWrite s).out = s.out := rfl
@[simp] theorem dropWrite_host : (dropWrite s).host = s.host := rfl
@[simp] theorem dropWrite_reads : (dropWrite s).reads = s.reads := rfl
@[simp] theorem dropWrite_draws : (dropWrite s).draws = s.draws := rfl

end dropWrite

section countSym

@[simp] theorem countSym_par : (State.countSym s).par = s.par := rfl
@[simp] theorem countSym_ie : (State.countSym s).ie = s.ie := rfl
@[simp] theorem countSym_cmd : (State.countSym s).cmd = s.cmd := rfl
@[simp] theorem countSym_done : (State.countSym s).done = s.done := rfl
@[simp] theorem countSym_fail : (State.countSym s).fail = s.fail := rfl
@[simp] theorem countSym_dropped : (State.countSym s).dropped = s.dropped := rfl
@[simp] theorem countSym_errcode : (State.countSym s).errcode = s.errcode := rfl
@[simp] theorem countSym_phase : (State.countSym s).phase = s.phase := rfl
@[simp] theorem countSym_treeValid : (State.countSym s).treeValid = s.treeValid := rfl
@[simp] theorem countSym_codesValid : (State.countSym s).codesValid = s.codesValid := rfl
@[simp] theorem countSym_root : (State.countSym s).root = s.root := rfl
@[simp] theorem countSym_nnodes : (State.countSym s).nnodes = s.nnodes := rfl
@[simp] theorem countSym_nleaves : (State.countSym s).nleaves = s.nleaves := rfl
@[simp] theorem countSym_inBits : (State.countSym s).inBits = s.inBits := rfl
@[simp] theorem countSym_outBits : (State.countSym s).outBits = s.outBits := rfl
@[simp] theorem countSym_syms : (State.countSym s).syms = s.syms + 1#32 := rfl
@[simp] theorem countSym_nodeSel : (State.countSym s).nodeSel = s.nodeSel := rfl
@[simp] theorem countSym_codeSel : (State.countSym s).codeSel = s.codeSel := rfl
@[simp] theorem countSym_hist : (State.countSym s).hist = s.hist := rfl
@[simp] theorem countSym_node : (State.countSym s).node = s.node := rfl
@[simp] theorem countSym_code : (State.countSym s).code = s.code := rfl
@[simp] theorem countSym_pq : (State.countSym s).pq = s.pq := rfl
@[simp] theorem countSym_stack : (State.countSym s).stack = s.stack := rfl
@[simp] theorem countSym_cur : (State.countSym s).cur = s.cur := rfl
@[simp] theorem countSym_pos : (State.countSym s).pos = s.pos := rfl
@[simp] theorem countSym_inp : (State.countSym s).inp = s.inp := rfl
@[simp] theorem countSym_out : (State.countSym s).out = s.out := rfl
@[simp] theorem countSym_host : (State.countSym s).host = s.host := rfl
@[simp] theorem countSym_reads : (State.countSym s).reads = s.reads := rfl
@[simp] theorem countSym_draws : (State.countSym s).draws = s.draws := rfl

end countSym

section setHist

@[simp] theorem setHist_par (c : Nat) (v : Word) : (State.setHist c v s).par = s.par := rfl
@[simp] theorem setHist_ie (c : Nat) (v : Word) : (State.setHist c v s).ie = s.ie := rfl
@[simp] theorem setHist_cmd (c : Nat) (v : Word) : (State.setHist c v s).cmd = s.cmd := rfl
@[simp] theorem setHist_done (c : Nat) (v : Word) : (State.setHist c v s).done = s.done := rfl
@[simp] theorem setHist_fail (c : Nat) (v : Word) : (State.setHist c v s).fail = s.fail := rfl
@[simp] theorem setHist_dropped (c : Nat) (v : Word) : (State.setHist c v s).dropped = s.dropped := rfl
@[simp] theorem setHist_errcode (c : Nat) (v : Word) : (State.setHist c v s).errcode = s.errcode := rfl
@[simp] theorem setHist_phase (c : Nat) (v : Word) : (State.setHist c v s).phase = s.phase := rfl
@[simp] theorem setHist_treeValid (c : Nat) (v : Word) : (State.setHist c v s).treeValid = s.treeValid := rfl
@[simp] theorem setHist_codesValid (c : Nat) (v : Word) : (State.setHist c v s).codesValid = s.codesValid := rfl
@[simp] theorem setHist_root (c : Nat) (v : Word) : (State.setHist c v s).root = s.root := rfl
@[simp] theorem setHist_nnodes (c : Nat) (v : Word) : (State.setHist c v s).nnodes = s.nnodes := rfl
@[simp] theorem setHist_nleaves (c : Nat) (v : Word) : (State.setHist c v s).nleaves = s.nleaves := rfl
@[simp] theorem setHist_inBits (c : Nat) (v : Word) : (State.setHist c v s).inBits = s.inBits := rfl
@[simp] theorem setHist_outBits (c : Nat) (v : Word) : (State.setHist c v s).outBits = s.outBits := rfl
@[simp] theorem setHist_syms (c : Nat) (v : Word) : (State.setHist c v s).syms = s.syms := rfl
@[simp] theorem setHist_nodeSel (c : Nat) (v : Word) : (State.setHist c v s).nodeSel = s.nodeSel := rfl
@[simp] theorem setHist_codeSel (c : Nat) (v : Word) : (State.setHist c v s).codeSel = s.codeSel := rfl
@[simp] theorem setHist_hist (c : Nat) (v : Word) : (State.setHist c v s).hist = Memory.set 0#32 s.hist c v := rfl
@[simp] theorem setHist_node (c : Nat) (v : Word) : (State.setHist c v s).node = s.node := rfl
@[simp] theorem setHist_code (c : Nat) (v : Word) : (State.setHist c v s).code = s.code := rfl
@[simp] theorem setHist_pq (c : Nat) (v : Word) : (State.setHist c v s).pq = s.pq := rfl
@[simp] theorem setHist_stack (c : Nat) (v : Word) : (State.setHist c v s).stack = s.stack := rfl
@[simp] theorem setHist_cur (c : Nat) (v : Word) : (State.setHist c v s).cur = s.cur := rfl
@[simp] theorem setHist_pos (c : Nat) (v : Word) : (State.setHist c v s).pos = s.pos := rfl
@[simp] theorem setHist_inp (c : Nat) (v : Word) : (State.setHist c v s).inp = s.inp := rfl
@[simp] theorem setHist_out (c : Nat) (v : Word) : (State.setHist c v s).out = s.out := rfl
@[simp] theorem setHist_host (c : Nat) (v : Word) : (State.setHist c v s).host = s.host := rfl
@[simp] theorem setHist_reads (c : Nat) (v : Word) : (State.setHist c v s).reads = s.reads := rfl
@[simp] theorem setHist_draws (c : Nat) (v : Word) : (State.setHist c v s).draws = s.draws := rfl

end setHist

section setNode

@[simp] theorem setNode_par (i : Idx) (v : Node) : (State.setNode i v s).par = s.par := rfl
@[simp] theorem setNode_ie (i : Idx) (v : Node) : (State.setNode i v s).ie = s.ie := rfl
@[simp] theorem setNode_cmd (i : Idx) (v : Node) : (State.setNode i v s).cmd = s.cmd := rfl
@[simp] theorem setNode_done (i : Idx) (v : Node) : (State.setNode i v s).done = s.done := rfl
@[simp] theorem setNode_fail (i : Idx) (v : Node) : (State.setNode i v s).fail = s.fail := rfl
@[simp] theorem setNode_dropped (i : Idx) (v : Node) : (State.setNode i v s).dropped = s.dropped := rfl
@[simp] theorem setNode_errcode (i : Idx) (v : Node) : (State.setNode i v s).errcode = s.errcode := rfl
@[simp] theorem setNode_phase (i : Idx) (v : Node) : (State.setNode i v s).phase = s.phase := rfl
@[simp] theorem setNode_treeValid (i : Idx) (v : Node) : (State.setNode i v s).treeValid = s.treeValid := rfl
@[simp] theorem setNode_codesValid (i : Idx) (v : Node) : (State.setNode i v s).codesValid = s.codesValid := rfl
@[simp] theorem setNode_root (i : Idx) (v : Node) : (State.setNode i v s).root = s.root := rfl
@[simp] theorem setNode_nnodes (i : Idx) (v : Node) : (State.setNode i v s).nnodes = s.nnodes := rfl
@[simp] theorem setNode_nleaves (i : Idx) (v : Node) : (State.setNode i v s).nleaves = s.nleaves := rfl
@[simp] theorem setNode_inBits (i : Idx) (v : Node) : (State.setNode i v s).inBits = s.inBits := rfl
@[simp] theorem setNode_outBits (i : Idx) (v : Node) : (State.setNode i v s).outBits = s.outBits := rfl
@[simp] theorem setNode_syms (i : Idx) (v : Node) : (State.setNode i v s).syms = s.syms := rfl
@[simp] theorem setNode_nodeSel (i : Idx) (v : Node) : (State.setNode i v s).nodeSel = s.nodeSel := rfl
@[simp] theorem setNode_codeSel (i : Idx) (v : Node) : (State.setNode i v s).codeSel = s.codeSel := rfl
@[simp] theorem setNode_hist (i : Idx) (v : Node) : (State.setNode i v s).hist = s.hist := rfl
@[simp] theorem setNode_node (i : Idx) (v : Node) : (State.setNode i v s).node = Memory.set Node.blank s.node i.toNat v := rfl
@[simp] theorem setNode_code (i : Idx) (v : Node) : (State.setNode i v s).code = s.code := rfl
@[simp] theorem setNode_pq (i : Idx) (v : Node) : (State.setNode i v s).pq = s.pq := rfl
@[simp] theorem setNode_stack (i : Idx) (v : Node) : (State.setNode i v s).stack = s.stack := rfl
@[simp] theorem setNode_cur (i : Idx) (v : Node) : (State.setNode i v s).cur = s.cur := rfl
@[simp] theorem setNode_pos (i : Idx) (v : Node) : (State.setNode i v s).pos = s.pos := rfl
@[simp] theorem setNode_inp (i : Idx) (v : Node) : (State.setNode i v s).inp = s.inp := rfl
@[simp] theorem setNode_out (i : Idx) (v : Node) : (State.setNode i v s).out = s.out := rfl
@[simp] theorem setNode_host (i : Idx) (v : Node) : (State.setNode i v s).host = s.host := rfl
@[simp] theorem setNode_reads (i : Idx) (v : Node) : (State.setNode i v s).reads = s.reads := rfl
@[simp] theorem setNode_draws (i : Idx) (v : Node) : (State.setNode i v s).draws = s.draws := rfl

end setNode

section setCode

@[simp] theorem setCode_par (c : Nat) (v : CodeEntry) : (State.setCode c v s).par = s.par := rfl
@[simp] theorem setCode_ie (c : Nat) (v : CodeEntry) : (State.setCode c v s).ie = s.ie := rfl
@[simp] theorem setCode_cmd (c : Nat) (v : CodeEntry) : (State.setCode c v s).cmd = s.cmd := rfl
@[simp] theorem setCode_done (c : Nat) (v : CodeEntry) : (State.setCode c v s).done = s.done := rfl
@[simp] theorem setCode_fail (c : Nat) (v : CodeEntry) : (State.setCode c v s).fail = s.fail := rfl
@[simp] theorem setCode_dropped (c : Nat) (v : CodeEntry) : (State.setCode c v s).dropped = s.dropped := rfl
@[simp] theorem setCode_errcode (c : Nat) (v : CodeEntry) : (State.setCode c v s).errcode = s.errcode := rfl
@[simp] theorem setCode_phase (c : Nat) (v : CodeEntry) : (State.setCode c v s).phase = s.phase := rfl
@[simp] theorem setCode_treeValid (c : Nat) (v : CodeEntry) : (State.setCode c v s).treeValid = s.treeValid := rfl
@[simp] theorem setCode_codesValid (c : Nat) (v : CodeEntry) : (State.setCode c v s).codesValid = s.codesValid := rfl
@[simp] theorem setCode_root (c : Nat) (v : CodeEntry) : (State.setCode c v s).root = s.root := rfl
@[simp] theorem setCode_nnodes (c : Nat) (v : CodeEntry) : (State.setCode c v s).nnodes = s.nnodes := rfl
@[simp] theorem setCode_nleaves (c : Nat) (v : CodeEntry) : (State.setCode c v s).nleaves = s.nleaves := rfl
@[simp] theorem setCode_inBits (c : Nat) (v : CodeEntry) : (State.setCode c v s).inBits = s.inBits := rfl
@[simp] theorem setCode_outBits (c : Nat) (v : CodeEntry) : (State.setCode c v s).outBits = s.outBits := rfl
@[simp] theorem setCode_syms (c : Nat) (v : CodeEntry) : (State.setCode c v s).syms = s.syms := rfl
@[simp] theorem setCode_nodeSel (c : Nat) (v : CodeEntry) : (State.setCode c v s).nodeSel = s.nodeSel := rfl
@[simp] theorem setCode_codeSel (c : Nat) (v : CodeEntry) : (State.setCode c v s).codeSel = s.codeSel := rfl
@[simp] theorem setCode_hist (c : Nat) (v : CodeEntry) : (State.setCode c v s).hist = s.hist := rfl
@[simp] theorem setCode_node (c : Nat) (v : CodeEntry) : (State.setCode c v s).node = s.node := rfl
@[simp] theorem setCode_code (c : Nat) (v : CodeEntry) : (State.setCode c v s).code = Memory.set CodeEntry.invalid s.code c v := rfl
@[simp] theorem setCode_pq (c : Nat) (v : CodeEntry) : (State.setCode c v s).pq = s.pq := rfl
@[simp] theorem setCode_stack (c : Nat) (v : CodeEntry) : (State.setCode c v s).stack = s.stack := rfl
@[simp] theorem setCode_cur (c : Nat) (v : CodeEntry) : (State.setCode c v s).cur = s.cur := rfl
@[simp] theorem setCode_pos (c : Nat) (v : CodeEntry) : (State.setCode c v s).pos = s.pos := rfl
@[simp] theorem setCode_inp (c : Nat) (v : CodeEntry) : (State.setCode c v s).inp = s.inp := rfl
@[simp] theorem setCode_out (c : Nat) (v : CodeEntry) : (State.setCode c v s).out = s.out := rfl
@[simp] theorem setCode_host (c : Nat) (v : CodeEntry) : (State.setCode c v s).host = s.host := rfl
@[simp] theorem setCode_reads (c : Nat) (v : CodeEntry) : (State.setCode c v s).reads = s.reads := rfl
@[simp] theorem setCode_draws (c : Nat) (v : CodeEntry) : (State.setCode c v s).draws = s.draws := rfl

end setCode

section writeCtrl

@[simp] theorem writeCtrl_par (v : Word) : (writeCtrl v s).par = s.par := rfl
@[simp] theorem writeCtrl_ie (v : Word) : (writeCtrl v s).ie = v.getLsbD 0 := rfl
@[simp] theorem writeCtrl_cmd (v : Word) : (writeCtrl v s).cmd = s.cmd := rfl
@[simp] theorem writeCtrl_done (v : Word) : (writeCtrl v s).done = s.done := rfl
@[simp] theorem writeCtrl_fail (v : Word) : (writeCtrl v s).fail = s.fail := rfl
@[simp] theorem writeCtrl_dropped (v : Word) : (writeCtrl v s).dropped = s.dropped := rfl
@[simp] theorem writeCtrl_errcode (v : Word) : (writeCtrl v s).errcode = s.errcode := rfl
@[simp] theorem writeCtrl_phase (v : Word) : (writeCtrl v s).phase = s.phase := rfl
@[simp] theorem writeCtrl_treeValid (v : Word) : (writeCtrl v s).treeValid = s.treeValid := rfl
@[simp] theorem writeCtrl_codesValid (v : Word) : (writeCtrl v s).codesValid = s.codesValid := rfl
@[simp] theorem writeCtrl_root (v : Word) : (writeCtrl v s).root = s.root := rfl
@[simp] theorem writeCtrl_nnodes (v : Word) : (writeCtrl v s).nnodes = s.nnodes := rfl
@[simp] theorem writeCtrl_nleaves (v : Word) : (writeCtrl v s).nleaves = s.nleaves := rfl
@[simp] theorem writeCtrl_inBits (v : Word) : (writeCtrl v s).inBits = s.inBits := rfl
@[simp] theorem writeCtrl_outBits (v : Word) : (writeCtrl v s).outBits = s.outBits := rfl
@[simp] theorem writeCtrl_syms (v : Word) : (writeCtrl v s).syms = s.syms := rfl
@[simp] theorem writeCtrl_nodeSel (v : Word) : (writeCtrl v s).nodeSel = s.nodeSel := rfl
@[simp] theorem writeCtrl_codeSel (v : Word) : (writeCtrl v s).codeSel = s.codeSel := rfl
@[simp] theorem writeCtrl_hist (v : Word) : (writeCtrl v s).hist = s.hist := rfl
@[simp] theorem writeCtrl_node (v : Word) : (writeCtrl v s).node = s.node := rfl
@[simp] theorem writeCtrl_code (v : Word) : (writeCtrl v s).code = s.code := rfl
@[simp] theorem writeCtrl_pq (v : Word) : (writeCtrl v s).pq = s.pq := rfl
@[simp] theorem writeCtrl_stack (v : Word) : (writeCtrl v s).stack = s.stack := rfl
@[simp] theorem writeCtrl_cur (v : Word) : (writeCtrl v s).cur = s.cur := rfl
@[simp] theorem writeCtrl_pos (v : Word) : (writeCtrl v s).pos = s.pos := rfl
@[simp] theorem writeCtrl_inp (v : Word) : (writeCtrl v s).inp = s.inp := rfl
@[simp] theorem writeCtrl_out (v : Word) : (writeCtrl v s).out = s.out := rfl
@[simp] theorem writeCtrl_host (v : Word) : (writeCtrl v s).host = s.host := rfl
@[simp] theorem writeCtrl_reads (v : Word) : (writeCtrl v s).reads = s.reads := rfl
@[simp] theorem writeCtrl_draws (v : Word) : (writeCtrl v s).draws = s.draws := rfl

end writeCtrl

section writeStatus

@[simp] theorem writeStatus_par (v : Word) : (writeStatus v s).par = s.par := rfl
@[simp] theorem writeStatus_ie (v : Word) : (writeStatus v s).ie = s.ie := rfl
@[simp] theorem writeStatus_cmd (v : Word) : (writeStatus v s).cmd = s.cmd := rfl
@[simp] theorem writeStatus_done (v : Word) : (writeStatus v s).done = (s.done && !v.getLsbD 1) := rfl
@[simp] theorem writeStatus_fail (v : Word) : (writeStatus v s).fail = (s.fail && !v.getLsbD 2) := rfl
@[simp] theorem writeStatus_dropped (v : Word) : (writeStatus v s).dropped = (s.dropped && !v.getLsbD 3) := rfl
@[simp] theorem writeStatus_errcode (v : Word) : (writeStatus v s).errcode = s.errcode := rfl
@[simp] theorem writeStatus_phase (v : Word) : (writeStatus v s).phase = s.phase := rfl
@[simp] theorem writeStatus_treeValid (v : Word) : (writeStatus v s).treeValid = s.treeValid := rfl
@[simp] theorem writeStatus_codesValid (v : Word) : (writeStatus v s).codesValid = s.codesValid := rfl
@[simp] theorem writeStatus_root (v : Word) : (writeStatus v s).root = s.root := rfl
@[simp] theorem writeStatus_nnodes (v : Word) : (writeStatus v s).nnodes = s.nnodes := rfl
@[simp] theorem writeStatus_nleaves (v : Word) : (writeStatus v s).nleaves = s.nleaves := rfl
@[simp] theorem writeStatus_inBits (v : Word) : (writeStatus v s).inBits = s.inBits := rfl
@[simp] theorem writeStatus_outBits (v : Word) : (writeStatus v s).outBits = s.outBits := rfl
@[simp] theorem writeStatus_syms (v : Word) : (writeStatus v s).syms = s.syms := rfl
@[simp] theorem writeStatus_nodeSel (v : Word) : (writeStatus v s).nodeSel = s.nodeSel := rfl
@[simp] theorem writeStatus_codeSel (v : Word) : (writeStatus v s).codeSel = s.codeSel := rfl
@[simp] theorem writeStatus_hist (v : Word) : (writeStatus v s).hist = s.hist := rfl
@[simp] theorem writeStatus_node (v : Word) : (writeStatus v s).node = s.node := rfl
@[simp] theorem writeStatus_code (v : Word) : (writeStatus v s).code = s.code := rfl
@[simp] theorem writeStatus_pq (v : Word) : (writeStatus v s).pq = s.pq := rfl
@[simp] theorem writeStatus_stack (v : Word) : (writeStatus v s).stack = s.stack := rfl
@[simp] theorem writeStatus_cur (v : Word) : (writeStatus v s).cur = s.cur := rfl
@[simp] theorem writeStatus_pos (v : Word) : (writeStatus v s).pos = s.pos := rfl
@[simp] theorem writeStatus_inp (v : Word) : (writeStatus v s).inp = s.inp := rfl
@[simp] theorem writeStatus_out (v : Word) : (writeStatus v s).out = s.out := rfl
@[simp] theorem writeStatus_host (v : Word) : (writeStatus v s).host = s.host := rfl
@[simp] theorem writeStatus_reads (v : Word) : (writeStatus v s).reads = s.reads := rfl
@[simp] theorem writeStatus_draws (v : Word) : (writeStatus v s).draws = s.draws := rfl

end writeStatus

section hardwareReset

@[simp] theorem hardwareReset_par : (hardwareReset s).par = s.par := rfl
@[simp] theorem hardwareReset_ie : (hardwareReset s).ie = State.reset.ie := rfl
@[simp] theorem hardwareReset_cmd : (hardwareReset s).cmd = State.reset.cmd := rfl
@[simp] theorem hardwareReset_done : (hardwareReset s).done = State.reset.done := rfl
@[simp] theorem hardwareReset_fail : (hardwareReset s).fail = State.reset.fail := rfl
@[simp] theorem hardwareReset_dropped : (hardwareReset s).dropped = State.reset.dropped := rfl
@[simp] theorem hardwareReset_errcode : (hardwareReset s).errcode = State.reset.errcode := rfl
@[simp] theorem hardwareReset_phase : (hardwareReset s).phase = State.reset.phase := rfl
@[simp] theorem hardwareReset_treeValid : (hardwareReset s).treeValid = State.reset.treeValid := rfl
@[simp] theorem hardwareReset_codesValid : (hardwareReset s).codesValid = State.reset.codesValid := rfl
@[simp] theorem hardwareReset_root : (hardwareReset s).root = State.reset.root := rfl
@[simp] theorem hardwareReset_nnodes : (hardwareReset s).nnodes = State.reset.nnodes := rfl
@[simp] theorem hardwareReset_nleaves : (hardwareReset s).nleaves = State.reset.nleaves := rfl
@[simp] theorem hardwareReset_inBits : (hardwareReset s).inBits = State.reset.inBits := rfl
@[simp] theorem hardwareReset_outBits : (hardwareReset s).outBits = State.reset.outBits := rfl
@[simp] theorem hardwareReset_syms : (hardwareReset s).syms = State.reset.syms := rfl
@[simp] theorem hardwareReset_nodeSel : (hardwareReset s).nodeSel = State.reset.nodeSel := rfl
@[simp] theorem hardwareReset_codeSel : (hardwareReset s).codeSel = State.reset.codeSel := rfl
@[simp] theorem hardwareReset_hist : (hardwareReset s).hist = State.reset.hist := rfl
@[simp] theorem hardwareReset_node : (hardwareReset s).node = State.reset.node := rfl
@[simp] theorem hardwareReset_code : (hardwareReset s).code = State.reset.code := rfl
@[simp] theorem hardwareReset_pq : (hardwareReset s).pq = State.reset.pq := rfl
@[simp] theorem hardwareReset_stack : (hardwareReset s).stack = State.reset.stack := rfl
@[simp] theorem hardwareReset_cur : (hardwareReset s).cur = State.reset.cur := rfl
@[simp] theorem hardwareReset_pos : (hardwareReset s).pos = State.reset.pos := rfl
@[simp] theorem hardwareReset_inp : (hardwareReset s).inp = s.inp := rfl
@[simp] theorem hardwareReset_out : (hardwareReset s).out = s.out := rfl
@[simp] theorem hardwareReset_host : (hardwareReset s).host = s.host := rfl
@[simp] theorem hardwareReset_reads : (hardwareReset s).reads = s.reads := rfl
@[simp] theorem hardwareReset_draws : (hardwareReset s).draws = s.draws := rfl

end hardwareReset

/-- BUSY and the position (R33, R31). -/
theorem busy_eq_false_iff : s.busy = false ↔ s.pos = .idle := by simp [State.busy]

theorem busy_eq_true_iff : s.busy = true ↔ s.pos ≠ .idle := by simp [State.busy]

@[simp] theorem accept_busy (w : Word) : (accept w s).busy = true := rfl

@[simp] theorem finish_busy : (finish s).busy = false := rfl

@[simp] theorem failWith_busy (k : ErrKind) : (failWith k s).busy = false := rfl

end Sys2Proof.Machine
end

