-- ==== Sys2Proof/Laws/Ops.lean ====
section
/-! SUPPORT. One lemma for each shared operation of the commands: sequencing, raising an error (R356, R357), port
transactions with their counters (R38, R39), NODE accesses, and the selection law of `TIE` (R214). -/

namespace Sys2Proof.Machine

@[simp] theorem andThen_next (s : State) (f : State → Result) : andThen (.next s) f = f s := rfl

@[simp] theorem andThen_fault (e : Fault) (f : State → Result) : andThen (.fault e) f = .fault e := rfl

@[simp] theorem andThen_refused (e : Refusal) (f : State → Result) : andThen (.refused e) f = .refused e := rfl

theorem andThen_eq_next {r : Result} {f : State → Result} {t : State} :
    andThen r f = .next t ↔ ∃ s, r = .next s ∧ f s = .next t := by
  cases r <;> simp [andThen]

theorem andThen_assoc (r : Result) (f g : State → Result) :
    andThen (andThen r f) g = andThen r fun s => andThen (f s) g := by
  cases r <;> rfl

/-- The running command, for each command that is a single word. -/
theorem running_eq (s : State) : running s = decode s.cmd := rfl

/-- Raising an error in a command that closes the output (R356). -/
theorem raise_of_closes {s : State} (k : ErrKind) (h : closesOutput (running s) = true) :
    raise k s = { s with phase := .closing, pos := .failClose k } := by simp [raise, h]

/-- Raising an error in any other command (R356). -/
theorem raise_of_not_closes {s : State} (k : ErrKind) (h : closesOutput (running s) = false) :
    raise k s = failWith k s := by simp [raise, h]

/-- InRead of bits that are there. -/
theorem inRead_val {n : Nat} {s : State} {u rest : Bits} (ha : InputAnswers s.inp) (hn : u.length = n) (h0 : 0 < n)
    (hu : unread s.inp = u ++ rest) :
    inRead n s = (.val (val u), { s with inp := advance n s.inp, inBits := s.inBits + BitVec.ofNat 32 n }) := by
  simp [inRead, InPort.read_val s.draws ha hn h0 hu, countIn]

/-- InRead at the end of the stream. -/
theorem inRead_short {n : Nat} {s : State} (ha : InputAnswers s.inp) (hs : InputEnds s.inp) (h : (unread s.inp).length < n) :
    inRead n s = (.eof, { s with inp := exhausted 0 s.inp }) := by
  simp [inRead, InPort.read_short s.draws ha hs h, countIn]

/-- InRead changes the input port, IN_BITS and the draw count, and nothing else. -/
theorem inRead_frame (n : Nat) (s : State) : (inRead n s).2 = { s with
    inp := (inRead n s).2.inp, inBits := (inRead n s).2.inBits, draws := (inRead n s).2.draws } := rfl

/-- OutWrite to an open sink. -/
theorem outWrite_open {s : State} (n v : Nat) (h : SinkOpen s.out) :
    outWrite n v s = (true, { s with
      out := { s.out with bits := s.out.bits ++ bin n v }, outBits := s.outBits + BitVec.ofNat 32 n }) := by
  simp [outWrite, OutPort.write_open n v s.draws h]

/-- OutWrite to a closed sink. -/
theorem outWrite_closed {s : State} (n v : Nat) (h : OutputAnswers s.out) (hc : s.out.closed = true) :
    outWrite n v s = (false, s) := by
  simp [outWrite, OutPort.write_closed n v s.draws h hc]

/-- OutWrite changes the output port, OUT_BITS and the draw count, and nothing else. -/
theorem outWrite_frame (n v : Nat) (s : State) : (outWrite n v s).2 = { s with
    out := (outWrite n v s).2.out, outBits := (outWrite n v s).2.outBits, draws := (outWrite n v s).2.draws } := rfl

/-- OutClose of an open sink. -/
theorem outClose_open {s : State} (h : SinkOpen s.out) :
    outClose s = (true, { s with
      out := closedWith [] (padding s.draws (padCount s.out.bits)) s.out
      draws := s.draws + padCount s.out.bits }) := by
  simp [outClose, OutPort.close_open s.draws h, closedWith]

/-- OutClose of a closed sink. -/
theorem outClose_closed {s : State} (h : OutputAnswers s.out) (hc : s.out.closed = true) :
    outClose s = (true, s) := by
  simp [outClose, OutPort.close_closed s.draws h hc]

/-- A checked write to an open sink goes on. -/
theorem checkWrite_open {s : State} (n v : Nat) (k : State → State) (h : SinkOpen s.out) :
    checkWrite n v s k = .next (k { s with
      out := { s.out with bits := s.out.bits ++ bin n v }, outBits := s.outBits + BitVec.ofNat 32 n }) := by
  simp [checkWrite, outWrite_open n v h]

/-- A checked write to a closed sink is a PortError. -/
theorem checkWrite_closed {s : State} (n v : Nat) (k : State → State) (h : OutputAnswers s.out)
    (hc : s.out.closed = true) : checkWrite n v s k = .next (raise .portError s) := by
  simp [checkWrite, outWrite_closed n v h hc]

/-- Using a slot that exists. -/
theorem withNode_of_lt {i : Idx} {s : State} (k : Node → Result) (h : i.toNat < Config.nodeCap) :
    withNode i s k = k (s.nodeAt i) := by simp [withNode, h]

theorem withNode_eq_next {i : Idx} {s t : State} {k : Node → Result} :
    withNode i s k = .next t ↔ i.toNat < Config.nodeCap ∧ k (s.nodeAt i) = .next t := by
  unfold withNode
  split <;> simp_all

/-! ### The selection law -/

theorem weightAt_lt (s : State) (i : Idx) : s.weightAt i < Config.maxCount + 1 := by
  have := (s.nodeAt i).weight.isLt
  simpa [State.weightAt, Config.maxCount] using this

theorem minWeight_le {s : State} {p : List Idx} {i : Idx} (h : i ∈ p) : minWeight s p ≤ s.weightAt i := by
  induction p with
  | nil => simp at h
  | cons j p ih =>
    simp only [minWeight, List.foldr_cons] at ih ⊢
    rcases List.mem_cons.mp h with rfl | h
    · exact Nat.min_le_left _ _
    · exact Nat.le_trans (Nat.min_le_right _ _) (ih h)

theorem exists_minWeight {s : State} {p : List Idx} (h : p ≠ []) : ∃ i ∈ p, s.weightAt i = minWeight s p := by
  induction p with
  | nil => exact absurd rfl h
  | cons j p ih =>
    simp only [minWeight, List.foldr_cons] at ih ⊢
    by_cases hp : p = []
    · subst hp
      have := weightAt_lt s j
      exact ⟨j, List.mem_cons_self, by simp only [List.foldr_nil]; omega⟩
    · obtain ⟨i, hi, hw⟩ := ih hp
      by_cases hle : s.weightAt j ≤ s.weightAt i
      · exact ⟨j, List.mem_cons_self, by omega⟩
      · exact ⟨i, List.mem_cons_of_mem _ hi, by omega⟩

theorem mem_lightest {s : State} {p : List Idx} {i : Idx} :
    i ∈ lightest s p ↔ i ∈ p ∧ s.weightAt i = minWeight s p := by
  simp [lightest, ofWeight]

theorem lightest_ne_nil {s : State} {p : List Idx} (h : p ≠ []) : lightest s p ≠ [] := by
  obtain ⟨i, hi, hw⟩ := exists_minWeight (s := s) h
  exact List.ne_nil_of_mem (mem_lightest.mpr ⟨hi, hw⟩)

theorem select_mem_lightest (s : State) (picks : List Idx) {p : List Idx} (h : p ≠ []) :
    select s picks p ∈ lightest s p := by
  have hl := lightest_ne_nil (s := s) h
  unfold select
  split
  · cases hq : lightest s p with
    | nil => exact absurd hq hl
    | cons a q => simp
  · cases hq : lightest s p with
    | nil => exact absurd hq hl
    | cons a q =>
      rw [List.getLastD_cons]
      exact List.getLastD_mem_cons
  · have hlt : Config.tieChoice s.hist picks % (lightest s p).length < (lightest s p).length :=
      Nat.mod_lt _ (List.length_pos_iff.mpr hl)
    rw [List.getD_eq_getElem _ _ hlt]
    exact List.getElem_mem hlt

/-- R214, the selection law: `TIE(P)` is an element of P of minimum weight, whatever the policy. -/
theorem select_spec (s : State) (picks : List Idx) {p : List Idx} (h : p ≠ []) :
    select s picks p ∈ p ∧ ∀ j ∈ p, s.weightAt (select s picks p) ≤ s.weightAt j := by
  obtain ⟨hm, hw⟩ := mem_lightest.mp (select_mem_lightest s picks h)
  exact ⟨hm, fun j hj => hw ▸ minWeight_le hj⟩

/-! ### Cells -/

/-- A slot written is read back, in a canonical NODE. -/
theorem nodeAt_setNode_self {s : State} (h : Memory.wf Node.blank Config.nodeCap s.node = true) (i : Idx) (v : Node) :
    (s.setNode i v).nodeAt i = v := Memory.get_set_self Node.blank h i.toNat v

theorem nodeAt_setNode_other (s : State) {i j : Idx} (v : Node) (h : j ≠ i) :
    (s.setNode i v).nodeAt j = s.nodeAt j :=
  Memory.get_set_other Node.blank s.node v fun e => h (BitVec.eq_of_toNat_eq e)

theorem histAt_setHist_self {s : State} (h : Memory.wf 0#32 256 s.hist = true) (c : Nat) (v : Word) :
    (s.setHist c v).histAt c = v := Memory.get_set_self 0#32 h c v

theorem histAt_setHist_other (s : State) {c d : Nat} (v : Word) (h : d ≠ c) :
    (s.setHist c v).histAt d = s.histAt d := Memory.get_set_other 0#32 s.hist v h

theorem codeAt_setCode_self {s : State} (h : Memory.wf CodeEntry.invalid 257 s.code = true) (c : Nat)
    (v : CodeEntry) : (s.setCode c v).codeAt c = v := Memory.get_set_self CodeEntry.invalid h c v

theorem codeAt_setCode_other (s : State) {c d : Nat} (v : CodeEntry) (h : d ≠ c) :
    (s.setCode c v).codeAt d = s.codeAt d := Memory.get_set_other CodeEntry.invalid s.code v h

end Sys2Proof.Machine
end

