-- ==== Sys2Proof/Laws/PerInstr.lean ====
section
/-! SUPPORT. The statements made for every constructor of `Instr` on its own: the reserved field of its word is 0
for every row of the opcode table but ILLEGAL_RES (R120, R123). -/

namespace Sys2Proof.Laws.ReservedField

/-- R120, R123: RES = 0 in every well-formed instruction's word, but for the row of the words whose RES is not 0. -/
def Statement (i : Instr) : Prop :=
  WellFormed i → (resField (encode i) = 0#28 ↔ ∀ res op, i ≠ .illegalRes res op)

theorem nop : Statement .nop := fun _ => ⟨fun _ _ _ => by simp, fun _ => by decide⟩
theorem count : Statement .count := fun _ => ⟨fun _ _ _ => by simp, fun _ => by decide⟩
theorem build : Statement .build := fun _ => ⟨fun _ _ _ => by simp, fun _ => by decide⟩
theorem gencodes : Statement .gencodes := fun _ => ⟨fun _ _ _ => by simp, fun _ => by decide⟩
theorem serialize : Statement .serialize := fun _ => ⟨fun _ _ _ => by simp, fun _ => by decide⟩
theorem deserialize : Statement .deserialize := fun _ => ⟨fun _ _ _ => by simp, fun _ => by decide⟩
theorem encode : Statement .encode := fun _ => ⟨fun _ _ _ => by simp, fun _ => by decide⟩
theorem decode : Statement .decode := fun _ => ⟨fun _ _ _ => by simp, fun _ => by decide⟩
theorem compress : Statement .compress := fun _ => ⟨fun _ _ _ => by simp, fun _ => by decide⟩
theorem inreset : Statement .inreset := fun _ => ⟨fun _ _ _ => by simp, fun _ => by decide⟩
theorem outclose : Statement .outclose := fun _ => ⟨fun _ _ _ => by simp, fun _ => by decide⟩
theorem clear : Statement .clear := fun _ => ⟨fun _ _ _ => by simp, fun _ => by decide⟩

theorem illegalOp (low : BitVec 2) : Statement (.illegalOp low) := by
  refine fun _ => ⟨fun _ _ _ => by simp, fun _ => ?_⟩
  apply BitVec.eq_of_getLsbD_eq
  intro j hj
  have h : (Sys2Proof.encode (.illegalOp low)).getLsbD (4 + j) = (3#30).getLsbD (2 + j) :=
    (BitVec.getLsbD_append (x := 3#30) (y := low) (i := 4 + j)).trans
      (by rw [if_neg (by omega : ¬4 + j < 2), show 4 + j - 2 = 2 + j by omega])
  have h3 : Nat.testBit 3 (2 + j) = false :=
    Nat.testBit_lt_two_pow
      (Nat.lt_of_lt_of_le (by decide : 3 < 2 ^ 2) (Nat.pow_le_pow_right (by decide) (Nat.le_add_right 2 j)))
  rw [resField, BitVec.getLsbD_extractLsb', h, BitVec.getLsbD_ofNat, h3]
  simp

theorem illegalRes (res : BitVec 28) (op : BitVec 4) : Statement (.illegalRes res op) := by
  intro hw
  have he : resField (Sys2Proof.encode (.illegalRes res op)) = res := by
    apply BitVec.eq_of_getLsbD_eq
    intro j hj
    have h : (Sys2Proof.encode (.illegalRes res op)).getLsbD (4 + j) = res.getLsbD j :=
      (BitVec.getLsbD_append (x := res) (y := op) (i := 4 + j)).trans
        (by rw [if_neg (by omega : ¬4 + j < 4), Nat.add_sub_cancel_left])
    rw [resField, BitVec.getLsbD_extractLsb', h]
    simp [hj]
  have hne : res ≠ 0#28 := by simpa [WellFormed, Instr.wellFormed] using hw
  exact ⟨fun h => absurd (he ▸ h) hne, fun h => absurd rfl (h res op)⟩

end Sys2Proof.Laws.ReservedField
end

