-- ==== Sys2Proof/Laws/Sequencer.lean ====
section
/-! SUPPORT. Turns and runs: how a run unfolds, what acceptance starts, and the two inductions, over a run and over a
step, that every invariant is proved by. -/

namespace Sys2Proof.Machine

@[simp] theorem run_zero (s : State) : run 0 s = .next s := rfl

/-- A run of a core at rest does nothing. -/
theorem run_idle (n : Nat) {s : State} (h : s.pos = .idle) : run n s = .next s := by
  cases n <;> simp [run, State.busy, h]

/-- A run of a running command takes one turn, and goes on. -/
theorem run_succ (n : Nat) {s : State} (h : s.pos ≠ .idle) : run (n + 1) s = andThen (turn s) (run n) := by
  simp [run, State.busy, h]

/-- A run whose first turn answers `t` goes on from `t`. -/
theorem run_turn (n : Nat) {s t : State} (h : s.pos ≠ .idle) (ht : turn s = .next t) : run (n + 1) s = run n t := by
  rw [run_succ n h, ht, andThen_next]

/-- A run can be cut anywhere. -/
theorem run_add (m n : Nat) (s : State) : run (m + n) s = andThen (run m s) (run n) := by
  induction m generalizing s with
  | zero => simp
  | succ m ih =>
    by_cases h : s.pos = .idle
    · rw [run_idle _ h, run_idle _ h, andThen_next, run_idle _ h]
    · rw [Nat.add_right_comm, run_succ _ h, run_succ _ h, andThen_assoc]
      congr 1
      exact funext ih

/-- A run that has reached rest is the same for every larger number of turns. -/
theorem run_of_rest {m n : Nat} {s t : State} (h : run m s = .next t) (ht : t.pos = .idle) (hmn : m ≤ n) :
    run n s = .next t := by
  obtain ⟨k, rfl⟩ := Nat.exists_eq_add_of_le hmn
  rw [run_add, h, andThen_next, run_idle _ ht]

/-- A turn that waits for no port runs the piece at the position. -/
theorem turn_of_not_waiting {s : State} (h : waiting s = false) : turn s = pieceAt s := by simp [turn, h]

theorem turn_of_waiting {s : State} (h : waiting s = true) : turn s = .next s := by simp [turn, h]

/-- Where both ports answer, no turn waits. -/
theorem not_waiting_of_answers {s : State} (hi : s.inp.silent = false) (ho : s.out.silent = false) :
    waiting s = false := by simp [waiting, hi, ho]

/-- With nothing to interrupt it, a command has all its turns. -/
theorem budget_of_undisturbed {s : State} (h : undisturbed s.host = true) : budget s = turnsToEnd s := by
  cases hh : s.host with
  | nil => simp [budget, hh]
  | cons e rest =>
    simp only [hh, undisturbed, Bool.and_eq_true, beq_iff_eq] at h
    simp [budget, hh, h.2]

theorem spend_of_undisturbed {s : State} (h : undisturbed s.host = true) : spend s = s := by
  cases hh : s.host with
  | nil => simp [spend, hh]
  | cons e rest =>
    simp only [hh, undisturbed, Bool.and_eq_true, beq_iff_eq] at h
    obtain ⟨n, op⟩ := e
    obtain ⟨rfl, rfl⟩ := h
    cases s
    simp_all [spend]

/-- The host's write of a command word to an idle core that nothing then disturbs. -/
theorem issue_quiet (w : Word) {s : State} (h : Quiet s) : issue w s = run (turnsToEnd s) (accept w s) := by
  have hb : s.busy = false := by simp [State.busy, h.1]
  have hu : undisturbed (accept w s).host = true := h.2
  rw [issue, hb, if_neg Bool.false_ne_true, resume, budget_of_undisturbed hu, spend_of_undisturbed hu]
  rfl

/-- The host's write of a command word to a busy core is dropped (R104). -/
theorem issue_busy (w : Word) {s : State} (h : s.pos ≠ .idle) : issue w s = .next (dropWrite s) := by
  simp [issue, State.busy, h]

/-- Every command's meaning is the issue of its word. -/
theorem exec_eq_issue (i : Instr) (s : State) : exec i s = issue (encode i) s := by cases i <;> rfl

/-- The running command after acceptance of each single-word command. -/
theorem running_accept (i : Instr) (s : State) : running (accept (encode i) s) = decode (encode i) := rfl

@[simp] theorem decode_encode_nop : decode (encode .nop) = .nop := by decide
@[simp] theorem decode_encode_count : decode (encode .count) = .count := by decide
@[simp] theorem decode_encode_build : decode (encode .build) = .build := by decide
@[simp] theorem decode_encode_gencodes : decode (encode .gencodes) = .gencodes := by decide
@[simp] theorem decode_encode_serialize : decode (encode .serialize) = .serialize := by decide
@[simp] theorem decode_encode_deserialize : decode (encode .deserialize) = .deserialize := by decide
@[simp] theorem decode_encode_encode : decode (encode .encode) = .encode := by decide
@[simp] theorem decode_encode_decode : decode (encode .decode) = .decode := by decide
@[simp] theorem decode_encode_compress : decode (encode .compress) = .compress := by decide
@[simp] theorem decode_encode_inreset : decode (encode .inreset) = .inreset := by decide
@[simp] theorem decode_encode_outclose : decode (encode .outclose) = .outclose := by decide
@[simp] theorem decode_encode_clear : decode (encode .clear) = .clear := by decide

/-- What every turn of a running command keeps, a run keeps. -/
theorem run_preserves (P : State → Prop) (hturn : ∀ s t, P s → s.pos ≠ .idle → turn s = .next t → P t) :
    ∀ (n : Nat) (s t : State), P s → run n s = .next t → P t := by
  intro n
  induction n with
  | zero => rintro s t hs h; cases h; exact hs
  | succ n ih =>
    intro s t hs h
    by_cases hp : s.pos = .idle
    · rw [run_idle _ hp] at h
      cases h
      exact hs
    · rw [run_succ n hp, andThen_eq_next] at h
      obtain ⟨u, hu, hr⟩ := h
      exact ih u t (hturn s u hs hp hu) hr

/-- What turns keep, the resumption of a running command keeps. -/
theorem resume_preserves (P : State → Prop) (hturn : ∀ s t, P s → s.pos ≠ .idle → turn s = .next t → P t)
    (hhost : ∀ s h, P s → P { s with host := h }) {s t : State} (hs : P s) (h : resume s = .next t) : P t := by
  refine run_preserves P hturn _ (spend s) t ?_ h
  unfold spend
  split
  · exact hs
  · exact hhost s _ hs

/-- What turns, acceptance and a dropped write keep, every command keeps. -/
theorem exec_preserves (P : State → Prop) (hturn : ∀ s t, P s → s.pos ≠ .idle → turn s = .next t → P t)
    (hhost : ∀ s h, P s → P { s with host := h }) (haccept : ∀ s w, P s → s.pos = .idle → P (accept w s))
    (hdrop : ∀ s, P s → P (dropWrite s)) {i : Instr} {s t : State} (hs : P s) (h : exec i s = .next t) : P t := by
  rw [exec_eq_issue] at h
  by_cases hp : s.pos = .idle
  · have hb : s.busy = false := by simp [State.busy, hp]
    simp only [issue, hb, Bool.false_eq_true, if_false] at h
    exact resume_preserves P hturn hhost (haccept s _ hs hp) h
  · rw [issue_busy _ hp] at h
    cases h
    exact hdrop s hs

/-- The induction over a step: what the sequencer's turns, acceptance, and each kind of event keep, every step
keeps. -/
theorem step_preserves (P : State → Prop) (hturn : ∀ s t, P s → s.pos ≠ .idle → turn s = .next t → P t)
    (hhost : ∀ s h, P s → P { s with host := h }) (haccept : ∀ s w, P s → s.pos = .idle → P (accept w s))
    (hdrop : ∀ s, P s → P (dropWrite s))
    (hwrite : ∀ s t r v addr size, P s → target s addr size = .ok r → r ≠ .cmd → writeReg r v s = .next t → P t)
    (hread : ∀ s r, P s → P (readReg r s)) (hreset : ∀ s, P s → P (hardwareReset s))
    (hin : ∀ s p, P s → P { s with inp := p }) (hout : ∀ s p, P s → P { s with out := p })
    {s t : State} (hs : P s) (h : step s = .next t) : P t := by
  unfold step hostStep at h
  split at h
  · split at h
    · exact resume_preserves P hturn hhost hs h
    · cases h; exact hs
  · next e rest he =>
    split at h
    · have hs' : P { s with host := rest } := hhost s rest hs
      revert h
      generalize { s with host := rest } = u at hs'
      intro h
      cases ho : e.op with
      | write addr size v =>
        simp only [ho, perform] at h
        split at h
        · next r hr =>
          by_cases hc : r = .cmd
          · subst hc
            exact exec_preserves P hturn hhost haccept hdrop hs' h
          · exact hwrite u t r v addr size hs' hr hc h
        · cases h
      | read addr size =>
        simp only [ho, perform] at h
        split at h
        · cases h; exact hread u _ hs'
        · cases h
      | waitIdle =>
        simp only [ho, perform] at h
        cases h; exact hread u _ hs'
      | hardwareReset =>
        simp only [ho, perform] at h
        cases h; exact hreset u hs'
      | plugIn p =>
        simp only [ho, perform] at h
        cases h; exact hin u p hs'
      | plugOut p =>
        simp only [ho, perform] at h
        cases h; exact hout u p hs'
    · exact resume_preserves P hturn hhost hs h

end Sys2Proof.Machine
end

