-- ==== Sys2Proof/Tests/Slice0.lean ====
section
/-! SUPPORT. The model's own tests. Expected results are those of spec/95_test_vectors.md (named in each comment) or
of the rule cited. `witness_…` theorems show a concrete state that meets the hypotheses of a statement of
Certificates/Slice0/Obligations.lean, one for each clause. -/

open Sys2Proof Sys2Proof.Machine

namespace Sys2Proof.Tests

/-! ### Small states -/

/-- The start of a vector: reset, `MAGIC` = 0xFACE8201, `LOWEST_INDEX`, and an input port that holds `bits`. -/
def onBits (bits : Bits) : State :=
  { State.reset with
    par := { magic := 0xFACE8201#32, tie := .lowestIndex, basePage := 3 }
    inp := { InPort.empty with bits := bits } }

/-- The same with an input port that holds bytes. -/
def onBytes (bytes : List Nat) : State := onBits (bitsOfBytes bytes)

/-- Whether a result is a next state with a property. -/
def answers (r : Result) (p : State → Bool) : Bool :=
  match r with
  | .next s => p s
  | .fault _ => false
  | .refused _ => false

theorem exists_next {r : Result} (h : answers r (fun _ => true) = true) : ∃ t, r = .next t := by
  cases r with
  | next t => exact ⟨t, rfl⟩
  | fault e => cases h
  | refused e => cases h

def leafNode (c : Sym) (w : Word) : Node := { Node.blank with leaf := true, sym := c, weight := w }
def innerNode (l r : Idx) (w : Word) : Node := { Node.blank with left := l, right := r, weight := w }

/-- V-B4 before the codes: HIST and NODE of "AAB", whose bytes stand at the input port. -/
def built : State :=
  { onBytes [0x41, 0x41, 0x42] with
    hist := [(0x41, 2#32), (0x42, 1#32)]
    node := [(0, leafNode 0x41#9 2#32), (1, leafNode 0x42#9 1#32), (2, leafNode 256#9 1#32),
      (3, innerNode 1#10 2#10 2#32), (4, innerNode 0#10 3#10 4#32)]
    root := 4#10, nnodes := 5#10, nleaves := 3#9, treeValid := true }

/-- V-C3: the codes of "AAB". -/
def coded : State :=
  { built with
    code := [(0x41, { valid := true, bits := [false] }), (0x42, { valid := true, bits := [true, false] }),
      (256, { valid := true, bits := [true, true] })]
    codesValid := true }

/-- The tree of "AAB" (V-B4), whose bits are T_AAB. -/
def aab : HuffTree := .node (.leaf 0x41#9) (.node (.leaf 0x42#9) (.leaf 256#9))

/-- T_1000A. -/
def t1000A : HuffTree := .node (.leaf 256#9) (.leaf 0x41#9)

/-- The 9 bytes of V-E2: the compressed "AAB" with `PAD` all zeros. -/
def bytesE2 : List Nat := [0xFA, 0xCE, 0x82, 0x01, 0x48, 0x29, 0x0B, 0x00, 0x2C]

/-- A closed output port. -/
def closedPort : OutPort := { OutPort.empty with closed := true }

/-- An event of the host that is due at once. -/
def now (op : HostOp) : HostEvent := { wait := 0, op := op }

/-! ### Well-formedness (R120, R123) -/

theorem test_wf_res_zero_refused : Instr.wellFormed (.illegalRes 0#28 6#4) = false := by decide
theorem test_wf_res_nonzero : Instr.wellFormed (.illegalRes 1#28 6#4) = true := by decide

/-! ### Decoding: words of spec/30_encoding.md R122, R123 -/

theorem test_decode_nop : decodeTableWord 32 0x00000000 = some .nop := by decide
theorem test_decode_count : decodeTableWord 32 0x00000001 = some .count := by decide
theorem test_decode_build : decodeTableWord 32 0x00000002 = some .build := by decide
theorem test_decode_gencodes : decodeTableWord 32 0x00000003 = some .gencodes := by decide
theorem test_decode_serialize : decodeTableWord 32 0x00000004 = some .serialize := by decide
theorem test_decode_deserialize : decodeTableWord 32 0x00000005 = some .deserialize := by decide
theorem test_decode_encode : decodeTableWord 32 0x00000006 = some .encode := by decide
theorem test_decode_decode : decodeTableWord 32 0x00000007 = some .decode := by decide
theorem test_decode_compress : decodeTableWord 32 0x00000008 = some .compress := by decide
theorem test_decode_inreset : decodeTableWord 32 0x00000009 = some .inreset := by decide
theorem test_decode_outclose : decodeTableWord 32 0x0000000A = some .outclose := by decide
theorem test_decode_clear : decodeTableWord 32 0x0000000B = some .clear := by decide
theorem test_decode_reserved_op_low : decodeTableWord 32 0x0000000C = some (.illegalOp 0#2) := by decide
theorem test_decode_reserved_op_high : decodeTableWord 32 0x0000000F = some (.illegalOp 3#2) := by decide
theorem test_decode_res_bit4 : decodeTableWord 32 0x00000010 = some (.illegalRes 1#28 0#4) := by decide
theorem test_decode_res_bit31 : decodeTableWord 32 0x80000001 = some (.illegalRes 0x8000000#28 1#4) := by decide
theorem test_decode_too_wide : decodeTableWord 40 0x100000000 = none := by decide

/-! ### Commands: vectors of spec/95_test_vectors.md -/

/-- V-X1. -/
theorem test_nop : answers (exec .nop (onBits [])) (fun t => statusWord t == 0x00000E02#32) = true := by decide

/-- V-H1. -/
theorem test_count :
    answers (exec .count (onBytes [0x41, 0x42, 0x52, 0x41, 0x43, 0x41, 0x44, 0x41, 0x42, 0x52, 0x41])) (fun t =>
      t.hist == [(0x41, 5#32), (0x42, 2#32), (0x43, 1#32), (0x44, 1#32), (0x52, 2#32)] && t.syms == 11#32
        && t.inBits == 88#32 && statusWord t == 0x00000E02#32 && t.inp.eof) = true := by decide

/-- V-H3: three trailing bits are a short read. -/
theorem test_count_short_read :
    answers (exec .count (onBits (bitsOfBytes [0x41, 0x42] ++ [true, false, true]))) (fun t =>
      t.hist == [(0x41, 1#32), (0x42, 1#32)] && t.inBits == 16#32) = true := by decide

/-- V-B4, with the slots of R220. -/
theorem test_build :
    answers (exec .build { built with node := [], root := Config.nil, nnodes := 0#10, nleaves := 0#9, treeValid := false })
      (fun t => t.node == built.node && t.root == 4#10 && t.nnodes == 5#10 && t.nleaves == 3#9
        && nodeInfoWord { t with nodeSel := 3#10 } == 0x80200400#32) = true := by decide

/-- V-B1. -/
theorem test_build_one_leaf :
    answers (exec .build (onBits [])) (fun t =>
      nodeInfoWord t == 0xFFFFFD00#32 && nodeWeightWord t == 1#32 && statusWord t == 0x00001E02#32) = true := by decide

/-- V-C3. -/
theorem test_gencodes : answers (exec .gencodes built) (fun t => t.code == coded.code && t.codesValid) = true := by
  decide

/-- V-C7. -/
theorem test_gencodes_not_ready :
    answers (exec .gencodes (onBits [])) (fun t => statusWord t == 0x00000F64#32) = true := by decide

/-- R260 on V-B4's tree: T_AAB, the output not closed. -/
theorem test_serialize :
    answers (exec .serialize built) (fun t =>
      t.out.bits == [false, true] ++ bin 9 0x41 ++ [false, true] ++ bin 9 0x42 ++ [true] ++ bin 9 256
        && !t.out.closed && t.outBits == 32#32) = true := by decide

/-- R89, R350: the second OutWrite answers `IoErr`; the bit accepted before stays, and counts (R39). -/
theorem test_serialize_port_error :
    answers (exec .serialize { built with out := { OutPort.empty with fails := [false, true] } }) (fun t =>
      t.out.bits == [false] && t.outBits == 1#32 && statusWord t == 0x00001F44#32) = true := by decide

/-- V-T4. -/
theorem test_deserialize :
    answers (exec .deserialize (onBits ([false, true] ++ bin 9 256 ++ [true] ++ bin 9 0x41))) (fun t =>
      nodeInfoWord t == 0x80200400#32 && nodeInfoWord { t with nodeSel := 1#10 } == 0xFFFFFD00#32
        && nodeInfoWord { t with nodeSel := 2#10 } == 0xFFFFFC41#32 && t.root == 0#10 && t.nnodes == 3#10
        && t.nleaves == 2#9 && t.inBits == 21#32) = true := by decide

/-- V-T5, the third row. -/
theorem test_deserialize_short_symbol :
    answers (exec .deserialize (onBits ([false, true] ++ [false, false, true, false, false]))) (fun t =>
      statusWord t == 0x00000F24#32 && t.inBits == 2#32 && t.root == Config.nil) = true := by decide

/-- V-E2: 70 bits, whose first 8 bytes are these. -/
theorem test_encode :
    answers (exec .encode coded) (fun t =>
      bytesOfBits (t.out.bits.take 64) == bytesE2.take 8 && t.outBits == 70#32 && t.syms == 3#32 && t.inBits == 24#32
        && t.out.closed && t.out.bits.length == 72 && statusWord t == 0x00003E02#32) = true := by
  decide +kernel

/-- V-E8. -/
theorem test_encode_uncoded :
    answers (exec .encode { coded with inp := (onBytes [0x41, 0x43]).inp }) (fun t =>
      t.outBits == 65#32 && t.inBits == 16#32 && t.syms == 1#32 && statusWord t == 0x00003F74#32 && t.out.closed)
      = true := by decide

/-- V-D2. -/
theorem test_decode_run :
    answers (exec .decode (onBytes bytesE2)) (fun t =>
      bytesOfBits t.out.bits == [0x41, 0x41, 0x42] && t.inBits == 70#32 && t.syms == 3#32 && t.out.closed
        && statusWord t == 0x00001E02#32) = true := by decide

/-- V-D5. -/
theorem test_decode_truncated :
    answers (exec .decode (onBits ((bitsOfBytes bytesE2).take 66))) (fun t =>
      bytesOfBits t.out.bits == [0x41, 0x41] && t.inBits == 66#32 && statusWord t == 0x00001F34#32) = true := by decide

/-- V-E2 by COMPRESS: 48 input bits. -/
theorem test_compress :
    answers (exec .compress (onBytes [0x41, 0x41, 0x42])) (fun t =>
      bytesOfBits (t.out.bits.take 64) == bytesE2.take 8 && t.outBits == 70#32 && t.syms == 3#32 && t.inBits == 48#32
        && statusWord t == 0x00003E02#32) = true := by decide

/-- V-E13: InReset answers `IoErr` after the 4 reads of pass 1. -/
theorem test_compress_rewind_fails :
    answers (exec .compress { onBytes [0x41, 0x41, 0x42] with
        inp := { (onBytes [0x41, 0x41, 0x42]).inp with fails := [false, false, false, false, true] } }) (fun t =>
      t.hist == built.hist && t.out.closed && t.out.bits == [] && statusWord t == 0x00000F44#32) = true := by decide

/-- V-X5: the latch is cleared. -/
theorem test_inreset :
    answers (exec .inreset { built with inp := exhausted 24 built.inp }) (fun t => t.inp == built.inp && t.done)
      = true := by decide

/-- V-X6. -/
theorem test_inreset_port_error :
    answers (exec .inreset { onBits [] with inp := { InPort.empty with rewindable := false } }) (fun t =>
      statusWord t == 0x00000F44#32) = true := by decide

/-- V-X7: 65 bits are padded to 72. -/
theorem test_outclose :
    answers (exec .outclose { built with out := { OutPort.empty with bits := List.replicate 65 true } }) (fun t =>
      t.out.bits.length == 72 && t.out.bits.take 65 == List.replicate 65 true && t.out.closed && t.outBits == 0#32)
      = true := by decide +kernel

/-- V-X7, the second OUTCLOSE. -/
theorem test_outclose_twice :
    answers (exec .outclose { built with out := closedPort }) (fun t => t.out == closedPort && t.done) = true := by decide

/-- V-X4. -/
theorem test_clear :
    answers (exec .clear coded) (fun t =>
      statusWord t == 0x00000E02#32 && t.root == 0x3FF#10 && t.nnodes == 0#10 && t.hist == [] && t.code == [])
      = true := by decide

/-- V-X2. -/
theorem test_illegal_op : answers (exec (.illegalOp 0#2) (onBits [])) (fun t => statusWord t == 0x00000F54#32) = true := by
  decide

/-- V-X3: OP 6 with RES ≠ 0 is IllegalCommand, not NotReady; the output is not touched. -/
theorem test_illegal_res :
    answers (exec (.illegalRes 1#28 6#4) (onBits [])) (fun t =>
      statusWord t == 0x00000F54#32 && t.out == OutPort.empty && t.cmd == 0x00000016#32) = true := by decide

/-! ### The register interface -/

/-- V-X9: IRQ with IE = 1 after NOP. -/
theorem test_irq :
    answers (exec .nop { onBits [] with ie := true }) (fun t =>
      statusWord t == 0x00004E02#32 && statusWord (writeStatus 0x2#32 t) == 0x00000E00#32) = true := by decide

/-- V-X8: a HIST write while COUNT runs is dropped. -/
theorem test_busy_write :
    answers (step { built with pos := .countRead, host := [now (.write 0x3504 4 7#32)] }) (fun t =>
      t.dropped && t.hist == built.hist && t.pos == .countRead) = true := by decide

/-- V-X11: reads of ID and of a reserved offset. -/
theorem test_read_id :
    answers (step { onBits [] with host := [now (.read 0x3000 4)] }) (fun t => t.reads == [0x48554646#32]) = true := by
  decide

/-- V-X14: a 16-bit write, and a misaligned word. -/
theorem test_bad_access :
    step { onBits [] with host := [now (.write 0x3000 2 0#32)] } = .refused .notAlignedWord ∧
      step { onBits [] with host := [now (.read 0x3002 4)] } = .refused .notAlignedWord := by
  constructor <;> rfl

/-- The first step from reset runs the placed command: BUILD of an empty HIST (V-B1), whatever `MAGIC` and `TIE`. -/
theorem test_step_from_reset :
    answers (step (State.reset.withFetchWord 32 0x2)) (fun t => t.root == 0#10 && t.done && t.treeValid) = true := by
  decide

/-! ### Witnesses: the hypotheses of each statement, met together -/

theorem exists_next_of {r : Result} {p : State → Bool} (h : answers r p = true) : ∃ t, r = .next t ∧ p t = true := by
  cases r with
  | next t => exact ⟨t, rfl, h⟩
  | fault e => cases h
  | refused e => cases h

theorem witness_DecodeOfEncode : WellFormed .compress ∧ WellFormed (.illegalOp 3#2) ∧ WellFormed (.illegalRes 1#28 6#4) := by
  decide

theorem witness_DecodeFollowsTheOpcodeMap :
    (0x00000010#32).extractLsb' 4 28 ≠ 0#28 ∧ (0x80000000#32).extractLsb' 4 28 ≠ 0#28 ∧
    (∀ n < 16, (BitVec.ofNat 32 n).extractLsb' 4 28 = 0#28 ∧ (BitVec.ofNat 32 n).extractLsb' 0 4 = BitVec.ofNat 4 n) := by
  decide

/-- Clauses 1, 3 and 4: an idle core with a CMD write, one without events, and a running one without events. -/
theorem witness_StepRunsTheWrittenCommand :
    ({ built with host := [now (.write (built.base + 0x008) 4 2#32)] }.pos = .idle) ∧ (built.pos = .idle ∧ built.host = []) ∧
    ({ built with pos := .walk }.pos ≠ .idle ∧ { built with pos := .walk }.host = []) := by decide

theorem witness_AcceptanceEffects :
    built.pos = .idle ∧ HostOp.read 0x300C 4 ≠ .waitIdle ∧
    { built with host := [now (.read 0x300C 4)] }.host = { wait := 0, op := .read 0x300C 4 } :: [] := by decide

/-- One offset of each kind, both ends of HIST, the offsets beside them, and the ends of the register space. -/
theorem witness_BusyWrites : (∀ off ∈ [0x000, 0x004, 0x008, 0x00C, 0x02C, 0x038, 0x3FC, 0x400, 0x7FC, 0x800, 0xFFC],
      { built with pos := .countRead, host := [now (.write (built.base + off) 4 7#32)] }.pos ≠ .idle ∧ off < 4096 ∧
      off % 4 = 0) := by decide

/-- A write of STATUS and a read of it while COUNT runs. -/
theorem witness_HostCannotDisturbARunningCommand : ∀ op ∈ [HostOp.write 0x300C 4 14#32, .read 0x300C 4],
    ((∃ addr size v, op = .write addr size v) ∨ (∃ addr size, op = .read addr size)) ∧
    ∃ t, step { built with pos := .countRead, host := [now op] } = .next t := by
  intro op h
  rcases List.mem_cons.mp h with rfl | h
  · exact ⟨.inl ⟨_, _, _, rfl⟩, exists_next (by decide)⟩
  · rcases List.mem_singleton.mp h with rfl
    exact ⟨.inr ⟨_, _, rfl⟩, exists_next (by decide)⟩

/-- The offsets of the register map, with the ends of its ranges: an idle core, a running one at an offset that is no
window, and a running one at a window. -/
theorem witness_ReadsHaveNoSideEffect :
    (∀ off ∈ [0x000, 0x004, 0x008, 0x00C, 0x010, 0x014, 0x018, 0x01C, 0x020, 0x024, 0x028, 0x02C, 0x030, 0x034, 0x038,
      0x03C, 0x040 + 4 * 0, 0x040 + 4 * 7, 0x060, 0x3FC, 0x400 + 4 * 0, 0x400 + 4 * 255, 0x800, 0xFFC],
      off < 4096 ∧ off % 4 = 0 ∧ { built with host := [now (.read (built.base + off) 4)] }.pos = .idle) ∧
    (∀ off ∈ [0x000, 0x02C, 0x038, 0x060, 0x3FC, 0x800, 0xFFC],
      off < 4096 ∧ off % 4 = 0 ∧ { built with pos := .walk, host := [now (.read (built.base + off) 4)] }.pos ≠ .idle ∧
      ¬(off = 0x030 ∨ off = 0x034 ∨ (0x03C ≤ off ∧ off < 0x060) ∨ (0x400 ≤ off ∧ off < 0x800))) ∧
    (∀ off ∈ [0x030, 0x034, 0x03C, 0x05C, 0x400, 0x7FC],
      off < 4096 ∧ off % 4 = 0 ∧ { built with pos := .walk, host := [now (.read (built.base + off) 4)] }.pos ≠ .idle ∧
      (off = 0x030 ∨ off = 0x034 ∨ (0x03C ≤ off ∧ off < 0x060) ∨ (0x400 ≤ off ∧ off < 0x800))) := by
  decide

/-- Both ends of HIST, the two selectors, the read-only registers with the ends of their ranges, and both ends of both
reserved ranges. -/
theorem witness_IdleHostWrites : built.pos = .idle ∧ MemoryForm built ∧
    (∀ off ∈ [0x000, 0x010, 0x028, 0x02C, 0x030, 0x034, 0x038, 0x03C, 0x05C, 0x060, 0x3FC, 0x400, 0x7FC, 0x800, 0xFFC],
      off % 4 = 0 ∧ { built with host := [now (.write (built.base + off) 4 7#32)] }.host
        = { wait := 0, op := .write (built.base + off) 4 7#32 } :: []) ∧
    (0 < 256 ∧ 0x400 = 0x400 + 4 * 0 ∧ 255 < 256 ∧ 0x7FC = 0x400 + 4 * 255) ∧
    (∀ off ∈ [0x000, 0x010, 0x028, 0x030, 0x034, 0x03C, 0x05C],
      off = 0x000 ∨ (0x010 ≤ off ∧ off < 0x02C) ∨ off = 0x030 ∨ off = 0x034 ∨ (0x03C ≤ off ∧ off < 0x060)) ∧
    (∀ off ∈ [0x060, 0x3FC, 0x800, 0xFFC], (0x060 ≤ off ∧ off < 0x400) ∨ (0x800 ≤ off ∧ off < 0x1000)) := by
  decide

/-- An idle core, and a running one whose next event is due. -/
theorem witness_StatusAndCtrlWrites :
    { built with host := [now (.write (built.base + 0x00C) 4 14#32)] }.pos = .idle ∧
    ({ built with pos := .walk, host := [now (.write (built.base + 0x004) 4 1#32)] }.pos ≠ .idle ∧
      (now (.write (built.base + 0x004) 4 1#32)).wait = 0) := by decide

/-- A leaf, the last slot (an internal node), and the first hidden one. -/
theorem witness_NodeWindow :
    ({ built with nodeSel := 0#10 }.nodeSel < built.nnodes ∧ (built.nodeAt 0#10).leaf = true) ∧
    ({ built with nodeSel := 4#10 }.nodeSel < built.nnodes ∧ (built.nodeAt 4#10).leaf = false) ∧
    built.nnodes ≤ { built with nodeSel := 5#10 }.nodeSel := by decide

/-- A byte's code, EOF_SYM's code, an invalid entry, and the first selector that selects nothing. -/
theorem witness_CodeWindow :
    (({ coded with codeSel := 0x41#9 }.codeSel.toNat ≤ 256) ∧ (coded.codeAt 0x41).valid = true) ∧
    (({ coded with codeSel := 256#9 }.codeSel.toNat ≤ 256) ∧ (coded.codeAt 256).valid = true) ∧
    (coded.codeAt 0x43).valid = false ∧ 256 < { coded with codeSel := 257#9 }.codeSel.toNat := by decide

/-- A half-word, a misaligned word, the addresses below and above the register space. -/
theorem witness_OnlyAlignedWordsAreAccesses : built.pos = .idle ∧ built.base = 0x3000 ∧
    (built.base ≤ 0x3000 ∧ 0x3000 < built.base + 4096 ∧ 2 ≠ 4) ∧
    (built.base ≤ 0x3FFE ∧ 0x3FFE < built.base + 4096 ∧ 0x3FFE % 4 ≠ 0) ∧
    0x2FFC < built.base ∧ built.base + 4096 ≤ 0x4000 := by decide

theorem witness_HardwareResetRestoresTheCore :
    { coded with host := [{ wait := 9, op := .hardwareReset }] }.pos = .idle ∧
    ({ coded with pos := .walk, host := [now .hardwareReset] }.pos ≠ .idle ∧ (now .hardwareReset).wait = 0) := by decide

/-- No event left, and a host that waits. -/
theorem witness_NopCompletes : Quiet coded ∧ Quiet { coded with host := [now .waitIdle, now .hardwareReset] } := by decide

theorem witness_IllegalWordFails : Quiet coded ∧ 1#28 ≠ 0#28 := by decide

/-- No tree; a tree without codes. -/
theorem witness_NotReadyTouchesNothing :
    (Quiet (onBits []) ∧ (onBits []).treeValid = false) ∧ (Quiet built ∧ built.codesValid = false) := by decide

theorem witness_InresetRewindsTheInput :
    (∀ p ∈ [built.inp, { built.inp with rewindable := false }, { built.inp with fails := [true] }],
      Quiet { built with inp := p } ∧ p.silent = false ∧ p.failed = false) ∧
    ((drawFail built.inp.fails).1 = false ∧ built.inp.rewindable = true) ∧
    { built.inp with rewindable := false }.rewindable = false ∧
    (drawFail { built.inp with fails := [true] }.fails).1 = true := by decide

/-- An open sink, a closed one, and a failing close. -/
theorem witness_OutcloseFlushesAndCloses :
    (∀ p ∈ [OutPort.empty, closedPort, { OutPort.empty with fails := [true] }],
      Quiet { built with out := p } ∧ p.silent = false ∧ p.failed = false) ∧
    ((drawFail OutPort.empty.fails).1 = false ∧ OutPort.empty.closed = false) ∧
    ((drawFail closedPort.fails).1 = false ∧ closedPort.closed = true) ∧
    (drawFail { OutPort.empty with fails := [true] }.fails).1 = true := by decide

theorem witness_ClearEmptiesTheMemories : Quiet coded := by decide

theorem witness_CountBuildsTheHistogram :
    Quiet built ∧ InputAnswers built.inp ∧ InputEnds built.inp ∧
    [0x41, 0x41, 0x42] = bytesOfBits (unread built.inp) ∧ (∀ c, List.count c [0x41, 0x41, 0x42] ≤ Config.maxCount) :=
  ⟨by decide, by decide, by decide, by decide, fun _ => Nat.le_trans List.count_le_length (by decide)⟩

/-- V-H6: the second read fails. -/
theorem witness_CountPortErrorKeepsTheCounts : ∃ s : State, Quiet s ∧ s.inp.silent = false ∧
    s.inp.failed = false ∧ s.inp.fails = List.replicate 1 false ++ true :: [] ∧ [0x41, 0x42] = bytesOfBits (unread s.inp) ∧
    1 ≤ [0x41, 0x42].length ∧ (∀ c, ([0x41, 0x42].take 1).count c ≤ Config.maxCount) :=
  ⟨{ onBytes [0x41, 0x42] with inp := { (onBytes [0x41, 0x42]).inp with fails := [false, true] } },
    by decide, by decide, by decide, by decide, by decide, by decide, fun _ => Nat.le_trans List.count_le_length (by decide)⟩

theorem witness_CountOverflowStops : ∃ s : State, s.pos = .countRead ∧ InputAnswers s.inp ∧ 0x41 < 256 ∧
    unread s.inp = bin 8 0x41 ++ [] ∧ (s.histAt 0x41).toNat = 4294967295 :=
  ⟨{ onBytes [0x41] with pos := .countRead, hist := [(0x41, 0xFFFFFFFF#32)] }, by decide⟩

theorem codedBytes_built : codedBytes built = [0x41, 0x42] := by decide +kernel
theorem histTotal_built : histTotal built = 3 := by decide +kernel

theorem witness_BuildMakesTheTree : Quiet built ∧ MemoryForm built ∧ [0x41, 0x42] = codedBytes built ∧
    3 = [0x41, 0x42].length + 1 ∧ histTotal built + 1 ≤ Config.maxCount :=
  ⟨by decide, by decide, codedBytes_built.symm, rfl, by rw [histTotal_built]; decide⟩

/-- A merge of V-B4's leaves, and one whose sum is too large (V-B9). -/
def merging4 : State := { built with pos := .merge 3 [], pq := [0#10, 1#10, 2#10] }
def mergingTooLarge : State :=
  { merging4 with node := [(0, leafNode 0#9 0xFFFFFFFF#32), (1, leafNode 256#9 1#32)], pos := .merge 2 [], pq := [0#10, 1#10] }

theorem witness_MergeTakesTheTwoLightest :
    (MemoryForm merging4 ∧ merging4.pos = .merge 3 [] ∧ 2 ≤ merging4.pq.length ∧ merging4.par.tie = .lowestIndex ∧
      merging4.pq.Pairwise (· < ·) ∧ merging4.weightAt 1#10 + merging4.weightAt 2#10 ≤ Config.maxCount) ∧
    (MemoryForm mergingTooLarge ∧ mergingTooLarge.pos = .merge 2 [] ∧ 2 ≤ mergingTooLarge.pq.length ∧
      Config.maxCount < mergingTooLarge.weightAt 1#10 + mergingTooLarge.weightAt 0#10) := by decide

/-- V-B9, and the largest total that does not overflow. -/
theorem witness_BuildOverflowStops :
    (∃ s : State, Quiet s ∧ MemoryForm s ∧ Config.maxCount < histTotal s + 1) ∧
    (∃ s : State, Quiet s ∧ MemoryForm s ∧ histTotal s + 1 = Config.maxCount) :=
  ⟨⟨{ onBits [] with hist := [(0, 0xFFFFFFFF#32)] }, by decide +kernel⟩,
    ⟨{ onBits [] with hist := [(0, 0xFFFFFFFE#32)] }, by decide +kernel⟩⟩

/-- V-B1 and V-B2. -/
theorem witness_BuildDegenerateTrees :
    (Quiet (onBits []) ∧ MemoryForm (onBits []) ∧ codedBytes (onBits []) = []) ∧
    (Quiet { onBits [] with hist := [(0, 1#32)] } ∧ MemoryForm { onBits [] with hist := [(0, 1#32)] } ∧
      codedBytes { onBits [] with hist := [(0, 1#32)] } = [0] ∧
      ({ onBits [] with hist := [(0, 1#32)] }.histAt 0).toNat < Config.maxCount) := by decide +kernel

theorem exists_next_build : ∃ t, exec .build built = .next t ∧ holds t.node t.root aab = true :=
  exists_next_of (p := fun t => holds t.node t.root aab) (by decide +kernel)

theorem witness_BuildIsDeterministic : ∃ t v, Quiet built ∧ MemoryForm built ∧ built.hist = built.hist ∧
    exec .build built = .next t ∧ exec .build built = .next v ∧ holds t.node t.root aab = true := by
  obtain ⟨t, h, ht⟩ := exists_next_build
  exact ⟨t, t, by decide, by decide, rfl, h, h, ht⟩

/-- The other tree has the same leaves in another order. -/
theorem witness_BuildIsOptimal : ∃ t, Quiet built ∧ MemoryForm built ∧ exec .build built = .next t ∧
    holds t.node t.root aab = true ∧
    (HuffTree.node (.node (.leaf 0x41#9) (.leaf 0x42#9)) (.leaf 256#9)).syms.Perm aab.syms := by
  obtain ⟨t, h, ht⟩ := exists_next_build
  exact ⟨t, by decide, by decide, h, ht, by decide⟩

theorem witness_GencodesMakesTheCodeTable : Quiet built ∧ built.treeValid = true ∧
    holds built.node built.root aab = true ∧ aab.leaves ≤ 257 := by decide

theorem witness_CodesArePrefixFree : ∃ u, Quiet built ∧ built.treeValid = true ∧
    holds built.node built.root aab = true ∧ aab.leaves ≤ 257 ∧ exec .gencodes built = .next u ∧
    (u.codeAt 0x41).valid = true ∧ (u.codeAt 256).valid = true := by
  obtain ⟨u, h, hu⟩ := exists_next_of (r := exec .gencodes built)
    (p := fun u => (u.codeAt 0x41).valid && (u.codeAt 256).valid) (by decide)
  simp only [Bool.and_eq_true] at hu
  exact ⟨u, by decide, by decide, by decide, by decide, h, hu⟩

theorem witness_CodesCoverTheCountedSymbols : ∃ t u, Quiet built ∧ MemoryForm built ∧ exec .build built = .next t ∧
    exec .gencodes t = .next u := by
  obtain ⟨u, hu⟩ := exists_next (r := andThen (exec .build built) (exec .gencodes)) (by decide +kernel)
  obtain ⟨t, ht, hu⟩ := andThen_eq_next.mp hu
  exact ⟨t, u, by decide, by decide, ht, hu⟩

theorem witness_SerializeWritesTheTree : Quiet built ∧ built.treeValid = true ∧
    holds built.node built.root aab = true ∧ aab.leaves ≤ 257 ∧ SinkOpen built.out := by decide

theorem witness_DeserializeReadsTheTree : ∃ s : State, Quiet s ∧ MemoryForm s ∧ InputAnswers s.inp ∧
    unread s.inp = t1000A.bits ++ [true] ∧ t1000A.leaves ≤ 257 :=
  ⟨onBits (t1000A.bits ++ [true]), by decide⟩

theorem leaves_pos (t : HuffTree) : 0 < t.leaves := by
  cases t with
  | leaf c => exact Nat.one_pos
  | node l r =>
    have hl := leaves_pos l
    exact Nat.lt_of_lt_of_le hl (Nat.le_add_right _ _)

/-- A tree whose serialization begins with `k` zeros has more than `k` leaves. -/
theorem leaves_of_zeros (t : HuffTree) : ∀ (k : Nat) (rest tail : Bits),
    List.replicate k false ++ tail = t.bits ++ rest → k < t.leaves ∨ tail.length + k < t.bits.length := by
  induction t with
  | leaf c =>
    intro k rest tail h
    cases k with
    | zero => exact .inl (by simp [HuffTree.leaves])
    | succ k => simp [List.replicate_succ, HuffTree.bits] at h
  | node l r ihl _ =>
    intro k rest tail h
    cases k with
    | zero => exact .inl (by have := leaves_pos l; simp only [HuffTree.leaves]; omega)
    | succ k =>
      simp only [List.replicate_succ, List.cons_append, HuffTree.bits, List.cons.injEq, true_and, List.append_assoc] at h
      have hr := leaves_pos r
      rcases ihl k _ tail h with hl | hl
      · exact .inl (by simp only [HuffTree.leaves]; omega)
      · exact .inr (by simp only [HuffTree.bits, List.length_cons, List.length_append]; omega)

/-- V-T5's empty input and 514 zeros, for DESERIALIZE and, after MAGIC, for DECODE (V-D9, V-D12). -/
theorem witness_DeserializeRejectsOtherInput : ∀ header ∈ [[], List.replicate 514 false],
    (∀ (t : HuffTree) (rest : Bits), header = t.bits ++ rest → 257 < t.leaves) ∧
    (∃ s : State, Quiet s ∧ MemoryForm s ∧ InputAnswers s.inp ∧ InputEnds s.inp ∧ unread s.inp = header) ∧
    (∃ s : State, Quiet s ∧ MemoryForm s ∧ InputAnswers s.inp ∧ InputEnds s.inp ∧ SinkOpen s.out ∧
      unread s.inp = bin 32 s.par.magic.toNat ++ header) := by
  intro header h
  refine ⟨fun t rest hu => ?_, ⟨onBits header, ⟨rfl, rfl⟩, rfl, ⟨rfl, rfl, rfl⟩, rfl, rfl⟩,
    ⟨onBits (bin 32 0xFACE8201 ++ header), ⟨rfl, rfl⟩, rfl, ⟨rfl, rfl, rfl⟩, rfl, ⟨⟨rfl, rfl, rfl⟩, rfl⟩, rfl⟩⟩
  rcases List.mem_cons.mp h with rfl | h
  · cases t <;> simp [HuffTree.bits] at hu
  · rcases List.mem_singleton.mp h with rfl
    rcases leaves_of_zeros t 514 rest [] (by rw [List.append_nil]; exact hu) with h | h
    · omega
    · have := congrArg List.length hu
      simp only [List.length_append, List.length_replicate, List.length_nil] at this h
      omega

theorem witness_HeaderIdempotence : Quiet built ∧ built.treeValid = true ∧
    holds built.node built.root aab = true ∧ aab.leaves ≤ 257 ∧ SinkOpen built.out ∧
    Quiet (onBits (aab.bits ++ [])) ∧ MemoryForm (onBits (aab.bits ++ [])) ∧ InputAnswers (onBits (aab.bits ++ [])).inp ∧
    unread (onBits (aab.bits ++ [])).inp = aab.bits ++ [] := by decide

theorem witness_EncodeOutputLaw : Quiet coded ∧ coded.treeValid = true ∧ coded.codesValid = true ∧
    holds coded.node coded.root aab = true ∧ aab.leaves ≤ 257 ∧ InputAnswers coded.inp ∧ InputEnds coded.inp ∧ SinkOpen coded.out ∧
    [0x41, 0x41, 0x42] = bytesOfBits (unread coded.inp) ∧ (∀ b ∈ [0x41, 0x41, 0x42], (coded.codeAt b).valid = true) ∧
    (coded.codeAt 256).valid = true := by decide

/-- V-E8 (a byte without a code), and a table without EOF_SYM. -/
theorem witness_EncodeUncodedSymbol :
    (∃ s : State, Quiet s ∧ s.treeValid = true ∧ s.codesValid = true ∧ holds s.node s.root aab = true ∧
      InputAnswers s.inp ∧ SinkOpen s.out ∧ (∀ b ∈ [0x41], (s.codeAt b).valid = true) ∧
      bytesOfBits (unread s.inp) = [0x41] ++ 0x43 :: [] ∧ (s.codeAt 0x43).valid = false) ∧
    (∃ s : State, Quiet s ∧ s.treeValid = true ∧ s.codesValid = true ∧ holds s.node s.root aab = true ∧
      InputAnswers s.inp ∧ SinkOpen s.out ∧ (∀ b ∈ [0x41], (s.codeAt b).valid = true) ∧ InputEnds s.inp ∧
      bytesOfBits (unread s.inp) = [0x41] ∧ (s.codeAt 256).valid = false) ∧ aab.leaves ≤ 257 :=
  ⟨⟨{ coded with inp := (onBytes [0x41, 0x43]).inp }, by decide⟩,
    ⟨{ coded with inp := (onBytes [0x41]).inp, code := [(0x41, { valid := true, bits := [false] })] }, by decide⟩,
    by decide⟩

/-- SERIALIZE and ENCODE of "AAB"; DECODE of V-E2's header and the code of "A"; COMPRESS of "AAB". -/
theorem witness_ClosedSinkFails :
    (∃ s : State, Quiet s ∧ OutputAnswers s.out ∧ s.out.closed = true ∧ s.treeValid = true ∧ s.root.toNat < 513 ∧
      s.codesValid = true) ∧
    (∃ s : State, Quiet s ∧ OutputAnswers s.out ∧ s.out.closed = true ∧ MemoryForm s ∧ InputAnswers s.inp ∧
      aab.leaves ≤ 257 ∧ (0x41#9, [false]) ∈ aab.paths [] ∧ 0x41#9 ≠ 256#9 ∧ [false] ≠ [] ∧
      unread s.inp = (bin 32 s.par.magic.toNat ++ aab.bits ++ [false]) ++ []) ∧
    (∃ s : State, Quiet s ∧ OutputAnswers s.out ∧ s.out.closed = true ∧ MemoryForm s ∧ InputAnswers s.inp ∧
      InputEnds s.inp ∧ s.inp.rewindable = true ∧ s.inp.pos = 0 ∧ s.inp.eof = false ∧
      [0x41, 0x41, 0x42] = bytesOfBits s.inp.bits ∧ [0x41, 0x41, 0x42].length + 1 ≤ Config.maxCount) :=
  ⟨⟨{ coded with out := closedPort }, by decide⟩,
    ⟨{ onBits (bin 32 0xFACE8201 ++ aab.bits ++ [false]) with out := closedPort }, by decide⟩,
    ⟨{ onBytes [0x41, 0x41, 0x42] with out := closedPort }, by decide⟩⟩

theorem witness_CompressEqualsTheSequence : ∃ s t u : State, Quiet s ∧ MemoryForm s ∧ InputAnswers s.inp ∧
    InputEnds s.inp ∧ s.inp.rewindable = true ∧ OutputAnswers s.out ∧ exec .count s = .next t ∧
    andThen (exec .inreset t) (fun t2 => andThen (exec .build t2) fun t3 =>
      andThen (exec .gencodes t3) fun t4 => exec .encode t4) = .next u := by
  obtain ⟨u, hu⟩ := exists_next (r := andThen (exec .count (onBytes [0x41, 0x41, 0x42])) fun t =>
    andThen (exec .inreset t) (fun t2 => andThen (exec .build t2) fun t3 =>
      andThen (exec .gencodes t3) fun t4 => exec .encode t4)) (by decide +kernel)
  obtain ⟨t, ht, hu⟩ := andThen_eq_next.mp hu
  exact ⟨onBytes [0x41, 0x41, 0x42], t, u, by decide, by decide, by decide, by decide, by decide, by decide, ht, hu⟩

theorem witness_CompressWritesTheStream : ∃ s : State, Quiet s ∧ MemoryForm s ∧ InputAnswers s.inp ∧
    InputEnds s.inp ∧ s.inp.rewindable = true ∧ s.inp.pos = 0 ∧ s.inp.eof = false ∧ SinkOpen s.out ∧
    [0x41, 0x41, 0x42] = bytesOfBits s.inp.bits ∧ [0x41, 0x41, 0x42].length + 1 ≤ Config.maxCount :=
  ⟨onBytes [0x41, 0x41, 0x42], by decide⟩

/-- V-D2: the body of "AAB", and V-D1: EOF_SYM alone. -/
theorem witness_DecodeWalksToEof :
    (∃ s : State, Quiet s ∧ MemoryForm s ∧ InputAnswers s.inp ∧ SinkOpen s.out ∧
      (∀ e ∈ [(0x41#9, [false]), (0x41#9, [false]), (0x42#9, [true, false])], e ∈ aab.paths [] ∧ e.1 ≠ 256#9) ∧
      (256#9, [true, true]) ∈ aab.paths [] ∧
      unread s.inp = (bin 32 s.par.magic.toNat ++ aab.bits ++ [false, false, true, false] ++ [true, true]) ++ [false]) ∧
    (∃ s : State, Quiet s ∧ MemoryForm s ∧ InputAnswers s.inp ∧ SinkOpen s.out ∧
      (256#9, []) ∈ (HuffTree.leaf 256#9).paths [] ∧
      unread s.inp = (bin 32 s.par.magic.toNat ++ (HuffTree.leaf 256#9).bits ++ [] ++ []) ++ []) ∧
    aab.leaves ≤ 257 ∧ (HuffTree.leaf 256#9).leaves ≤ 257 :=
  ⟨⟨onBits ((bitsOfBytes bytesE2).take 71), by decide⟩,
    ⟨onBits (bin 32 0xFACE8201 ++ (HuffTree.leaf 256#9).bits), by decide⟩, by decide, by decide⟩

/-- V-D3 and V-D4: 32 bits or more, on an input that need not end, and an input that ends before. -/
theorem witness_DecodeUnrecognizedFormat :
    (∃ s : State, Quiet s ∧ InputAnswers s.inp ∧ SinkOpen s.out ∧
      (unread s.inp).take 32 ≠ bin 32 s.par.magic.toNat ∧ 32 ≤ (unread s.inp).length ∧ ¬InputEnds s.inp) ∧
    (∃ s : State, Quiet s ∧ InputAnswers s.inp ∧ SinkOpen s.out ∧
      (unread s.inp).take 32 ≠ bin 32 s.par.magic.toNat ∧ InputEnds s.inp ∧ (unread s.inp).length < 32) :=
  ⟨⟨{ onBits [] with inp := { InPort.empty with bits := List.replicate 32 false, endless := some 0 } }, by decide⟩,
    ⟨onBits (List.replicate 20 true), by decide⟩⟩

/-- A tree of no EOF_SYM leaf. -/
def noEof : HuffTree := .node (.leaf 0x41#9) (.leaf 0x42#9)

/-- The input ends after the first bit of "B"'s code; and a tree of no EOF_SYM leaf before two codes and a half. -/
theorem witness_DecodeTruncatedStream :
    (∃ s : State, Quiet s ∧ MemoryForm s ∧ InputAnswers s.inp ∧ InputEnds s.inp ∧ SinkOpen s.out ∧
      aab.leaves ≤ 257 ∧ (∀ e ∈ [(0x41#9, [false])], e ∈ aab.paths [] ∧ e.1 ≠ 256#9) ∧
      (0x42#9, [true, false]) ∈ aab.paths [] ∧ [true] <+: [true, false] ∧ [true] ≠ [true, false] ∧
      unread s.inp = (bin 32 s.par.magic.toNat ++ aab.bits) ++ [false] ++ [true]) ∧
    (∃ s : State, Quiet s ∧ MemoryForm s ∧ InputAnswers s.inp ∧ InputEnds s.inp ∧ SinkOpen s.out ∧
      noEof.leaves ≤ 257 ∧ 1 < noEof.leaves ∧ 256#9 ∉ noEof.syms ∧
      unread s.inp = (bin 32 s.par.magic.toNat ++ noEof.bits) ++ [false, true]) :=
  ⟨⟨onBits (bin 32 0xFACE8201 ++ aab.bits ++ [false, true]), by decide⟩,
    ⟨onBits (bin 32 0xFACE8201 ++ noEof.bits ++ [false, true]), by decide⟩⟩

/-- V-D1 and V-D6. -/
theorem witness_DecodeOneLeafTree : ∀ c ∈ [256#9, 0x41#9], ∃ s : State, Quiet s ∧ MemoryForm s ∧ InputAnswers s.inp ∧
    SinkOpen s.out ∧ unread s.inp = bin 32 s.par.magic.toNat ++ true :: bin 9 c.toNat ++ [] := by
  intro c h
  refine ⟨onBits (bin 32 0xFACE8201 ++ true :: bin 9 c.toNat), ?_⟩
  revert c
  decide

/-- "AAB", and V-E2's 70 bits with one padding bit. -/
theorem witness_RoundTrip :
    (∃ s : State, Quiet s ∧ MemoryForm s ∧ InputAnswers s.inp ∧ InputEnds s.inp ∧ s.inp.rewindable = true ∧
      s.inp.pos = 0 ∧ s.inp.eof = false ∧ SinkOpen s.out ∧ s.out.bits = [] ∧ (∀ b ∈ [0x41, 0x41, 0x42], b < 256) ∧
      s.inp.bits = bitsOfBytes [0x41, 0x41, 0x42] ∧ [0x41, 0x41, 0x42].length + 1 ≤ Config.maxCount) ∧
    (∃ u : State, Quiet u ∧ MemoryForm u ∧ u.par.magic = (onBits []).par.magic ∧ InputAnswers u.inp ∧
      unread u.inp = (bitsOfBytes bytesE2).take 70 ++ [true] ∧ SinkOpen u.out ∧ u.out.bits = []) :=
  ⟨⟨onBytes [0x41, 0x41, 0x42], by decide⟩, ⟨onBits ((bitsOfBytes bytesE2).take 70 ++ [true]), by decide⟩⟩

/-- At an input request DECODE closes the output, COUNT does not, and COMPRESS rewinds; at an OutWrite ENCODE closes it
and SERIALIZE does not; and the checked OutClose. -/
theorem witness_PortFailureIsPortError :
    (∀ e ∈ [(Pos.getMagic, 7#32), (.countRead, 1#32), (.rewind, 8#32)], ∃ s : State, s.pos = e.1 ∧
      asksInput s.pos = true ∧ s.inp.silent = false ∧ s.inp.fails = true :: []) ∧
    (∀ e ∈ [(Pos.putMagic, 6#32), (.writeSym 0#10, 4#32)], ∃ s : State, s.pos = e.1 ∧ asksOutput s = true ∧
      asksClose s.pos = false ∧ slotExists s = true ∧ s.out.silent = false ∧ s.out.fails = true :: []) ∧
    (∃ s : State, s.pos = .close ∧ s.out.silent = false ∧ s.out.fails = true :: []) := by
  refine ⟨fun e h => ⟨{ built with pos := e.1, cmd := e.2, inp := { built.inp with fails := [true] } }, ?_⟩,
    fun e h => ⟨{ coded with pos := e.1, cmd := e.2, out := { OutPort.empty with fails := [true] } }, ?_⟩,
    { coded with pos := .close, cmd := 6#32, out := { OutPort.empty with fails := [true] } }, by decide⟩ <;>
  · revert e
    decide

theorem witness_FirstErrorWins : ∃ s : State, s.pos = .failClose .truncatedStream ∧ s.out.silent = false ∧
    s.out.fails = true :: [] :=
  ⟨{ built with pos := .failClose .truncatedStream, out := { OutPort.empty with fails := [true] } }, by decide⟩

/-- DECODE of a truncated stream, and SERIALIZE. -/
theorem witness_EveryExitClosesTheOutput :
    (∃ s t : State, WellFormed .decode ∧ s.pos = .idle ∧ exec .decode s = .next t ∧ closesOutput .decode = true ∧
      ready .decode s = true ∧ s.out.fails = [] ∧ t.pos = .idle) ∧
    (∃ t : State, WellFormed .serialize ∧ built.pos = .idle ∧ exec .serialize built = .next t ∧
      closesOutput .serialize = false ∧ Instr.serialize ≠ .outclose ∧ built.out.fails = [] ∧
      built.out.failed = false) := by
  constructor
  · obtain ⟨t, h, ht⟩ := exists_next_of (r := exec .decode (onBits (bin 32 0xFACE8201)))
      (p := fun t => t.pos == .idle) (by decide)
    exact ⟨_, t, by decide, rfl, h, rfl, rfl, rfl, by simpa using ht⟩
  · obtain ⟨t, h⟩ := exists_next (r := exec .serialize built) (by decide)
    exact ⟨t, by decide, rfl, h, rfl, by decide, rfl, rfl⟩

theorem witness_ErrorsByCommand : ∃ t, WellFormed .gencodes ∧ (onBits []).pos = .idle ∧
    exec .gencodes (onBits []) = .next t ∧ t.errcode = some .notReady := by
  obtain ⟨t, h, ht⟩ := exists_next_of (r := exec .gencodes (onBits []))
    (p := fun t => t.errcode == some .notReady) (by decide)
  exact ⟨t, by decide, rfl, h, by simpa using ht⟩

/-- COUNT before a silent input port, SERIALIZE before a silent output port, and DECODE on an endless input. -/
theorem witness_UnservedCommandsNeverEnd :
    (∃ s : State, s.pos ≠ .idle ∧ s.host = [] ∧ waiting s = true ∧ s.inp.silent = true) ∧
    (∃ s : State, s.pos ≠ .idle ∧ s.host = [] ∧ waiting s = true ∧ s.out.silent = true) ∧
    (∃ s : State, Quiet s ∧ MemoryForm s ∧ InputAnswers s.inp ∧ s.inp.endless.isSome = true ∧ s.inp.eof = false ∧
      SinkOpen s.out ∧ noEof.leaves ≤ 257 ∧ 1 < noEof.leaves ∧ 256#9 ∉ noEof.syms ∧
      unread s.inp = bin 32 s.par.magic.toNat ++ noEof.bits ++ []) :=
  ⟨⟨{ built with pos := .countRead, inp := { built.inp with silent := true } }, by decide⟩,
    ⟨{ built with pos := .writeSym 0#10, out := { OutPort.empty with silent := true } }, by decide⟩,
    ⟨{ onBits [] with inp := { InPort.empty with bits := bin 32 0xFACE8201 ++ noEof.bits, endless := some 0 } },
      by decide⟩⟩

/-- GENCODES; COUNT of a port without failures. -/
theorem witness_CommandFrame :
    (∃ t, WellFormed .gencodes ∧ built.pos = .idle ∧ exec .gencodes built = .next t ∧ writesHist .gencodes = false ∧
      writesTree .gencodes = false ∧ usesInput .gencodes = false ∧ usesOutput .gencodes = false) ∧
    (∃ t, WellFormed .count ∧ built.pos = .idle ∧ exec .count built = .next t ∧ writesTree .count = false ∧
      writesCode .count = false ∧ built.inp.fails = [] ∧ built.inp.failed = false ∧ built.inp.rewindable = true) := by
  obtain ⟨t, h⟩ := exists_next (r := exec .gencodes built) (by decide)
  obtain ⟨u, hu⟩ := exists_next (r := exec .count built) (by decide)
  exact ⟨⟨t, by decide, rfl, h, rfl, rfl, rfl, rfl⟩, u, by decide, rfl, hu, rfl, rfl, rfl, rfl, rfl⟩

/-- A step that runs BUILD. -/
theorem witness_StepKeepsMemoryForm : ∃ s t : State, MemoryForm s ∧ step s = .next t := by
  obtain ⟨t, h⟩ := exists_next (r := step (built.withFetchWord 32 0x2)) (by decide +kernel)
  exact ⟨_, t, by decide, h⟩

theorem lifecycle_reset_placed : Lifecycle (State.reset.withFetchWord 32 0x1) where
  notBoth := by decide
  running := by decide
  resting := by decide
  donePhase := by decide
  failPhase := by decide
  errPhase := by decide
  codesNeedTree := by decide
  noTree := by decide
  treeAt := by decide

/-- A step that runs COUNT. -/
theorem witness_StepKeepsLifecycle : ∃ s t : State, Lifecycle s ∧ step s = .next t := by
  obtain ⟨t, h⟩ := exists_next (r := step (State.reset.withFetchWord 32 0x1)) (by decide)
  exact ⟨_, t, lifecycle_reset_placed, h⟩

theorem strictTree_built : StrictTree built := ⟨aab, by decide⟩

theorem treeInv_built : TreeInv built where
  form := by decide
  tree := fun _ => strictTree_built
  parts := trivial

/-- BUILD of "AAB" before its first merge: three leaves. -/
def mergingLeaves : State :=
  { merging4 with treeValid := false, root := Config.nil, nnodes := 0#10, cmd := 2#32 }

theorem treeInv_mergingLeaves : TreeInv mergingLeaves where
  form := by decide
  tree := fun h => by cases h
  parts := ⟨rfl, [(0#10, .leaf 0x41#9), (1#10, .leaf 0x42#9), (2#10, .leaf 256#9)], by decide⟩

/-- DESERIALIZE of `T_1000A`, cut before its second leaf's Symbol: slot 0 waits with its left child, slot 1, read. -/
def cutRead : State :=
  { onBits (bin 9 0x41) with
    cmd := 5#32, pos := .readSym 2#10 3 1, stack := [{ idx := 0#10, path := [], leftDone := true }]
    node := [(0, innerNode 1#10 0#10 0#32), (1, leafNode 256#9 0#32)] }

theorem treeInv_cutRead : TreeInv cutRead where
  form := by decide
  tree := fun h => by cases h
  parts := ⟨rfl, [({ idx := 0#10, path := [], leftDone := true }, some (.leaf 256#9))], by decide⟩

/-- BUILD and DESERIALIZE that go on in a later step, and SERIALIZE of a built tree from rest. -/
theorem witness_StepKeepsTheStrictTree :
    (∃ t, TreeInv mergingLeaves ∧ step mergingLeaves = .next t ∧ t.treeValid = true) ∧
    (∃ t, TreeInv cutRead ∧ step cutRead = .next t ∧ t.treeValid = true) ∧
    (∃ t, built.pos = .idle ∧ TreeInv built ∧ exec .serialize built = .next t ∧ t.treeValid = true) := by
  obtain ⟨t, h, ht⟩ := exists_next_of (r := step mergingLeaves) (p := fun t => t.treeValid) (by decide +kernel)
  obtain ⟨u, hu, hv⟩ := exists_next_of (r := step cutRead) (p := fun t => t.treeValid) (by decide +kernel)
  obtain ⟨v, h3, hw⟩ := exists_next_of (r := exec .serialize built) (p := fun t => t.treeValid) (by decide)
  exact ⟨⟨t, treeInv_mergingLeaves, h, ht⟩, ⟨u, treeInv_cutRead, hu, hv⟩, v, rfl, treeInv_built, h3, hw⟩

end Sys2Proof.Tests
end

/-! SUPPORT. What one turn of the sequencer can do, said once: at most one port transaction, then one of the pieces of
pseudocode that `Piece` lists. Every invariant of a running command is proved from this list. -/

namespace Sys2Proof.Machine

/-! ### The positions of each command -/

/-- The commands whose pseudocode has the position (R151, R300). -/
def permits (i : Instr) : Pos → Bool
  | .idle | .start => true
  | .countRead | .endOf .count => i == .count || i == .compress
  | .rewind | .endOf .rewind => i == .inreset || i == .compress
  | .merge _ _ | .endOf .build => i == .build || i == .compress
  | .walk | .endOf .gencodes => i == .gencodes || i == .compress
  | .putMagic | .encodeRead | .emit _ | .emitEof => i == .encode || i == .compress
  | .writeTree | .writeSym _ | .endOf .writeTree => i == .serialize || i == .encode || i == .compress
  | .readTag _ _ | .readSym _ _ _ | .endOf .readTree => i == .deserialize || i == .decode
  | .getMagic | .decodeRead | .putByte => i == .decode
  | .close => i == .outclose || i == .encode || i == .decode || i == .compress
  | .failClose _ => closesOutput i

/-- Positions of which no invariant says anything: the core runs, makes no tree and needs none. -/
def plain : Pos → Bool
  | .idle | .merge _ _ | .readTag _ _ | .readSym _ _ _ | .walk | .endOf .build => false
  | _ => true

/-- Whether the piece at the position moves DECODE's cursor `cur` (R60, R320). -/
def movesCursor (s : State) : Bool :=
  match s.pos with
  | .decodeRead | .putByte => true
  | .endOf .readTree => running s == .decode
  | _ => false

/-! ### The port's part of a turn -/

/-- The state after the turn's port transaction, if it makes one. -/
inductive Transaction (s : State) : State → Prop
  | none : Transaction s s
  | read (n : Nat) (h : asksInput s.pos = true) : Transaction s (inRead n s).2
  | rewind (h : asksInput s.pos = true) : Transaction s (inReset s).2
  | write (n v : Nat) (h : asksOutput s = true) : Transaction s (outWrite n v s).2
  | close (h : asksOutput s = true) : Transaction s (outClose s).2

/-- The state after the turn's transaction, `PHASE`, SYMS and the cursor changed as its piece changes them. -/
def Scratch (s u : State) : Prop :=
  ∃ v, Transaction s v ∧
    ∃ c, (c = s.cur ∨ movesCursor s = true) ∧ ∃ ph y, u = { v with phase := ph, syms := y, cur := c }

/-- A transaction changes ports, their counters and the draw count, and nothing else. -/
theorem Transaction.frame {s u : State} (h : Transaction s u) :
    u = { s with inp := u.inp, out := u.out, inBits := u.inBits, outBits := u.outBits, draws := u.draws } := by
  cases h <;> rfl

theorem Transaction.scratch {s u : State} (h : Transaction s u) : Scratch s u :=
  ⟨u, h, u.cur, .inl (by rw [h.frame]), u.phase, u.syms, rfl⟩

/-- The part of the state that every invariant speaks of is as it was. -/
theorem Scratch.frame {s u : State} (h : Scratch s u) :
    u = { s with
      inp := u.inp, out := u.out, inBits := u.inBits, outBits := u.outBits, draws := u.draws
      phase := u.phase, syms := u.syms, cur := u.cur } := by
  obtain ⟨v, hv, c, -, ph, y, rfl⟩ := h
  rw [hv.frame]

theorem Scratch.refl (s : State) : Scratch s s := Transaction.none.scratch

theorem Scratch.setPhase {s u : State} (h : Scratch s u) (ph : Phase) : Scratch s (u.setPhase ph) := by
  obtain ⟨v, hv, c, hc, _, y, rfl⟩ := h
  exact ⟨v, hv, c, hc, ph, y, rfl⟩

theorem Scratch.countSym {s u : State} (h : Scratch s u) : Scratch s u.countSym := by
  obtain ⟨v, hv, c, hc, ph, y, rfl⟩ := h
  exact ⟨v, hv, c, hc, ph, y + 1#32, rfl⟩

theorem Scratch.setCur {s u : State} (h : Scratch s u) (hm : movesCursor s = true) (c : Idx) :
    Scratch s { u with cur := c } := by
  obtain ⟨v, hv, _, -, ph, y, rfl⟩ := h
  exact ⟨v, hv, c, .inr hm, ph, y, rfl⟩

theorem Scratch.pos {s u : State} (h : Scratch s u) : u.pos = s.pos := by rw [h.frame]

theorem Scratch.running {s u : State} (h : Scratch s u) : running u = running s := by rw [h.frame]; rfl

theorem Scratch.treeValid {s u : State} (h : Scratch s u) : u.treeValid = s.treeValid := by rw [h.frame]

theorem Scratch.root {s u : State} (h : Scratch s u) : u.root = s.root := by rw [h.frame]

/-! ### The pieces of pseudocode -/

/-- The rest of a turn, after its transaction: how the piece of pseudocode at the position changes the core. -/
inductive Piece (s : State) : State → Prop
  /-- A core that waits stays as it is (R93). -/
  | stay : Piece s s
  /-- R160. -/
  | finish (hm : merging s.pos = false) : Piece s (finish s)
  /-- R356, without a close. -/
  | fail (k : ErrKind) (hm : merging s.pos = false) : Piece s (failWith k s)
  /-- R356, R357. -/
  | raise (k : ErrKind) (hm : merging s.pos = false) : Piece s (raise k s)
  /-- To a plain position of the pseudocode, the stack changed or not. -/
  | move (p : Pos) (st : List Frame) (hm : merging s.pos = false) (hp : plain p = true) :
      Piece s { s with pos := p, stack := st }
  /-- R190. -/
  | beginCount (hp : s.pos = .start) : Piece s { s with hist := [], pos := .countRead }
  /-- R190. -/
  | countByte (b : Nat) (v : Word) (hp : s.pos = .countRead) (hb : b < 256) : Piece s (s.setHist b v)
  /-- R173. -/
  | clear (hr : running s = .clear) : Piece s (Machine.finish { clearTree s with hist := [], code := [] })
  /-- R210. -/
  | beginBuild : Piece s (beginBuild s)
  /-- R210, R214: two different elements of PQ are merged. -/
  | merge (n : Nat) (picks : List Idx) (a b : Idx) (hp : s.pos = .merge n picks) (ha : a ∈ s.pq)
      (hb : b ∈ s.pq.erase a) : Piece s (mergeNodes n picks a b ((s.pq.erase a).erase b) s)
  /-- R210. -/
  | buildDone (n : Nat) (picks : List Idx) (hp : s.pos = .merge n picks) (hl : s.pq.length ≤ 1) :
      Piece s (buildDone n s)
  /-- R240. -/
  | beginGencodes (ht : s.treeValid = true ∨ s.pos = .endOf .build) (hm : merging s.pos = false) :
      Piece s (beginGencodes s)
  /-- R240. -/
  | walkLeaf (c : Sym) (p : Bits) (rest : List Frame) (hp : s.pos = .walk) :
      Piece s (recordCode c p { s with stack := rest })
  /-- R240. -/
  | walkNode (st : List Frame) (hp : s.pos = .walk) : Piece s { s with stack := st }
  /-- R240. -/
  | walkEnd (hp : s.pos = .walk) : Piece s { s with codesValid := true, pos := .endOf .gencodes }
  /-- R271. -/
  | beginReadTree : Piece s (beginReadTree s)
  /-- R271: a tag bit and a free slot. -/
  | tag (v n leaves : Nat) (hp : s.pos = .readTag n leaves) (hn : n ≠ Config.nodeCap) : Piece s (tagRead v n leaves s)
  /-- R271: a leaf's Symbol. -/
  | symbol (i : Idx) (n leaves v : Nat) (hp : s.pos = .readSym i n leaves) :
      Piece s (returnNode n (leaves + 1) s.stack i
        (s.setNode i { s.nodeAt i with leaf := true, sym := BitVec.ofNat 9 v, weight := 0#32 }))

/-- What a turn from `s` can answer: a transaction, then a piece, at positions of the running command's own. -/
def TurnOutcome (s t : State) : Prop :=
  ∃ u, Scratch s u ∧ Piece u t ∧ (permits (running s) s.pos = true → permits (running s) t.pos = true)

section
variable {s u t : State}

theorem outcome_stay : TurnOutcome s s := ⟨s, .refl s, .stay, id⟩

theorem outcome_finish (h : Scratch s u) (hm : merging s.pos = false) : TurnOutcome s (finish u) :=
  ⟨u, h, .finish (by rwa [h.pos]), fun _ => rfl⟩

theorem outcome_failWith (h : Scratch s u) (k : ErrKind) (hm : merging s.pos = false) :
    TurnOutcome s (failWith k u) :=
  ⟨u, h, .fail k (by rwa [h.pos]), fun _ => rfl⟩

theorem raise_pos (k : ErrKind) (s : State) : (raise k s).pos = .idle ∨
    ((raise k s).pos = .failClose k ∧ closesOutput (running s) = true) := by
  unfold raise
  split
  · next hc => exact .inr ⟨rfl, hc⟩
  · exact .inl rfl

theorem outcome_raise (h : Scratch s u) (k : ErrKind) (hm : merging s.pos = false) : TurnOutcome s (raise k u) := by
  refine ⟨u, h, .raise k (by rwa [h.pos]), fun _ => ?_⟩
  obtain hi | ⟨hf, hc⟩ := raise_pos k u
  · rw [hi]; rfl
  · rw [hf, ← h.running]; exact hc

theorem outcome_move (h : Scratch s u) {p : Pos} (st : List Frame) (hm : merging s.pos = false) (hp : plain p = true)
    (hr : permits (running s) s.pos = true → permits (running s) p = true) :
    TurnOutcome s { u with pos := p, stack := st } :=
  ⟨u, h, .move p st (by rwa [h.pos]) hp, hr⟩

theorem outcome_goto (h : Scratch s u) {p : Pos} (hm : merging s.pos = false) (hp : plain p = true)
    (hr : permits (running s) s.pos = true → permits (running s) p = true) : TurnOutcome s (u.goto p) :=
  outcome_move h u.stack hm hp hr

theorem outcome_restack (h : Scratch s u) (st : List Frame) (hm : merging s.pos = false)
    (hp : plain s.pos = true) : TurnOutcome s { u with stack := st } :=
  outcome_move h (p := u.pos) st hm (by rwa [h.pos]) fun hr => by rwa [h.pos]

theorem outcome_checkWrite {n v : Nat} {k : State → State} (ha : asksOutput s = true) (hm : merging s.pos = false)
    (hk : ∀ u, Scratch s u → TurnOutcome s (k u)) (h : checkWrite n v s k = .next t) : TurnOutcome s t := by
  have hw := (Transaction.write n v ha).scratch
  unfold checkWrite at h
  split at h <;> cases h
  · exact hk _ hw
  · exact outcome_raise hw _ hm

theorem outcome_beginReadTree (h : Scratch s u)
    (hr : permits (running s) s.pos = true → running s = .deserialize ∨ running s = .decode) :
    TurnOutcome s (beginReadTree u) :=
  ⟨u, h, .beginReadTree, fun hp => by simpa [beginReadTree, permits] using hr hp⟩

theorem outcome_beginWriteTree (h : Scratch s u) (hm : merging s.pos = false)
    (hr : permits (running s) s.pos = true → permits (running s) .writeTree = true) :
    TurnOutcome s (beginWriteTree u) :=
  outcome_move (h.setPhase .serializing) _ hm rfl hr

theorem outcome_beginBuild (h : Scratch s u) (hr : running s = .build ∨ running s = .compress) :
    TurnOutcome s (beginBuild u) :=
  ⟨u, h, .beginBuild, fun _ => by simpa [beginBuild, permits] using hr⟩

theorem outcome_beginGencodes (h : Scratch s u) (ht : s.treeValid = true ∨ s.pos = .endOf .build)
    (hm : merging s.pos = false) (hr : running s = .gencodes ∨ running s = .compress) :
    TurnOutcome s (beginGencodes u) :=
  ⟨u, h, .beginGencodes (by rwa [h.pos, h.treeValid]) (by rwa [h.pos]),
    fun _ => by simpa [beginGencodes, permits] using hr⟩

/-! ### Each position's piece -/

theorem outcome_beginCommand (hp : s.pos = .start) (hr : ready (running s) s = true) :
    TurnOutcome s (beginCommand (running s) s) := by
  have hm : merging s.pos = false := by rw [hp]; rfl
  have h := Scratch.refl s
  have hcount (hc : running s = .count ∨ running s = .compress) : TurnOutcome s (beginCount s) :=
    ⟨_, h.setPhase .counting, .beginCount hp, fun _ => by simpa [beginCount, permits] using hc⟩
  cases hi : running s with
  | nop => exact outcome_finish h hm
  | count => exact hcount (.inl hi)
  | build => exact outcome_beginBuild h (.inl hi)
  | gencodes => exact outcome_beginGencodes h (.inl (by simpa [hi, ready] using hr)) hm (.inl hi)
  | serialize => exact outcome_beginWriteTree h hm (by simp [hi, permits])
  | deserialize => exact outcome_beginReadTree h fun _ => .inl hi
  | encode => exact outcome_goto (h.setPhase .headerMagic) hm rfl (by simp [hi, permits])
  | decode => exact outcome_goto (h.setPhase .headerMagic) hm rfl (by simp [hi, permits])
  | compress => exact hcount (.inr hi)
  | inreset => exact outcome_goto (h.setPhase .inResetting) hm rfl (by simp [hi, permits])
  | outclose => exact outcome_goto (h.setPhase .closing) hm rfl (by simp [hi, permits])
  | clear => exact ⟨_, h.setPhase .clearing, .clear hi, fun _ => rfl⟩
  | illegalOp low => exact outcome_raise h _ hm
  | illegalRes res op => exact outcome_raise h _ hm

theorem startTurn_outcome (hp : s.pos = .start) (h : startTurn s = .next t) : TurnOutcome s t := by
  unfold startTurn at h
  split at h <;> cases h
  · next hr => exact outcome_beginCommand hp hr
  · exact outcome_failWith (.refl s) _ (by rw [hp]; rfl)

/-- The bits that an InRead answers are a number of that many bits (R86). -/
theorem inRead_val_lt {n v : Nat} (h : (inRead n s).1 = .val v) : v < 2 ^ n := by
  obtain ⟨-, -, ⟨he, -⟩ | ⟨he, -⟩ | ⟨w, he, hw, -⟩⟩ := InPort.read_cases n s.draws s.inp
  all_goals simp only [inRead, he] at h
  · cases h
  · cases h
  · cases h
    exact hw ▸ val_lt w

theorem countReadTurn_outcome (hp : s.pos = .countRead) (h : countReadTurn s = .next t) : TurnOutcome s t := by
  have hm : merging s.pos = false := by rw [hp]; rfl
  have hs := (Transaction.read 8 (s := s) (by rw [hp]; rfl)).scratch
  have hbyte {u : State} (hu : Scratch s u) {b : Nat} (hb : b < 256) (v : Word) : TurnOutcome s (u.setHist b v) :=
    ⟨u, hu, .countByte b v (by rw [hu.pos, hp]) hb, by simp [hu.pos]⟩
  unfold countReadTurn at h
  split at h
  · cases h
    exact outcome_goto hs hm rfl (by simp [hp, permits])
  · cases h
    exact outcome_raise hs _ hm
  · next b hb =>
    have hlt : b < 256 := inRead_val_lt hb
    split at h <;> cases h
    unfold countByte
    split
    · exact hbyte hs hlt _
    · exact hbyte hs.countSym hlt _

theorem rewindTurn_outcome (hp : s.pos = .rewind) (h : rewindTurn s = .next t) : TurnOutcome s t := by
  have hm : merging s.pos = false := by rw [hp]; rfl
  have hs := (Transaction.rewind (s := s) (by rw [hp]; rfl)).scratch
  unfold rewindTurn at h
  split at h <;> cases h
  · exact outcome_goto hs hm rfl (by simp [hp, permits])
  · exact outcome_raise hs _ hm

theorem mergeTurn_outcome {n : Nat} {picks : List Idx} (hp : s.pos = .merge n picks)
    (h : mergeTurn n picks s = .next t) : TurnOutcome s t := by
  unfold mergeTurn at h
  split at h
  · next hl =>
    have ha := (select_spec s picks (p := s.pq) (List.ne_nil_of_length_pos (by omega))).1
    have hb := (select_spec s (select s picks s.pq :: picks) (p := s.pq.erase (select s picks s.pq))
      (List.ne_nil_of_length_pos (by rw [List.length_erase_of_mem ha]; omega))).1
    dsimp only at h
    split at h <;> cases h
    exact ⟨s, .refl s, .merge n picks _ _ hp ha hb, by simp [hp, mergeNodes, permits]⟩
  · next hl =>
    cases h
    exact ⟨s, .refl s, .buildDone n picks hp (by omega), by simp [hp, buildDone, permits]⟩

@[simp] theorem recordCode_pos (c : Sym) (p : Bits) (s : State) : (recordCode c p s).pos = s.pos := by
  unfold recordCode
  split <;> rfl

theorem walkTurn_outcome (hp : s.pos = .walk) (h : walkTurn s = .next t) : TurnOutcome s t := by
  unfold walkTurn at h
  split at h
  · cases h
    exact ⟨s, .refl s, .walkEnd hp, by simp [hp, permits]⟩
  · next f rest _ =>
    obtain ⟨-, h⟩ := withNode_eq_next.mp h
    split at h <;> cases h
    · exact ⟨s, .refl s, .walkLeaf _ _ rest hp, by simp⟩
    · exact ⟨s, .refl s, .walkNode _ hp, id⟩

theorem putMagicTurn_outcome (hp : s.pos = .putMagic) (h : putMagicTurn s = .next t) : TurnOutcome s t := by
  have hm : merging s.pos = false := by rw [hp]; rfl
  refine outcome_checkWrite (by simp [asksOutput, hp]) hm (fun u hu => ?_) h
  exact outcome_beginWriteTree hu hm (by simp +contextual [hp, permits, or_assoc])

theorem writeTreeTurn_outcome (hp : s.pos = .writeTree) (h : writeTreeTurn s = .next t) : TurnOutcome s t := by
  have hm : merging s.pos = false := by rw [hp]; rfl
  unfold writeTreeTurn at h
  split at h
  · cases h
    exact outcome_goto (.refl s) hm rfl (by simp [hp, permits])
  · next f rest hst =>
    have ha : asksOutput s = true := by simp [asksOutput, hp, hst]
    obtain ⟨-, h⟩ := withNode_eq_next.mp h
    split at h
    · exact outcome_checkWrite ha hm (fun u hu => outcome_move hu _ hm rfl (by simp [hp, permits])) h
    · exact outcome_checkWrite ha hm (fun u hu => outcome_restack hu _ hm (by rw [hp]; rfl)) h

theorem writeSymTurn_outcome {i : Idx} (hp : s.pos = .writeSym i) (h : writeSymTurn i s = .next t) :
    TurnOutcome s t := by
  have hm : merging s.pos = false := by rw [hp]; rfl
  obtain ⟨-, h⟩ := withNode_eq_next.mp h
  exact outcome_checkWrite (by simp [asksOutput, hp]) hm
    (fun u hu => outcome_goto hu hm rfl (by simp [hp, permits])) h

theorem readTagTurn_outcome {n leaves : Nat} (hp : s.pos = .readTag n leaves) (h : readTagTurn n leaves s = .next t) :
    TurnOutcome s t := by
  have hm : merging s.pos = false := by rw [hp]; rfl
  have hs := (Transaction.read 1 (s := s) (by rw [hp]; rfl)).scratch
  unfold readTagTurn at h
  split at h <;> cases h
  · exact outcome_raise hs _ hm
  · exact outcome_raise hs _ hm
  · next v _ =>
    by_cases hn : n = Config.nodeCap
    · rw [tagRead, if_pos hn]
      exact outcome_raise hs _ hm
    · refine ⟨_, hs, .tag v n leaves (by rw [hs.pos, hp]) hn, fun hr => ?_⟩
      rw [hp] at hr
      unfold tagRead
      rw [if_neg hn]
      split <;> exact hr

/-- Where `return i` of `ReadNode` goes on (R271). -/
theorem returnNode_pos (n leaves : Nat) (st : List Frame) (i : Idx) (s : State) :
    (returnNode n leaves st i s).pos = .readTag n leaves ∨ (returnNode n leaves st i s).pos = .endOf .readTree := by
  induction st generalizing i s with
  | nil => exact .inr rfl
  | cons f rest ih =>
    unfold returnNode
    split
    · exact ih _ _
    · exact .inl rfl

theorem readSymTurn_outcome {i : Idx} {n leaves : Nat} (hp : s.pos = .readSym i n leaves)
    (h : readSymTurn i n leaves s = .next t) : TurnOutcome s t := by
  have hm : merging s.pos = false := by rw [hp]; rfl
  have hs := (Transaction.read 9 (s := s) (by rw [hp]; rfl)).scratch
  unfold readSymTurn at h
  split at h <;> cases h
  · exact outcome_raise hs _ hm
  · exact outcome_raise hs _ hm
  · next v _ =>
    refine ⟨_, hs, .symbol i n leaves v (by rw [hs.pos, hp]), fun hr => ?_⟩
    rw [hp] at hr
    obtain he | he := returnNode_pos n (leaves + 1) _ i _ <;> rw [he] <;> exact hr

theorem outcome_beginClose (h : Scratch s u) (hm : merging s.pos = false)
    (hr : permits (running s) s.pos = true → permits (running s) .close = true) : TurnOutcome s (beginClose u) :=
  outcome_goto (h.setPhase .closing) hm rfl hr

/-- A command past `HEADER_MAGIC` may close the output. -/
theorem permits_close_of_encode {i : Instr} (h : permits i .encodeRead = true) : permits i .close = true := by
  simp only [permits, Bool.or_eq_true] at h ⊢
  tauto

theorem permits_close_of_decode {i : Instr} (h : permits i .decodeRead = true) : permits i .close = true := by
  simp only [permits, Bool.or_eq_true] at h ⊢
  tauto

theorem encodeReadTurn_outcome (hp : s.pos = .encodeRead) (h : encodeReadTurn s = .next t) : TurnOutcome s t := by
  have hm : merging s.pos = false := by rw [hp]; rfl
  have hs := (Transaction.read 8 (s := s) (by rw [hp]; rfl)).scratch
  unfold encodeReadTurn at h
  split at h <;> cases h
  · unfold terminator
    split
    · split
      · exact outcome_goto hs hm rfl (by simp [hp, permits])
      · exact outcome_beginClose hs hm (by rw [hp]; exact permits_close_of_encode)
    · exact outcome_raise hs _ hm
  · exact outcome_raise hs _ hm
  · unfold encodeByte
    split
    · split
      · exact outcome_goto hs hm rfl (by simp [hp, permits])
      · exact outcome_restack hs.countSym _ hm (by rw [hp]; rfl)
    · exact outcome_raise hs _ hm

theorem emitTurn_outcome {b : BitVec 8} (hp : s.pos = .emit b) (h : emitTurn b s = .next t) : TurnOutcome s t := by
  have hm : merging s.pos = false := by rw [hp]; rfl
  exact outcome_checkWrite (by simp [asksOutput, hp]) hm
    (fun u hu => outcome_goto hu.countSym hm rfl (by simp [hp, permits])) h

theorem emitEofTurn_outcome (hp : s.pos = .emitEof) (h : emitEofTurn s = .next t) : TurnOutcome s t := by
  have hm : merging s.pos = false := by rw [hp]; rfl
  exact outcome_checkWrite (by simp [asksOutput, hp]) hm
    (fun u hu => outcome_beginClose hu hm (by rw [hp]; exact permits_close_of_encode)) h

theorem getMagicTurn_outcome (hp : s.pos = .getMagic) (h : getMagicTurn s = .next t) : TurnOutcome s t := by
  have hm : merging s.pos = false := by rw [hp]; rfl
  have hs := (Transaction.read 32 (s := s) (by rw [hp]; rfl)).scratch
  unfold getMagicTurn at h
  split at h
  · cases h
    exact outcome_raise hs _ hm
  · cases h
    exact outcome_raise hs _ hm
  · split at h <;> cases h
    · exact outcome_beginReadTree hs fun hr => .inr (by simpa [hp, permits] using hr)
    · exact outcome_raise hs _ hm

theorem arriveAt_outcome {i : Idx} (hs : Scratch s u) (hp : s.pos = .decodeRead) (h : arriveAt i u = .next t) :
    TurnOutcome s t := by
  have hm : merging s.pos = false := by rw [hp]; rfl
  have hc := hs.setCur (by simp [movesCursor, hp]) i
  unfold arriveAt at h
  obtain ⟨-, h⟩ := withNode_eq_next.mp h
  split at h
  · split at h <;> cases h
    · exact outcome_beginClose hc hm (by rw [hp]; exact permits_close_of_decode)
    · exact outcome_goto hc hm rfl (by simp [hp, permits])
  · cases h
    exact outcome_goto hc hm rfl (by simp [hp, permits])

theorem decodeReadTurn_outcome (hp : s.pos = .decodeRead) (h : decodeReadTurn s = .next t) : TurnOutcome s t := by
  have hm : merging s.pos = false := by rw [hp]; rfl
  have hs := (Transaction.read 1 (s := s) (by rw [hp]; rfl)).scratch
  unfold decodeReadTurn at h
  split at h
  · cases h
    exact outcome_raise hs _ hm
  · cases h
    exact outcome_raise hs _ hm
  · obtain ⟨-, h⟩ := withNode_eq_next.mp h
    exact arriveAt_outcome hs hp h

theorem putByteTurn_outcome (hp : s.pos = .putByte) (h : putByteTurn s = .next t) : TurnOutcome s t := by
  have hm : merging s.pos = false := by rw [hp]; rfl
  have hc : movesCursor s = true := by simp [movesCursor, hp]
  obtain ⟨-, h⟩ := withNode_eq_next.mp h
  exact outcome_checkWrite (by simp [asksOutput, hp]) hm
    (fun u hu => outcome_goto (hu.countSym.setCur hc u.root) hm rfl (by simp [hp, permits])) h

theorem closeTurn_outcome (hp : s.pos = .close) (h : closeTurn s = .next t) : TurnOutcome s t := by
  have hm : merging s.pos = false := by rw [hp]; rfl
  have hs := (Transaction.close (s := s) (by simp [asksOutput, hp])).scratch
  unfold closeTurn at h
  split at h <;> cases h
  · exact outcome_finish hs hm
  · exact outcome_failWith hs _ hm

theorem failCloseTurn_outcome {k : ErrKind} (hp : s.pos = .failClose k) (h : failCloseTurn k s = .next t) :
    TurnOutcome s t := by
  cases h
  exact outcome_failWith (Transaction.close (by simp [asksOutput, hp])).scratch _ (by rw [hp]; rfl)

theorem beginWalkBody_outcome (hp : s.pos = .endOf .readTree) (hd : running s = .decode)
    (h : beginWalkBody s = .next t) : TurnOutcome s t := by
  have hm : merging s.pos = false := by rw [hp]; rfl
  have hs := ((Scratch.refl s).setPhase .traversingBody).setCur (by simp [movesCursor, hp, hd]) s.root
  unfold beginWalkBody at h
  obtain ⟨-, h⟩ := withNode_eq_next.mp h
  split at h
  · split at h <;> cases h
    · exact outcome_beginClose hs hm (by simp [hd, permits])
    · exact outcome_raise hs _ hm
  · cases h
    exact outcome_goto hs hm rfl (by simp [hd, permits])

theorem endOfTurn_outcome {st : Stage} (hp : s.pos = .endOf st) (h : endOfTurn st s = .next t) : TurnOutcome s t := by
  have hm : merging s.pos = false := by rw [hp]; rfl
  have hs := Scratch.refl s
  cases st with
  | count =>
    cases h
    split
    · next hc => exact outcome_goto (hs.setPhase .inResetting) hm rfl (by simp [hc, permits])
    · exact outcome_finish hs hm
  | rewind =>
    cases h
    split
    · next hc => exact outcome_beginBuild hs (.inr hc)
    · exact outcome_finish hs hm
  | build =>
    cases h
    split
    · next hc => exact outcome_beginGencodes hs (.inr hp) hm (.inr hc)
    · exact outcome_finish hs hm
  | gencodes =>
    cases h
    split
    · next hc => exact outcome_goto (hs.setPhase .headerMagic) hm rfl (by simp [hc, permits])
    · exact outcome_finish hs hm
  | writeTree =>
    cases h
    split
    · exact outcome_finish hs hm
    · next hc => exact outcome_goto (hs.setPhase .encodingBody) hm rfl (by simp [hp, hc, permits])
  | readTree =>
    unfold endOfTurn at h
    simp only at h
    split at h
    · next hd => exact beginWalkBody_outcome hp hd h
    · cases h
      exact outcome_finish hs hm

/-- Everything one turn of a running command can do. -/
theorem turn_outcome (h : turn s = .next t) : TurnOutcome s t := by
  unfold turn at h
  split at h
  · cases h
    exact outcome_stay
  · unfold pieceAt at h
    split at h
    · cases h
      exact outcome_stay
    · next hp => exact startTurn_outcome hp h
    · next hp => exact countReadTurn_outcome hp h
    · next hp => exact rewindTurn_outcome hp h
    · next hp => exact mergeTurn_outcome hp h
    · next hp => exact walkTurn_outcome hp h
    · next hp => exact putMagicTurn_outcome hp h
    · next hp => exact writeTreeTurn_outcome hp h
    · next hp => exact writeSymTurn_outcome hp h
    · next hp => exact readTagTurn_outcome hp h
    · next hp => exact readSymTurn_outcome hp h
    · next hp => exact encodeReadTurn_outcome hp h
    · next hp => exact emitTurn_outcome hp h
    · next hp => exact emitEofTurn_outcome hp h
    · next hp => exact getMagicTurn_outcome hp h
    · next hp => exact decodeReadTurn_outcome hp h
    · next hp => exact putByteTurn_outcome hp h
    · next hp => exact closeTurn_outcome hp h
    · next hp => exact failCloseTurn_outcome hp h
    · next hp => exact endOfTurn_outcome hp h

end

/-- What the pieces keep, and what ports, PHASE, SYMS and the cursor of a running command have no part in, every turn
keeps. -/
theorem turn_keeps (P : State → Prop)
    (hscratch : ∀ s i o ib ob d ph y c, s.pos ≠ .idle → P s →
      P { s with inp := i, out := o, inBits := ib, outBits := ob, draws := d, phase := ph, syms := y, cur := c })
    (hpiece : ∀ s t, s.pos ≠ .idle → P s → Piece s t → P t) :
    ∀ s t, P s → s.pos ≠ .idle → turn s = .next t → P t := by
  intro s t hs hp h
  obtain ⟨u, hu, hpc, -⟩ := turn_outcome h
  refine hpiece u t (by rwa [hu.pos]) ?_ hpc
  rw [hu.frame]
  exact hscratch s _ _ _ _ _ _ _ _ hp hs

end Sys2Proof.Machine

/-! SUPPORT. The canonical form of the memories is kept by every piece of pseudocode and by every event (R50, R51,
R53), and with it the pseudocode's slot counters stay within NODE. -/

namespace Sys2Proof.Machine

theorem memoryForm_iff {s : State} : MemoryForm s ↔ Memory.wf 0#32 256 s.hist = true ∧
    Memory.wf Node.blank Config.nodeCap s.node = true ∧ Memory.wf CodeEntry.invalid 257 s.code = true ∧
    countersInRange s = true := by
  unfold MemoryForm memoryForm
  simp only [Bool.and_eq_true, and_assoc]

theorem countersInRange_of_plain {s : State} (h : plain s.pos = true) : countersInRange s = true := by
  cases hp : s.pos with
  | merge n picks => simp [hp, plain] at h
  | readTag n leaves => simp [hp, plain] at h
  | readSym i n leaves => simp [hp, plain] at h
  | _ => simp [countersInRange, hp]

/-! ### What the longer pieces leave alone -/

theorem raise_cases (k : ErrKind) (s : State) :
    raise k s = { s with phase := .closing, pos := .failClose k } ∨ raise k s = failWith k s := by
  cases hc : closesOutput (running s)
  · exact .inr (raise_of_not_closes k hc)
  · exact .inl (raise_of_closes k hc)

/-- Placing leaves writes NODE only. -/
theorem placeLeaves_frame (n : Nat) (l : List (Sym × Word)) (s : State) :
    placeLeaves n l s = { s with node := (placeLeaves n l s).node } := by
  induction l generalizing n s with
  | nil => rfl
  | cons e rest ih =>
    unfold placeLeaves
    rw [ih]
    rfl

/-- BUILD's start writes the fields of R55 and R56, NODE, PQ, PHASE and the position, and nothing else. -/
theorem beginBuild_frame (s : State) : beginBuild s = { clearTree s with
    phase := .building, node := (beginBuild s).node, pq := (beginBuild s).pq, nleaves := (beginBuild s).nleaves
    pos := .merge (leafList s).length [] } := by
  unfold beginBuild
  dsimp only
  rw [placeLeaves_frame]
  rfl

/-- There is at most one leaf for each of the 257 symbols (R211). -/
theorem leafList_length_le (s : State) : (leafList s).length ≤ 257 := by
  have := List.length_filterMap_le
    (fun c => if s.histAt c ≠ 0#32 then some (BitVec.ofNat 9 c, s.histAt c) else none) (List.range 256)
  simp only [leafList, List.length_append, List.length_range, List.length_singleton] at this ⊢
  omega

theorem leafList_length_pos (s : State) : 0 < (leafList s).length := by simp [leafList]

theorem recordCode_frame (c : Sym) (p : Bits) (s : State) :
    recordCode c p s = { s with code := (recordCode c p s).code } := by
  unfold recordCode
  split <;> rfl

/-- `return i` writes NODE, the stack, the position and, where it ends the tree, the fields of R55. -/
theorem returnNode_frame (n leaves : Nat) (st : List Frame) (i : Idx) (s : State) :
    returnNode n leaves st i s = { s with
      root := (returnNode n leaves st i s).root, nnodes := (returnNode n leaves st i s).nnodes
      nleaves := (returnNode n leaves st i s).nleaves, treeValid := (returnNode n leaves st i s).treeValid
      node := (returnNode n leaves st i s).node, stack := (returnNode n leaves st i s).stack
      pos := (returnNode n leaves st i s).pos } := by
  induction st generalizing i s with
  | nil => rfl
  | cons f rest ih =>
    unfold returnNode
    split
    · rw [ih]; rfl
    · rfl

/-! ### NODE stays in canonical form -/

theorem toNat_ofNat_idx {n : Nat} (h : n ≤ Config.nodeCap) : (BitVec.ofNat 10 n).toNat = n := by
  rw [BitVec.toNat_ofNat]
  exact Nat.mod_eq_of_lt (by unfold Config.nodeCap at h; omega)

/-- Writing a slot of NODE keeps NODE canonical. -/
theorem wf_setNode {s : State} (hn : Memory.wf Node.blank Config.nodeCap s.node = true) {i : Idx} (v : Node)
    (hi : i.toNat < Config.nodeCap) : Memory.wf Node.blank Config.nodeCap (s.setNode i v).node = true :=
  Memory.wf_set Node.blank hn v hi

theorem wf_placeLeaves {n : Nat} {l : List (Sym × Word)} {s : State}
    (hn : Memory.wf Node.blank Config.nodeCap s.node = true) (hl : n + l.length ≤ Config.nodeCap) :
    Memory.wf Node.blank Config.nodeCap (placeLeaves n l s).node = true := by
  induction l generalizing n s with
  | nil => exact hn
  | cons e rest ih =>
    simp only [List.length_cons] at hl
    exact ih (wf_setNode hn _ (by rw [toNat_ofNat_idx] <;> omega)) (by omega)

theorem returnNode_form {n leaves : Nat} {st : List Frame} {i : Idx} {s : State}
    (hh : Memory.wf 0#32 256 s.hist = true) (hn : Memory.wf Node.blank Config.nodeCap s.node = true)
    (hc : Memory.wf CodeEntry.invalid 257 s.code = true) (hle : n ≤ Config.nodeCap)
    (hst : ∀ f ∈ st, f.idx.toNat < Config.nodeCap) : MemoryForm (returnNode n leaves st i s) := by
  induction st generalizing i s with
  | nil => exact memoryForm_iff.mpr ⟨hh, hn, hc, rfl⟩
  | cons f rest ih =>
    have hf := hst f List.mem_cons_self
    unfold returnNode
    split
    · exact ih (s := s.setNode f.idx _) hh (wf_setNode hn _ hf) hc fun g hg => hst g (List.mem_cons_of_mem _ hg)
    · refine memoryForm_iff.mpr ⟨hh, wf_setNode hn _ hf, hc, ?_⟩
      simpa [countersInRange, framesInRange, hle] using hst

/-- What the counter bound says while BUILD merges. -/
theorem countersInRange_merge {s : State} {n : Nat} {picks : List Idx} (hp : s.pos = .merge n picks) :
    countersInRange s = true ↔ 0 < s.pq.length ∧ n + s.pq.length ≤ Config.nodeCap + 1 := by
  simp [countersInRange, hp]

theorem countersInRange_readTag {s : State} {n leaves : Nat} (hp : s.pos = .readTag n leaves) :
    countersInRange s = true ↔ n ≤ Config.nodeCap ∧ ∀ f ∈ s.stack, f.idx.toNat < Config.nodeCap := by
  simp [countersInRange, framesInRange, hp]

theorem countersInRange_readSym {s : State} {i : Idx} {n leaves : Nat} (hp : s.pos = .readSym i n leaves) :
    countersInRange s = true ↔
      i.toNat < Config.nodeCap ∧ n ≤ Config.nodeCap ∧ ∀ f ∈ s.stack, f.idx.toNat < Config.nodeCap := by
  simp [countersInRange, framesInRange, hp, and_assoc]

/-- R210: one merge takes two elements out of PQ. -/
theorem length_erase_erase {p : List Idx} {a b : Idx} (ha : a ∈ p) (hb : b ∈ p.erase a) :
    ((p.erase a).erase b).length + 2 = p.length := by
  have h1 := List.length_pos_of_mem ha
  have h2 := List.length_pos_of_mem hb
  rw [List.length_erase_of_mem ha] at h2
  rw [List.length_erase_of_mem hb, List.length_erase_of_mem ha]
  omega

/-! ### The pieces -/

theorem beginBuild_form {s : State} (hs : MemoryForm s) : MemoryForm (beginBuild s) := by
  obtain ⟨hh, hn, hc, -⟩ := memoryForm_iff.mp hs
  have h1 := leafList_length_le s
  have h2 := leafList_length_pos s
  have hf := beginBuild_frame s
  refine memoryForm_iff.mpr ⟨by rw [hf]; exact hh, ?_, by rw [hf]; exact hc, ?_⟩
  · exact wf_placeLeaves (s := clearTree (s.setPhase .building)) hn (by unfold Config.nodeCap; omega)
  · refine (countersInRange_merge rfl).mpr ?_
    simp only [beginBuild, List.length_map, List.length_range, Config.nodeCap]
    omega

theorem mergeNodes_form {s : State} {n : Nat} {picks : List Idx} {a b : Idx} (hs : MemoryForm s)
    (hp : s.pos = .merge n picks) (ha : a ∈ s.pq) (hb : b ∈ s.pq.erase a) :
    MemoryForm (mergeNodes n picks a b ((s.pq.erase a).erase b) s) := by
  obtain ⟨hh, hn, hc, hr⟩ := memoryForm_iff.mp hs
  obtain ⟨-, hle⟩ := (countersInRange_merge hp).mp hr
  have hl := length_erase_erase ha hb
  refine memoryForm_iff.mpr ⟨hh, wf_setNode hn _ (by rw [toNat_ofNat_idx] <;> omega), hc, ?_⟩
  refine (countersInRange_merge rfl).mpr ?_
  simp only [mergeNodes, List.length_append, List.length_singleton]
  omega

theorem tagRead_form {s : State} {v n leaves : Nat} (hs : MemoryForm s) (hp : s.pos = .readTag n leaves)
    (hne : n ≠ Config.nodeCap) : MemoryForm (tagRead v n leaves s) := by
  obtain ⟨hh, hn, hc, hr⟩ := memoryForm_iff.mp hs
  obtain ⟨hle, hst⟩ := (countersInRange_readTag hp).mp hr
  have hi : (BitVec.ofNat 10 n).toNat < Config.nodeCap := by rw [toNat_ofNat_idx hle]; omega
  unfold tagRead
  rw [if_neg hne]
  split
  · refine memoryForm_iff.mpr ⟨hh, wf_setNode hn _ hi, hc, (countersInRange_readTag rfl).mpr ⟨by omega, ?_⟩⟩
    simpa using ⟨by simpa using hi, hst⟩
  · exact memoryForm_iff.mpr ⟨hh, hn, hc, (countersInRange_readSym rfl).mpr ⟨hi, by omega, hst⟩⟩

theorem recordCode_form {s : State} {c : Sym} {p : Bits} (hs : MemoryForm s) : MemoryForm (recordCode c p s) := by
  unfold recordCode
  split
  · obtain ⟨hh, hn, hc, hr⟩ := memoryForm_iff.mp hs
    exact memoryForm_iff.mpr ⟨hh, hn, Memory.wf_set _ hc _ (by omega), hr⟩
  · exact hs

theorem setHist_form {s : State} {c : Nat} (v : Word) (hs : MemoryForm s) (hlt : c < 256) :
    MemoryForm (s.setHist c v) := by
  obtain ⟨hh, hn, hc, hr⟩ := memoryForm_iff.mp hs
  exact memoryForm_iff.mpr ⟨Memory.wf_set _ hh v hlt, hn, hc, hr⟩

/-- Every piece of pseudocode keeps the canonical form. -/
theorem Piece.keeps_form {s t : State} (h : Piece s t) (hs : MemoryForm s) : MemoryForm t := by
  obtain ⟨hh, hn, hc, hr⟩ := memoryForm_iff.mp hs
  cases h with
  | stay => exact hs
  | finish => exact memoryForm_iff.mpr ⟨hh, hn, hc, rfl⟩
  | fail => exact memoryForm_iff.mpr ⟨hh, hn, hc, rfl⟩
  | raise k =>
    obtain he | he := raise_cases k s <;> rw [he] <;> exact memoryForm_iff.mpr ⟨hh, hn, hc, rfl⟩
  | move p st _ hp => exact memoryForm_iff.mpr ⟨hh, hn, hc, countersInRange_of_plain hp⟩
  | beginCount => exact memoryForm_iff.mpr ⟨rfl, hn, hc, rfl⟩
  | countByte b v _ hb => exact setHist_form v hs hb
  | clear => exact memoryForm_iff.mpr ⟨rfl, hn, rfl, rfl⟩
  | beginBuild => exact beginBuild_form hs
  | merge n picks a b hp ha hb => exact mergeNodes_form hs hp ha hb
  | buildDone => exact memoryForm_iff.mpr ⟨hh, hn, hc, rfl⟩
  | beginGencodes => exact memoryForm_iff.mpr ⟨hh, hn, rfl, rfl⟩
  | walkLeaf c p rest hp =>
    exact recordCode_form (memoryForm_iff.mpr ⟨hh, hn, hc, by simp [countersInRange, hp]⟩)
  | walkNode st hp => exact memoryForm_iff.mpr ⟨hh, hn, hc, by simp [countersInRange, hp]⟩
  | walkEnd => exact memoryForm_iff.mpr ⟨hh, hn, hc, rfl⟩
  | beginReadTree => exact memoryForm_iff.mpr ⟨hh, hn, hc, rfl⟩
  | tag v n leaves hp hne => exact tagRead_form hs hp hne
  | symbol i n leaves v hp =>
    obtain ⟨hi, hle, hst⟩ := (countersInRange_readSym hp).mp hr
    exact returnNode_form (s := s.setNode i _) hh (wf_setNode hn _ hi) hc hle hst

theorem turn_keeps_form : ∀ s t, MemoryForm s → s.pos ≠ .idle → turn s = .next t → MemoryForm t :=
  turn_keeps (fun s => MemoryForm s) (fun _ _ _ _ _ _ _ _ _ _ hs => hs) fun _ _ _ hs h => h.keeps_form hs

/-! ### The host's accesses -/

theorem right_of_ite_eq {α : Type} {p : Prop} [Decidable p] {a b c : α} (h : (if p then a else b) = c) (ha : a ≠ c) :
    b = c := by
  by_cases hp : p
  · exact absurd (by rwa [if_pos hp] at h) ha
  · rwa [if_neg hp] at h

/-- Every HIST register of the register map is one of the 256 counters (R32, R50). -/
theorem hist_lt_of_regAt {off c : Nat} (h : regAt off = .hist c) : c < 256 := by
  unfold regAt at h
  iterate 17 replace h := right_of_ite_eq h nofun
  by_cases hoff : 0x400 ≤ off ∧ off < 0x800
  · rw [if_pos hoff] at h
    cases h
    omega
  · rw [if_neg hoff] at h
    cases h

theorem hist_lt_of_target {s : State} {addr size c : Nat} (h : target s addr size = .ok (.hist c)) : c < 256 := by
  unfold target at h
  split_ifs at h
  exact hist_lt_of_regAt (Except.ok.inj h)

/-- What a host write of `v` to a register other than CMD makes of state `s` (R32, R33, R34, R104). -/
inductive WriteEffect (r : Reg) (v : Word) (s : State) : State → Prop
  | ignored : WriteEffect r v s s
  | dropped : WriteEffect r v s (dropWrite s)
  | ctrl : WriteEffect r v s (writeCtrl v s)
  | status : WriteEffect r v s (writeStatus v s)
  | selectors (n : BitVec 10) (c : BitVec 9) : WriteEffect r v s { s with nodeSel := n, codeSel := c }
  | hist (c : Nat) (hr : r = .hist c) (hi : s.pos = .idle) : WriteEffect r v s (s.setHist c v)

/-- A write that needs an idle core is dropped on a busy one (R104). -/
theorem whenIdle_effect {r : Reg} {v : Word} {s : State} (k : State → State)
    (h : s.pos = .idle → WriteEffect r v s (k s)) : WriteEffect r v s (whenIdle s k) := by
  unfold whenIdle
  split
  · exact .dropped
  · next hb => exact h ((busy_eq_false_iff s).mp (by simpa using hb))

theorem writeReg_effect {s t : State} {r : Reg} {v : Word} (hr : r ≠ .cmd) (h : writeReg r v s = .next t) :
    WriteEffect r v s t := by
  cases r with
  | cmd => exact absurd rfl hr
  | ctrl => cases h; exact .ctrl
  | status => cases h; exact .status
  | nodeSel => cases h; exact whenIdle_effect _ fun _ => .selectors _ s.codeSel
  | codeSel => cases h; exact whenIdle_effect _ fun _ => .selectors s.nodeSel _
  | hist c => cases h; exact whenIdle_effect _ fun hi => .hist c rfl hi
  | _ => cases h; exact .ignored

theorem writeReg_keeps_form {s t : State} {r : Reg} {v : Word} {addr size : Nat} (hs : MemoryForm s)
    (htgt : target s addr size = .ok r) (hr : r ≠ .cmd) (h : writeReg r v s = .next t) : MemoryForm t := by
  cases writeReg_effect hr h with
  | hist c he => exact setHist_form v hs (hist_lt_of_target (he ▸ htgt))
  | _ => exact hs

theorem accept_keeps_form {s : State} (w : Word) (hs : MemoryForm s) : MemoryForm (accept w s) := by
  obtain ⟨hh, hn, hc, -⟩ := memoryForm_iff.mp hs
  exact memoryForm_iff.mpr ⟨hh, hn, hc, rfl⟩

/-- Settles O57: every piece of a turn and every event keeps the canonical form, and a step is made of them. -/
theorem stepKeepsMemoryForm : Obligations.StepKeepsMemoryForm := by
  intro s t hs h
  exact step_preserves (fun s => MemoryForm s) turn_keeps_form (fun _ _ hs => hs)
    (fun _ w hs _ => accept_keeps_form w hs) (fun _ hs => hs)
    (fun _ _ _ _ _ _ hs htgt hr h => writeReg_keeps_form hs htgt hr h) (fun _ _ hs => hs) (fun _ _ => rfl)
    (fun _ _ hs => hs) (fun _ _ hs => hs) hs h

end Sys2Proof.Machine

/-! SUPPORT. The lifecycle of STATUS (R33, R152, R160, R356, R363) is kept by every piece of pseudocode and by every
event. -/

namespace Sys2Proof.Machine

/-- Without a tree ROOT is NIL and NNODES and NLEAVES are 0 (R35). -/
def NoTreeRegisters (s : State) : Prop :=
  s.treeValid = false → s.root = Config.nil ∧ s.nnodes = 0#10 ∧ s.nleaves = 0#9

theorem Lifecycle.noTreeRegisters {s : State} (hs : Lifecycle s) (hm : merging s.pos = false) : NoTreeRegisters s := by
  intro ht
  obtain ⟨hr, hn, hl⟩ := hs.noTree ht
  exact ⟨hr, hn, hl hm⟩

/-- The lifecycle of a state in which a command runs. -/
theorem lifecycle_of_busy {s : State} (hp : s.pos ≠ .idle) (hr : s.done = false ∧ s.fail = false ∧ s.errcode = none)
    (hc : s.codesValid = true → s.treeValid = true)
    (hn : s.treeValid = false → s.root = Config.nil ∧ s.nnodes = 0#10 ∧ (merging s.pos = false → s.nleaves = 0#9))
    (ht : treeNeeded s.pos = true → s.treeValid = true) : Lifecycle s where
  notBoth h := by simp [hr.1] at h
  running _ := hr
  resting h := absurd h hp
  donePhase h := by simp [hr.1] at h
  failPhase h := by simp [hr.2.1] at h
  errPhase h := absurd h hp
  codesNeedTree := hc
  noTree := hn
  treeAt := ht

/-- R160: after the success epilogue. -/
theorem lifecycle_finish {s : State} (hf : s.fail = false) (he : s.errcode = none)
    (hc : s.codesValid = true → s.treeValid = true) (hn : NoTreeRegisters s) : Lifecycle (finish s) where
  notBoth h := by simp [hf] at h
  running h := absurd rfl h
  resting _ := ⟨.inr (.inl rfl), rfl, rfl⟩
  donePhase _ := rfl
  failPhase h := by simp [hf] at h
  errPhase _ := by simp [he]
  codesNeedTree := hc
  noTree h := ⟨(hn h).1, (hn h).2.1, fun _ => (hn h).2.2⟩
  treeAt h := by cases h

/-- R356: after the failure epilogue. -/
theorem lifecycle_failWith {s : State} (k : ErrKind) (hd : s.done = false)
    (hc : s.codesValid = true → s.treeValid = true) (hn : NoTreeRegisters s) : Lifecycle (failWith k s) where
  notBoth h := by simp [hd] at h
  running h := absurd rfl h
  resting _ := ⟨.inr (.inr rfl), rfl, rfl⟩
  donePhase h := by simp [hd] at h
  failPhase _ := rfl
  errPhase _ := by simp
  codesNeedTree := hc
  noTree h := ⟨(hn h).1, (hn h).2.1, fun _ => (hn h).2.2⟩
  treeAt h := by cases h

/-- A running command that keeps the flags and registers of the tree may go on at any position that needs none. -/
theorem Lifecycle.goOn {s t : State} (hs : Lifecycle s) (hp : s.pos ≠ .idle) (hm : merging s.pos = false)
    (hflags : t.done = s.done ∧ t.fail = s.fail ∧ t.errcode = s.errcode ∧ t.codesValid = s.codesValid ∧
      t.treeValid = s.treeValid ∧ t.root = s.root ∧ t.nnodes = s.nnodes ∧ t.nleaves = s.nleaves)
    (hpt : t.pos ≠ .idle) (ht : treeNeeded t.pos = true → s.treeValid = true) : Lifecycle t := by
  obtain ⟨hd, hf, he, hcv, htv, hr, hnn, hnl⟩ := hflags
  refine lifecycle_of_busy hpt (by rw [hd, hf, he]; exact hs.running hp) (by rw [hcv, htv]; exact hs.codesNeedTree)
    ?_ (by rwa [htv])
  rw [htv, hr, hnn, hnl]
  exact fun h => ⟨(hs.noTree h).1, (hs.noTree h).2.1, fun _ => (hs.noTree h).2.2 hm⟩

/-- The tree cleared, a running command's flags as acceptance left them. -/
theorem Lifecycle.cleared {s t : State} (hs : Lifecycle s) (hp : s.pos ≠ .idle)
    (hflags : t.done = s.done ∧ t.fail = s.fail ∧ t.errcode = s.errcode ∧ t.codesValid = false ∧
      t.treeValid = false ∧ t.root = Config.nil ∧ t.nnodes = 0#10 ∧ (merging t.pos = false → t.nleaves = 0#9))
    (hpt : t.pos ≠ .idle) (ht : treeNeeded t.pos = false) : Lifecycle t := by
  obtain ⟨hd, hf, he, hcv, htv, hr, hnn, hnl⟩ := hflags
  exact lifecycle_of_busy hpt (by rw [hd, hf, he]; exact hs.running hp) (by simp [hcv])
    (fun _ => ⟨hr, hnn, hnl⟩) (by simp [ht])

/-- `return i` of `ReadNode` keeps the lifecycle (R271): with no caller left there is a tree. -/
theorem returnNode_keeps_lifecycle {n leaves : Nat} {st : List Frame} {i : Idx} {s : State} (hs : Lifecycle s)
    (hp : s.pos ≠ .idle) (hm : merging s.pos = false) : Lifecycle (returnNode n leaves st i s) := by
  induction st generalizing i s with
  | nil =>
    exact lifecycle_of_busy (by simp [returnNode]) (hs.running hp) (fun _ => rfl) (fun h => by cases h) fun _ => rfl
  | cons f rest ih =>
    unfold returnNode
    split
    · exact ih (s := s.setNode f.idx _) (hs.goOn hp hm (by simp) hp hs.treeAt) hp hm
    · exact hs.goOn hp hm (by simp) nofun nofun

theorem plain_ne_idle {p : Pos} (h : plain p = true) : p ≠ .idle := by rintro rfl; cases h

theorem treeNeeded_of_plain {p : Pos} (h : plain p = true) : treeNeeded p = false := by
  unfold plain at h
  unfold treeNeeded
  split <;> simp_all

/-- Every piece of pseudocode of a running command keeps the lifecycle. -/
theorem Piece.keeps_lifecycle {s t : State} (h : Piece s t) (hp : s.pos ≠ .idle) (hs : Lifecycle s) : Lifecycle t := by
  obtain ⟨hd, hf, he⟩ := hs.running hp
  cases h with
  | stay => exact hs
  | finish hm => exact lifecycle_finish hf he hs.codesNeedTree (hs.noTreeRegisters hm)
  | fail k hm => exact lifecycle_failWith k hd hs.codesNeedTree (hs.noTreeRegisters hm)
  | raise k hm =>
    obtain hr | hr := raise_cases k s <;> rw [hr]
    · exact hs.goOn hp hm (by simp) nofun nofun
    · exact lifecycle_failWith k hd hs.codesNeedTree (hs.noTreeRegisters hm)
  | move p st hm hpl =>
    exact hs.goOn hp hm (by simp) (plain_ne_idle hpl) (by simp [treeNeeded_of_plain hpl])
  | beginCount hp' => exact hs.goOn hp (by rw [hp']; rfl) (by simp) nofun nofun
  | countByte b v hp' => exact hs.goOn hp (by rw [hp']; rfl) (by simp) hp hs.treeAt
  | clear => exact lifecycle_finish hf he nofun fun _ => ⟨rfl, rfl, rfl⟩
  | beginBuild =>
    rw [beginBuild_frame]
    exact hs.cleared hp ⟨rfl, rfl, rfl, rfl, rfl, rfl, rfl, nofun⟩ nofun rfl
  | merge n picks a b hp' ha hb =>
    refine lifecycle_of_busy nofun ⟨hd, hf, he⟩ hs.codesNeedTree (fun h => ?_) nofun
    exact ⟨(hs.noTree h).1, (hs.noTree h).2.1, nofun⟩
  | buildDone => exact lifecycle_of_busy nofun ⟨hd, hf, he⟩ (fun _ => rfl) nofun fun _ => rfl
  | beginGencodes ht hm =>
    have hv : s.treeValid = true := ht.elim id fun hb => hs.treeAt (by rw [hb]; rfl)
    exact lifecycle_of_busy nofun ⟨hd, hf, he⟩ nofun (fun h => nomatch hv.symm.trans h) fun _ => hv
  | walkLeaf c p rest hp' =>
    rw [recordCode_frame]
    exact hs.goOn hp (by rw [hp']; rfl) (by simp) hp hs.treeAt
  | walkNode st hp' => exact hs.goOn hp (by rw [hp']; rfl) (by simp) hp hs.treeAt
  | walkEnd hp' =>
    have hv : s.treeValid = true := hs.treeAt (by rw [hp']; rfl)
    exact lifecycle_of_busy nofun ⟨hd, hf, he⟩ (fun _ => hv) (fun h => nomatch hv.symm.trans h) fun _ => hv
  | beginReadTree => exact hs.cleared hp ⟨rfl, rfl, rfl, rfl, rfl, rfl, rfl, fun _ => rfl⟩ nofun rfl
  | tag v n leaves hp' hne =>
    have hm : merging s.pos = false := by rw [hp']; rfl
    unfold tagRead
    rw [if_neg hne]
    split <;> exact hs.goOn hp hm (by simp) nofun nofun
  | symbol i n leaves v hp' =>
    have hm : merging s.pos = false := by rw [hp']; rfl
    exact returnNode_keeps_lifecycle (hs.goOn hp hm (by simp) hp hs.treeAt) hp hm

theorem turn_keeps_lifecycle : ∀ s t, Lifecycle s → s.pos ≠ .idle → turn s = .next t → Lifecycle t :=
  turn_keeps Lifecycle
    (fun _ _ _ _ _ _ _ _ _ hp hs => lifecycle_of_busy hp (hs.running hp) hs.codesNeedTree hs.noTree hs.treeAt)
    fun _ _ hp hs h => h.keeps_lifecycle hp hs

/-- The lifecycle speaks of STATUS, the tree's registers, PQ, the stack and the position only. -/
theorem Lifecycle.congr {s t : State} (hs : Lifecycle s)
    (hstat : t.done = s.done ∧ t.fail = s.fail ∧ t.errcode = s.errcode ∧ t.phase = s.phase ∧ t.pos = s.pos ∧
      t.stack = s.stack ∧ t.pq = s.pq)
    (htree : t.codesValid = s.codesValid ∧ t.treeValid = s.treeValid ∧ t.root = s.root ∧ t.nnodes = s.nnodes ∧
      t.nleaves = s.nleaves) : Lifecycle t := by
  obtain ⟨hd, hf, he, hph, hp, hst, hpq⟩ := hstat
  obtain ⟨hcv, htv, hr, hnn, hnl⟩ := htree
  obtain ⟨h1, h2, h3, h4, h5, h6, h7, h8, h9⟩ := hs
  constructor <;> simpa only [hd, hf, he, hph, hp, hst, hpq, hcv, htv, hr, hnn, hnl]

theorem accept_keeps_lifecycle {s : State} (w : Word) (hs : Lifecycle s) (hp : s.pos = .idle) :
    Lifecycle (accept w s) := by
  refine lifecycle_of_busy nofun ⟨rfl, rfl, rfl⟩ hs.codesNeedTree (fun h => ?_) nofun
  obtain ⟨hr, hnn, hnl⟩ := hs.noTreeRegisters (by rw [hp]; rfl) h
  exact ⟨hr, hnn, fun _ => hnl⟩

/-- A write of STATUS clears DONE and FAIL, or leaves them (R33). -/
theorem writeStatus_keeps_lifecycle {s : State} (v : Word) (hs : Lifecycle s) : Lifecycle (writeStatus v s) := by
  obtain ⟨h1, h2, h3, h4, h5, h6, h7, h8, h9⟩ := hs
  have hd : (writeStatus v s).done = true → s.done = true := fun h => (Bool.and_eq_true_iff.mp h).1
  have hf : (writeStatus v s).fail = true → s.fail = true := fun h => (Bool.and_eq_true_iff.mp h).1
  refine ⟨fun h => h1 ⟨hd h.1, hf h.2⟩, fun hp => ?_, h3, fun h => h4 (hd h), fun h => h5 (hf h), h6, h7, h8, h9⟩
  obtain ⟨hd0, hf0, he⟩ := h2 hp
  exact ⟨by simp [hd0], by simp [hf0], he⟩

theorem writeReg_keeps_lifecycle {s t : State} {r : Reg} {v : Word} (hs : Lifecycle s) (hr : r ≠ .cmd)
    (h : writeReg r v s = .next t) : Lifecycle t := by
  cases writeReg_effect hr h with
  | ignored => exact hs
  | status => exact writeStatus_keeps_lifecycle v hs
  | _ => exact hs.congr (by simp) (by simp)

theorem lifecycle_hardwareReset (s : State) : Lifecycle (hardwareReset s) where
  notBoth h := by cases h.1
  running h := absurd rfl h
  resting _ := ⟨.inl rfl, rfl, rfl⟩
  donePhase h := by cases h
  failPhase h := by cases h
  errPhase _ := by simp [State.reset]
  codesNeedTree h := by cases h
  noTree _ := ⟨rfl, rfl, fun _ => rfl⟩
  treeAt h := by cases h

theorem readReg_keeps_lifecycle {s : State} (r : Reg) (hs : Lifecycle s) : Lifecycle (readReg r s) :=
  hs.congr (by simp [readReg]) (by simp [readReg])

/-- Settles O58: every piece of a turn and every event keeps the lifecycle, and a step is made of them. -/
theorem stepKeepsLifecycle : Obligations.StepKeepsLifecycle := by
  intro s t hs h
  exact step_preserves Lifecycle turn_keeps_lifecycle (fun _ _ hs => hs.congr (by simp) (by simp))
    (fun _ w hs hp => accept_keeps_lifecycle w hs hp) (fun _ hs => hs.congr (by simp) (by simp))
    (fun _ _ _ _ _ _ hs _ hr h => writeReg_keeps_lifecycle hs hr h) (fun _ r hs => readReg_keeps_lifecycle r hs)
    (fun s _ => lifecycle_hardwareReset s) (fun _ _ hs => hs.congr (by simp) (by simp))
    (fun _ _ hs => hs.congr (by simp) (by simp)) hs h

end Sys2Proof.Machine

/-! SUPPORT. The tree invariant of R52: what stands in NODE while BUILD merges (R210, R215) and while a tree is read
(R271) is a part of a strict tree, and what each of them ends with is a strict tree. -/

namespace Sys2Proof.Machine

/-! ### Trees in NODE -/

/-- A tree depends on its own slots only. -/
theorem tree_congr {m m' : Memory Node} (t : HuffTree) {i : Idx}
    (h : ∀ k ∈ slotsOf m i t, Memory.get Node.blank m' k = Memory.get Node.blank m k) :
    holds m' i t = holds m i t ∧ slotsOf m' i t = slotsOf m i t := by
  induction t generalizing i with
  | leaf c => simp [holds, slotsOf, h i.toNat (by simp [slotsOf])]
  | node l r ihl ihr =>
    have hi := h i.toNat (by simp [slotsOf])
    obtain ⟨hl, hl'⟩ := ihl (i := (Memory.get Node.blank m i.toNat).left) fun k hk => h k (by simp [slotsOf, hk])
    obtain ⟨hr, hr'⟩ := ihr (i := (Memory.get Node.blank m i.toNat).right) fun k hk => h k (by simp [slotsOf, hk])
    simp [holds, slotsOf, hi, hl, hl', hr, hr']

/-- A slot outside the tree may be written. -/
theorem holds_set {m : Memory Node} {t : HuffTree} {i : Idx} {k : Nat} (v : Node) (hk : k ∉ slotsOf m i t) :
    holds (Memory.set Node.blank m k v) i t = holds m i t :=
  (tree_congr t fun _ hj => Memory.get_set_other Node.blank m v (ne_of_mem_of_not_mem hj hk)).1

theorem slotsOf_set {m : Memory Node} {t : HuffTree} {i : Idx} {k : Nat} (v : Node) (hk : k ∉ slotsOf m i t) :
    slotsOf (Memory.set Node.blank m k v) i t = slotsOf m i t :=
  (tree_congr t fun _ hj => Memory.get_set_other Node.blank m v (ne_of_mem_of_not_mem hj hk)).2

theorem slotsOf_length (m : Memory Node) (t : HuffTree) (i : Idx) : (slotsOf m i t).length = t.size := by
  induction t generalizing i with
  | leaf c => rfl
  | node l r ihl ihr => simp [slotsOf, HuffTree.size, ihl, ihr]

/-- A strict tree has one node fewer than twice its leaves. -/
theorem HuffTree.size_add_one (t : HuffTree) : t.size + 1 = 2 * t.leaves := by
  induction t with
  | leaf c => rfl
  | node l r ihl ihr =>
    simp only [HuffTree.size, HuffTree.leaves]
    omega

/-- A written internal slot whose children are trees elsewhere is the root of their union. -/
theorem holds_node {m : Memory Node} {i : Idx} {l r : HuffTree} (hi : i.toNat < Config.nodeCap)
    (hleaf : (Memory.get Node.blank m i.toNat).leaf = false)
    (hl : holds m (Memory.get Node.blank m i.toNat).left l = true)
    (hr : holds m (Memory.get Node.blank m i.toNat).right r = true) : holds m i (.node l r) = true := by
  simp [holds, hi, hleaf, hl, hr]

/-- A tree whose nodes are slots 0 to n − 1, within NODE: its root's registers hold the numbers they stand for. -/
theorem strictTree_of_perm {s : State} {t : HuffTree} {n : Nat} (hn : n ≤ Config.nodeCap)
    (hh : holds s.node s.root t = true) (hp : (slotsOf s.node s.root t).Perm (List.range n))
    (hnn : s.nnodes = BitVec.ofNat 10 n) (hnl : s.nleaves.toNat = t.leaves % 512) : StrictTree s := by
  have hsize : t.size = n := by simpa [slotsOf_length] using hp.length_eq
  have hleaves := t.size_add_one
  refine ⟨t, hh, ?_, ?_⟩
  · rwa [hnn, toNat_ofNat_idx hn]
  · rw [hnl, Nat.mod_eq_of_lt (by unfold Config.nodeCap at hn; omega)]

theorem range_succ_perm {l : List Nat} {n : Nat} (h : l.Perm (List.range n)) : (n :: l).Perm (List.range (n + 1)) := by
  rw [List.range_succ]
  exact (h.cons n).trans (List.perm_append_singleton n _).symm

theorem not_mem_of_perm_range {l : List Nat} {n : Nat} (h : l.Perm (List.range n)) : n ∉ l := by
  simp [h.mem_iff]

/-! ### BUILD -/

/-- The slots of a list of trees. -/
def forestSlots (m : Memory Node) (f : List (Idx × HuffTree)) : List Nat := f.flatMap fun e => slotsOf m e.1 e.2

/-- The leaves of R210 as one-node trees, from slot `n` on. -/
def leafForest : Nat → List (Sym × Word) → List (Idx × HuffTree)
  | _, [] => []
  | n, (c, _) :: rest => (BitVec.ofNat 10 n, .leaf c) :: leafForest (n + 1) rest

theorem leafForest_roots (n : Nat) (l : List (Sym × Word)) :
    (leafForest n l).map (fun e => e.1) = (List.range' n l.length).map (BitVec.ofNat 10) := by
  induction l generalizing n with
  | nil => rfl
  | cons e rest ih => simp [leafForest, List.range'_succ, ih]

theorem leafForest_slots (m : Memory Node) {n : Nat} {l : List (Sym × Word)} (h : n + l.length ≤ Config.nodeCap) :
    forestSlots m (leafForest n l) = List.range' n l.length := by
  induction l generalizing n with
  | nil => rfl
  | cons e rest ih =>
    simp only [List.length_cons] at h
    have := ih (n := n + 1) (by omega)
    rw [forestSlots] at this ⊢
    simp only [leafForest, List.flatMap_cons, slotsOf, this, List.length_cons, List.range'_succ]
    rw [toNat_ofNat_idx (by omega)]
    rfl

theorem leafForest_leaves (n : Nat) (l : List (Sym × Word)) :
    ((leafForest n l).map fun e => e.2.leaves).sum = l.length := by
  induction l generalizing n with
  | nil => rfl
  | cons e rest ih => simp [leafForest, HuffTree.leaves, ih, Nat.add_comm]

/-- Placing leaves from slot `n` on leaves the slots below as they are. -/
theorem get_placeLeaves_below {n k : Nat} {l : List (Sym × Word)} {s : State} (h : n + l.length ≤ Config.nodeCap)
    (hk : k < n) : Memory.get Node.blank (placeLeaves n l s).node k = Memory.get Node.blank s.node k := by
  induction l generalizing n s with
  | nil => rfl
  | cons e rest ih =>
    simp only [List.length_cons] at h
    unfold placeLeaves
    rw [ih (by omega) (by omega)]
    exact Memory.get_set_other _ _ _ (by rw [toNat_ofNat_idx (by omega)]; omega)

theorem holds_placeLeaves {n : Nat} {l : List (Sym × Word)} {s : State}
    (hn : Memory.wf Node.blank Config.nodeCap s.node = true) (h : n + l.length ≤ Config.nodeCap) :
    ∀ e ∈ leafForest n l, holds (placeLeaves n l s).node e.1 e.2 = true := by
  induction l generalizing n s with
  | nil => simp [leafForest]
  | cons c rest ih =>
    simp only [List.length_cons] at h
    have hi : (BitVec.ofNat 10 n).toNat = n := toNat_ofNat_idx (by omega)
    unfold placeLeaves leafForest
    rw [List.forall_mem_cons]
    refine ⟨?_, ih (wf_setNode hn _ (by omega)) (by omega)⟩
    simp only [holds]
    rw [get_placeLeaves_below (by omega) (by omega)]
    simp only [setNode_node, Memory.get_set_self Node.blank hn]
    simp [hi, show n < Config.nodeCap by omega]

theorem beginBuild_forest {s : State} (hs : MemoryForm s) : MergeForest (beginBuild s) (leafList s).length := by
  obtain ⟨-, hn, -, -⟩ := memoryForm_iff.mp hs
  have hle := leafList_length_le s
  have hcap : 0 + (leafList s).length ≤ Config.nodeCap := by unfold Config.nodeCap; omega
  refine ⟨leafForest 0 (leafList s), ?_, ?_, ?_, ?_⟩
  · rw [leafForest_roots, ← List.range_eq_range']
    rfl
  · exact holds_placeLeaves (s := clearTree (s.setPhase .building)) hn hcap
  · have := leafForest_slots (beginBuild s).node hcap
    rw [forestSlots] at this
    rw [this, List.range_eq_range']
  · rw [leafForest_leaves]
    exact (Nat.mod_eq_of_lt (by omega)).symm

/-- Taking an element out of PQ takes its tree out of the forest. -/
theorem forest_erase {f : List (Idx × HuffTree)} {p : List Idx} {a : Idx} (hf : f.map (fun e => e.1) = p)
    (ha : a ∈ p) : ∃ t g, f.Perm ((a, t) :: g) ∧ g.map (fun e => e.1) = p.erase a := by
  induction f generalizing p with
  | nil => subst hf; simp at ha
  | cons e f ih =>
    obtain ⟨i, t⟩ := e
    subst hf
    by_cases hi : i = a
    · subst hi
      exact ⟨t, f, .refl _, by simp⟩
    · have ha' : a ∈ f.map (fun e => e.1) := by simpa [Ne.symm hi] using ha
      obtain ⟨u, g, hp, hg⟩ := ih rfl ha'
      refine ⟨u, (i, t) :: g, (hp.cons _).trans (.swap ..), ?_⟩
      rw [List.map_cons, List.map_cons, List.erase_cons_tail (by simpa using hi), hg]

/-- A slot outside all trees of a forest may be written. -/
theorem forest_set {m : Memory Node} {f : List (Idx × HuffTree)} {k : Nat} (v : Node) (hk : k ∉ forestSlots m f)
    (hf : ∀ e ∈ f, holds m e.1 e.2 = true) :
    (∀ e ∈ f, holds (Memory.set Node.blank m k v) e.1 e.2 = true) ∧
      forestSlots (Memory.set Node.blank m k v) f = forestSlots m f := by
  have hout (e) (he : e ∈ f) : k ∉ slotsOf m e.1 e.2 := fun hm => hk (List.mem_flatMap.mpr ⟨e, he, hm⟩)
  refine ⟨fun e he => by rw [holds_set v (hout e he)]; exact hf e he, ?_⟩
  exact List.flatMap_congr fun e he => slotsOf_set v (hout e he)

/-- The slot that a merge of `a` and `b` writes (R210). -/
def mergedNode (n : Nat) (a b : Idx) (s : State) : Node :=
  { s.nodeAt (BitVec.ofNat 10 n) with
    leaf := false, left := a, right := b, weight := (s.nodeAt a).weight + (s.nodeAt b).weight }

theorem mergeNodes_node {n : Nat} (picks : List Idx) (a b : Idx) (rest : List Idx) (s : State)
    (hn : n ≤ Config.nodeCap) : (mergeNodes n picks a b rest s).node =
      Memory.set Node.blank s.node n (mergedNode n a b s) := by
  simp only [mergeNodes, setNode_node, toNat_ofNat_idx hn, mergedNode]

/-- Two elements of PQ are the roots of two trees of the forest. -/
theorem forest_erase_erase {f : List (Idx × HuffTree)} {p : List Idx} {a b : Idx} (hf : f.map (fun e => e.1) = p)
    (ha : a ∈ p) (hb : b ∈ p.erase a) :
    ∃ t u g, f.Perm ((a, t) :: (b, u) :: g) ∧ g.map (fun e => e.1) = (p.erase a).erase b := by
  obtain ⟨t, g, hfg, hg⟩ := forest_erase hf ha
  obtain ⟨u, g', hgg, hg'⟩ := forest_erase hg hb
  exact ⟨t, u, g', hfg.trans (hgg.cons _), hg'⟩

/-- R210, R215: one merge makes one tree of two. -/
theorem mergeNodes_forest {s : State} {n : Nat} {picks : List Idx} {a b : Idx} (hs : MemoryForm s)
    (hp : s.pos = .merge n picks) (ha : a ∈ s.pq) (hb : b ∈ s.pq.erase a) (hm : MergeForest s n) :
    MergeForest (mergeNodes n picks a b ((s.pq.erase a).erase b) s) (n + 1) := by
  obtain ⟨-, hn, -, hr⟩ := memoryForm_iff.mp hs
  obtain ⟨-, hle⟩ := (countersInRange_merge hp).mp hr
  have hl := length_erase_erase ha hb
  have hi : (BitVec.ofNat 10 n).toNat = n := toNat_ofNat_idx (by omega)
  obtain ⟨f, hroots, hholds, hperm, hsum⟩ := hm
  obtain ⟨ta, tb, g, hf, hg⟩ := forest_erase_erase hroots ha hb
  have hperm' : (forestSlots s.node ((a, ta) :: (b, tb) :: g)).Perm (List.range n) :=
    (hf.flatMap_right _).symm.trans hperm
  have hholds' : ∀ e ∈ (a, ta) :: (b, tb) :: g, holds s.node e.1 e.2 = true :=
    fun e he => hholds e (hf.mem_iff.mpr he)
  obtain ⟨hh, hsl⟩ := forest_set (mergedNode n a b s) (not_mem_of_perm_range hperm') hholds'
  have hget := Memory.get_set_self _ hn n (mergedNode n a b s)
  rw [MergeForest, mergeNodes_node _ _ _ _ _ (by omega)]
  simp only [List.forall_mem_cons] at hh
  obtain ⟨hha, hhb, hhg⟩ := hh
  simp only [forestSlots, List.flatMap_cons] at hsl hperm'
  refine ⟨g ++ [(BitVec.ofNat 10 n, .node ta tb)], ?_, ?_, ?_, ?_⟩
  · simp [mergeNodes, hg]
  · rw [List.forall_mem_append, List.forall_mem_singleton]
    refine ⟨hhg, holds_node (hi.trans_lt (by omega)) ?_ ?_ ?_⟩ <;> rw [hi, hget]
    · rfl
    · exact hha
    · exact hhb
  · rw [List.flatMap_append, List.flatMap_singleton]
    simp only [slotsOf, hi, hget]
    refine List.perm_append_comm.trans (range_succ_perm ?_)
    rw [← hsl, ← List.append_assoc] at hperm'
    exact hperm'
  · have : (f.map fun e => e.2.leaves).sum = ta.leaves + (tb.leaves + (g.map fun e => e.2.leaves).sum) := by
      simpa using (hf.map fun e => e.2.leaves).sum_eq
    simp only [mergeNodes, setNode_nleaves, ← hsum, this, List.map_append, List.sum_append, List.map_singleton,
      List.sum_singleton, HuffTree.leaves]
    omega

/-- R210: the one tree left is a strict tree of all the slots. -/
theorem buildDone_strictTree {s : State} {n : Nat} {picks : List Idx} (hs : MemoryForm s)
    (hp : s.pos = .merge n picks) (hl : s.pq.length ≤ 1) (hm : MergeForest s n) : StrictTree (buildDone n s) := by
  obtain ⟨-, -, -, hr⟩ := memoryForm_iff.mp hs
  obtain ⟨hpos, hle⟩ := (countersInRange_merge hp).mp hr
  obtain ⟨f, hroots, hholds, hperm, hsum⟩ := hm
  obtain ⟨⟨i, t⟩, rfl⟩ : ∃ e, f = [e] := by
    rw [← List.length_eq_one_iff, ← List.length_map (fun e => e.1), hroots]
    omega
  have hi : s.pq = [i] := hroots.symm
  have hroot : (buildDone n s).root = i := by simp [buildDone, hi]
  refine strictTree_of_perm (t := t) (n := n) (by omega) ?_ ?_ rfl ?_
  · rw [hroot]
    exact hholds _ List.mem_cons_self
  · rw [List.flatMap_singleton] at hperm
    rwa [hroot]
  · have : t.leaves = s.nleaves.toNat := by simpa using hsum
    rw [this]
    exact (Nat.mod_eq_of_lt s.nleaves.isLt).symm

/-! ### ReadTree -/

/-- A waiting caller of `ReadNode` is an internal node, and what it has read on its left is a tree (R271). -/
def FrameStands (m : Memory Node) (e : Frame × Option HuffTree) : Prop :=
  (Memory.get Node.blank m e.1.idx.toNat).leaf = false ∧ e.1.leftDone = e.2.isSome ∧
    ∀ t, e.2 = some t → holds m (Memory.get Node.blank m e.1.idx.toNat).left t = true

/-- The slots of the waiting callers. -/
def stackSlots (m : Memory Node) (f : List (Frame × Option HuffTree)) : List Nat :=
  f.flatMap fun e => frameSlots m e.1 e.2

/-- The leaves below the waiting callers. -/
def stackLeaves (f : List (Frame × Option HuffTree)) : Nat := (f.map fun e => (e.2.map HuffTree.leaves).getD 0).sum

theorem readForest_iff {s : State} {taken : List Nat} {n leaves : Nat} :
    ReadForest s taken n leaves ↔ ∃ f : List (Frame × Option HuffTree), f.map (fun e => e.1) = s.stack ∧
      (∀ e ∈ f, FrameStands s.node e) ∧ (taken ++ stackSlots s.node f).Perm (List.range n) ∧ stackLeaves f = leaves :=
  .rfl

theorem idx_mem_frameSlots (m : Memory Node) (f : Frame) (o : Option HuffTree) : f.idx.toNat ∈ frameSlots m f o := by
  cases o <;> simp [frameSlots]

/-- A slot outside a caller's may be written. -/
theorem frame_set {m : Memory Node} {e : Frame × Option HuffTree} {k : Nat} (v : Node)
    (hk : k ∉ frameSlots m e.1 e.2) : (FrameStands m e → FrameStands (Memory.set Node.blank m k v) e) ∧
      frameSlots (Memory.set Node.blank m k v) e.1 e.2 = frameSlots m e.1 e.2 := by
  obtain ⟨f, o⟩ := e
  have hi : Memory.get Node.blank (Memory.set Node.blank m k v) f.idx.toNat = Memory.get Node.blank m f.idx.toNat :=
    Memory.get_set_other _ _ _ fun e => hk (e ▸ idx_mem_frameSlots m f o)
  cases o with
  | none => simp [FrameStands, frameSlots, hi]
  | some t =>
    have hl : k ∉ slotsOf m (Memory.get Node.blank m f.idx.toNat).left t := fun hm =>
      hk (by simp only [frameSlots, List.mem_cons]; exact .inr hm)
    simp [FrameStands, frameSlots, hi, holds_set v hl, slotsOf_set v hl]

theorem stack_set {m : Memory Node} {f : List (Frame × Option HuffTree)} {k : Nat} (v : Node)
    (hk : k ∉ stackSlots m f) (hf : ∀ e ∈ f, FrameStands m e) :
    (∀ e ∈ f, FrameStands (Memory.set Node.blank m k v) e) ∧
      stackSlots (Memory.set Node.blank m k v) f = stackSlots m f := by
  have hout (e) (he : e ∈ f) : k ∉ frameSlots m e.1 e.2 := fun hm => hk (List.mem_flatMap.mpr ⟨e, he, hm⟩)
  exact ⟨fun e he => (frame_set v (hout e he)).1 (hf e he), List.flatMap_congr fun e he => (frame_set v (hout e he)).2⟩

theorem stackSlots_cons (m : Memory Node) (e : Frame × Option HuffTree) (f : List (Frame × Option HuffTree)) :
    stackSlots m (e :: f) = frameSlots m e.1 e.2 ++ stackSlots m f := rfl

/-- R271: a caller that waits for its left child takes it. -/
theorem returnNode_of_left (n leaves : Nat) {g : Frame} (rest : List Frame) (i : Idx) (s : State)
    (h : g.leftDone = false) : returnNode n leaves (g :: rest) i s =
      { s.setNode g.idx { s.nodeAt g.idx with left := i } with
        stack := { g with leftDone := true } :: rest, pos := .readTag n leaves } := by
  simp [returnNode, h]

/-- R271: a caller that waits for its right child takes it, and returns. -/
theorem returnNode_of_right (n leaves : Nat) {g : Frame} (rest : List Frame) (i : Idx) (s : State)
    (h : g.leftDone = true) : returnNode n leaves (g :: rest) i s =
      returnNode n leaves rest g.idx (s.setNode g.idx { s.nodeAt g.idx with right := i }) := by
  simp [returnNode, h]

theorem partialTree_merge {s : State} {n : Nat} {picks : List Idx} (hp : s.pos = .merge n picks)
    (hv : s.treeValid = false) (hf : MergeForest s n) : PartialTree s := by
  unfold PartialTree
  rw [hp]
  exact ⟨hv, hf⟩

theorem partialTree_readTag {s : State} {n leaves : Nat} (hp : s.pos = .readTag n leaves)
    (hv : s.treeValid = false) (hf : ReadForest s [] n leaves) : PartialTree s := by
  unfold PartialTree
  rw [hp]
  exact ⟨hv, hf⟩

theorem partialTree_readSym {s : State} {i : Idx} {n leaves : Nat} (hp : s.pos = .readSym i n leaves)
    (hv : s.treeValid = false) (hf : ReadForest s [i.toNat] n leaves) : PartialTree s := by
  unfold PartialTree
  rw [hp]
  exact ⟨hv, hf⟩

/-- The tree's part of the invariant, at any state. -/
def TreeParts (s : State) : Prop := (s.treeValid = true → StrictTree s) ∧ PartialTree s

/-- R271: a finished tree `t` at slot `i` goes to the waiting callers, and what they make of it is a part of a tree
again, or the whole tree. -/
theorem returnNode_parts {n leaves : Nat} {st : List Frame} {i : Idx} {s : State} {t : HuffTree}
    {f : List (Frame × Option HuffTree)} (hv : s.treeValid = false)
    (hn : Memory.wf Node.blank Config.nodeCap s.node = true) (hle : n ≤ Config.nodeCap)
    (hst : ∀ g ∈ st, g.idx.toNat < Config.nodeCap) (hmap : f.map (fun e => e.1) = st)
    (hf : ∀ e ∈ f, FrameStands s.node e) (ht : holds s.node i t = true)
    (hperm : (slotsOf s.node i t ++ stackSlots s.node f).Perm (List.range n))
    (hsum : t.leaves + stackLeaves f = leaves) : TreeParts (returnNode n leaves st i s) := by
  induction f generalizing st i s t with
  | nil =>
    subst hmap
    refine ⟨fun _ => ?_, trivial⟩
    rw [stackSlots, List.flatMap_nil, List.append_nil] at hperm
    refine strictTree_of_perm (t := t) hle ht hperm rfl ?_
    have : t.leaves = leaves := by simpa [stackLeaves] using hsum
    rw [this]
    exact BitVec.toNat_ofNat leaves 9
  | cons e f ih =>
    obtain ⟨g, o⟩ := e
    subst hmap
    simp only [List.map_cons, List.forall_mem_cons] at hst hf
    obtain ⟨hg, hst⟩ := hst
    obtain ⟨⟨hleaf, hdone, hleft⟩, hf⟩ := hf
    have hnd : (slotsOf s.node i t ++ (frameSlots s.node g o ++ stackSlots s.node f)).Nodup :=
      hperm.nodup_iff.mpr List.nodup_range
    rw [List.nodup_append, List.nodup_append] at hnd
    obtain ⟨-, ⟨hndg, -, hgf⟩, hif⟩ := hnd
    have hgi : g.idx.toNat ∉ slotsOf s.node i t := fun hm =>
      hif _ hm _ (List.mem_append_left _ (idx_mem_frameSlots _ _ _)) rfl
    have hgs : g.idx.toNat ∉ stackSlots s.node f := fun hm => hgf _ (idx_mem_frameSlots _ _ _) _ hm rfl
    cases o with
    | none =>
      have hgd : g.leftDone = false := hdone
      rw [List.map_cons, returnNode_of_left _ _ _ _ _ hgd]
      refine ⟨fun h => (nomatch hv.symm.trans h), partialTree_readTag rfl hv ?_⟩
      refine readForest_iff.mpr ⟨({ g with leftDone := true }, some t) :: f, rfl, ?_, ?_, ?sum⟩
      case sum => simpa [stackLeaves] using hsum
      · rw [setNode_node, List.forall_mem_cons]
        refine ⟨⟨?_, rfl, fun u hu => ?_⟩, (stack_set _ hgs hf).1⟩
        · rw [Memory.get_set_self _ hn]
          exact hleaf
        · cases hu
          rw [Memory.get_set_self _ hn, holds_set _ hgi]
          exact ht
      · rw [setNode_node, stackSlots_cons, (stack_set _ hgs hf).2, frameSlots, Memory.get_set_self _ hn,
          slotsOf_set _ hgi]
        exact List.perm_middle.symm.trans hperm
    | some l =>
      have hgd : g.leftDone = true := hdone
      have hgl : g.idx.toNat ∉ slotsOf s.node (s.nodeAt g.idx).left l := (List.nodup_cons.mp hndg).1
      rw [List.map_cons, returnNode_of_right _ _ _ _ _ hgd]
      refine ih (t := .node l t) hv (wf_setNode hn _ hg) hst rfl (stack_set _ hgs hf).1 ?_ ?_ ?_
      · rw [setNode_node]
        refine holds_node hg ?_ ?_ ?_ <;> rw [Memory.get_set_self _ hn]
        · exact hleaf
        · rw [holds_set _ hgl]
          exact hleft l rfl
        · rw [holds_set _ hgi]
          exact ht
      · rw [setNode_node, (stack_set _ hgs hf).2, slotsOf, Memory.get_set_self _ hn, slotsOf_set _ hgl,
          slotsOf_set _ hgi, ← List.cons_append]
        refine (List.perm_append_comm.append_right _).trans ?_
        rw [List.append_assoc]
        exact hperm
      · rw [← hsum]
        simp only [stackLeaves, HuffTree.leaves, List.map_cons, List.sum_cons, Option.map_some, Option.getD_some]
        omega

/-- R271: a tag begins a caller of its own, or a leaf whose Symbol comes next. -/
theorem tagRead_parts {s : State} {v n leaves : Nat} (hs : MemoryForm s) (hp : s.pos = .readTag n leaves)
    (hne : n ≠ Config.nodeCap) (hv : s.treeValid = false) (hf : ReadForest s [] n leaves) :
    TreeParts (tagRead v n leaves s) := by
  obtain ⟨-, hn, -, hr⟩ := memoryForm_iff.mp hs
  have hi := toNat_ofNat_idx ((countersInRange_readTag hp).mp hr).1
  obtain ⟨f, hmap, hst, hperm, hsum⟩ := readForest_iff.mp hf
  rw [List.nil_append] at hperm
  obtain ⟨hst', hsl⟩ := stack_set { s.nodeAt (BitVec.ofNat 10 n) with leaf := false, weight := 0#32 }
    (not_mem_of_perm_range hperm) hst
  unfold tagRead
  rw [if_neg hne]
  split
  · refine ⟨fun h => (nomatch hv.symm.trans h), partialTree_readTag rfl hv ?_⟩
    refine readForest_iff.mpr ⟨({ idx := BitVec.ofNat 10 n, path := [], leftDone := false }, none) :: f, ?_, ?_, ?_, ?_⟩
    · simp [hmap]
    · rw [setNode_node, hi, List.forall_mem_cons]
      refine ⟨⟨?_, rfl, nofun⟩, hst'⟩
      simp only [hi]
      rw [Memory.get_set_self _ hn]
    · rw [setNode_node, hi, stackSlots_cons, hsl, frameSlots, hi]
      exact range_succ_perm hperm
    · simpa [stackLeaves] using hsum
  · refine ⟨fun h => (nomatch hv.symm.trans h), partialTree_readSym rfl hv ?_⟩
    refine readForest_iff.mpr ⟨f, hmap, hst, ?_, hsum⟩
    rw [hi]
    exact range_succ_perm hperm

/-- R271: a Symbol makes a leaf, which goes to the waiting callers. -/
theorem symbol_parts {s : State} {i : Idx} {v n leaves : Nat} (hs : MemoryForm s) (hp : s.pos = .readSym i n leaves)
    (hv : s.treeValid = false) (hf : ReadForest s [i.toNat] n leaves) :
    TreeParts (returnNode n (leaves + 1) s.stack i
      (s.setNode i { s.nodeAt i with leaf := true, sym := BitVec.ofNat 9 v, weight := 0#32 })) := by
  obtain ⟨-, hn, -, hr⟩ := memoryForm_iff.mp hs
  obtain ⟨hi, hle, hfr⟩ := (countersInRange_readSym hp).mp hr
  obtain ⟨f, hmap, hst, hperm, hsum⟩ := readForest_iff.mp hf
  have hnd : (i.toNat :: stackSlots s.node f).Nodup := hperm.nodup_iff.mpr List.nodup_range
  obtain ⟨hst', hsl⟩ := stack_set { s.nodeAt i with leaf := true, sym := BitVec.ofNat 9 v, weight := 0#32 }
    (List.nodup_cons.mp hnd).1 hst
  refine returnNode_parts (t := .leaf (BitVec.ofNat 9 v)) hv (wf_setNode hn _ hi) hle hfr hmap hst' ?_ ?_ ?_
  · simp only [setNode_node, holds]
    rw [Memory.get_set_self _ hn]
    simp [hi]
  · rw [setNode_node, hsl]
    exact hperm
  · rw [hsum, HuffTree.leaves, Nat.add_comm]

/-! ### The invariant -/

theorem TreeInv.treeParts {s : State} (hs : TreeInv s) : TreeParts s := ⟨hs.tree, hs.parts⟩

/-- A strict tree stays one where its registers and NODE stay. -/
theorem StrictTree.congr {s t : State} (hs : StrictTree s)
    (h : t.node = s.node ∧ t.root = s.root ∧ t.nnodes = s.nnodes ∧ t.nleaves = s.nleaves) : StrictTree t := by
  obtain ⟨hn, hr, hnn, hnl⟩ := h
  unfold StrictTree
  rw [hn, hr, hnn, hnl]
  exact hs

/-- Positions at which no tree is being made. -/
def makesNoTree : Pos → Bool
  | .merge _ _ | .readTag _ _ | .readSym _ _ _ => false
  | _ => true

theorem partialTree_of_makesNoTree {s : State} (h : makesNoTree s.pos = true) : PartialTree s := by
  unfold PartialTree
  split
  · next n picks hp => simp [hp, makesNoTree] at h
  · next n leaves hp => simp [hp, makesNoTree] at h
  · next i n leaves hp => simp [hp, makesNoTree] at h
  · trivial

/-- Where no tree is being made, the tree stays strict with its registers and NODE. -/
theorem TreeInv.keep {s t : State} (hs : TreeInv s) (hp : makesNoTree t.pos = true)
    (h : t.treeValid = s.treeValid ∧ t.node = s.node ∧ t.root = s.root ∧ t.nnodes = s.nnodes ∧
      t.nleaves = s.nleaves) : TreeParts t :=
  ⟨fun ht => (hs.tree (h.1 ▸ ht)).congr h.2, partialTree_of_makesNoTree hp⟩

theorem makesNoTree_of_plain {p : Pos} (h : plain p = true) : makesNoTree p = true := by
  unfold plain at h
  unfold makesNoTree
  split <;> simp_all

/-- Every piece of pseudocode keeps the tree's part of the invariant. -/
theorem Piece.keeps_treeParts {s t : State} (h : Piece s t) (hs : TreeInv s) : TreeParts t := by
  have hparts := hs.parts
  unfold PartialTree at hparts
  cases h with
  | stay => exact hs.treeParts
  | finish => exact hs.keep rfl (by simp)
  | fail => exact hs.keep rfl (by simp)
  | raise k => obtain hr | hr := raise_cases k s <;> rw [hr] <;> exact hs.keep rfl (by simp)
  | move p st _ hp => exact hs.keep (makesNoTree_of_plain hp) (by simp)
  | beginCount => exact hs.keep rfl (by simp)
  | countByte b v hp => exact hs.keep (by simp [hp, makesNoTree]) (by simp)
  | clear => exact ⟨nofun, trivial⟩
  | beginBuild =>
    have hf := beginBuild_forest hs.form
    have hv : (Machine.beginBuild s).treeValid = false := by rw [beginBuild_frame]; rfl
    exact ⟨fun h => (nomatch hv.symm.trans h), partialTree_merge rfl hv hf⟩
  | merge n picks a b hp ha hb =>
    rw [hp] at hparts
    obtain ⟨hv, hf⟩ := hparts
    exact ⟨fun h => (nomatch hv.symm.trans h), partialTree_merge rfl hv (mergeNodes_forest hs.form hp ha hb hf)⟩
  | buildDone n picks hp hl =>
    rw [hp] at hparts
    exact ⟨fun _ => buildDone_strictTree hs.form hp hl hparts.2, trivial⟩
  | beginGencodes => exact hs.keep rfl ⟨rfl, rfl, rfl, rfl, rfl⟩
  | walkLeaf c p rest hp =>
    rw [recordCode_frame]
    exact hs.keep (by simp [hp, makesNoTree]) (by simp)
  | walkNode st hp => exact hs.keep (by simp [hp, makesNoTree]) (by simp)
  | walkEnd => exact hs.keep rfl (by simp)
  | beginReadTree =>
    exact ⟨nofun, partialTree_readTag rfl rfl (readForest_iff.mpr ⟨[], rfl, by simp, .refl _, rfl⟩)⟩
  | tag v n leaves hp hne =>
    rw [hp] at hparts
    exact tagRead_parts hs.form hp hne hparts.1 hparts.2
  | symbol i n leaves v hp =>
    rw [hp] at hparts
    exact symbol_parts hs.form hp hparts.1 hparts.2

theorem Piece.keeps_treeInv {s t : State} (h : Piece s t) (hs : TreeInv s) : TreeInv t := by
  obtain ⟨htree, hparts⟩ := h.keeps_treeParts hs
  exact ⟨h.keeps_form hs.form, htree, hparts⟩

theorem turn_keeps_treeInv : ∀ s t, TreeInv s → s.pos ≠ .idle → turn s = .next t → TreeInv t :=
  turn_keeps TreeInv (fun _ _ _ _ _ _ _ _ _ _ hs => ⟨hs.form, hs.tree, hs.parts⟩) fun _ _ _ hs h => h.keeps_treeInv hs

theorem accept_keeps_treeInv {s : State} (w : Word) (hs : TreeInv s) : TreeInv (accept w s) :=
  ⟨accept_keeps_form w hs.form, hs.tree, trivial⟩

theorem writeReg_keeps_treeInv {s t : State} {r : Reg} {v : Word} {addr size : Nat} (hs : TreeInv s)
    (htgt : target s addr size = .ok r) (hr : r ≠ .cmd) (h : writeReg r v s = .next t) : TreeInv t := by
  have hform := writeReg_keeps_form hs.form htgt hr h
  cases writeReg_effect hr h <;> exact ⟨hform, hs.tree, hs.parts⟩

/-- Settles O60: every piece of a turn, acceptance and every event keep the tree invariant, and a step, as a command,
is made of them. -/
theorem stepKeepsTheStrictTree : Obligations.StepKeepsTheStrictTree := by
  have hhost : ∀ s h, TreeInv s → TreeInv { s with host := h } := fun _ _ hs => ⟨hs.form, hs.tree, hs.parts⟩
  have haccept : ∀ s w, TreeInv s → s.pos = .idle → TreeInv (accept w s) :=
    fun _ w hs _ => accept_keeps_treeInv w hs
  have hdrop : ∀ s, TreeInv s → TreeInv (dropWrite s) := fun _ hs => ⟨hs.form, hs.tree, hs.parts⟩
  refine ⟨fun s t hs h => ?_, fun i s t _ hs h => exec_preserves TreeInv turn_keeps_treeInv hhost haccept hdrop hs h⟩
  exact step_preserves TreeInv turn_keeps_treeInv hhost haccept hdrop
    (fun _ _ _ _ _ _ hs htgt hr h => writeReg_keeps_treeInv hs htgt hr h)
    (fun _ _ hs => ⟨hs.form, hs.tree, hs.parts⟩) (fun _ _ => ⟨rfl, nofun, trivial⟩)
    (fun _ _ hs => ⟨hs.form, hs.tree, hs.parts⟩) (fun _ _ hs => ⟨hs.form, hs.tree, hs.parts⟩) hs h

end Sys2Proof.Machine

/-! SUPPORT. What a command leaves unchanged: the frame of a port transaction and the frame of a piece of pseudocode,
put together along a run. -/

namespace Sys2Proof.Machine

/-- The reserved field and the operation of an illegal word are read back (R123, R124). -/
theorem decode_encode_illegalRes {res : BitVec 28} (op : BitVec 4) (h : res ≠ 0#28) :
    decode (encode (.illegalRes res op)) = .illegalRes res op := by
  have hr : resField (res ++ op) = res := BitVec.extractLsb'_append_eq_left
  have ho : opField (res ++ op) = op := BitVec.extractLsb'_append_eq_right
  simp only [encode, decode, hr, ho, if_neg h]

/-- A well-formed instruction's word is that instruction's (R122, R123). -/
theorem decode_encode_of_wellFormed {i : Instr} (h : WellFormed i) : decode (encode i) = i := by
  cases i with
  | illegalOp low => revert low; decide
  | illegalRes res op => exact decode_encode_illegalRes op (by simpa [WellFormed, Instr.wellFormed] using h)
  | _ => decide

/-! ### The commands of a position and what they use -/

section
variable {i : Instr}

theorem usesInput_of_asksInput {p : Pos} (hp : permits i p = true) (ha : asksInput p = true) : usesInput i = true := by
  cases p with
  | countRead | rewind | readTag | readSym | encodeRead | getMagic | decodeRead =>
    cases i <;> simp_all [permits, usesInput]
  | _ => cases ha

theorem usesOutput_of_asksOutput {s : State} (hp : permits i s.pos = true) (ha : asksOutput s = true) :
    usesOutput i = true := by
  unfold asksOutput at ha
  cases hs : s.pos with
  | writeTree | putMagic | writeSym | emit | emitEof | putByte | close | failClose =>
    cases i <;> simp_all [permits, usesOutput, closesOutput]
  | _ => simp [hs] at ha

theorem writesHist_of_permits (hp : permits i .countRead = true) : writesHist i = true := by
  cases i <;> simp_all [permits, writesHist]

theorem writesTree_of_permits_merge {n : Nat} {picks : List Idx} (hp : permits i (.merge n picks) = true) :
    writesTree i = true := by
  cases i <;> simp_all [permits, writesTree]

theorem writesTree_of_permits_readTag {n leaves : Nat} (hp : permits i (.readTag n leaves) = true) :
    writesTree i = true := by
  cases i <;> simp_all [permits, writesTree]

theorem writesCode_of_permits (hp : permits i .walk = true) : writesCode i = true := by
  cases i <;> simp_all [permits, writesCode]

theorem writesTree_of_permits_walk (hp : permits i .walk = true) (hg : i ≠ .gencodes) : writesTree i = true := by
  cases i <;> simp_all [permits, writesTree]

theorem decode_of_movesCursor {s : State} (hp : permits (running s) s.pos = true) (hm : movesCursor s = true) :
    running s = .decode := by
  unfold movesCursor at hm
  split at hm
  · next h => simpa [h, permits] using hp
  · next h => simpa [h, permits] using hp
  · simpa using hm
  · cases hm

end

/-! ### Ports -/

/-- A port that can rewind, draws no failure and has drawn none (I8). -/
def Steady (p : InPort) : Prop := p.fails = [] ∧ p.failed = false ∧ p.rewindable = true

theorem read_steady {p : InPort} (n d : Nat) (h : Steady p) :
    Steady (p.read n d).2.1 ∧ (p.read n d).2.1.bits = p.bits ∧ (p.read n d).2.1.endless = p.endless ∧
      (p.read n d).2.2 = d := by
  obtain ⟨hf, hd, hr⟩ := h
  obtain ⟨-, hfails, -⟩ := InPort.read_cases n d p
  obtain ⟨hdraws, hbits, hend, hrew, hfailed⟩ := InPort.read_conforming (n := n) (d := d) (by rw [hf]; rfl) hd
  exact ⟨⟨by rw [hfails, hf]; rfl, hfailed, by rw [hrew, hr]⟩, hbits, hend, hdraws⟩

theorem rewind_steady {p : InPort} (d : Nat) (h : Steady p) :
    p.rewind d = (true, { p with pos := 0, eof := false }, d) := by
  obtain ⟨hf, hd, hr⟩ := h
  cases p
  simp_all [InPort.rewind, InPort.settle]

/-- What command `i` leaves of the ports and of the draw count. -/
structure PortsKept (i : Instr) (s t : State) : Prop where
  steady : Steady s.inp → Steady t.inp ∧ t.inp.bits = s.inp.bits ∧ t.inp.endless = s.inp.endless
  accepted : s.out.bits <+: t.out.bits
  input : usesInput i = false → t.inp = s.inp
  output : usesOutput i = false → t.out = s.out
  draws : usesOutput i = false → usesInput i = false ∨ Steady s.inp → t.draws = s.draws

theorem PortsKept.of_eq {i : Instr} {s t : State} (hi : t.inp = s.inp) (ho : t.out = s.out) (hd : t.draws = s.draws) :
    PortsKept i s t where
  steady h := by rw [hi]; exact ⟨h, rfl, rfl⟩
  accepted := by rw [ho]
  input _ := hi
  output _ := ho
  draws _ _ := hd

theorem PortsKept.trans {i : Instr} {s t u : State} (h : PortsKept i s t) (h' : PortsKept i t u) :
    PortsKept i s u where
  steady hs := by
    obtain ⟨ht, hb, he⟩ := h.steady hs
    obtain ⟨hu, hb', he'⟩ := h'.steady ht
    exact ⟨hu, hb'.trans hb, he'.trans he⟩
  accepted := h.accepted.trans h'.accepted
  input hi := (h'.input hi).trans (h.input hi)
  output ho := (h'.output ho).trans (h.output ho)
  draws ho hc := (h'.draws ho (hc.imp_right fun hs => (h.steady hs).1)).trans (h.draws ho hc)

/-- A transaction changes the ports of commands that use them only. -/
theorem Transaction.portsKept {i : Instr} {s u : State} (h : Transaction s u) (hp : permits i s.pos = true) :
    PortsKept i s u := by
  cases h with
  | none => exact .of_eq rfl rfl rfl
  | read n ha =>
    have hu := usesInput_of_asksInput hp ha
    exact {
      steady := fun hs => by
        obtain ⟨h, hb, he, -⟩ := read_steady n s.draws hs
        exact ⟨h, hb, he⟩
      accepted := List.prefix_rfl
      input := fun hi => by simp [hu] at hi
      output := fun _ => rfl
      draws := fun _ hc => by
        have hs : Steady s.inp := by simpa [hu] using hc
        exact (read_steady n s.draws hs).2.2.2 }
  | rewind ha =>
    have hu := usesInput_of_asksInput hp ha
    exact {
      steady := fun hs => by
        simp only [inReset, rewind_steady s.draws hs]
        exact ⟨hs, trivial, trivial⟩
      accepted := List.prefix_rfl
      input := fun hi => by simp [hu] at hi
      output := fun _ => rfl
      draws := fun _ hc => by
        have hs : Steady s.inp := by simpa [hu] using hc
        simp only [inReset, rewind_steady s.draws hs] }
  | write n v ha =>
    have hu := usesOutput_of_asksOutput hp ha
    exact {
      steady := fun hs => ⟨hs, rfl, rfl⟩
      accepted := by
        obtain ⟨-, -, ⟨-, -, hb, -⟩ | ⟨-, hb⟩⟩ := OutPort.write_cases n v s.draws s.out <;> simp [outWrite, hb]
      input := fun _ => rfl
      output := fun ho => by simp [hu] at ho
      draws := fun ho => by simp [hu] at ho }
  | close ha =>
    have hu := usesOutput_of_asksOutput hp ha
    exact {
      steady := fun hs => ⟨hs, rfl, rfl⟩
      accepted := (OutPort.close_spec s.draws s.out).2.1
      input := fun _ => rfl
      output := fun ho => by simp [hu] at ho
      draws := fun ho => by simp [hu] at ho }

/-! ### Pieces -/

/-- Raising an error changes what the failure epilogue changes (R356). -/
theorem raise_frame (k : ErrKind) (s : State) : raise k s = { s with
    errcode := (raise k s).errcode, fail := (raise k s).fail, phase := (raise k s).phase, pos := (raise k s).pos
    stack := (raise k s).stack, pq := (raise k s).pq } := by
  obtain h | h := raise_cases k s
  · rw [h]
  · rw [h]
    rfl

/-- A tag changes NODE, the stack and the position, or ends the command (R271). -/
theorem tagRead_frame (v n leaves : Nat) (s : State) : tagRead v n leaves s = { s with
    errcode := (tagRead v n leaves s).errcode, fail := (tagRead v n leaves s).fail
    phase := (tagRead v n leaves s).phase, pos := (tagRead v n leaves s).pos
    stack := (tagRead v n leaves s).stack, pq := (tagRead v n leaves s).pq
    node := (tagRead v n leaves s).node } := by
  unfold tagRead
  split
  · rw [raise_frame]
  · split <;> rfl

/-- No piece of pseudocode touches the parameters, the host's registers, the ports or what the host holds. -/
theorem Piece.frame {s t : State} (h : Piece s t) : t = { s with
    done := t.done, fail := t.fail, errcode := t.errcode, phase := t.phase, treeValid := t.treeValid
    codesValid := t.codesValid, root := t.root, nnodes := t.nnodes, nleaves := t.nleaves, hist := t.hist
    node := t.node, code := t.code, pq := t.pq, stack := t.stack, pos := t.pos } := by
  cases h with
  | raise => rw [raise_frame]
  | beginBuild => rw [beginBuild_frame]; rfl
  | walkLeaf => rw [recordCode_frame]
  | tag => rw [tagRead_frame]
  | symbol => rw [returnNode_frame]; rfl
  | _ => rfl

/-- HIST changes under the commands that count, and under CLEAR (R50). -/
theorem Piece.hist_kept {s t : State} (h : Piece s t) (hs : permits (running s) s.pos = true)
    (ht : permits (running s) t.pos = true) (hw : writesHist (running s) = false) : t.hist = s.hist := by
  cases h with
  | raise => rw [raise_frame]
  | beginCount => simp [writesHist_of_permits ht] at hw
  | countByte b v hp =>
    rw [hp] at hs
    simp [writesHist_of_permits hs] at hw
  | clear hr => simp [hr, writesHist] at hw
  | beginBuild => rw [beginBuild_frame]; rfl
  | walkLeaf => rw [recordCode_frame]
  | tag => rw [tagRead_frame]
  | symbol => rw [returnNode_frame]; rfl
  | _ => rfl

/-- NODE and the tree's registers change under the commands that make or clear a tree (R54, R55). -/
theorem Piece.tree_kept {s t : State} (h : Piece s t) (hs : permits (running s) s.pos = true)
    (ht : permits (running s) t.pos = true) (hw : writesTree (running s) = false) :
    (t.node = s.node ∧ t.root = s.root ∧ t.nnodes = s.nnodes ∧ t.nleaves = s.nleaves ∧ t.treeValid = s.treeValid) ∧
      (running s ≠ .gencodes → t.codesValid = s.codesValid) := by
  have notree : ∀ {p : Pos}, permits (running s) p = true → makesNoTree p = true := by
    intro p hp
    cases p with
    | merge n picks => simp [writesTree_of_permits_merge hp] at hw
    | readTag n leaves => simp [writesTree_of_permits_readTag hp] at hw
    | readSym i n leaves => simp [writesTree_of_permits_readTag (n := n) (leaves := leaves) hp] at hw
    | _ => rfl
  have noWalk (hp : permits (running s) .walk = true) : running s = .gencodes := by
    by_contra hg
    simp [writesTree_of_permits_walk hp hg] at hw
  cases h with
  | raise => rw [raise_frame]; exact ⟨⟨rfl, rfl, rfl, rfl, rfl⟩, fun _ => rfl⟩
  | clear hr => simp [hr, writesTree] at hw
  | beginBuild => exact nomatch notree ht
  | merge => exact nomatch notree ht
  | buildDone n picks hp => exact nomatch hp ▸ notree hs
  | beginReadTree => exact nomatch notree ht
  | beginGencodes => exact ⟨⟨rfl, rfl, rfl, rfl, rfl⟩, fun hg => absurd (noWalk ht) hg⟩
  | walkLeaf => rw [recordCode_frame]; exact ⟨⟨rfl, rfl, rfl, rfl, rfl⟩, fun _ => rfl⟩
  | walkEnd => exact ⟨⟨rfl, rfl, rfl, rfl, rfl⟩, fun hg => absurd (noWalk ht) hg⟩
  | tag v n leaves hp => exact nomatch hp ▸ notree hs
  | symbol i n leaves v hp => exact nomatch hp ▸ notree hs
  | _ => exact ⟨⟨rfl, rfl, rfl, rfl, rfl⟩, fun _ => rfl⟩

/-- CODE changes under the commands that make codes, and under CLEAR (R53, R54). -/
theorem Piece.code_kept {s t : State} (h : Piece s t) (hs : permits (running s) s.pos = true)
    (ht : permits (running s) t.pos = true) (hw : writesCode (running s) = false) : t.code = s.code := by
  cases h with
  | raise => rw [raise_frame]
  | clear hr => simp [hr, writesCode] at hw
  | beginBuild => rw [beginBuild_frame]; rfl
  | beginGencodes => simp [writesCode_of_permits ht] at hw
  | walkLeaf c p rest hp =>
    rw [hp] at hs
    simp [writesCode_of_permits hs] at hw
  | tag => rw [tagRead_frame]
  | symbol => rw [returnNode_frame]; rfl
  | _ => rfl

/-! ### Along a run -/

/-- What command `i` leaves of the core. -/
structure CoreKept (i : Instr) (s t : State) : Prop where
  fixed : t.cmd = s.cmd ∧ t.par = s.par ∧ t.ie = s.ie ∧ t.dropped = s.dropped ∧ t.nodeSel = s.nodeSel ∧
    t.codeSel = s.codeSel ∧ t.reads = s.reads ∧ t.host = s.host
  hist : writesHist i = false → t.hist = s.hist
  tree : writesTree i = false →
    t.node = s.node ∧ t.root = s.root ∧ t.nnodes = s.nnodes ∧ t.nleaves = s.nleaves ∧ t.treeValid = s.treeValid
  codesValid : writesTree i = false → i ≠ .gencodes → t.codesValid = s.codesValid
  code : writesCode i = false → t.code = s.code
  cur : i ≠ .decode → t.cur = s.cur

theorem CoreKept.trans {i : Instr} {s t u : State} (h : CoreKept i s t) (h' : CoreKept i t u) : CoreKept i s u where
  fixed := by
    obtain ⟨h1, h2, h3, h4, h5, h6, h7, h8⟩ := h.fixed
    rw [← h1, ← h2, ← h3, ← h4, ← h5, ← h6, ← h7, ← h8]
    exact h'.fixed
  hist hw := (h'.hist hw).trans (h.hist hw)
  tree hw := by
    obtain ⟨h1, h2, h3, h4, h5⟩ := h.tree hw
    rw [← h1, ← h2, ← h3, ← h4, ← h5]
    exact h'.tree hw
  codesValid hw hg := (h'.codesValid hw hg).trans (h.codesValid hw hg)
  code hw := (h'.code hw).trans (h.code hw)
  cur hd := (h'.cur hd).trans (h.cur hd)

/-- Nothing but ports, counters, PHASE and, under DECODE, the cursor has changed. -/
theorem Scratch.kept {i : Instr} {s u : State} (h : Scratch s u) (hr : Machine.running s = i)
    (hp : permits i s.pos = true) : CoreKept i s u ∧ PortsKept i s u := by
  obtain ⟨v, hv, c, hc, ph, y, rfl⟩ := h
  have hf := hv.frame
  refine ⟨⟨by rw [hf]; simp, fun _ => by rw [hf], fun _ => by rw [hf]; simp, fun _ _ => by rw [hf],
    fun _ => by rw [hf], fun hd => ?_⟩, (hv.portsKept hp).trans (.of_eq rfl rfl rfl)⟩
  obtain rfl | hm := hc
  · rfl
  · subst hr
    exact absurd (decode_of_movesCursor hp hm) hd

theorem Piece.kept {i : Instr} {s t : State} (h : Piece s t) (hr : running s = i) (hs : permits i s.pos = true)
    (ht : permits i t.pos = true) : CoreKept i s t ∧ PortsKept i s t := by
  subst hr
  have hf := h.frame
  exact ⟨⟨by rw [hf]; simp, h.hist_kept hs ht, fun hw => (h.tree_kept hs ht hw).1,
    fun hw => (h.tree_kept hs ht hw).2, h.code_kept hs ht, fun _ => by rw [hf]⟩,
    .of_eq (by rw [hf]) (by rw [hf]) (by rw [hf])⟩

/-- What a run of command `i` has done by the time it stands at `t`. -/
structure Running (i : Instr) (s t : State) : Prop where
  command : running t = i
  permitted : permits i t.pos = true
  core : CoreKept i s t
  ports : PortsKept i s t

theorem turn_keeps_running {i : Instr} {s : State} :
    ∀ t u, Running i s t → t.pos ≠ .idle → turn t = .next u → Running i s u := by
  intro t u ht _ h
  obtain ⟨hr, hp, hc, hq⟩ := ht
  obtain ⟨v, hv, hpc, hperm⟩ := turn_outcome h
  rw [hr] at hperm
  obtain ⟨hcv, hqv⟩ := hv.kept hr hp
  obtain ⟨hcu, hqu⟩ := hpc.kept (hv.running.trans hr) (by rwa [hv.pos]) (hperm hp)
  have hcmd : u.cmd = t.cmd := (hcv.trans hcu).fixed.1
  exact ⟨by rw [running, hcmd]; exact hr, hperm hp, (hc.trans hcv).trans hcu, (hq.trans hqv).trans hqu⟩

/-- Waiting changes no event but in how long it waits. -/
theorem spend_frame (s : State) : spend s = { s with host := (spend s).host } ∧
    (spend s).host.map HostEvent.op = s.host.map HostEvent.op := by
  unfold spend
  split
  · exact ⟨rfl, rfl⟩
  · next h => exact ⟨rfl, by simp [h]⟩

/-- Settles O56: every turn of a command keeps what its rules do not name, and a command is acceptance and a run. -/
theorem commandFrame : Obligations.CommandFrame := by
  intro i s t hi hp h
  obtain ⟨hspend, hops⟩ := spend_frame (accept (encode i) s)
  rw [exec_eq_issue, issue, (busy_eq_false_iff s).mpr hp, if_neg Bool.false_ne_true, resume] at h
  generalize hu : spend (accept (encode i) s) = u at h hspend hops
  have h0 : Running i u u := by
    refine ⟨?_, ?_, ⟨by simp, fun _ => rfl, fun _ => by simp, fun _ _ => rfl, fun _ => rfl, fun _ => rfl⟩,
      .of_eq rfl rfl rfl⟩
    · rw [hspend]
      exact decode_encode_of_wellFormed hi
    · rw [hspend]
      rfl
  obtain ⟨-, -, hc, hq⟩ := run_preserves _ turn_keeps_running _ u t h0 h
  obtain ⟨⟨-, h1, h2, h3, h4, h5, h6, h7⟩, h8, h9, h10, h11, h12⟩ := hc
  obtain ⟨g1, g2, g3, g4, g5⟩ := hq
  rw [← h7] at hops
  rw [hspend] at h1 h2 h3 h4 h5 h6 h8 h9 h10 h11 h12 g1 g2 g3 g4 g5
  exact ⟨h1, h2, h3, h4, h5, h6, hops, fun a b c => (g1 ⟨a, b, c⟩).2, g2, h8, h9, h10, h11, g3, g4, g5, h12⟩

end Sys2Proof.Machine

/-! SUPPORT. The host's accesses (R32, R82, R84, R104, R105) and the fields of the words it reads (R33, R42, R43, R45,
R46), with the reset values (R62). -/

namespace Sys2Proof.Machine

/-! ### The register an access reaches -/

/-- Above the windows of CODE there is HIST, and nothing else (R32). -/
theorem regAt_of_le {off : Nat} (h : 0x060 ≤ off) :
    regAt off = if 0x400 ≤ off ∧ off < 0x800 then .hist ((off - 0x400) / 4) else .reserved := by
  unfold regAt
  iterate 17 rw [if_neg (by omega)]

theorem regAt_hist {c : Nat} (h : c < 256) : regAt (0x400 + 4 * c) = .hist c := by
  rw [regAt_of_le (by omega), if_pos (by omega)]
  congr 1
  omega

theorem regAt_codeWord {k : Nat} (h : k < 8) : regAt (0x040 + 4 * k) = .codeWord k := by
  revert k
  decide

theorem regAt_reserved {off : Nat} (h : (0x060 ≤ off ∧ off < 0x400) ∨ 0x800 ≤ off) : regAt off = .reserved := by
  rw [regAt_of_le (by omega), if_neg (by omega)]

/-- The offsets of the windows (R105). -/
abbrev WindowOffset (off : Nat) : Prop :=
  off = 0x030 ∨ off = 0x034 ∨ (0x03C ≤ off ∧ off < 0x060) ∨ (0x400 ≤ off ∧ off < 0x800)

theorem isWindow_regAt {off : Nat} (h4 : off % 4 = 0) : isWindow (regAt off) = true ↔ WindowOffset off := by
  by_cases h : 0x060 ≤ off
  · rw [regAt_of_le h]
    split
    · next hh => exact iff_of_true rfl (by omega)
    · next hh => exact iff_of_false nofun (by omega)
  · have hsmall : ∀ o < 0x060, o % 4 = 0 → (isWindow (regAt o) = true ↔ WindowOffset o) := by decide
    exact hsmall off (by omega) h4

/-- The registers whose write has no effect (R32). -/
def ignoresWrites : Reg → Bool
  | .ctrl | .cmd | .status | .nodeSel | .codeSel | .hist _ => false
  | _ => true

theorem writeReg_of_ignoresWrites {r : Reg} (v : Word) (s : State) (h : ignoresWrites r = true) :
    writeReg r v s = .next s := by
  cases r with
  | ctrl | cmd | status | nodeSel | codeSel | hist => cases h
  | _ => rfl

/-- The offsets of the read-only registers (R32). -/
abbrev ReadOnlyOffset (off : Nat) : Prop :=
  off = 0x000 ∨ (0x010 ≤ off ∧ off < 0x02C) ∨ off = 0x030 ∨ off = 0x034 ∨ (0x03C ≤ off ∧ off < 0x060)

theorem ignoresWrites_regAt {off : Nat} (h4 : off % 4 = 0) (h : ReadOnlyOffset off) :
    ignoresWrites (regAt off) = true := by
  have hsmall : ∀ o < 0x060, o % 4 = 0 → ReadOnlyOffset o → ignoresWrites (regAt o) = true := by decide
  exact hsmall off (by omega) h4 h

/-- An aligned word of the register space (R80, R82). -/
theorem target_base (s : State) {off : Nat} (hlt : off < 4096) (h4 : off % 4 = 0) :
    target s (s.base + off) 4 = .ok (regAt off) := by
  have hb : s.base % 4 = 0 := by simp [State.base, Nat.mul_mod]
  unfold target
  rw [if_pos (by omega), if_pos (by omega), Nat.add_sub_cancel_left]

/-! ### Steps of the host -/

section
variable {s : State} {n off : Nat} {rest : List HostEvent}

theorem step_of_due {e : HostEvent} (hh : s.host = e :: rest) (hd : s.pos = .idle ∨ (e.wait = 0 ∧ e.op ≠ .waitIdle)) :
    step s = perform e.op { s with host := rest } := by
  have hdue : due e s = true := by
    obtain hi | ⟨hw, ho⟩ := hd
    · simp [due, (busy_eq_false_iff s).mpr hi]
    · simp [due, hw, ho]
  unfold step hostStep
  rw [hh]
  simp only [hdue, if_true]

/-- A read that is due (R84). -/
theorem step_read (hlt : off < 4096) (h4 : off % 4 = 0) (hd : s.pos = .idle ∨ n = 0)
    (hh : s.host = { wait := n, op := .read (s.base + off) 4 } :: rest) :
    step s = .next (readReg (regAt off) { s with host := rest }) := by
  rw [step_of_due hh (hd.imp_right fun h => ⟨h, nofun⟩), perform]
  rw [show target { s with host := rest } (s.base + off) 4 = _ from target_base _ hlt h4]

/-- A write that is due (R32, R104). -/
theorem step_write {v : Word} (hlt : off < 4096) (h4 : off % 4 = 0) (hd : s.pos = .idle ∨ n = 0)
    (hh : s.host = { wait := n, op := .write (s.base + off) 4 v } :: rest) :
    step s = writeReg (regAt off) v { s with host := rest } := by
  rw [step_of_due hh (hd.imp_right fun h => ⟨h, nofun⟩), perform]
  rw [show target { s with host := rest } (s.base + off) 4 = _ from target_base _ hlt h4]

end

theorem whenIdle_of_idle {s : State} (k : State → State) (h : s.pos = .idle) : whenIdle s k = k s := by
  simp [whenIdle, (busy_eq_false_iff s).mpr h]

theorem ctrlWord_eq (s : State) : ctrlWord s = if s.ie then 1#32 else 0#32 := by
  cases hie : s.ie <;> simp [ctrlWord, hie]

/-- A register's value does not depend on the host's events. -/
theorem regValue_host (s : State) (h : List HostEvent) (r : Reg) : regValue { s with host := h } r = regValue s r := by
  cases r <;> rfl

/-- A read that shows the register changes nothing in the core (R84). -/
theorem readReg_of_shown {r : Reg} {s : State} (h : (isWindow r && s.busy) = false) :
    readReg r s = { s with reads := regValue s r :: s.reads } := by
  simp [readReg, readValue, h]

/-- A window read while BUSY = 1 answers a draw (R105; log 10). -/
theorem readReg_of_drawn {r : Reg} {s : State} (h : (isWindow r && s.busy) = true) :
    readReg r s = { s with reads := Config.busyRead s.draws :: s.reads, draws := s.draws + 1 } := by
  simp [readReg, readValue, h]

/-- Settles O9: a read that is due answers the value of the register at its offset, or a draw. -/
theorem readsHaveNoSideEffect : Obligations.ReadsHaveNoSideEffect := by
  intro s n off rest hlt h4 hh
  refine ⟨fun hshown => ⟨regValue s (regAt off), ?_, ?_⟩, fun hbusy hn hw => ?_⟩
  · rw [step_read hlt h4 (hshown.imp_right And.left) hh, readReg_of_shown, regValue_host]
    obtain hi | ⟨-, hw⟩ := hshown
    · have hb : State.busy { s with host := rest } = false := (busy_eq_false_iff s).mpr hi
      rw [hb, Bool.and_false]
    · have hnw : isWindow (regAt off) = false := by rw [← Bool.not_eq_true, isWindow_regAt h4]; exact hw
      rw [hnw, Bool.false_and]
  · refine ⟨?_, ?ctrl, ?_, ?_, ?_, ?_, ?_, ?_, ?_, ?_, ?_, ?_, ?_, ?_, ?_, ?_, fun k hk hoff => ?codeWord,
      fun c hc hoff => ?hist, fun hres => ?reserved⟩
    case ctrl => rintro rfl; exact ctrlWord_eq s
    case codeWord => rw [hoff, regAt_codeWord hk]; rfl
    case hist => rw [hoff, regAt_hist hc]; rfl
    case reserved => rw [regAt_reserved hres]; rfl
    all_goals rintro rfl; rfl
  · rw [step_read hlt h4 (.inr hn) hh, readReg_of_drawn]
    have hb : State.busy { s with host := rest } = true := (busy_eq_true_iff s).mpr hbusy
    rw [hb, Bool.and_true]
    exact (isWindow_regAt h4).mpr hw

/-- Settles O10: a write that is due has the effect of the register at its offset. -/
theorem idleHostWrites : Obligations.IdleHostWrites := by
  intro s n off v rest hi hform h4 hh
  have hstep (hlt : off < 4096) := step_write hlt h4 (.inl hi) hh
  have hi' : State.pos { s with host := rest } = .idle := hi
  refine ⟨fun c hc hoff => ?_, fun hoff => ?_, fun hoff => ?_, fun hro => ?_, fun hres => ?_⟩
  · obtain ⟨hwf, -, -, -⟩ := memoryForm_iff.mp hform
    refine ⟨Memory.set 0#32 s.hist c v, ?_, Memory.get_set_self _ hwf c v, fun k hk => Memory.get_set_other _ _ v hk⟩
    rw [hstep (by omega), hoff, regAt_hist hc, writeReg, whenIdle_of_idle _ hi']
    rfl
  · rw [hstep (by omega), hoff, show regAt 0x02C = .nodeSel from rfl, writeReg, whenIdle_of_idle _ hi',
      BitVec.setWidth_eq_extractLsb' (by decide)]
  · rw [hstep (by omega), hoff, show regAt 0x038 = .codeSel from rfl, writeReg, whenIdle_of_idle _ hi',
      BitVec.setWidth_eq_extractLsb' (by decide)]
  · rw [hstep (by omega), writeReg_of_ignoresWrites _ _ (ignoresWrites_regAt h4 hro)]
  · rw [hstep (by omega), regAt_reserved (by omega), writeReg_of_ignoresWrites _ _ rfl]

/-- Settles O12: STATUS and CTRL are written whether or not a command runs. -/
theorem statusAndCtrlWrites : Obligations.StatusAndCtrlWrites := by
  intro s n v rest hd
  exact ⟨fun hh => step_write (by decide) (by decide) hd hh, fun hh => step_write (by decide) (by decide) hd hh⟩

/-! ### Code windows -/

/-- Bit `j` of a bit string, counted from the front, is a bit of its value (R11). -/
theorem bin_getD {n j : Nat} (v : Nat) (h : j < n) : (bin n v).getD j false = v.testBit (n - 1 - j) := by
  induction n generalizing j with
  | zero => omega
  | succ n ih =>
    cases j with
    | zero => simp [bin]
    | succ j =>
      rw [bin, List.getD_cons_succ, ih (by omega)]
      congr 1
      omega

theorem testBit_val {u : Bits} {j : Nat} (h : j < u.length) : (val u).testBit (u.length - 1 - j) = u.getD j false := by
  rw [← bin_getD (val u) h, bin_val]

/-- Group `k` of 32 bits of a code, filled up with zeros (R46). -/
def codeGroup (b : Bits) (k : Nat) : Bits :=
  (b.drop (32 * k)).take 32 ++ List.replicate (32 - ((b.drop (32 * k)).take 32).length) false

theorem codeGroup_length (b : Bits) (k : Nat) : (codeGroup b k).length = 32 := by
  simp only [codeGroup, List.length_append, List.length_replicate, List.length_take]
  omega

theorem codeGroup_getD (b : Bits) (k : Nat) {j : Nat} (h : j < 32) :
    (codeGroup b k).getD j false = b.getD (32 * k + j) false := by
  simp only [codeGroup, List.getD_eq_getElem?_getD, List.getElem?_append, List.getElem?_take, List.getElem?_drop,
    List.getElem?_replicate, List.length_take, List.length_drop]
  split
  · rfl
  · next hj =>
    rw [List.getElem?_eq_none (l := b) (by omega)]
    split <;> rfl

theorem selectedCode_of_le {s : State} (h : s.codeSel.toNat ≤ 256) : selectedCode s = s.codeAt s.codeSel.toNat :=
  if_pos h

/-- Without a valid entry every code window reads 0 (R45, R46). -/
theorem code_windows_invalid {s : State} (h : (selectedCode s).valid = false) :
    codeLenWord s = 0#32 ∧ ∀ k, codeWordK k s = 0#32 := by
  simp [codeLenWord, codeWordK, h]

theorem codeWordK_of_valid {s : State} (k : Nat) (hv : (selectedCode s).valid = true) :
    codeWordK k s = BitVec.ofNat 32 (val (codeGroup (selectedCode s).bits k)) := if_pos hv

theorem getLsbD_codeWordK {s : State} (k : Nat) {j : Nat} (hv : (selectedCode s).valid = true) (hj : j < 32) :
    (codeWordK k s).getLsbD (31 - j) = (selectedCode s).bits.getD (32 * k + j) false := by
  have hbit := testBit_val (u := codeGroup (selectedCode s).bits k) (j := j) (by rwa [codeGroup_length])
  rw [codeGroup_length, codeGroup_getD _ _ hj] at hbit
  rw [codeWordK_of_valid k hv, BitVec.getLsbD_ofNat, ← hbit]
  simp only [show 31 - j < 32 by omega, decide_true, Bool.true_and]

theorem codeLen_layout (z : BitVec 22) (l : BitVec 9) :
    (1#1 ++ z ++ l).getLsbD 31 = true ∧ (1#1 ++ z ++ l).extractLsb' 9 22 = z ∧ (1#1 ++ z ++ l).extractLsb' 0 9 = l := by
  simp only [BitVec.getLsbD_append, BitVec.extractLsb'_append_eq_ite]
  simp

/-- Settles O14: the windows show the selected entry, and an invalid entry or none as 0. -/
theorem codeWindow : Obligations.CodeWindow := by
  intro s
  refine ⟨fun hle hv => ?_, fun h => code_windows_invalid ?_⟩
  · rw [← selectedCode_of_le hle] at hv ⊢
    obtain ⟨hvalid, hzero, hlen⟩ := codeLen_layout 0#22 (BitVec.ofNat 9 (selectedCode s).len)
    rw [codeLenWord, if_pos hv]
    exact ⟨hvalid, hzero, hlen, fun k _ j hj => getLsbD_codeWordK k hv hj⟩
  · unfold selectedCode
    split
    · next hle => exact h.resolve_left (by omega)
    · rfl

/-! ### NODE's windows and STATUS -/

theorem leafInfo_layout (r l : BitVec 10) (c : BitVec 9) :
    (1#1 ++ 1#1 ++ r ++ l ++ 0#1 ++ c).getLsbD 31 = true ∧ (1#1 ++ 1#1 ++ r ++ l ++ 0#1 ++ c).getLsbD 30 = true ∧
    (1#1 ++ 1#1 ++ r ++ l ++ 0#1 ++ c).extractLsb' 20 10 = r ∧
    (1#1 ++ 1#1 ++ r ++ l ++ 0#1 ++ c).extractLsb' 10 10 = l ∧
    (1#1 ++ 1#1 ++ r ++ l ++ 0#1 ++ c).getLsbD 9 = false ∧
    (1#1 ++ 1#1 ++ r ++ l ++ 0#1 ++ c).extractLsb' 0 9 = c := by
  simp only [BitVec.getLsbD_append, BitVec.extractLsb'_append_eq_ite]
  simp

theorem innerInfo_layout (r l : BitVec 10) :
    (1#1 ++ 0#1 ++ r ++ l ++ 0#10).getLsbD 31 = true ∧ (1#1 ++ 0#1 ++ r ++ l ++ 0#10).getLsbD 30 = false ∧
    (1#1 ++ 0#1 ++ r ++ l ++ 0#10).extractLsb' 20 10 = r ∧ (1#1 ++ 0#1 ++ r ++ l ++ 0#10).extractLsb' 10 10 = l ∧
    (1#1 ++ 0#1 ++ r ++ l ++ 0#10).getLsbD 9 = false ∧ (1#1 ++ 0#1 ++ r ++ l ++ 0#10).extractLsb' 0 9 = 0#9 := by
  simp only [BitVec.getLsbD_append, BitVec.extractLsb'_append_eq_ite]
  simp

/-- Settles O13: a slot in use is shown as a leaf or as an internal node, and any other as 0. -/
theorem nodeWindow : Obligations.NodeWindow := by
  intro s
  refine ⟨fun hlt => ?_, fun hle => ?_⟩
  · rw [nodeWeightWord, if_pos hlt, nodeInfoWord, if_pos hlt]
    cases hleaf : (s.nodeAt s.nodeSel).leaf
    · obtain ⟨h31, h30, hr, hl, h9, hc⟩ := innerInfo_layout (s.nodeAt s.nodeSel).right (s.nodeAt s.nodeSel).left
      exact ⟨h31, h30, hr, hl, h9, hc, rfl⟩
    · obtain ⟨h31, h30, hr, hl, h9, hc⟩ := leafInfo_layout Config.nil Config.nil (s.nodeAt s.nodeSel).sym
      exact ⟨h31, h30, hr, hl, h9, hc, rfl⟩
  · have hge : ¬ s.nodeSel < s.nnodes := BitVec.not_lt.mpr hle
    exact ⟨if_neg hge, if_neg hge⟩

/-- The layout of STATUS (R33): the bits above 14, IRQ, the two valid flags, PHASE, ERRCODE, and the four flags. -/
def statusBits (z : BitVec 17) (q c t : Bool) (p k : BitVec 4) (d f e b : Bool) :
    BitVec (17 + 1 + 1 + 1 + 4 + 4 + 1 + 1 + 1 + 1) :=
  z ++ BitVec.ofBool q ++ BitVec.ofBool c ++ BitVec.ofBool t ++ p ++ k ++ BitVec.ofBool d ++ BitVec.ofBool f
    ++ BitVec.ofBool e ++ BitVec.ofBool b

theorem statusBits_fields (z : BitVec 17) (q c t : Bool) (p k : BitVec 4) (d f e b : Bool) :
    (statusBits z q c t p k d f e b).getLsbD 0 = b ∧ (statusBits z q c t p k d f e b).getLsbD 1 = e ∧
    (statusBits z q c t p k d f e b).getLsbD 2 = f ∧ (statusBits z q c t p k d f e b).getLsbD 3 = d ∧
    (statusBits z q c t p k d f e b).extractLsb' 4 4 = k ∧ (statusBits z q c t p k d f e b).extractLsb' 8 4 = p ∧
    (statusBits z q c t p k d f e b).getLsbD 12 = t ∧ (statusBits z q c t p k d f e b).getLsbD 13 = c ∧
    (statusBits z q c t p k d f e b).getLsbD 14 = q ∧ (statusBits z q c t p k d f e b).extractLsb' 15 17 = z := by
  simp only [statusBits, BitVec.getLsbD_append, BitVec.extractLsb'_append_eq_ite]
  simp

/-- Settles O11: STATUS has its layout, and the codes are those of R33 and R350. -/
theorem statusWordFields : Obligations.StatusWordFields := by
  intro s
  obtain ⟨h0, h1, h2, h3, h4, h8, h12, h13, h14, h15⟩ := statusBits_fields 0#17 (irq s) s.codesValid s.treeValid
    (phaseCode s.phase) (errcodeField s.errcode) s.dropped s.fail s.done s.busy
  exact ⟨h0, h1, h2, h3, h4, h8, h12, h13, h14, h15, by decide, rfl, rfl, by decide⟩

/-! ### Reset -/

/-- A hardware reset leaves every register but MAGIC at its reset value (R390, R62). -/
theorem regValue_hardwareReset (s : State) {r : Reg} (h : r ≠ .magic) :
    regValue (hardwareReset s) r = regValue .reset r := by
  cases r with
  | magic => exact absurd rfl h
  | _ => rfl

theorem selectedCode_reset (c : BitVec 9) : selectedCode { State.reset with codeSel := c } = CodeEntry.invalid := by
  unfold selectedCode
  split <;> rfl

theorem node_windows_reset (k : BitVec 10) : nodeInfoWord { State.reset with nodeSel := k } = 0#32 ∧
    nodeWeightWord { State.reset with nodeSel := k } = 0#32 := by
  have hge : ¬ k < 0#10 := BitVec.not_lt_zero
  exact ⟨if_neg hge, if_neg hge⟩

/-- Settles O17: the registers of the reset state, and what a hardware reset keeps. -/
theorem resetRegisterValues : Obligations.ResetRegisterValues :=
  ⟨fun s => ⟨rfl, rfl, rfl, fun _ hr => regValue_hardwareReset s hr⟩,
    rfl, rfl, rfl, rfl, rfl, rfl, rfl, rfl, rfl, rfl, rfl, rfl, node_windows_reset,
    fun c => code_windows_invalid (by rw [selectedCode_reset]; rfl), rfl, fun _ => rfl, fun _ => ⟨rfl, rfl⟩, rfl, rfl⟩

/-- Settles O59: a hardware reset's state is of the lifecycle, and reset is one. -/
theorem resetMeetsTheInvariants : Obligations.ResetMeetsTheInvariants :=
  ⟨rfl, lifecycle_hardwareReset .reset, rfl, nofun, trivial⟩

end Sys2Proof.Machine

/-! SUPPORT. The host's accesses that the core does not perform as they stand: no whole aligned word (R80, R82, I7), and
writes while BUSY = 1 (R104). -/

namespace Sys2Proof.Machine

/-! ### Refused accesses -/

theorem target_notAlignedWord {s : State} {addr size : Nat} (hlo : s.base ≤ addr) (hhi : addr < s.base + 4096)
    (h : size ≠ 4 ∨ addr % 4 ≠ 0) : target s addr size = .error .notAlignedWord := by
  unfold target
  rw [if_pos ⟨hlo, hhi⟩, if_neg (by omega)]

theorem target_outside {s : State} {addr : Nat} (size : Nat) (h : addr < s.base ∨ s.base + 4096 ≤ addr) :
    target s addr size = .error .outsideRegisterSpace := by
  unfold target
  rw [if_neg (by omega)]

/-- The register an access reaches does not depend on the host's events. -/
@[simp] theorem target_host (s : State) (h : List HostEvent) (addr size : Nat) :
    target { s with host := h } addr size = target s addr size := rfl

/-- An access that reaches no register is refused (R82). -/
theorem perform_refused {s : State} {op : HostOp} {addr size : Nat} {v : Word} {e : Refusal}
    (hop : op = .write addr size v ∨ op = .read addr size) (h : target s addr size = .error e) :
    perform op s = .refused e := by
  obtain rfl | rfl := hop <;> simp only [perform, h]

/-- Settles O15: an access that is due and that reaches no register is refused. -/
theorem onlyAlignedWordsAreAccesses : Obligations.OnlyAlignedWordsAreAccesses := by
  intro s n addr size v op rest hdue hop hh
  have hstep : step s = perform op { s with host := rest } :=
    step_of_due hh (hdue.imp_right fun hn => ⟨hn, by obtain rfl | rfl := hop <;> nofun⟩)
  refine ⟨fun hlo hhi hbad => ?_, fun hout => ?_⟩
  · rw [hstep, perform_refused hop (e := .notAlignedWord)]
    exact target_notAlignedWord hlo hhi hbad
  · rw [hstep, perform_refused hop (e := .outsideRegisterSpace)]
    exact target_outside size hout

/-! ### Writes while a command runs -/

/-- The registers whose write is dropped while BUSY = 1 (R104). -/
def dropsWhenBusy : Reg → Bool
  | .cmd | .nodeSel | .codeSel | .hist _ => true
  | _ => false

/-- The offsets of those registers (R32, R104). -/
abbrev DroppedOffset (off : Nat) : Prop := off = 0x008 ∨ off = 0x02C ∨ off = 0x038 ∨ (0x400 ≤ off ∧ off < 0x800)

theorem writeReg_of_dropsWhenBusy {r : Reg} (v : Word) {s : State} (hb : s.pos ≠ .idle)
    (h : dropsWhenBusy r = true) : writeReg r v s = .next (dropWrite s) := by
  have hbusy : s.busy = true := (busy_eq_true_iff s).mpr hb
  cases r with
  | cmd => exact (exec_eq_issue _ s).trans (issue_busy _ hb)
  | nodeSel | codeSel | hist => simp [writeReg, whenIdle, hbusy]
  | _ => cases h

theorem dropsWhenBusy_regAt {off : Nat} (h : DroppedOffset off) : dropsWhenBusy (regAt off) = true := by
  obtain rfl | rfl | rfl | h := h
  case inr.inr.inr => rw [regAt_of_le (by omega), if_pos h]; rfl
  all_goals rfl

/-- The registers left are CTRL, STATUS, and those that ignore every write. -/
theorem ignoresWrites_regAt_of_not_dropped {off : Nat} (h4 : off % 4 = 0) (hd : ¬ DroppedOffset off)
    (hc : off ≠ 0x004) (hs : off ≠ 0x00C) : ignoresWrites (regAt off) = true := by
  by_cases h : 0x060 ≤ off
  · rw [regAt_of_le h, if_neg (by omega)]
    rfl
  · have hsmall : ∀ o < 0x060, o % 4 = 0 → ¬ (DroppedOffset o ∨ o = 0x004 ∨ o = 0x00C) →
        ignoresWrites (regAt o) = true := by decide
    exact hsmall off (by omega) h4 (by tauto)

/-- Settles O7: a write that is due while a command runs is dropped, or goes to CTRL or STATUS, or is ignored. -/
theorem busyWrites : Obligations.BusyWrites := by
  intro s off v rest hb hlt h4 hh
  have hb' : State.pos { s with host := rest } ≠ .idle := hb
  rw [step_write hlt h4 (.inr rfl) hh]
  split
  · next hd => exact writeReg_of_dropsWhenBusy v hb' (dropsWhenBusy_regAt hd)
  · next hd =>
    split
    · next hc => subst hc; rfl
    · next hc =>
      split
      · next hs => subst hs; rfl
      · next hs => exact writeReg_of_ignoresWrites v _ (ignoresWrites_regAt_of_not_dropped h4 hd hc hs)

/-- What the host's writes and reads of a running core can change: CTRL.IE, the W1C bits of STATUS, the words that the
host has read, and the draw count. -/
def OnlyHostFields (s t : State) : Prop :=
  t = { s with ie := t.ie, done := t.done, fail := t.fail, dropped := t.dropped, reads := t.reads, draws := t.draws }

theorem writeReg_onlyHostFields {r : Reg} {v : Word} {s t : State} (hb : s.pos ≠ .idle)
    (h : writeReg r v s = .next t) : OnlyHostFields s t := by
  by_cases hd : dropsWhenBusy r = true
  · rw [writeReg_of_dropsWhenBusy v hb hd] at h
    cases h
    rfl
  · cases r with
    | cmd | nodeSel | codeSel | hist => exact absurd rfl hd
    | _ => cases h; rfl

theorem perform_onlyHostFields {op : HostOp} {s t : State} (hb : s.pos ≠ .idle)
    (hop : (∃ addr size v, op = .write addr size v) ∨ ∃ addr size, op = .read addr size)
    (h : perform op s = .next t) : OnlyHostFields s t := by
  obtain ⟨addr, size, v, rfl⟩ | ⟨addr, size, rfl⟩ := hop <;> simp only [perform] at h <;> split at h
  · exact writeReg_onlyHostFields hb h
  · cases h
  · cases h
    rfl
  · cases h

/-- Settles O8: the access that is due is performed, and the running command's state is none of what it changes. -/
theorem hostCannotDisturbARunningCommand : Obligations.HostCannotDisturbARunningCommand := by
  intro s t op rest hb hop hh h
  have hdue : op ≠ .waitIdle := by obtain ⟨_, _, _, rfl⟩ | ⟨_, _, rfl⟩ := hop <;> nofun
  rw [step_of_due hh (.inr ⟨rfl, hdue⟩)] at h
  exact perform_onlyHostFields (s := { s with host := rest }) hb hop h

end Sys2Proof.Machine

/-! SUPPORT. A failure that the environment of a port draws (I8), at each transaction of the pseudocode. -/

namespace Sys2Proof.Machine

/-- `s` after an input request whose environment failed, `rest` being the draws still to come (R86, R88; log 7). -/
def inputFailed (rest : List Bool) (s : State) : State :=
  { s with inp := InPort.redraw s.draws { s.inp with fails := rest }, draws := s.draws + 1 }

/-- `s` after an OutWrite whose environment failed (R89; log 7). -/
def writeFailed (rest : List Bool) (s : State) : State :=
  { s with out := OutPort.redraw s.draws { s.out with fails := rest }, draws := s.draws + 1 }

section
variable {s : State} {rest : List Bool}

/-! ### The transactions -/

theorem inRead_fails (n : Nat) (h : s.inp.fails = true :: rest) : inRead n s = (.ioErr, inputFailed rest s) := by
  simp [inRead, InPort.read_fails, h, countIn, inputFailed]

theorem inReset_fails (h : s.inp.fails = true :: rest) : inReset s = (false, inputFailed rest s) := by
  simp [inReset, InPort.rewind, h, inputFailed]

theorem outWrite_fails (n v : Nat) (h : s.out.fails = true :: rest) :
    outWrite n v s = (false, writeFailed rest s) := by
  simp [outWrite, OutPort.write_fails, h, writeFailed]

/-- A failed OutClose leaves some sink, which has used its draw (I10). -/
theorem outClose_fails (h : s.out.fails = true :: rest) :
    ∃ o d, o.fails = rest ∧ outClose s = (false, { s with out := o, draws := d }) := by
  refine ⟨(s.out.close s.draws).2.1, (s.out.close s.draws).2.2, ?_, ?_⟩
  · simp [OutPort.close, OutPort.redraw, h]
  · simp [outClose, OutPort.close_spec, h]

theorem checkWrite_fails (n v : Nat) (k : State → State) (h : s.out.fails = true :: rest) :
    checkWrite n v s k = .next (raise .portError (writeFailed rest s)) := by
  simp [checkWrite, outWrite_fails n v h]

theorem emitCode_fails (c : Nat) (k : State → State) (h : s.out.fails = true :: rest) :
    emitCode c s k = .next (raise .portError (writeFailed rest s)) := checkWrite_fails _ _ k h

/-! ### The turns -/

theorem not_waiting_of_asksInput (ha : asksInput s.pos = true) (hs : s.inp.silent = false) : waiting s = false := by
  have ho : asksOutput s = false := by
    unfold asksOutput
    cases hp : s.pos with
    | countRead | rewind | readTag | readSym | encodeRead | getMagic | decodeRead => rfl
    | _ => simp [hp, asksInput] at ha
  simp [waiting, hs, ho]

theorem not_waiting_of_not_asksInput (ha : asksInput s.pos = false) (hs : s.out.silent = false) :
    waiting s = false := by simp [waiting, ha, hs]

theorem asksInput_of_asksOutput (h : asksOutput s = true) : asksInput s.pos = false := by
  unfold asksOutput at h
  cases hp : s.pos with
  | countRead | rewind | readTag | readSym | encodeRead | getMagic | decodeRead => simp [hp] at h
  | _ => rfl

/-- R86, R88: whatever position asks the input port, a failure it draws is a PortError. -/
theorem turn_input_fails (ha : asksInput s.pos = true) (hs : s.inp.silent = false)
    (hf : s.inp.fails = true :: rest) : turn s = .next (raise .portError (inputFailed rest s)) := by
  rw [turn_of_not_waiting (not_waiting_of_asksInput ha hs), pieceAt]
  cases hp : s.pos with
  | countRead => simp only [countReadTurn, inRead_fails 8 hf]
  | rewind => simp [rewindTurn, inReset_fails hf]
  | readTag n leaves => simp only [readTagTurn, inRead_fails 1 hf]
  | readSym i n leaves => simp only [readSymTurn, inRead_fails 9 hf]
  | encodeRead => simp only [encodeReadTurn, inRead_fails 8 hf]
  | getMagic => simp only [getMagicTurn, inRead_fails 32 hf]
  | decodeRead => simp only [decodeReadTurn, inRead_fails 1 hf]
  | _ => simp [hp, asksInput] at ha

/-- A tree walk that writes stands at slots that exist (R51). -/
theorem slotExists_writeTree {f : Frame} {st : List Frame} (hp : s.pos = .writeTree) (hst : s.stack = f :: st)
    (h : slotExists s = true) : f.idx.toNat < Config.nodeCap := by
  simp only [slotExists, hp, hst, List.all_cons, Bool.and_eq_true, decide_eq_true_eq] at h
  exact h.1

/-- R89: whatever position writes to the output port, a failure it draws is a PortError. -/
theorem turn_write_fails (ha : asksOutput s = true) (hc : asksClose s.pos = false) (hx : slotExists s = true)
    (hs : s.out.silent = false) (hf : s.out.fails = true :: rest) :
    turn s = .next (raise .portError (writeFailed rest s)) := by
  rw [turn_of_not_waiting (not_waiting_of_not_asksInput (asksInput_of_asksOutput ha) hs), pieceAt]
  cases hp : s.pos with
  | writeTree =>
    cases hst : s.stack with
    | nil => simp [asksOutput, hp, hst] at ha
    | cons f st =>
      simp only [writeTreeTurn, hst]
      rw [withNode_of_lt _ (slotExists_writeTree hp hst hx)]
      split <;> exact checkWrite_fails _ _ _ hf
  | writeSym i =>
    have hlt : i.toNat < Config.nodeCap := by simpa [slotExists, hp] using hx
    exact (withNode_of_lt _ hlt).trans (checkWrite_fails _ _ _ hf)
  | putByte =>
    have hlt : s.cur.toNat < Config.nodeCap := by simpa [slotExists, hp] using hx
    exact (withNode_of_lt _ hlt).trans (checkWrite_fails _ _ _ hf)
  | emit | emitEof => exact emitCode_fails _ _ hf
  | putMagic => exact checkWrite_fails _ _ _ hf
  | close | failClose => simp [hp, asksClose] at hc
  | _ => simp [asksOutput, hp] at ha

/-- R90, R357: a failed OutClose of the checked kind is not retried. -/
theorem turn_close_fails (hp : s.pos = .close) (hs : s.out.silent = false) (hf : s.out.fails = true :: rest) :
    ∃ o d, o.fails = rest ∧ turn s = .next (failWith .portError { s with out := o, draws := d }) := by
  obtain ⟨o, d, ho, hclose⟩ := outClose_fails hf
  refine ⟨o, d, ho, ?_⟩
  rw [turn_of_not_waiting (not_waiting_of_not_asksInput (by rw [hp]; rfl) hs)]
  simp only [pieceAt, hp, closeTurn, hclose, Bool.false_eq_true, if_false]

end

/-- Settles O51: the turn at each such position raises PortError (R356, R357), or fails with it. -/
theorem portFailureIsPortError : Obligations.PortFailureIsPortError := by
  intro s rest
  refine ⟨fun ha hs hf => ?_, fun ha hc hx hs hf => ?_, fun hp hs hf => turn_close_fails hp hs hf⟩
  · exact ⟨(inputFailed rest s).inp, s.draws + 1, rfl, turn_input_fails ha hs hf⟩
  · exact ⟨(writeFailed rest s).out, s.draws + 1, rfl, rfl, turn_write_fails ha hc hx hs hf⟩

end Sys2Proof.Machine

/-! SUPPORT. Symbolic execution: the turn at each position (R31, R151), and the tree reader's run over the bits of a
tree (R127, R271). -/

namespace Sys2Proof.Machine

/-! ### Runs and turns -/

/-- A run that has reached `t` goes on from `t`. -/
theorem run_trans {m n : Nat} {s t : State} {r : Result} (h : run m s = .next t) (h' : run n t = r) :
    run (m + n) s = r := by rw [run_add, h, andThen_next, h']

/-- A run of one turn. -/
theorem run_one {s t : State} (hp : s.pos ≠ .idle) (h : turn s = .next t) : run 1 s = .next t := by
  rw [run_turn 0 hp h, run_zero]

section
variable {s : State}

theorem turn_start (hp : s.pos = .start) : turn s = startTurn s := by
  simp [turn, waiting, asksInput, asksOutput, pieceAt, hp]

theorem turn_endOf {st : Stage} (hp : s.pos = .endOf st) : turn s = endOfTurn st s := by
  simp [turn, waiting, asksInput, asksOutput, pieceAt, hp]

theorem turn_merge {n : Nat} {picks : List Idx} (hp : s.pos = .merge n picks) : turn s = mergeTurn n picks s := by
  simp [turn, waiting, asksInput, asksOutput, pieceAt, hp]

theorem turn_walk (hp : s.pos = .walk) : turn s = walkTurn s := by
  simp [turn, waiting, asksInput, asksOutput, pieceAt, hp]

theorem turn_countRead (hp : s.pos = .countRead) (hi : s.inp.silent = false) : turn s = countReadTurn s := by
  simp [turn, waiting, asksOutput, pieceAt, hp, hi]

theorem turn_rewind (hp : s.pos = .rewind) (hi : s.inp.silent = false) : turn s = rewindTurn s := by
  simp [turn, waiting, asksOutput, pieceAt, hp, hi]

theorem turn_readTag {n leaves : Nat} (hp : s.pos = .readTag n leaves) (hi : s.inp.silent = false) :
    turn s = readTagTurn n leaves s := by simp [turn, waiting, asksOutput, pieceAt, hp, hi]

theorem turn_readSym {i : Idx} {n leaves : Nat} (hp : s.pos = .readSym i n leaves) (hi : s.inp.silent = false) :
    turn s = readSymTurn i n leaves s := by simp [turn, waiting, asksOutput, pieceAt, hp, hi]

theorem turn_getMagic (hp : s.pos = .getMagic) (hi : s.inp.silent = false) : turn s = getMagicTurn s := by
  simp [turn, waiting, asksOutput, pieceAt, hp, hi]

theorem turn_decodeRead (hp : s.pos = .decodeRead) (hi : s.inp.silent = false) : turn s = decodeReadTurn s := by
  simp [turn, waiting, asksOutput, pieceAt, hp, hi]

theorem turn_putMagic (hp : s.pos = .putMagic) (ho : s.out.silent = false) : turn s = putMagicTurn s := by
  simp [turn, waiting, asksInput, pieceAt, hp, ho]

theorem turn_writeTree (hp : s.pos = .writeTree) (ho : s.out.silent = false) : turn s = writeTreeTurn s := by
  simp [turn, waiting, asksInput, pieceAt, hp, ho]

theorem turn_putByte (hp : s.pos = .putByte) (ho : s.out.silent = false) : turn s = putByteTurn s := by
  simp [turn, waiting, asksInput, pieceAt, hp, ho]

theorem turn_failClose {k : ErrKind} (hp : s.pos = .failClose k) (ho : s.out.silent = false) :
    turn s = failCloseTurn k s := by simp [turn, waiting, asksInput, pieceAt, hp, ho]

end

/-! ### Trees in preorder slots -/

theorem preorderAt_congr {m m' : Memory Node} (t : HuffTree) {n : Nat}
    (h : ∀ k, n ≤ k → k < n + t.size → Memory.get Node.blank m' k = Memory.get Node.blank m k) :
    preorderAt m' n t = preorderAt m n t := by
  induction t generalizing n with
  | leaf c => simp only [preorderAt, h n (Nat.le_refl n) (by simp [HuffTree.size])]
  | node l r ihl ihr =>
    simp only [HuffTree.size] at h
    simp only [preorderAt, h n (Nat.le_refl n) (by omega)]
    rw [ihl fun k hk hk' => h k (by omega) (by omega), ihr fun k hk hk' => h k (by omega) (by omega)]

/-- A tree in preorder slots hangs below its first slot (R273). -/
theorem holds_of_preorderAt {m : Memory Node} {t : HuffTree} {n : Nat} (hn : n + t.size ≤ Config.nodeCap)
    (h : preorderAt m n t = true) : holds m (BitVec.ofNat 10 n) t = true := by
  induction t generalizing n with
  | leaf c =>
    simp only [HuffTree.size] at hn
    simp only [preorderAt, Bool.and_eq_true] at h
    obtain ⟨⟨hleaf, hsym⟩, -⟩ := h
    rw [holds, toNat_ofNat_idx (by omega), hleaf, hsym, decide_eq_true (by omega : n < Config.nodeCap)]
    rfl
  | node l r ihl ihr =>
    simp only [HuffTree.size] at hn
    simp only [preorderAt, Bool.and_eq_true, Bool.not_eq_true', beq_iff_eq] at h
    obtain ⟨⟨⟨⟨⟨hleaf, -⟩, hl⟩, hr⟩, hpl⟩, hpr⟩ := h
    have hi : (BitVec.ofNat 10 n).toNat = n := toNat_ofNat_idx (by omega)
    have hchild {i : Idx} {k : Nat} (hk : k ≤ Config.nodeCap) (e : i.toNat = k) : i = BitVec.ofNat 10 k :=
      BitVec.eq_of_toNat_eq (by rw [e, toNat_ofNat_idx hk])
    refine holds_node (by omega) ?_ ?_ ?_ <;> rw [hi]
    · exact hleaf
    · rw [hchild (by omega) hl]
      exact ihl (by omega) hpl
    · rw [hchild (by omega) hr]
      exact ihr (by omega) hpr

/-- NODE `m` after the tree `t` was read into slots `n`, n + 1, … of NODE `m0` (R271, R273). -/
structure TreeRead (m0 m : Memory Node) (n : Nat) (t : HuffTree) : Prop where
  wf : Memory.wf Node.blank Config.nodeCap m = true
  tree : preorderAt m n t = true
  others : ∀ k, k < n ∨ n + t.size ≤ k → Memory.get Node.blank m k = Memory.get Node.blank m0 k

/-- A leaf read into slot `n`. -/
theorem TreeRead.leaf {m : Memory Node} {n : Nat} {c : Sym} {v : Node}
    (hm : Memory.wf Node.blank Config.nodeCap m = true) (hn : n < Config.nodeCap)
    (hv : v.leaf = true ∧ v.sym = c ∧ v.weight = 0#32) : TreeRead m (Memory.set Node.blank m n v) n (.leaf c) where
  wf := Memory.wf_set _ hm v hn
  tree := by
    obtain ⟨hleaf, hsym, hweight⟩ := hv
    simp [preorderAt, Memory.get_set_self _ hm, hleaf, hsym, hweight]
  others k hk := Memory.get_set_other _ _ v (by simp only [HuffTree.size] at hk; omega)

/-- The internal slot `n` written, its left subtree read, the slot written again with that link, its right subtree
read, and the slot written with both links. -/
theorem TreeRead.node {m m1 m2 : Memory Node} {n : Nat} {l r : HuffTree} {v1 v2 v : Node}
    (hn : n + (l.size + r.size + 1) ≤ Config.nodeCap) (h1 : TreeRead (Memory.set Node.blank m n v1) m1 (n + 1) l)
    (h2 : TreeRead (Memory.set Node.blank m1 n v2) m2 (n + 1 + l.size) r)
    (hv : v.leaf = false ∧ v.weight = 0#32 ∧ v.left.toNat = n + 1 ∧ v.right.toNat = n + 1 + l.size) :
    TreeRead m (Memory.set Node.blank m2 n v) n (.node l r) := by
  obtain ⟨hwf1, ht1, ho1⟩ := h1
  obtain ⟨hwf2, ht2, ho2⟩ := h2
  obtain ⟨hleaf, hweight, hleft, hright⟩ := hv
  refine ⟨Memory.wf_set _ hwf2 _ (by omega), ?_, fun k hk => ?_⟩
  · have hl : preorderAt (Memory.set Node.blank m2 n v) (n + 1) l = true := by
      rw [preorderAt_congr (m := m1) l fun k hk hk' => ?_]
      · exact ht1
      · rw [Memory.get_set_other _ _ _ (by omega), ho2 k (by omega), Memory.get_set_other _ _ _ (by omega)]
    have hr : preorderAt (Memory.set Node.blank m2 n v) (n + 1 + l.size) r = true := by
      rw [preorderAt_congr (m := m2) r fun k hk hk' => Memory.get_set_other _ _ _ (by omega)]
      exact ht2
    simp [preorderAt, hl, hr, Memory.get_set_self _ hwf2, hleaf, hweight, hleft, hright]
  · simp only [HuffTree.size] at hk
    rw [Memory.get_set_other _ _ _ (by omega), ho2 k (by omega), Memory.get_set_other _ _ _ (by omega),
      ho1 k (by omega), Memory.get_set_other _ _ _ (by omega)]

/-! ### ReadTree -/

/-- A state whose command has read `n` more bits (R38, R86). -/
def consumed (n : Nat) (s : State) : State :=
  { s with inp := advance n s.inp, inBits := s.inBits + BitVec.ofNat 32 n }

@[simp] theorem consumed_zero (s : State) : consumed 0 s = s := by simp [consumed]

theorem consumed_consumed (m n : Nat) (s : State) : consumed m (consumed n s) = consumed (n + m) s := by
  simp [consumed, advance_advance, BitVec.add_assoc, BitVec.ofNat_add]

/-- InRead of bits that are there (R86). -/
theorem inRead_consumed {s : State} {u rest : Bits} (ha : InputAnswers s.inp) (h0 : 0 < u.length)
    (hu : unread s.inp = u ++ rest) : inRead u.length s = (.val (val u), consumed u.length s) :=
  inRead_val ha rfl h0 hu

/-- InRead of one bit. -/
theorem inRead_bit {s : State} {b : Bool} {rest : Bits} (ha : InputAnswers s.inp) (hu : unread s.inp = b :: rest) :
    inRead 1 s = (.val b.toNat, consumed 1 s) := by
  rw [show b.toNat = val [b] by cases b <;> rfl]
  exact inRead_consumed (u := [b]) ha Nat.one_pos hu

theorem unread_consumed {s : State} {u rest : Bits} (h0 : 0 < u.length) (hu : unread s.inp = u ++ rest) :
    unread (consumed u.length s).inp = rest := unread_advance rfl h0 hu

section
variable {s : State} {n leaves : Nat} {rest : Bits}

/-- R271: the tag of an internal node. -/
theorem turn_readTag_node (hp : s.pos = .readTag n leaves) (ha : InputAnswers s.inp)
    (hu : unread s.inp = false :: rest) (hn : n < Config.nodeCap) :
    turn s = .next { consumed 1 s with
      node := Memory.set Node.blank s.node n { Memory.get Node.blank s.node n with leaf := false, weight := 0#32 }
      stack := { idx := BitVec.ofNat 10 n, path := [], leftDone := false } :: s.stack
      pos := .readTag (n + 1) leaves } := by
  rw [turn_readTag hp ha.1, readTagTurn, inRead_bit ha hu]
  simp only [tagRead, if_neg (Nat.ne_of_lt hn), State.setNode, State.nodeAt, toNat_ofNat_idx hn.le]
  rfl

/-- R271: the tag of a leaf. -/
theorem turn_readTag_leaf (hp : s.pos = .readTag n leaves) (ha : InputAnswers s.inp)
    (hu : unread s.inp = true :: rest) (hn : n < Config.nodeCap) :
    turn s = .next { consumed 1 s with pos := .readSym (BitVec.ofNat 10 n) (n + 1) leaves } := by
  rw [turn_readTag hp ha.1, readTagTurn, inRead_bit ha hu]
  simp only [tagRead, if_neg (Nat.ne_of_lt hn)]
  rfl

/-- R271: the Symbol of a leaf. -/
theorem turn_readSym_bits {k : Nat} {c : Sym} (hp : s.pos = .readSym (BitVec.ofNat 10 k) n leaves)
    (ha : InputAnswers s.inp) (hu : unread s.inp = bin 9 c.toNat ++ rest) (hk : k ≤ Config.nodeCap) :
    turn s = .next (returnNode n (leaves + 1) s.stack (BitVec.ofNat 10 k) { consumed 9 s with
      node := Memory.set Node.blank s.node k
        { Memory.get Node.blank s.node k with leaf := true, sym := c, weight := 0#32 } }) := by
  have hread := inRead_consumed (u := bin 9 c.toNat) ha (by simp) hu
  rw [bin_length, val_bin, Nat.mod_eq_of_lt c.isLt] at hread
  rw [turn_readSym hp ha.1, readSymTurn, hread]
  simp only [BitVec.ofNat_toNat, BitVec.setWidth_eq, State.setNode, State.nodeAt, toNat_ofNat_idx hk]
  rfl

/-- R271: a caller at slot `k` that waits for its left child takes it. -/
theorem returnNode_left {k : Nat} {st : List Frame} (i : Idx) (hk : k ≤ Config.nodeCap) :
    returnNode n leaves ({ idx := BitVec.ofNat 10 k, path := [], leftDone := false } :: st) i s = { s with
      node := Memory.set Node.blank s.node k { Memory.get Node.blank s.node k with left := i }
      stack := { idx := BitVec.ofNat 10 k, path := [], leftDone := true } :: st
      pos := .readTag n leaves } := by
  rw [returnNode_of_left _ _ _ _ _ rfl]
  simp only [State.setNode, State.nodeAt, toNat_ofNat_idx hk]

/-- R271: a caller at slot `k` that waits for its right child takes it, and returns. -/
theorem returnNode_right {k : Nat} {st : List Frame} (i : Idx) (hk : k ≤ Config.nodeCap) :
    returnNode n leaves ({ idx := BitVec.ofNat 10 k, path := [], leftDone := true } :: st) i s =
      returnNode n leaves st (BitVec.ofNat 10 k) { s with
        node := Memory.set Node.blank s.node k { Memory.get Node.blank s.node k with right := i } } := by
  rw [returnNode_of_right _ _ _ _ _ rfl]
  simp only [State.setNode, State.nodeAt, toNat_ofNat_idx hk]

end

theorem HuffTree.bits_length_pos (t : HuffTree) : 0 < t.bits.length := by cases t <;> simp [HuffTree.bits]

/-- R271: over the bits of a tree, `ReadNode` fills the next slots with it in preorder and returns the first. -/
theorem run_readTree (t : HuffTree) {s : State} {n leaves : Nat} {rest : Bits} (hp : s.pos = .readTag n leaves)
    (hm : Memory.wf Node.blank Config.nodeCap s.node = true) (ha : InputAnswers s.inp)
    (hu : unread s.inp = t.bits ++ rest) (hn : n + t.size ≤ Config.nodeCap) :
    ∃ m p st, TreeRead s.node m n t ∧ run (t.size + t.leaves) s = .next
      (returnNode (n + t.size) (leaves + t.leaves) s.stack (BitVec.ofNat 10 n)
        { consumed t.bits.length s with node := m, pos := p, stack := st }) := by
  have hbusy : s.pos ≠ .idle := by rw [hp]; nofun
  induction t generalizing s n leaves rest with
  | leaf c =>
    have hlt : n < Config.nodeCap := by simpa [HuffTree.size] using hn
    simp only [HuffTree.bits, List.cons_append] at hu
    have h1 := turn_readTag_leaf hp ha hu hlt
    have h2 := turn_readSym_bits (s := { consumed 1 s with pos := .readSym (BitVec.ofNat 10 n) (n + 1) leaves })
      (c := c) (rest := rest) rfl ha (unread_consumed (u := [true]) Nat.one_pos hu) hlt.le
    refine ⟨_, .readSym (BitVec.ofNat 10 n) (n + 1) leaves, s.stack, .leaf hm hlt
      (v := { Memory.get Node.blank s.node n with leaf := true, sym := c, weight := 0#32 }) ⟨rfl, rfl, rfl⟩, ?_⟩
    rw [HuffTree.bits, List.length_cons, bin_length, Nat.add_comm 9 1, ← consumed_consumed]
    exact run_trans (run_one hbusy h1) (run_one nofun h2)
  | node l r ihl ihr =>
    simp only [HuffTree.size] at hn
    simp only [HuffTree.bits, List.cons_append, List.append_assoc] at hu
    have hu1 := unread_consumed (s := s) (u := [false]) Nat.one_pos hu
    have hu2 := unread_consumed (s := consumed 1 s) (u := l.bits) l.bits_length_pos hu1
    have h0 := turn_readTag_node hp ha hu (by omega)
    obtain ⟨m1, p1, st1, h1, hr1⟩ := ihl (s := { consumed 1 s with
      node := Memory.set Node.blank s.node n { Memory.get Node.blank s.node n with leaf := false, weight := 0#32 }
      stack := { idx := BitVec.ofNat 10 n, path := [], leftDone := false } :: s.stack
      pos := .readTag (n + 1) leaves }) rfl (Memory.wf_set _ hm _ (by omega)) ha hu1 (by omega) nofun
    rw [returnNode_left _ (by omega)] at hr1
    obtain ⟨m2, p2, st2, h2, hr2⟩ := ihr (s := { consumed l.bits.length (consumed 1 s) with
      node := Memory.set Node.blank m1 n { Memory.get Node.blank m1 n with left := BitVec.ofNat 10 (n + 1) }
      stack := { idx := BitVec.ofNat 10 n, path := [], leftDone := true } :: s.stack
      pos := .readTag (n + 1 + l.size) (leaves + l.leaves) }) rfl (Memory.wf_set _ h1.wf _ (by omega)) ha hu2
      (by omega) nofun
    rw [returnNode_right _ (by omega)] at hr2
    have hcell : Memory.get Node.blank m2 n = { Memory.get Node.blank s.node n with
        leaf := false, weight := 0#32, left := BitVec.ofNat 10 (n + 1) } := by
      rw [h2.others n (by omega), Memory.get_set_self _ h1.wf, h1.others n (by omega), Memory.get_set_self _ hm]
    refine ⟨_, p2, st2, .node hn h1 h2
      (v := { Memory.get Node.blank m2 n with right := BitVec.ofNat 10 (n + 1 + l.size) }) ?_, ?_⟩
    · rw [hcell]
      exact ⟨rfl, rfl, toNat_ofNat_idx (by omega), toNat_ofNat_idx (by omega)⟩
    · have hturns : (HuffTree.node l r).size + (HuffTree.node l r).leaves =
          1 + (l.size + l.leaves + (r.size + r.leaves)) := by simp only [HuffTree.size, HuffTree.leaves]; omega
      have hslots : n + (HuffTree.node l r).size = n + 1 + l.size + r.size := by simp only [HuffTree.size]; omega
      have hbits : (HuffTree.node l r).bits.length = 1 + l.bits.length + r.bits.length := by
        simp only [HuffTree.bits, List.length_cons, List.length_append]; omega
      rw [hturns, hslots, hbits, HuffTree.leaves, ← Nat.add_assoc leaves, ← consumed_consumed, ← consumed_consumed]
      exact run_trans (run_one hbusy h0) (run_trans hr1 hr2)

end Sys2Proof.Machine

/-! SUPPORT. DECODE's run (R320): over MAGIC and the bits of a tree, and from leaf to leaf of that tree. -/

namespace Sys2Proof.Machine

/-! ### Trees and paths -/

theorem holds_leaf_iff {m : Memory Node} {i : Idx} {c : Sym} : holds m i (.leaf c) = true ↔
    i.toNat < Config.nodeCap ∧ (Memory.get Node.blank m i.toNat).leaf = true ∧
      (Memory.get Node.blank m i.toNat).sym = c := by simp [holds, and_assoc]

theorem holds_node_iff {m : Memory Node} {i : Idx} {l r : HuffTree} : holds m i (.node l r) = true ↔
    i.toNat < Config.nodeCap ∧ (Memory.get Node.blank m i.toNat).leaf = false ∧
      holds m (Memory.get Node.blank m i.toNat).left l = true ∧
      holds m (Memory.get Node.blank m i.toNat).right r = true := by simp [holds, and_assoc]

theorem holds_lt {m : Memory Node} {i : Idx} {t : HuffTree} (h : holds m i t = true) : i.toNat < Config.nodeCap := by
  cases t with
  | leaf c => exact (holds_leaf_iff.mp h).1
  | node l r => exact (holds_node_iff.mp h).1

/-- The paths after `q` are the paths from the root, `q` in front. -/
theorem paths_eq_map (t : HuffTree) (q : Bits) : t.paths q = (t.paths []).map fun e => (e.1, q ++ e.2) := by
  induction t generalizing q with
  | leaf c => simp [HuffTree.paths]
  | node l r ihl ihr =>
    simp only [HuffTree.paths, List.nil_append]
    rw [ihl (q ++ [false]), ihl [false], ihr (q ++ [true]), ihr [true]]
    simp [Function.comp_def]

/-- The subtree that a bit selects (R240, R320). -/
def subtree (b : Bool) (l r : HuffTree) : HuffTree := if b then r else l

/-- A path of an internal node is a bit and a path of the subtree it selects (R240). -/
theorem mem_paths_node {l r : HuffTree} {c : Sym} {p : Bits} (h : (c, p) ∈ (HuffTree.node l r).paths []) :
    ∃ b q, p = b :: q ∧ (c, q) ∈ (subtree b l r).paths [] := by
  rw [HuffTree.paths, List.mem_append, paths_eq_map l, paths_eq_map r] at h
  simp only [List.nil_append, List.mem_map, Prod.mk.injEq, Prod.exists] at h
  obtain ⟨d, q, hq, rfl, rfl⟩ | ⟨d, q, hq, rfl, rfl⟩ := h
  · exact ⟨false, q, rfl, hq⟩
  · exact ⟨true, q, rfl, hq⟩

theorem mem_paths_leaf {d c : Sym} {p : Bits} (h : (c, p) ∈ (HuffTree.leaf d).paths []) : c = d ∧ p = [] := by
  simpa [HuffTree.paths] using h

/-- A path is shorter than the tree has leaves. -/
theorem path_length_lt {t : HuffTree} {c : Sym} {p : Bits} (h : (c, p) ∈ t.paths []) : p.length < t.leaves := by
  have hpos : ∀ u : HuffTree, 0 < u.leaves := fun u => by have := u.size_add_one; omega
  induction t generalizing p with
  | leaf d =>
    obtain ⟨-, rfl⟩ := mem_paths_leaf h
    exact hpos _
  | node l r ihl ihr =>
    have hl := hpos l
    have hr := hpos r
    obtain ⟨b, q, rfl, hq⟩ := mem_paths_node h
    simp only [HuffTree.leaves, List.length_cons]
    cases b with
    | false =>
      have := ihl hq
      omega
    | true =>
      have := ihr hq
      omega

/-- A tree whose leaf has a path of at least one bit, or of at least two leaves, is an internal node. -/
theorem HuffTree.exists_node {t : HuffTree} (h : 1 < t.leaves) : ∃ l r, t = .node l r := by
  cases t with
  | leaf c => exact absurd h (by simp [HuffTree.leaves])
  | node l r => exact ⟨l, r, rfl⟩

/-- The slot that a bit selects in an internal node holds the subtree that it selects (R320). -/
theorem holds_subtree {m : Memory Node} {i : Idx} {l r : HuffTree} (b : Bool) (h : holds m i (.node l r) = true) :
    holds m (if b then (Memory.get Node.blank m i.toNat).right else (Memory.get Node.blank m i.toNat).left)
      (subtree b l r) = true := by
  obtain ⟨-, -, hl, hr⟩ := holds_node_iff.mp h
  cases b with
  | false => exact hl
  | true => exact hr

/-! ### The header -/

/-- The first turn of an accepted command that is ready (R151, R153). -/
theorem turn_accept {i : Instr} {s : State} (hi : decode (encode i) = i) (hr : ready i s = true) :
    turn (accept (encode i) s) = .next (beginCommand i (accept (encode i) s)) := by
  have hready : ready i (accept (encode i) s) = ready i s := by cases i <;> rfl
  rw [turn_start rfl, startTurn, running_accept, hi, hready, if_pos hr]

/-- R320, R321: MAGIC is read, and the tree comes next. -/
theorem turn_getMagic_ok {s : State} {rest : Bits} (hp : s.pos = .getMagic) (ha : InputAnswers s.inp)
    (hu : unread s.inp = bin 32 s.par.magic.toNat ++ rest) : turn s = .next (beginReadTree (consumed 32 s)) := by
  have hread := inRead_consumed (u := bin 32 s.par.magic.toNat) ha (by simp) hu
  rw [bin_length, val_bin, Nat.mod_eq_of_lt s.par.magic.isLt] at hread
  rw [turn_getMagic hp ha.1, getMagicTurn, hread]
  simp only [if_true]

/-- DECODE after its header: the tree `t` stands in NODE, and no bit of the body is read. -/
def headerRead (m : Memory Node) (t : HuffTree) (s : State) : State :=
  { consumed (32 + t.bits.length) (accept (encode .decode) s) with
    phase := .traversingHeader, node := m, root := 0#10, nnodes := BitVec.ofNat 10 t.size
    nleaves := BitVec.ofNat 9 t.leaves, treeValid := true, codesValid := false, stack := [], pos := .endOf .readTree }

/-- R320: steps 1 and 2 of DECODE. -/
theorem run_decode_header {s : State} {t : HuffTree} {rest : Bits}
    (hm : Memory.wf Node.blank Config.nodeCap s.node = true) (ha : InputAnswers s.inp) (ht : t.leaves ≤ 257)
    (hu : unread s.inp = bin 32 s.par.magic.toNat ++ t.bits ++ rest) :
    ∃ m, TreeRead s.node m 0 t ∧
      run (2 + (t.size + t.leaves)) (accept (encode .decode) s) = .next (headerRead m t s) := by
  rw [List.append_assoc] at hu
  have hsize : t.size ≤ Config.nodeCap := by
    have := t.size_add_one
    unfold Config.nodeCap
    omega
  have hu' : unread (consumed 32 s).inp = t.bits ++ rest := by
    rw [← bin_length 32 s.par.magic.toNat]
    exact unread_consumed (by simp) hu
  have h1 := run_one (by nofun) (turn_accept (s := s) decode_encode_decode rfl)
  have h2 := run_one (by nofun) (turn_getMagic_ok (s := beginDecode (accept (encode .decode) s)) rfl ha hu)
  obtain ⟨m, p, st, hread, hrun⟩ := run_readTree t
    (s := beginReadTree (consumed 32 (beginDecode (accept (encode .decode) s)))) rfl hm ha hu' (by omega)
  refine ⟨m, hread, (run_trans (run_trans h1 h2) hrun).trans ?_⟩
  rw [headerRead, ← consumed_consumed, Nat.zero_add, Nat.zero_add]
  rfl

/-! ### The body -/

/-- Where DECODE goes on once its cursor stands at a tree other than an EOF_SYM leaf (R320). -/
def bodyPos : HuffTree → Pos
  | .leaf _ => .putByte
  | .node _ _ => .decodeRead

section
variable {s : State}

/-- R320, R326: a tree of two or more leaves is walked from its root. -/
theorem turn_beginWalkBody {l r : HuffTree} (hp : s.pos = .endOf .readTree) (hr : running s = .decode)
    (hh : holds s.node s.root (.node l r) = true) :
    turn s = .next { s with phase := .traversingBody, cur := s.root, pos := .decodeRead } := by
  obtain ⟨hlt, hleaf, -, -⟩ := holds_node_iff.mp hh
  rw [turn_endOf hp, endOfTurn, if_pos hr, beginWalkBody]
  dsimp only
  rw [withNode_of_lt _ hlt, State.nodeAt, hleaf]
  rfl

theorem arriveAt_of_not_eof {t : HuffTree} {i : Idx} (hh : holds s.node i t = true) (ht : t ≠ .leaf Config.eofSym) :
    arriveAt i s = .next { s with cur := i, pos := bodyPos t } := by
  unfold arriveAt
  dsimp only
  rw [withNode_of_lt _ (holds_lt hh)]
  cases t with
  | leaf c =>
    obtain ⟨-, hleaf, hsym⟩ := holds_leaf_iff.mp hh
    have hc : c ≠ Config.eofSym := fun e => ht (e ▸ rfl)
    simp only [State.nodeAt, hleaf, hsym, hc, if_true, if_false]
    rfl
  | node l r =>
    obtain ⟨-, hleaf, -, -⟩ := holds_node_iff.mp hh
    simp only [State.nodeAt, hleaf, Bool.false_eq_true, if_false]
    rfl

/-- R320: a bit moves the cursor to the subtree it selects. -/
theorem turn_decodeRead_val {l r : HuffTree} {v : Nat} (hp : s.pos = .decodeRead) (hi : s.inp.silent = false)
    (hh : holds s.node s.cur (.node l r) = true) (hv : inRead 1 s = (.val v, consumed 1 s))
    (ht : subtree (v != 0) l r ≠ .leaf Config.eofSym) :
    ∃ i, holds s.node i (subtree (v != 0) l r) = true ∧
      turn s = .next { consumed 1 s with cur := i, pos := bodyPos (subtree (v != 0) l r) } := by
  have hsub := holds_subtree (v != 0) hh
  refine ⟨_, hsub, ?_⟩
  rw [turn_decodeRead hp hi, decodeReadTurn, hv]
  dsimp only
  rw [withNode_of_lt _ (holds_lt hh), ← arriveAt_of_not_eof (s := consumed 1 s) hsub ht]
  congr 1
  by_cases h0 : v = 0 <;> simp [h0, State.nodeAt]

end

/-- R320, R323: the bits of the path of a leaf other than EOF_SYM move the cursor to a leaf of that Symbol. -/
theorem run_decode_path {t : HuffTree} {s : State} {c : Sym} {p rest : Bits} (hp : s.pos = bodyPos t)
    (ha : InputAnswers s.inp) (hh : holds s.node s.cur t = true) (hmem : (c, p) ∈ t.paths [])
    (hc : c ≠ Config.eofSym) (hu : unread s.inp = p ++ rest) :
    ∃ i, holds s.node i (.leaf c) = true ∧
      run p.length s = .next { consumed p.length s with cur := i, pos := .putByte } := by
  induction t generalizing s p with
  | leaf d =>
    obtain ⟨rfl, rfl⟩ := mem_paths_leaf hmem
    refine ⟨s.cur, hh, ?_⟩
    rw [List.length_nil, run_zero, consumed_zero, ← show s.pos = .putByte from hp]
  | node l r ihl ihr =>
    obtain ⟨b, q, rfl, hq⟩ := mem_paths_node hmem
    have ht : subtree b l r ≠ .leaf Config.eofSym := by
      intro he
      rw [he] at hq
      exact hc (mem_paths_leaf hq).1
    have ih : ∀ {u : State}, u.pos = bodyPos (subtree b l r) → InputAnswers u.inp →
        holds u.node u.cur (subtree b l r) = true → unread u.inp = q ++ rest →
        ∃ i, holds u.node i (.leaf c) = true ∧
          run q.length u = .next { consumed q.length u with cur := i, pos := .putByte } := by
      intro u hpu hau hhu huu
      cases b with
      | false => exact ihl hpu hau hhu hq huu
      | true => exact ihr hpu hau hhu hq huu
    have hb : (b.toNat != 0) = b := by cases b <;> rfl
    obtain ⟨i, hi, hturn⟩ := turn_decodeRead_val hp ha.1 hh (inRead_bit ha hu) (by rwa [hb])
    rw [hb] at hi hturn
    obtain ⟨j, hj, hrun⟩ := ih (u := { consumed 1 s with cur := i, pos := bodyPos (subtree b l r) }) rfl ha hi
      (unread_consumed (u := [b]) Nat.one_pos hu)
    refine ⟨j, hj, ?_⟩
    rw [List.length_cons, Nat.add_comm, ← consumed_consumed]
    exact run_trans (run_one (by rw [hp]; nofun) hturn) hrun

end Sys2Proof.Machine

/-! SUPPORT. Commands that never end (R93, R325, I9): at a port that does not answer, and DECODE on an endless input
with a tree of no EOF_SYM leaf. -/

namespace Sys2Proof.Machine

/-! ### A port that does not answer -/

theorem run_of_waiting (n : Nat) {s : State} (h : waiting s = true) : run n s = .next s := by
  induction n with
  | zero => rfl
  | succ n ih =>
    by_cases hp : s.pos = .idle
    · exact run_idle _ hp
    · rw [run_turn n hp (turn_of_waiting h), ih]

theorem step_of_waiting {s : State} (hp : s.pos ≠ .idle) (hh : s.host = []) (h : waiting s = true) :
    step s = .next s := by
  have hbusy : s.busy = true := (busy_eq_true_iff s).mpr hp
  rw [step, hostStep, hh]
  simp only [hbusy, if_true]
  rw [resume, spend_of_undisturbed (by rw [hh]; rfl), run_of_waiting _ h]

/-! ### An endless input -/

/-- What turns keep and never end, a run keeps, however long it is. -/
theorem run_total {P : State → Prop} (hbusy : ∀ s, P s → s.pos ≠ .idle)
    (hturn : ∀ s, P s → ∃ u, turn s = .next u ∧ P u) (n : Nat) {s : State} (hs : P s) :
    ∃ u, run n s = .next u ∧ P u := by
  induction n generalizing s with
  | zero => exact ⟨s, rfl, hs⟩
  | succ n ih =>
    obtain ⟨u, hu, hpu⟩ := hturn s hs
    obtain ⟨v, hv, hpv⟩ := ih hpu
    exact ⟨v, by rw [run_turn n (hbusy s hs) hu, hv], hpv⟩

/-- A command that still runs after more turns was running after fewer. -/
theorem busy_of_run_add {m n : Nat} {s u : State} (h : run (m + n) s = .next u) (hu : u.pos ≠ .idle) :
    ∃ v, run m s = .next v ∧ v.pos ≠ .idle := by
  rw [run_add, andThen_eq_next] at h
  obtain ⟨v, hv, hvu⟩ := h
  refine ⟨v, hv, fun hp => hu ?_⟩
  rw [run_idle n hp] at hvu
  cases hvu
  exact hp

/-- DECODE in the body of a stream whose tree is `t`, its input endless, its cursor at no EOF_SYM leaf. -/
structure DecodingForever (t : HuffTree) (s : State) : Prop where
  input : InputAnswers s.inp ∧ s.inp.eof = false ∧ s.inp.endless.isSome = true
  output : SinkOpen s.out
  tree : holds s.node s.root t = true
  cursor : ∃ u, holds s.node s.cur u = true ∧ 256#9 ∉ u.syms ∧ s.pos = bodyPos u

theorem bodyPos_ne_idle (t : HuffTree) : bodyPos t ≠ .idle := by cases t <;> nofun

theorem not_eofLeaf_of_notMem_syms {t : HuffTree} (h : 256#9 ∉ t.syms) : t ≠ .leaf Config.eofSym := by
  rintro rfl
  exact h (by simp [HuffTree.syms, Config.eofSym])

theorem notMem_syms_subtree {l r : HuffTree} (b : Bool) (h : 256#9 ∉ (HuffTree.node l r).syms) :
    256#9 ∉ (subtree b l r).syms := by
  rw [HuffTree.syms, List.mem_append, not_or] at h
  cases b with
  | false => exact h.1
  | true => exact h.2

/-- R320, R324: a byte is written, and the cursor is back at the root. -/
theorem turn_putByte_open {s : State} {c : Sym} (hp : s.pos = .putByte) (ho : SinkOpen s.out)
    (hh : holds s.node s.cur (.leaf c) = true) : turn s = .next { s with
      out := { s.out with bits := s.out.bits ++ bin 8 c.toNat }, outBits := s.outBits + 8#32
      syms := s.syms + 1#32, cur := s.root, pos := .decodeRead } := by
  obtain ⟨hlt, -, hsym⟩ := holds_leaf_iff.mp hh
  rw [turn_putByte hp ho.1.1, putByteTurn, withNode_of_lt _ hlt, State.nodeAt, hsym, checkWrite_open _ _ _ ho]
  rfl

theorem inRead_endless {s : State} (n : Nat)
    (h : InputAnswers s.inp ∧ s.inp.eof = false ∧ s.inp.endless.isSome = true) :
    ∃ v, inRead n s = (.val v, consumed n s) := by
  obtain ⟨ha, heof, hsome⟩ := h
  obtain ⟨e, he⟩ := Option.isSome_iff_exists.mp hsome
  obtain ⟨u, -, hu⟩ := InPort.read_endless (n := n) s.draws ha heof he
  exact ⟨val u, by simp [inRead, hu, countIn, consumed]⟩

theorem turn_keeps_decodingForever {t : HuffTree} (hleaves : 1 < t.leaves) (hsyms : 256#9 ∉ t.syms) {s : State}
    (h : DecodingForever t s) : ∃ u, turn s = .next u ∧ DecodingForever t u := by
  obtain ⟨hin, hout, htree, u, hu, hus, hp⟩ := h
  cases u with
  | leaf c =>
    obtain ⟨l, r, rfl⟩ := t.exists_node hleaves
    exact ⟨_, turn_putByte_open hp hout hu, hin, hout, htree, .node l r, htree, hsyms, rfl⟩
  | node l r =>
    have hsub := fun b => notMem_syms_subtree b hus
    obtain ⟨v, hv⟩ := inRead_endless 1 hin
    obtain ⟨i, hi, hturn⟩ := turn_decodeRead_val hp hin.1.1 hu hv (not_eofLeaf_of_notMem_syms (hsub _))
    exact ⟨_, hturn, hin, hout, htree, _, hi, hsub _, rfl⟩

/-- R325: the body of a stream whose tree has two or more leaves, none of EOF_SYM, on an endless input. -/
theorem decodingForever_of_header {s : State} {t : HuffTree} {rest : Bits} (hform : MemoryForm s)
    (hin : InputAnswers s.inp ∧ s.inp.eof = false ∧ s.inp.endless.isSome = true) (hout : SinkOpen s.out)
    (ht : t.leaves ≤ 257) (hleaves : 1 < t.leaves) (hsyms : 256#9 ∉ t.syms)
    (hu : unread s.inp = bin 32 s.par.magic.toNat ++ t.bits ++ rest) :
    ∃ k u, run k (accept (encode .decode) s) = .next u ∧ DecodingForever t u := by
  obtain ⟨-, hm, -, -⟩ := memoryForm_iff.mp hform
  obtain ⟨m, hread, hrun⟩ := run_decode_header hm hin.1 ht hu
  have hsize := t.size_add_one
  have hholds : holds m 0#10 t = true := holds_of_preorderAt (by unfold Config.nodeCap; omega) hread.tree
  obtain ⟨l, r, rfl⟩ := t.exists_node hleaves
  have hbody := run_one (by nofun)
    (turn_beginWalkBody (s := headerRead m (.node l r) s) rfl decode_encode_decode hholds)
  exact ⟨_, _, run_trans hrun hbody, hin, hout, hholds, .node l r, hholds, hsyms, rfl⟩

/-- Settles O55: a waiting turn changes nothing, and DECODE's body on an endless input goes on from turn to turn. -/
theorem unservedCommandsNeverEnd : Obligations.UnservedCommandsNeverEnd := by
  refine ⟨fun s hp hh h => step_of_waiting hp hh h, ?_⟩
  intro s t rest _ hform ha hend heof hout ht hleaves hsyms hu n
  obtain ⟨k, u, hrun, hforever⟩ := decodingForever_of_header hform ⟨ha, heof, hend⟩ hout ht hleaves hsyms hu
  have hbusy : ∀ v, DecodingForever t v → v.pos ≠ .idle := by
    rintro v ⟨-, -, -, w, -, -, hp⟩
    rw [hp]
    exact bodyPos_ne_idle w
  obtain ⟨v, hv, hpv⟩ := run_total hbusy (fun _ h => turn_keeps_decodingForever hleaves hsyms h) n hforever
  exact busy_of_run_add (Nat.add_comm k n ▸ run_trans hrun hv) (hbusy v hpv)

end Sys2Proof.Machine

/-! SUPPORT. Commands that write to a closed sink (R89, R403): SERIALIZE, ENCODE and DECODE fail at their first
write. -/

namespace Sys2Proof.Machine

/-- A command from rest that nothing disturbs, and that ends within its turns. -/
theorem exec_of_run {i : Instr} {s t : State} {n : Nat} (hq : Quiet s) (h : run n (accept (encode i) s) = .next t)
    (ht : t.pos = .idle) (hn : n ≤ turnsToEnd s) : exec i s = .next t := by
  rw [exec_eq_issue, issue_quiet _ hq]
  exact run_of_rest h ht hn

section
variable {s : State}

/-- R356, R358: the failure epilogue's close of a closed sink. -/
theorem run_raise_closed (k : ErrKind) (hc : closesOutput (running s) = true) (ho : OutputAnswers s.out)
    (hcl : s.out.closed = true) : run 1 (raise k s) = .next (failWith k s) := by
  rw [raise_of_closes k hc]
  refine run_one nofun ?_
  rw [turn_failClose (s := { s with phase := .closing, pos := .failClose k }) rfl ho.1, failCloseTurn,
    outClose_closed (s := { s with phase := .closing, pos := .failClose k }) ho hcl]
  rfl

/-- R290, R403: an encoding fails at its magic number. -/
theorem run_putMagic_closed (hp : s.pos = .putMagic) (hc : closesOutput (running s) = true)
    (ho : OutputAnswers s.out) (hcl : s.out.closed = true) : run 2 s = .next (failWith .portError s) := by
  have hturn : turn s = .next (raise .portError s) := by
    rw [turn_putMagic hp ho.1]
    exact checkWrite_closed _ _ _ ho hcl
  exact run_trans (run_one (by rw [hp]; nofun) hturn) (run_raise_closed .portError hc ho hcl)

/-- R320, R403: DECODE fails at its first byte. -/
theorem run_putByte_closed {c : Sym} (hp : s.pos = .putByte) (hh : holds s.node s.cur (.leaf c) = true)
    (hc : closesOutput (running s) = true) (ho : OutputAnswers s.out) (hcl : s.out.closed = true) :
    run 2 s = .next (failWith .portError s) := by
  have hturn : turn s = .next (raise .portError s) := by
    rw [turn_putByte hp ho.1, putByteTurn, withNode_of_lt _ (holds_lt hh)]
    exact checkWrite_closed _ _ _ ho hcl
  exact run_trans (run_one (by rw [hp]; nofun) hturn) (run_raise_closed .portError hc ho hcl)

/-- R260, R403: `WriteTree` fails at its first tag, whichever it is. -/
theorem turn_writeTree_closed {f : Frame} {st : List Frame} (hp : s.pos = .writeTree) (hst : s.stack = f :: st)
    (hf : f.idx.toNat < Config.nodeCap) (ho : OutputAnswers s.out) (hcl : s.out.closed = true) :
    turn s = .next (raise .portError s) := by
  rw [turn_writeTree hp ho.1, writeTreeTurn, hst]
  dsimp only
  rw [withNode_of_lt _ hf]
  split <;> exact checkWrite_closed _ _ _ ho hcl

theorem serialize_closed (hq : Quiet s) (ho : OutputAnswers s.out) (hcl : s.out.closed = true)
    (ht : s.treeValid = true) (hroot : s.root.toNat < Config.nodeCap) :
    exec .serialize s = .next (failed .serialize .portError s) := by
  have h1 := run_one (by nofun) (turn_accept (s := s) decode_encode_serialize ht)
  have h2 := run_one (by nofun)
    (turn_writeTree_closed (s := beginWriteTree (accept (encode .serialize) s)) rfl rfl hroot ho hcl)
  rw [raise_of_not_closes (s := beginWriteTree (accept (encode .serialize) s)) _
    (congrArg closesOutput decode_encode_serialize)] at h2
  exact exec_of_run hq (run_trans h1 h2) rfl (by unfold turnsToEnd; omega)

theorem encode_closed (hq : Quiet s) (ho : OutputAnswers s.out) (hcl : s.out.closed = true)
    (ht : s.treeValid = true) (hc : s.codesValid = true) :
    exec .encode s = .next (failed .encode .portError s) := by
  have h1 := run_one (by nofun) (turn_accept (s := s) decode_encode_encode (by simp [ready, ht, hc]))
  have h2 := run_putMagic_closed (s := beginEncode (accept (encode .encode) s)) rfl
    (congrArg closesOutput decode_encode_encode) ho hcl
  exact exec_of_run hq (run_trans h1 h2) rfl (by unfold turnsToEnd; omega)

/-- DECODE after its header and `n` bits of its body. -/
theorem consumed_headerRead (n : Nat) (m : Memory Node) (t : HuffTree) (s : State) :
    consumed n (headerRead m t s) = { headerRead m t s with
      inp := advance (32 + t.bits.length + n) s.inp, inBits := BitVec.ofNat 32 (32 + t.bits.length + n) } := by
  simp [headerRead, consumed, advance_advance, BitVec.ofNat_add]

/-- R320, R403: DECODE of a stream whose first code is that of a byte. -/
theorem decode_closed {t : HuffTree} {c : Sym} {p rest : Bits} (hq : Quiet s) (hform : MemoryForm s)
    (ha : InputAnswers s.inp) (ho : OutputAnswers s.out) (hcl : s.out.closed = true) (ht : t.leaves ≤ 257)
    (hmem : (c, p) ∈ t.paths []) (hc : c ≠ 256#9) (hp : p ≠ [])
    (hu : unread s.inp = bin 32 s.par.magic.toNat ++ t.bits ++ p ++ rest) :
    ∃ m cur, exec .decode s = .next { failed .decode .portError s with
        node := m, root := 0#10, nnodes := BitVec.ofNat 10 (2 * t.leaves - 1), nleaves := BitVec.ofNat 9 t.leaves
        treeValid := true, codesValid := false, cur := cur
        inBits := BitVec.ofNat 32 (bin 32 s.par.magic.toNat ++ t.bits ++ p).length
        inp := advance (bin 32 s.par.magic.toNat ++ t.bits ++ p).length s.inp } ∧
      holds m 0#10 t = true := by
  obtain ⟨-, hm, -, -⟩ := memoryForm_iff.mp hform
  have hsize := t.size_add_one
  have hpath := path_length_lt hmem
  have hplen := List.length_pos_iff.mpr hp
  obtain ⟨l, r, hnode⟩ := t.exists_node (by omega)
  obtain ⟨m, hread, hheader⟩ := run_decode_header (rest := p ++ rest) hm ha ht (by rw [hu, List.append_assoc])
  have hholds : holds m 0#10 t = true := holds_of_preorderAt (by unfold Config.nodeCap; omega) hread.tree
  have hbody := run_one (by nofun)
    (turn_beginWalkBody (s := headerRead m t s) (l := l) (r := r) rfl decode_encode_decode (hnode ▸ hholds))
  have hrest : unread (headerRead m t s).inp = p ++ rest := by
    rw [List.append_assoc _ p] at hu
    simpa [headerRead, consumed] using unread_consumed (s := s) (by simp) hu
  obtain ⟨i, hi, hwalk⟩ := run_decode_path (t := t)
    (s := { headerRead m t s with phase := .traversingBody, cur := 0#10, pos := .decodeRead }) (by rw [hnode]; rfl)
    ha hholds hmem hc hrest
  have hbyte := run_putByte_closed (s := { consumed p.length (headerRead m t s) with
    phase := .traversingBody, cur := i, pos := .putByte }) rfl hi
    (congrArg closesOutput decode_encode_decode) ho hcl
  have hrun := run_trans hheader (run_trans hbody (run_trans hwalk hbyte))
  refine ⟨m, i, (exec_of_run hq hrun rfl (by unfold turnsToEnd; omega)).trans ?_, hholds⟩
  rw [consumed_headerRead, show 2 * t.leaves - 1 = t.size by omega, List.length_append, List.length_append, bin_length]
  rfl

end

end Sys2Proof.Machine

/-! SUPPORT. The stages of COMPRESS (R300): counting (R190), merging without overflow (R210, R221), and the walk of the
code table (R240). -/

namespace Sys2Proof.Machine

/-! ### Counting -/

/-- A bit string with a first whole byte begins with that byte's bits (R91). -/
theorem bytesOfBits_eq_cons {s : Bits} {b : Nat} {bs : List Nat} (h : bytesOfBits s = b :: bs) :
    ∃ u rest, s = u ++ rest ∧ u.length = 8 ∧ val u = b ∧ bytesOfBits rest = bs := by
  have hl : 8 ≤ s.length := by
    by_contra hlt
    rw [bytesOfBits_of_lt (by omega)] at h
    cases h
  rw [bytesOfBits_of_le hl, List.cons.injEq] at h
  exact ⟨s.take 8, s.drop 8, (List.take_append_drop 8 s).symm, by rw [List.length_take]; omega, h⟩

theorem length_lt_of_bytesOfBits_eq_nil {s : Bits} (h : bytesOfBits s = []) : s.length < 8 := by
  by_contra hl
  rw [bytesOfBits_of_le (by omega)] at h
  cases h

theorem bytesOfBits_length_le {s : Bits} {bs : List Nat} (h : bytesOfBits s = bs) : bs.length ≤ s.length := by
  induction bs generalizing s with
  | nil => exact Nat.zero_le _
  | cons b bs ih =>
    obtain ⟨u, rest, rfl, hu, -, hrest⟩ := bytesOfBits_eq_cons h
    have := ih hrest
    rw [List.length_cons, List.length_append]
    omega

theorem lt_of_mem_bytesOfBits {s : Bits} {bs : List Nat} (h : bytesOfBits s = bs) : ∀ b ∈ bs, b < 256 := by
  induction bs generalizing s with
  | nil => nofun
  | cons b bs ih =>
    obtain ⟨u, rest, rfl, hu, rfl, hrest⟩ := bytesOfBits_eq_cons h
    rw [List.forall_mem_cons]
    refine ⟨?_, ih hrest⟩
    have := val_lt u
    rwa [hu] at this

section
variable {s : State}

theorem countByte_eq (b : Nat) (s : State) : countByte b s = { s with
    hist := Memory.set 0#32 s.hist b (s.histAt b + 1#32)
    syms := if running s = .compress then s.syms else s.syms + 1#32 } := by
  unfold countByte
  dsimp only
  split <;> rfl

/-- R190: a whole byte is counted. -/
theorem turn_countRead_byte {u rest : Bits} (hp : s.pos = .countRead) (ha : InputAnswers s.inp) (hl : u.length = 8)
    (hu : unread s.inp = u ++ rest) (hlt : (s.histAt (val u)).toNat < Config.maxCount) :
    turn s = .next (countByte (val u) (consumed 8 s)) := by
  have hread := inRead_consumed ha (by omega) hu
  rw [hl] at hread
  rw [turn_countRead hp ha.1, countReadTurn, hread]
  simp only [if_neg (Nat.ne_of_lt hlt)]

/-- R190: the end of the input ends the loop. -/
theorem turn_countRead_end (hp : s.pos = .countRead) (ha : InputAnswers s.inp) (he : InputEnds s.inp)
    (hl : (unread s.inp).length < 8) :
    turn s = .next { s with inp := exhausted 0 s.inp, pos := .endOf .count } := by
  rw [turn_countRead hp ha.1, countReadTurn, inRead_short ha he hl]
  rfl

/-- The end of the counting loop: `n` bytes were read, and the counters are `h` (R190, R300). -/
def counted (h : Memory Word) (n : Nat) (s : State) : State :=
  { s with
    hist := h
    inp := exhausted (8 * n) s.inp
    inBits := s.inBits + BitVec.ofNat 32 (8 * n)
    syms := if running s = .compress then s.syms else s.syms + BitVec.ofNat 32 n
    pos := .endOf .count }

theorem counted_countByte (h : Memory Word) (n b : Nat) (s : State) :
    counted h n (countByte b (consumed 8 s)) = counted h (n + 1) s := by
  have hinp : exhausted (8 * n) (advance 8 s.inp) = exhausted (8 * (n + 1)) s.inp := by
    rw [exhausted_advance, Nat.mul_succ, Nat.add_comm]
  have hbits : s.inBits + 8#32 + BitVec.ofNat 32 (8 * n) = s.inBits + BitVec.ofNat 32 (8 * (n + 1)) := by
    rw [BitVec.add_assoc, Nat.mul_succ, Nat.add_comm (8 * n), BitVec.ofNat_add]
  have hsyms : s.syms + 1#32 + BitVec.ofNat 32 n = s.syms + BitVec.ofNat 32 (n + 1) := by
    rw [BitVec.add_assoc, Nat.add_comm n, BitVec.ofNat_add]
  rw [countByte_eq]
  simp only [counted, consumed, running, hinp, hbits]
  by_cases hc : decode s.cmd = .compress
  · simp only [hc, if_true]
  · simp only [hc, if_false, hsyms]

/-- R190: one counter goes up by one. -/
theorem toNat_histAt_countByte {b : Nat} (hw : Memory.wf 0#32 256 s.hist = true)
    (hlt : (s.histAt b).toNat < Config.maxCount) (k : Nat) :
    ((countByte b s).histAt k).toNat = (s.histAt k).toNat + if b = k then 1 else 0 := by
  rw [countByte_eq]
  by_cases hk : b = k
  · subst hk
    rw [if_pos rfl, State.histAt, Memory.get_set_self _ hw, BitVec.toNat_add]
    exact Nat.mod_eq_of_lt (by unfold Config.maxCount at hlt; simp; omega)
  · rw [if_neg hk, State.histAt, Memory.get_set_other _ _ _ (Ne.symm hk)]
    rfl

/-- R190: the counting loop adds the number of each byte to its counter, where no counter overflows. -/
theorem run_count {bs : List Nat} (hp : s.pos = .countRead) (hw : Memory.wf 0#32 256 s.hist = true)
    (ha : InputAnswers s.inp) (he : InputEnds s.inp) (hbs : bytesOfBits (unread s.inp) = bs)
    (hfit : ∀ k < 256, (s.histAt k).toNat + bs.count k ≤ Config.maxCount) :
    ∃ h, Memory.wf 0#32 256 h = true ∧
      (∀ k < 256, (Memory.get 0#32 h k).toNat = (s.histAt k).toNat + bs.count k) ∧
      run (bs.length + 1) s = .next (counted h bs.length s) := by
  have hbusy : s.pos ≠ .idle := by rw [hp]; nofun
  induction bs generalizing s with
  | nil =>
    have hend := turn_countRead_end hp ha he (length_lt_of_bytesOfBits_eq_nil hbs)
    exact ⟨s.hist, hw, fun _ _ => rfl, (run_one hbusy hend).trans (by simp [counted])⟩
  | cons b bs ih =>
    have hb := lt_of_mem_bytesOfBits hbs b List.mem_cons_self
    obtain ⟨u, rest, hu, hlen, rfl, hrest⟩ := bytesOfBits_eq_cons hbs
    have hroom := hfit _ hb
    rw [List.count_cons_self] at hroom
    have hturn := turn_countRead_byte hp ha hlen hu (by omega)
    have hat := toNat_histAt_countByte (s := consumed 8 s) hw (show (s.histAt (val u)).toNat < Config.maxCount by omega)
    have hu' := unread_consumed (s := s) (by omega) hu
    rw [hlen] at hu'
    have hcb := countByte_eq (val u) (consumed 8 s)
    simp only [List.count_cons, beq_iff_eq] at hfit ⊢
    obtain ⟨h, hwf, hcount, hrun⟩ := ih (s := countByte (val u) (consumed 8 s)) (by rw [hcb]; exact hp)
      (by rw [hcb]; exact Memory.wf_set _ hw _ hb) (by rw [hcb]; exact ha) (by rw [hcb]; exact he)
      (by rw [hcb]; exact hu' ▸ hrest)
      (fun k hk => by rw [hat, Nat.add_right_comm, Nat.add_assoc]; exact hfit k hk) (by rw [hcb]; exact hbusy)
    refine ⟨h, hwf, fun k hk => ?_, ?_⟩
    · rw [hcount k hk, hat, Nat.add_right_comm, Nat.add_assoc]
      rfl
    · rw [List.length_cons, run_turn _ hbusy hturn, hrun, counted_countByte]

end

/-! ### Merging -/

/-- The total weight of a list of slots. -/
def weightOf (s : State) (p : List Idx) : Nat := (p.map s.weightAt).sum

theorem weightOf_erase {s : State} {p : List Idx} {a : Idx} (h : a ∈ p) :
    weightOf s p = s.weightAt a + weightOf s (p.erase a) := by
  simpa [weightOf] using ((List.perm_cons_erase h).map s.weightAt).sum_eq

/-- Every element of PQ is a slot already filled (R215). -/
theorem lt_of_mem_pq {s : State} {n : Nat} (hm : MergeForest s n) {i : Idx} (hi : i ∈ s.pq) : i.toNat < n := by
  obtain ⟨f, hroots, -, hperm, -⟩ := hm
  rw [← hroots, List.mem_map] at hi
  obtain ⟨e, he, rfl⟩ := hi
  have hroot : e.1.toNat ∈ slotsOf s.node e.1 e.2 := by cases e.2 <;> simp [slotsOf]
  exact List.mem_range.mp (hperm.mem_iff.mp (List.mem_flatMap.mpr ⟨e, he, hroot⟩))

section
variable {s : State} {n : Nat} {picks : List Idx}

/-- R210, R215: a merge gives the new slot the sum of two weights, and leaves the weights of the slots below. -/
theorem weightAt_mergeNodes {a b : Idx} {rest : List Idx} (hm : Memory.wf Node.blank Config.nodeCap s.node = true)
    (hn : n ≤ Config.nodeCap) (hab : s.weightAt a + s.weightAt b ≤ Config.maxCount) :
    (mergeNodes n picks a b rest s).weightAt (BitVec.ofNat 10 n) = s.weightAt a + s.weightAt b ∧
      ∀ i : Idx, i.toNat < n → (mergeNodes n picks a b rest s).weightAt i = s.weightAt i := by
  refine ⟨?_, fun i hi => ?_⟩
  · rw [State.weightAt, State.nodeAt, mergeNodes_node _ _ _ _ _ hn, toNat_ofNat_idx hn, Memory.get_set_self _ hm,
      mergedNode, BitVec.toNat_add]
    exact Nat.mod_eq_of_lt (by unfold Config.maxCount State.weightAt at hab; omega)
  · rw [State.weightAt, State.nodeAt, mergeNodes_node _ _ _ _ _ hn, Memory.get_set_other _ _ _ (by omega)]
    rfl

/-- R221: a merge keeps the total weight of PQ. -/
theorem weightOf_mergeNodes {a b : Idx} (hs : TreeInv s) (hp : s.pos = .merge n picks) (ha : a ∈ s.pq)
    (hb : b ∈ s.pq.erase a) (hw : weightOf s s.pq ≤ Config.maxCount) :
    weightOf (mergeNodes n picks a b ((s.pq.erase a).erase b) s)
      (mergeNodes n picks a b ((s.pq.erase a).erase b) s).pq = weightOf s s.pq := by
  obtain ⟨-, hm, -, hr⟩ := memoryForm_iff.mp hs.form
  obtain ⟨hpos, hle⟩ := (countersInRange_merge hp).mp hr
  have hforest : MergeForest s n := by
    have hparts := hs.parts
    rw [PartialTree, hp] at hparts
    exact hparts.2
  rw [weightOf_erase ha, weightOf_erase hb] at hw ⊢
  obtain ⟨hnew, hold⟩ := weightAt_mergeNodes (picks := picks) (rest := (s.pq.erase a).erase b) hm
    (show n ≤ Config.nodeCap by omega) (show s.weightAt a + s.weightAt b ≤ Config.maxCount by omega)
  have hrest : ∀ i ∈ (s.pq.erase a).erase b, i.toNat < n := fun i hi =>
    lt_of_mem_pq hforest (List.mem_of_mem_erase (List.mem_of_mem_erase hi))
  simp only [mergeNodes, weightOf, List.map_append, List.sum_append] at hnew hold ⊢
  rw [List.map_congr_left fun i hi => hold i (hrest i hi), List.map_singleton, List.sum_singleton, hnew]
  omega

/-- R210: two elements of PQ whose weights can be added are merged. -/
theorem turn_merge_step (hp : s.pos = .merge n picks) (hl : 1 < s.pq.length)
    (hw : weightOf s s.pq ≤ Config.maxCount) : ∃ a b, a ∈ s.pq ∧ b ∈ s.pq.erase a ∧
      turn s = .next (mergeNodes n picks a b ((s.pq.erase a).erase b) s) := by
  have ha := (select_spec s picks (p := s.pq) (List.ne_nil_of_length_pos (by omega))).1
  have hb := (select_spec s (select s picks s.pq :: picks) (p := s.pq.erase (select s picks s.pq))
    (List.ne_nil_of_length_pos (by rw [List.length_erase_of_mem ha]; omega))).1
  refine ⟨_, _, ha, hb, ?_⟩
  rw [weightOf_erase ha, weightOf_erase hb] at hw
  rw [turn_merge hp, mergeTurn, if_pos hl]
  exact if_neg (by omega)

theorem turn_merge_done (hp : s.pos = .merge n picks) (hl : s.pq.length = 1) : turn s = .next (buildDone n s) := by
  rw [turn_merge hp, mergeTurn, if_neg (by omega)]

end

/-- R210, R221: merging elements of no more than 2^32 − 1 in total ends with a tree. -/
theorem run_merge {k : Nat} {s : State} {n : Nat} {picks : List Idx} (hs : TreeInv s) (hp : s.pos = .merge n picks)
    (hl : s.pq.length = k + 1) (hw : weightOf s s.pq ≤ Config.maxCount) :
    ∃ t, run (k + 1) s = .next t ∧ TreeInv t ∧ t = { s with
      node := t.node, root := t.root, nnodes := t.nnodes, pq := [], treeValid := true, pos := .endOf .build } := by
  have hbusy : s.pos ≠ .idle := by rw [hp]; nofun
  induction k generalizing s n picks with
  | zero =>
    have hturn := turn_merge_done hp hl
    exact ⟨_, run_one hbusy hturn, turn_keeps_treeInv _ _ hs hbusy hturn, rfl⟩
  | succ k ih =>
    obtain ⟨a, b, ha, hb, hturn⟩ := turn_merge_step hp (by omega) hw
    have hlen : (mergeNodes n picks a b ((s.pq.erase a).erase b) s).pq.length = k + 1 := by
      have := length_erase_erase ha hb
      simp only [mergeNodes, List.length_append, List.length_singleton]
      omega
    obtain ⟨t, hrun, hinv, ht⟩ := ih (turn_keeps_treeInv _ _ hs hbusy hturn) rfl hlen
      (by rw [weightOf_mergeNodes hs hp ha hb hw]; exact hw) nofun
    exact ⟨t, by rw [run_turn _ hbusy hturn, hrun], hinv, ht⟩

/-! ### The leaves of BUILD -/

/-- R210, R211: the leaves have the weights of their symbols. -/
theorem weightAt_placeLeaves {n : Nat} {l : List (Sym × Word)} {s : State}
    (hm : Memory.wf Node.blank Config.nodeCap s.node = true) (h : n + l.length ≤ Config.nodeCap) :
    (List.range' n l.length).map (fun i => (placeLeaves n l s).weightAt (BitVec.ofNat 10 i)) =
      l.map fun e => e.2.toNat := by
  induction l generalizing n s with
  | nil => rfl
  | cons e rest ih =>
    simp only [List.length_cons] at h
    have hi : (BitVec.ofNat 10 n).toNat = n := toNat_ofNat_idx (by omega)
    unfold placeLeaves
    rw [List.length_cons, List.range'_succ, List.map_cons, List.map_cons,
      ih (wf_setNode hm _ (by omega)) (by omega), State.weightAt, State.nodeAt, hi,
      get_placeLeaves_below (by omega) (by omega), setNode_node, hi, Memory.get_set_self _ hm]

/-- Leaving out the counters that are 0 does not change their sum (R211, R216). -/
theorem sum_nonzero (h : Nat → Word) (l : List Nat) :
    ((l.filterMap fun c => if h c ≠ 0#32 then some (BitVec.ofNat 9 c, h c) else none).map
      fun e : Sym × Word => e.2.toNat).sum = (l.map fun c => (h c).toNat).sum := by
  induction l with
  | nil => rfl
  | cons c l ih =>
    by_cases hc : h c = 0#32
    · simpa [hc] using ih
    · simpa [hc] using ih

theorem leafList_weight (s : State) : ((leafList s).map fun e => e.2.toNat).sum = histTotal s + 1 := by
  rw [leafList, List.map_append, List.sum_append, sum_nonzero]
  rfl

/-- R216, R221: BUILD begins with PQ of the total weight of HIST and EOF_SYM. -/
theorem weightOf_beginBuild {s : State} (hm : Memory.wf Node.blank Config.nodeCap s.node = true) :
    weightOf (beginBuild s) (beginBuild s).pq = histTotal s + 1 := by
  have hle := leafList_length_le s
  rw [← leafList_weight, ← weightAt_placeLeaves (n := 0) (s := clearTree (s.setPhase .building)) hm
    (by unfold Config.nodeCap; omega), ← List.range_eq_range']
  simp only [weightOf, beginBuild, List.map_map]
  rfl

theorem sum_count_range {n : Nat} {bs : List Nat} (h : ∀ b ∈ bs, b < n) :
    ((List.range n).map fun k => bs.count k).sum = bs.length := by
  have hmem : ∀ b ∈ (bs : Multiset Nat), b ∈ (List.range n).toFinset := fun b hb => by simpa using h b hb
  rw [← List.sum_toFinset _ List.nodup_range]
  simpa only [Multiset.coe_count, Multiset.coe_card] using Multiset.sum_count_eq_card hmem

/-- R216: the counters of some bytes add up to their number. -/
theorem histTotal_of_count {s : State} {bs : List Nat} (hlt : ∀ b ∈ bs, b < 256)
    (h : ∀ k < 256, (s.histAt k).toNat = bs.count k) : histTotal s = bs.length := by
  rw [histTotal, List.map_congr_left fun k hk => h k (List.mem_range.mp hk)]
  exact sum_count_range hlt

/-! ### The walk of the code table -/

/-- CODE after the leaves `l` were recorded in it, each with its path (R240, R243). -/
def recordPaths (l : List (Sym × Bits)) (m : Memory CodeEntry) : Memory CodeEntry :=
  l.foldl (fun m e =>
    if e.1.toNat ≤ 256 then Memory.set CodeEntry.invalid m e.1.toNat { valid := true, bits := e.2 } else m) m

theorem recordCode_eq (c : Sym) (p : Bits) (s : State) :
    recordCode c p s = { s with code := recordPaths [(c, p)] s.code } := by
  unfold recordCode recordPaths
  simp only [List.foldl_cons, List.foldl_nil]
  split <;> rfl

theorem recordPaths_append (l l' : List (Sym × Bits)) (m : Memory CodeEntry) :
    recordPaths (l ++ l') m = recordPaths l' (recordPaths l m) := List.foldl_append

section
variable {s : State} {f : Frame} {rest : List Frame}

theorem turn_walk_leaf {c : Sym} (hp : s.pos = .walk) (hst : s.stack = f :: rest)
    (hh : holds s.node f.idx (.leaf c) = true) :
    turn s = .next { s with stack := rest, code := recordPaths [(c, f.path)] s.code } := by
  obtain ⟨hlt, hleaf, hsym⟩ := holds_leaf_iff.mp hh
  rw [turn_walk hp, walkTurn, hst]
  dsimp only
  rw [withNode_of_lt _ hlt, State.nodeAt, hleaf, hsym, if_pos rfl, recordCode_eq]

theorem turn_walk_node {l r : HuffTree} (hp : s.pos = .walk) (hst : s.stack = f :: rest)
    (hh : holds s.node f.idx (.node l r) = true) : turn s = .next { s with
      stack := { idx := (s.nodeAt f.idx).left, path := f.path ++ [false], leftDone := false }
        :: { idx := (s.nodeAt f.idx).right, path := f.path ++ [true], leftDone := false } :: rest } := by
  obtain ⟨hlt, hleaf, -, -⟩ := holds_node_iff.mp hh
  rw [turn_walk hp, walkTurn, hst]
  dsimp only
  rw [withNode_of_lt _ hlt, State.nodeAt, hleaf, if_neg Bool.false_ne_true]

end

/-- R240: `Walk` of a tree records its leaves in preorder, each with its path. -/
theorem run_walk (t : HuffTree) {s : State} {f : Frame} {rest : List Frame} (hp : s.pos = .walk)
    (hst : s.stack = f :: rest) (hh : holds s.node f.idx t = true) :
    run t.size s = .next { s with stack := rest, code := recordPaths (t.paths f.path) s.code } := by
  have hbusy : s.pos ≠ .idle := by rw [hp]; nofun
  induction t generalizing s f rest with
  | leaf c => exact run_one hbusy (turn_walk_leaf hp hst hh)
  | node l r ihl ihr =>
    obtain ⟨-, -, hl, hr⟩ := holds_node_iff.mp hh
    have h0 := run_one hbusy (turn_walk_node hp hst hh)
    have h1 := ihl (s := { s with
      stack := { idx := (s.nodeAt f.idx).left, path := f.path ++ [false], leftDone := false }
        :: { idx := (s.nodeAt f.idx).right, path := f.path ++ [true], leftDone := false } :: rest }) hp rfl hl hbusy
    have h2 := ihr (s := { s with
      stack := { idx := (s.nodeAt f.idx).right, path := f.path ++ [true], leftDone := false } :: rest
      code := recordPaths (l.paths (f.path ++ [false])) s.code }) hp rfl hr hbusy
    rw [show (HuffTree.node l r).size = 1 + (l.size + r.size) by simp only [HuffTree.size]; omega, HuffTree.paths,
      recordPaths_append]
    exact run_trans h0 (run_trans h1 h2)

end Sys2Proof.Machine

/-! SUPPORT. COMPRESS up to its first write (R300), and its failure on a closed sink (R403). -/

namespace Sys2Proof.Machine

section
variable {s : State}

/-- R171, R88: a rewindable port stands at its start again. -/
theorem turn_rewind_ok (hp : s.pos = .rewind) (ha : InputAnswers s.inp) (hr : s.inp.rewindable = true) :
    turn s = .next { s with inp := { s.inp with pos := 0, eof := false }, pos := .endOf .rewind } := by
  rw [turn_rewind hp ha.1, rewindTurn, inReset, InPort.rewind_ok s.draws ha hr]
  rfl

/-- COMPRESS between its two passes: the `n` bytes of the input are counted in `h`, and the port is rewound (R300). -/
def firstPassDone (h : Memory Word) (n : Nat) (s : State) : State :=
  { accept (encode .compress) s with
    hist := h, inBits := BitVec.ofNat 32 (8 * n), phase := .inResetting, pos := .endOf .rewind }

/-- While it counts, COMPRESS leaves SYMS alone (R300). -/
theorem counted_of_compress {h : Memory Word} {n : Nat} (hr : running s = .compress) : counted h n s = { s with
    hist := h, inp := exhausted (8 * n) s.inp, inBits := s.inBits + BitVec.ofNat 32 (8 * n)
    pos := .endOf .count } := by rw [counted, if_pos hr]

/-- A port that stood at its start is as it was once it is rewound (R88). -/
theorem rewound_exhausted {p : InPort} (n : Nat) (hpos : p.pos = 0) (heof : p.eof = false) :
    { exhausted n p with pos := 0, eof := false } = p := by
  obtain ⟨bits, endless, pos, eof, fails, failed, rewindable, silent⟩ := p
  obtain rfl : pos = 0 := hpos
  obtain rfl : eof = false := heof
  rfl

/-- R300: COMPRESS counts the bytes of an input that stands at its start, and rewinds it. -/
theorem run_firstPass {bs : List Nat} (ha : InputAnswers s.inp) (he : InputEnds s.inp)
    (hr : s.inp.rewindable = true) (hpos : s.inp.pos = 0) (heof : s.inp.eof = false)
    (hbs : bytesOfBits s.inp.bits = bs) (hfit : bs.length ≤ Config.maxCount) :
    ∃ h, Memory.wf 0#32 256 h = true ∧ (∀ k < 256, (Memory.get 0#32 h k).toNat = bs.count k) ∧
      run (bs.length + 4) (accept (encode .compress) s) = .next (firstPassDone h bs.length s) := by
  have hcmd : running (beginCount (accept (encode .compress) s)) = .compress := decode_encode_compress
  have hu : bytesOfBits (unread s.inp) = bs := by rw [unread, heof, hpos]; exact hbs
  have hstart := run_one (by nofun) (turn_accept (s := s) decode_encode_compress rfl)
  obtain ⟨h, hwf, hcount, hloop⟩ := run_count (s := beginCount (accept (encode .compress) s)) rfl rfl ha he hu
    fun k _ => by
      have := bs.count_le_length (a := k)
      simp only [State.histAt, beginCount, Memory.get_nil]
      simp
      omega
  have hnext : turn (counted h bs.length (beginCount (accept (encode .compress) s))) =
      .next (beginInreset (counted h bs.length (beginCount (accept (encode .compress) s)))) := by
    rw [turn_endOf rfl, endOfTurn]
    exact congrArg _ (if_pos hcmd)
  have hrewind := run_one (by nofun) (turn_rewind_ok
    (s := beginInreset (counted h bs.length (beginCount (accept (encode .compress) s)))) rfl ha hr)
  refine ⟨h, hwf, fun k hk => ?_, ?_⟩
  · rw [hcount k hk]
    exact Nat.zero_add _
  · rw [show bs.length + 4 = 1 + (bs.length + 1 + (1 + 1)) by omega]
    refine (run_trans hstart (run_trans hloop (run_trans (run_one (by nofun) hnext) hrewind))).trans ?_
    rw [counted_of_compress hcmd]
    change Host.Outcome.next { firstPassDone h bs.length s with
      inp := { exhausted (8 * bs.length) s.inp with pos := 0, eof := false }
      inBits := 0#32 + BitVec.ofNat 32 (8 * bs.length) } = _
    rw [rewound_exhausted _ hpos heof, BitVec.zero_add]
    rfl

/-- R210, R300: BUILD as a stage of COMPRESS, where no weight overflows. -/
theorem run_buildStage (hp : s.pos = .endOf .rewind) (hr : running s = .compress) (hform : MemoryForm s)
    (hfit : histTotal s + 1 ≤ Config.maxCount) :
    ∃ k t, k ≤ 258 ∧ run k s = .next t ∧ TreeInv t ∧ t = { clearTree s with
      phase := .building, node := t.node, root := t.root, nnodes := t.nnodes
      nleaves := BitVec.ofNat 9 (leafList s).length, pq := []
      treeValid := true, pos := .endOf .build } := by
  obtain ⟨-, hm, -, -⟩ := memoryForm_iff.mp hform
  have hturn : turn s = .next (beginBuild s) := by rw [turn_endOf hp, endOfTurn, if_pos hr]
  have hframe := beginBuild_frame s
  have hinv : TreeInv (beginBuild s) := by
    refine ⟨beginBuild_form hform, fun h => ?_, partialTree_merge (picks := []) rfl ?_ (beginBuild_forest hform)⟩
    · rw [hframe] at h
      cases h
    · rw [hframe]
      rfl
  have hlen : (beginBuild s).pq.length = (leafList s).length := by simp [beginBuild]
  have hpos := leafList_length_pos s
  have hle := leafList_length_le s
  obtain ⟨t, hrun, ht, heq⟩ := run_merge (k := (leafList s).length - 1) hinv rfl (by omega)
    (by rw [weightOf_beginBuild hm]; exact hfit)
  refine ⟨_, t, ?_, run_trans (run_one (by rw [hp]; nofun) hturn) hrun, ht, ?_⟩
  · omega
  · refine heq.trans ?_
    rw [hframe]
    rfl

/-- R240, R300: GENCODES as a stage of COMPRESS, and the start of ENCODE. -/
theorem run_codesStage {t : HuffTree} (hp : s.pos = .endOf .build) (hr : running s = .compress)
    (hh : holds s.node s.root t = true) : run (t.size + 3) s = .next { s with
      phase := .headerMagic, code := recordPaths (t.paths []) [], codesValid := true, stack := []
      pos := .putMagic } := by
  have hturn : turn s = .next (beginGencodes s) := by rw [turn_endOf hp, endOfTurn, if_pos hr]
  have hwalk := run_walk t (s := beginGencodes s) rfl rfl hh
  have hend : turn { beginGencodes s with stack := [], code := recordPaths (t.paths []) [] } =
      .next { beginGencodes s with
        stack := [], code := recordPaths (t.paths []) [], codesValid := true, pos := .endOf .gencodes } := by
    rw [turn_walk rfl]
    rfl
  have hnext : turn { beginGencodes s with
      stack := [], code := recordPaths (t.paths []) [], codesValid := true, pos := .endOf .gencodes } =
      .next (beginEncode { beginGencodes s with
        stack := [], code := recordPaths (t.paths []) [], codesValid := true, pos := .endOf .gencodes }) := by
    rw [turn_endOf rfl, endOfTurn]
    exact congrArg _ (if_pos hr)
  rw [show t.size + 3 = 1 + (t.size + (1 + 1)) by omega]
  exact run_trans (run_one (by rw [hp]; nofun) hturn)
    (run_trans hwalk (run_trans (run_one (by nofun) hend) (run_one (by nofun) hnext)))

/-- A strict tree has as many nodes as NNODES says (R52). -/
theorem size_of_strictTree (h : StrictTree s) : ∃ t, holds s.node s.root t = true ∧ t.size < 1024 := by
  obtain ⟨t, hh, hperm, -⟩ := h
  have hsize : t.size = s.nnodes.toNat := by simpa [slotsOf_length] using hperm.length_eq
  exact ⟨t, hh, hsize ▸ s.nnodes.isLt⟩

/-- R300, R403: COMPRESS of an input that ends counts it, makes a tree and codes, and fails at its first write. -/
theorem compress_closed {bs : List Nat} (hq : Quiet s) (hform : MemoryForm s) (ha : InputAnswers s.inp)
    (he : InputEnds s.inp) (hr : s.inp.rewindable = true) (hpos : s.inp.pos = 0) (heof : s.inp.eof = false)
    (ho : OutputAnswers s.out) (hcl : s.out.closed = true) (hbs : bytesOfBits s.inp.bits = bs)
    (hfit : bs.length + 1 ≤ Config.maxCount) :
    ∃ h m c r nn nl, exec .compress s = .next { failed .compress .portError s with
        hist := h, node := m, code := c, root := r, nnodes := nn, nleaves := nl, treeValid := true, codesValid := true
        inBits := BitVec.ofNat 32 (8 * bs.length) } ∧
      ∀ k < 256, (Memory.get 0#32 h k).toNat = bs.count k := by
  obtain ⟨h, hwf, hcount, hpass⟩ := run_firstPass ha he hr hpos heof hbs (by omega)
  have hform' : MemoryForm (firstPassDone h bs.length s) := by
    obtain ⟨-, hm, hc, -⟩ := memoryForm_iff.mp hform
    exact memoryForm_iff.mpr ⟨hwf, hm, hc, rfl⟩
  have htotal : histTotal (firstPassDone h bs.length s) = bs.length :=
    histTotal_of_count (lt_of_mem_bytesOfBits hbs) hcount
  obtain ⟨k, t, hk, hbuild, hinv, ht⟩ := run_buildStage (s := firstPassDone h bs.length s) rfl
    decode_encode_compress hform' (by rw [htotal]; exact hfit)
  obtain ⟨tree, hholds, hsize⟩ := size_of_strictTree (hinv.tree (by rw [ht]))
  have hcodes := run_codesStage (s := t) (by rw [ht]) (by rw [ht]; exact decode_encode_compress) hholds
  have hfail := run_putMagic_closed (s := { t with
    phase := .headerMagic, code := recordPaths (tree.paths []) [], codesValid := true, stack := []
    pos := .putMagic }) rfl (by rw [ht]; exact congrArg closesOutput decode_encode_compress) (by rw [ht]; exact ho)
    (by rw [ht]; exact hcl)
  have hturns : bs.length + 4 + (k + (tree.size + 3 + 2)) ≤ turnsToEnd s := by
    have := bytesOfBits_length_le hbs
    unfold turnsToEnd
    omega
  refine ⟨h, t.node, recordPaths (tree.paths []) [], t.root, t.nnodes, t.nleaves,
    (exec_of_run hq (run_trans hpass (run_trans hbuild (run_trans hcodes hfail))) rfl hturns).trans ?_, hcount⟩
  rw [ht]
  rfl

end

/-- Settles O43: each command is run to its first write. -/
theorem closedSinkFails : Obligations.ClosedSinkFails := by
  intro s hq ho hcl
  refine ⟨serialize_closed hq ho hcl, encode_closed hq ho hcl, ?_, ?_⟩
  · rintro t c p rest stream hform ha ht hmem hc hp rfl hu
    exact decode_closed hq hform ha ho hcl ht hmem hc hp hu
  · rintro bs hform ha he hr hpos heof hbs hfit
    exact compress_closed hq hform ha he hr hpos heof ho hcl hbs.symm hfit

end Sys2Proof.Machine

/-! SUPPORT. The opcode map: decoding and encoding of command words (R120, R122, R123, R124), and the length of a
serialized tree (R128). -/

namespace Sys2Proof.Machine

section
variable {w : Word}

/-- A command word is its field RES above its field OP (R120). -/
theorem resField_append_opField (w : Word) : (resField w ++ opField w : BitVec 32) = w :=
  calc (w.extractLsb' 4 28 ++ w.extractLsb' 0 4 : BitVec 32)
    _ = w.extractLsb' 0 32 := BitVec.extractLsb'_append_extractLsb'_eq_extractLsb' rfl
    _ = w := BitVec.extractLsb'_eq_self

theorem decode_of_resField_eq_zero (h : resField w = 0#28) : decode w = decodeOp (opField w) := if_pos h

theorem decode_of_resField_ne_zero (h : resField w ≠ 0#28) : decode w = .illegalRes (resField w) (opField w) := if_neg h

/-- The words that R124 leaves to the row ILLEGAL_OP (R123). -/
theorem decodeOp_of_ge {op : BitVec 4} : 0xC#4 ≤ op → decodeOp op = .illegalOp (op.extractLsb' 0 2) := by
  revert op
  decide

theorem decodeOp_wellFormed (op : BitVec 4) : WellFormed (decodeOp op) := by
  revert op
  decide

/-- Every row of the opcode map with RES = 0 has its OP field as its word (R122, R123). -/
theorem encode_decodeOp (op : BitVec 4) : encode (decodeOp op) = (0#28 ++ op : BitVec 32) := by
  revert op
  decide

end

/-- The length of R128, without its subtraction: each leaf has 10 bits, each internal node 1. -/
theorem HuffTree.bits_length_add_one (t : HuffTree) : t.bits.length + 1 = 11 * t.leaves := by
  induction t with
  | leaf c => simp [HuffTree.bits, HuffTree.leaves]
  | node l r ihl ihr =>
    simp only [HuffTree.bits, HuffTree.leaves, List.length_cons, List.length_append]
    omega

/-- Settles O1: the case of each row of the opcode table. -/
theorem decodeOfEncode : Obligations.DecodeOfEncode := fun _ => decode_encode_of_wellFormed

/-- Settles O2: a word is its two fields, and each of the two cases of R124 puts them together again. -/
theorem encodeOfDecode : Obligations.EncodeOfDecode := by
  intro w
  by_cases h : resField w = 0#28
  · rw [decode_of_resField_eq_zero h, encode_decodeOp, ← h]
    exact ⟨decodeOp_wellFormed _, resField_append_opField w⟩
  · rw [decode_of_resField_ne_zero h]
    exact ⟨bne_iff_ne.mpr h, resField_append_opField w⟩

/-- Settles O3: the case on RES, then the table of `decodeOp` at the word's OP. -/
theorem decodeFollowsTheOpcodeMap : Obligations.DecodeFollowsTheOpcodeMap := by
  intro w
  refine ⟨fun h => ⟨_, _, decode_of_resField_ne_zero h⟩, fun h => ?_⟩
  rw [decode_of_resField_eq_zero h]
  refine ⟨?_, ?_, ?_, ?_, ?_, ?_, ?_, ?_, ?_, ?_, ?_, ?_, fun hop => ⟨_, decodeOp_of_ge hop⟩⟩ <;>
    exact fun hop => congrArg decodeOp hop

/-- Settles O4: the seven words are decoded. -/
theorem sampleWordsDecode : Obligations.SampleWordsDecode := by
  unfold Obligations.SampleWordsDecode
  decide

/-- Settles O37: `HuffTree.bits_length_add_one`, by induction on the tree. -/
theorem serializedTreeLength : Obligations.SerializedTreeLength := fun t => by
  have := t.bits_length_add_one
  omega

end Sys2Proof.Machine

/-! SUPPORT. Which turns close the output port and which turns end a command that closes it (R161, R357). -/

namespace Sys2Proof.Machine

/-! ### Draws of failures -/

@[simp] theorem OutPort.close_fails (d : Nat) (p : OutPort) : (p.close d).2.1.fails = (drawFail p.fails).2 := by
  cases hf : (drawFail p.fails).1 <;> cases hp : p.failed <;>
    simp [OutPort.close, OutPort.settle, OutPort.redraw, hf, hp]

/-- Where no failure is left to draw, none is left after a transaction (R89, R90). -/
theorem Transaction.keeps_no_failures {s u : State} (h : Transaction s u) (hf : s.out.fails = []) :
    u.out.fails = [] := by
  cases h with
  | none | read | rewind => exact hf
  | write n v =>
    obtain ⟨-, hfails, -⟩ := OutPort.write_cases n v s.draws s.out
    exact hfails.trans (by rw [hf]; rfl)
  | close => exact (OutPort.close_fails s.draws s.out).trans (by rw [hf]; rfl)

theorem turn_keeps_no_failures {s t : State} (h : turn s = .next t) (hf : s.out.fails = []) : t.out.fails = [] := by
  obtain ⟨u, ⟨v, hv, c, -, ph, y, rfl⟩, hpc, -⟩ := turn_outcome h
  rw [hpc.frame]
  exact hv.keeps_no_failures hf

/-! ### Turns that do not end a command -/

/-- The core that the result leaves, if it leaves one, is not at rest. -/
def StaysBusy (r : Result) : Prop := ∀ t, r = .next t → t.pos ≠ .idle

@[simp] theorem staysBusy_next {s : State} : StaysBusy (.next s) ↔ s.pos ≠ .idle :=
  ⟨fun h => h s rfl, fun h t ht => by cases ht; exact h⟩

@[simp] theorem staysBusy_fault (e : Fault) : StaysBusy (.fault e) := fun _ h => nomatch h

theorem staysBusy_withNode {i : Idx} {s : State} {k : Node → Result} (h : ∀ nd, StaysBusy (k nd)) :
    StaysBusy (withNode i s k) := by
  unfold withNode
  split
  · exact h _
  · exact staysBusy_fault _

section
variable {s : State}

/-- An error in a command that closes the output is followed by the close (R356, R357). -/
theorem raise_pos_ne_idle {u : State} (k : ErrKind) (hc : closesOutput (running u) = true) :
    (raise k u).pos ≠ .idle := by rw [raise_of_closes k hc]; nofun

theorem staysBusy_checkWrite {n v : Nat} {k : State → State} (hc : closesOutput (running s) = true)
    (h : ∀ u, u.pos = s.pos → (k u).pos ≠ .idle) : StaysBusy (checkWrite n v s k) := by
  unfold checkWrite
  split
  · exact staysBusy_next.mpr (h _ rfl)
  · exact staysBusy_next.mpr (raise_pos_ne_idle _ hc)

theorem staysBusy_countReadTurn (hp : s.pos = .countRead) (hc : closesOutput (running s) = true) :
    StaysBusy (countReadTurn s) := by
  unfold countReadTurn
  split
  · exact staysBusy_next.mpr nofun
  · exact staysBusy_next.mpr (raise_pos_ne_idle _ hc)
  · split
    · exact staysBusy_fault _
    · rw [staysBusy_next, countByte_eq]
      exact hp ▸ nofun

theorem staysBusy_rewindTurn (hc : closesOutput (running s) = true) : StaysBusy (rewindTurn s) := by
  unfold rewindTurn
  split
  · exact staysBusy_next.mpr nofun
  · exact staysBusy_next.mpr (raise_pos_ne_idle _ hc)

theorem staysBusy_mergeTurn (n : Nat) (picks : List Idx) : StaysBusy (mergeTurn n picks s) := by
  unfold mergeTurn
  dsimp only
  split
  · split
    · exact staysBusy_fault _
    · exact staysBusy_next.mpr nofun
  · exact staysBusy_next.mpr nofun

theorem staysBusy_walkTurn (hp : s.pos = .walk) : StaysBusy (walkTurn s) := by
  unfold walkTurn
  split
  · exact staysBusy_next.mpr nofun
  · refine staysBusy_withNode fun nd => ?_
    split <;> rw [staysBusy_next]
    · rw [recordCode_frame]
      exact hp ▸ nofun
    · exact hp ▸ nofun


theorem staysBusy_emitTurn (b : BitVec 8) (hc : closesOutput (running s) = true) : StaysBusy (emitTurn b s) := by
  unfold emitTurn emitCode
  exact staysBusy_checkWrite hc fun _ _ => nofun

theorem staysBusy_writeTreeTurn (hp : s.pos = .writeTree) (hc : closesOutput (running s) = true) :
    StaysBusy (writeTreeTurn s) := by
  unfold writeTreeTurn
  split
  · exact staysBusy_next.mpr nofun
  · refine staysBusy_withNode fun nd => ?_
    split
    · exact staysBusy_checkWrite hc fun _ _ => nofun
    · exact staysBusy_checkWrite hc fun u hu => (hu.trans hp) ▸ nofun

theorem tagRead_pos_ne_idle {u : State} {v n leaves : Nat} (hc : closesOutput (running u) = true) :
    (tagRead v n leaves u).pos ≠ .idle := by
  unfold tagRead
  dsimp only
  split
  · exact raise_pos_ne_idle _ hc
  · split <;> nofun

theorem staysBusy_readTagTurn (n leaves : Nat) (hc : closesOutput (running s) = true) :
    StaysBusy (readTagTurn n leaves s) := by
  unfold readTagTurn
  split <;> rw [staysBusy_next]
  · exact raise_pos_ne_idle _ hc
  · exact raise_pos_ne_idle _ hc
  · exact tagRead_pos_ne_idle hc

theorem staysBusy_readSymTurn (i : Idx) (n leaves : Nat) (hc : closesOutput (running s) = true) :
    StaysBusy (readSymTurn i n leaves s) := by
  unfold readSymTurn
  split <;> rw [staysBusy_next]
  · exact raise_pos_ne_idle _ hc
  · exact raise_pos_ne_idle _ hc
  · obtain h | h := returnNode_pos n (leaves + 1) _ i _ <;> rw [h] <;> nofun

theorem terminator_pos_ne_idle {u : State} (hc : closesOutput (running u) = true) : (terminator u).pos ≠ .idle := by
  unfold terminator
  split
  · split <;> nofun
  · exact raise_pos_ne_idle _ hc

theorem encodeByte_pos_ne_idle {u : State} (b : Nat) (hp : u.pos ≠ .idle) (hc : closesOutput (running u) = true) :
    (encodeByte b u).pos ≠ .idle := by
  unfold encodeByte
  split
  · split
    · nofun
    · exact hp
  · exact raise_pos_ne_idle _ hc

theorem staysBusy_encodeReadTurn (hp : s.pos = .encodeRead) (hc : closesOutput (running s) = true) :
    StaysBusy (encodeReadTurn s) := by
  unfold encodeReadTurn
  split <;> rw [staysBusy_next]
  · exact terminator_pos_ne_idle hc
  · exact raise_pos_ne_idle _ hc
  · exact encodeByte_pos_ne_idle _ (hp ▸ nofun) hc

theorem staysBusy_getMagicTurn (hc : closesOutput (running s) = true) : StaysBusy (getMagicTurn s) := by
  unfold getMagicTurn
  split
  · exact staysBusy_next.mpr (raise_pos_ne_idle _ hc)
  · exact staysBusy_next.mpr (raise_pos_ne_idle _ hc)
  · split <;> rw [staysBusy_next]
    · nofun
    · exact raise_pos_ne_idle _ hc

theorem staysBusy_arriveAt (i : Idx) (u : State) : StaysBusy (arriveAt i u) := by
  unfold arriveAt
  refine staysBusy_withNode fun nd => ?_
  split
  · split <;> exact staysBusy_next.mpr nofun
  · exact staysBusy_next.mpr nofun

theorem staysBusy_decodeReadTurn (hc : closesOutput (running s) = true) : StaysBusy (decodeReadTurn s) := by
  unfold decodeReadTurn
  split
  · exact staysBusy_next.mpr (raise_pos_ne_idle _ hc)
  · exact staysBusy_next.mpr (raise_pos_ne_idle _ hc)
  · exact staysBusy_withNode fun nd => staysBusy_arriveAt _ _

theorem staysBusy_beginWalkBody (hc : closesOutput (running s) = true) : StaysBusy (beginWalkBody s) := by
  unfold beginWalkBody
  refine staysBusy_withNode fun nd => ?_
  split
  · split <;> rw [staysBusy_next]
    · nofun
    · exact raise_pos_ne_idle _ hc
  · exact staysBusy_next.mpr nofun

/-- R153, R357: past its prerequisite check such a command has begun. -/
theorem staysBusy_startTurn (hc : closesOutput (running s) = true) (hr : ready (running s) s = true) :
    StaysBusy (startTurn s) := by
  rw [startTurn, if_pos hr, staysBusy_next]
  cases hi : running s with
  | encode | decode | compress => nofun
  | _ => simp [hi, closesOutput] at hc

/-- Of the commands that close the output, none ends with a stage (R290, R300, R320). -/
theorem staysBusy_endOfTurn {st : Stage} (hp : permits (running s) (.endOf st) = true)
    (hc : closesOutput (running s) = true) : StaysBusy (endOfTurn st s) := by
  unfold endOfTurn
  cases st with
  | count | rewind | build | gencodes =>
    have hr : running s = .compress := by cases hi : running s <;> simp_all [permits, closesOutput]
    simp [hr, beginInreset, beginBuild, beginGencodes, beginEncode]
  | writeTree =>
    have hr : running s ≠ .serialize := by rintro hr; simp [hr, closesOutput] at hc
    rw [if_neg hr, staysBusy_next]
    nofun
  | readTree =>
    have hr : running s = .decode := by cases hi : running s <;> simp_all [permits, closesOutput]
    rw [if_pos hr]
    exact staysBusy_beginWalkBody hc

/-- R161: past its prerequisite check, a command that closes the output ends at a close and nowhere else. -/
theorem staysBusy_turn (hp : s.pos ≠ .idle) (hperm : permits (running s) s.pos = true)
    (hc : closesOutput (running s) = true) (hr : ready (running s) s = true) (hcl : asksClose s.pos = false) :
    StaysBusy (turn s) := by
  unfold turn
  split
  · exact staysBusy_next.mpr hp
  · unfold pieceAt
    cases hpos : s.pos with
    | idle => exact absurd hpos hp
    | close | failClose => simp [hpos, asksClose] at hcl
    | start => exact staysBusy_startTurn hc hr
    | countRead => exact staysBusy_countReadTurn hpos hc
    | rewind => exact staysBusy_rewindTurn hc
    | merge n picks => exact staysBusy_mergeTurn n picks
    | walk => exact staysBusy_walkTurn hpos
    | writeTree => exact staysBusy_writeTreeTurn hpos hc
    | putMagic | emitEof => exact staysBusy_checkWrite hc fun _ _ => nofun
    | emit b => exact staysBusy_emitTurn b hc
    | writeSym | putByte => exact staysBusy_withNode fun nd => staysBusy_checkWrite hc fun _ _ => nofun
    | readTag n leaves => exact staysBusy_readTagTurn n leaves hc
    | readSym i n leaves => exact staysBusy_readSymTurn i n leaves hc
    | encodeRead => exact staysBusy_encodeReadTurn hpos hc
    | getMagic => exact staysBusy_getMagicTurn hc
    | decodeRead => exact staysBusy_decodeReadTurn hc
    | endOf st => exact staysBusy_endOfTurn (hpos ▸ hperm) hc

/-- R90: where the environment draws no failure, an OutClose leaves the output closed. -/
theorem outClose_closed_of_no_failures (hf : s.out.fails = []) : (outClose s).2.out.closed = true := by
  obtain ⟨hclosed, -, hok⟩ := OutPort.close_spec s.draws s.out
  exact hclosed (by rw [hok, hf]; rfl)

/-- The piece at a close is the close, and then an epilogue (R160, R356). -/
theorem pieceAt_out_of_asksClose {t : State} (hcl : asksClose s.pos = true) (h : pieceAt s = .next t) :
    t.out = (outClose s).2.out := by
  unfold pieceAt at h
  cases hp : s.pos with
  | close =>
    simp only [hp, closeTurn] at h
    split at h <;> cases h <;> rfl
  | failClose k =>
    simp only [hp, failCloseTurn] at h
    cases h
    rfl
  | _ => simp [hp, asksClose] at hcl

/-- R161: past its prerequisite check, a command that closes the output has closed it when it comes to rest. -/
theorem closed_of_rest {t : State} (hp : s.pos ≠ .idle) (hperm : permits (running s) s.pos = true)
    (hc : closesOutput (running s) = true) (hr : ready (running s) s = true) (hf : s.out.fails = [])
    (h : turn s = .next t) (ht : t.pos = .idle) : t.out.closed = true := by
  cases hcl : asksClose s.pos
  · exact absurd ht (staysBusy_turn hp hperm hc hr hcl t h)
  · unfold turn at h
    split at h
    · cases h
      exact absurd ht hp
    · rw [pieceAt_out_of_asksClose hcl h]
      exact outClose_closed_of_no_failures hf

end

/-! ### The commands that close the output -/

/-- A command whose prerequisites are met does not undo them (R153). -/
theorem ready_of_coreKept {i : Instr} {s t : State} (h : CoreKept i s t) (hr : ready i s = true) :
    ready i t = true := by
  cases i with
  | gencodes | serialize =>
    obtain ⟨-, -, -, -, htree⟩ := h.tree rfl
    exact htree.trans hr
  | encode =>
    obtain ⟨-, -, -, -, htree⟩ := h.tree rfl
    rw [ready, htree, h.codesValid rfl nofun]
    exact hr
  | _ => rfl

/-- A run, begun at `s`, of a command that closes the output (R161). -/
structure ClosingRun (i : Instr) (s t : State) : Prop where
  run : Running i s t
  noFailures : t.out.fails = []
  closed : t.pos = .idle → t.out.closed = true

theorem turn_keeps_closingRun {i : Instr} {s : State} (hc : closesOutput i = true) (hr : ready i s = true) :
    ∀ t u, ClosingRun i s t → t.pos ≠ .idle → turn t = .next u → ClosingRun i s u := by
  intro t u ht hp h
  obtain ⟨hrun, hf, -⟩ := ht
  have hready := ready_of_coreKept hrun.core hr
  have hcmd := hrun.command
  exact ⟨turn_keeps_running t u hrun hp h, turn_keeps_no_failures h hf,
    closed_of_rest hp (hcmd ▸ hrun.permitted) (hcmd ▸ hc) (hcmd ▸ hready) hf h⟩

/-! ### The commands that do not -/

/-- A sink that draws no failure and has drawn none (I8), its latch being `c`. -/
def SteadySink (c : Bool) (p : OutPort) : Prop := p.fails = [] ∧ p.failed = false ∧ p.closed = c

/-- R89: an OutWrite leaves the latch of such a sink as it was, whether it is accepted or not. -/
theorem SteadySink.write {c : Bool} {p : OutPort} (h : SteadySink c p) (n v d : Nat) :
    SteadySink c (p.write n v d).2.1 := by
  obtain ⟨hf, hd, hc⟩ := h
  cases c <;> simp [SteadySink, OutPort.write, hf, hd, hc]

theorem checkWrite_keeps_steadySink {s t : State} {c : Bool} {n v : Nat} {k : State → State}
    (hs : SteadySink c s.out) (h : checkWrite n v s k = .next t) (hk : ∀ u, (k u).out = u.out) :
    SteadySink c t.out := by
  have hw : SteadySink c (outWrite n v s).2.out := hs.write n v s.draws
  unfold checkWrite at h
  split at h <;> cases h
  · rwa [hk]
  · rwa [raise_frame]

/-- A turn that asks the output port for nothing leaves it as it is. -/
theorem turn_out_of_not_asksOutput {s t : State} (ha : asksOutput s = false) (h : turn s = .next t) :
    t.out = s.out := by
  obtain ⟨u, ⟨v, hv, c, -, ph, y, rfl⟩, hpc, -⟩ := turn_outcome h
  rw [hpc.frame]
  cases hv with
  | none | read | rewind => rfl
  | write _ _ hout | close hout => simp [ha] at hout

/-- SERIALIZE writes, and never closes (R260, R357). -/
theorem turn_serialize_keeps_steadySink {s t : State} {c : Bool} (hp : permits .serialize s.pos = true)
    (hs : SteadySink c s.out) (h : turn s = .next t) : SteadySink c t.out := by
  cases ha : asksOutput s
  · rwa [turn_out_of_not_asksOutput ha h]
  · unfold turn at h
    split at h
    · cases h
      exact hs
    · unfold pieceAt at h
      cases hpos : s.pos with
      | writeTree =>
        simp only [hpos, writeTreeTurn] at h
        split at h
        · cases h
          exact hs
        · obtain ⟨-, h⟩ := withNode_eq_next.mp h
          split at h <;> exact checkWrite_keeps_steadySink hs h fun _ => rfl
      | writeSym i =>
        simp only [hpos, writeSymTurn] at h
        obtain ⟨-, h⟩ := withNode_eq_next.mp h
        exact checkWrite_keeps_steadySink hs h fun _ => rfl
      | idle | start | endOf => simp [asksOutput, hpos] at ha
      | _ => simp [hpos, permits, closesOutput] at hp

/-! ### Every command -/

/-- A command from rest is accepted and goes on (R150, R151). -/
theorem exec_of_idle (i : Instr) {s : State} (hp : s.pos = .idle) : exec i s = resume (accept (encode i) s) := by
  rw [exec_eq_issue, issue, (busy_eq_false_iff s).mpr hp, if_neg Bool.false_ne_true]

/-- A command from rest is a run from its acceptance, some turns long. -/
theorem exists_run_of_exec {i : Instr} {s t : State} (hp : s.pos = .idle) (h : exec i s = .next t) :
    ∃ n hs, run n { accept (encode i) s with host := hs } = .next t := by
  rw [exec_of_idle i hp, resume, (spend_frame (accept (encode i) s)).1] at h
  exact ⟨_, _, h⟩

/-- Neither acceptance nor the host's events bear on the prerequisites (R152, R153). -/
theorem ready_accept (i : Instr) (w : Word) (s : State) (hs : List HostEvent) :
    ready i { accept w s with host := hs } = ready i s := by cases i <;> rfl

theorem running_of_accepted {i : Instr} (hi : WellFormed i) (s : State) (hs : List HostEvent) :
    Running i { accept (encode i) s with host := hs } { accept (encode i) s with host := hs } :=
  ⟨decode_encode_of_wellFormed hi, rfl,
    ⟨by simp, fun _ => rfl, fun _ => by simp, fun _ _ => rfl, fun _ => rfl, fun _ => rfl⟩, .of_eq rfl rfl rfl⟩

/-- A run of SERIALIZE on a sink whose latch is `c`. -/
theorem turn_keeps_serializing {s : State} {c : Bool} : ∀ t u, Running .serialize s t ∧ SteadySink c t.out →
    t.pos ≠ .idle → turn t = .next u → Running .serialize s u ∧ SteadySink c u.out := by
  rintro t u ⟨hrun, hs⟩ hp h
  exact ⟨turn_keeps_running t u hrun hp h, turn_serialize_keeps_steadySink hrun.permitted hs h⟩

/-- Settles O53: a command of R161 comes to rest at a close only; of the others but OUTCLOSE, SERIALIZE alone uses the
output port, and it only writes. -/
theorem everyExitClosesTheOutput : Obligations.EveryExitClosesTheOutput := by
  intro i s t hi hp h
  obtain ⟨n, hs, hrun⟩ := exists_run_of_exec hp h
  have h0 := running_of_accepted hi s hs
  refine ⟨fun hc hr hf ht => ?_, fun hc hne hf hd => ?_⟩
  · have hready := (ready_accept i (encode i) s hs).trans hr
    exact (run_preserves _ (turn_keeps_closingRun hc hready) n _ t ⟨h0, hf, nofun⟩ hrun).closed ht
  · cases hu : usesOutput i
    · exact congrArg OutPort.closed ((run_preserves _ turn_keeps_running n _ t h0 hrun).ports.output hu)
    · have hi' : i = .serialize := by cases i <;> simp_all [usesOutput, closesOutput]
      subst hi'
      obtain ⟨-, -, -, hlatch⟩ := run_preserves _ turn_keeps_serializing n _ t ⟨h0, hf, hd, rfl⟩ hrun
      exact hlatch

end Sys2Proof.Machine

/-! SUPPORT. The step that runs a written command (R150, R151), acceptance (R152), commands that fail their
prerequisite check (R153), and the control commands (R170-R174). -/

namespace Sys2Proof.Machine

/-! ### Acceptance -/

/-- On an idle core the next event, a write to CMD, runs the command (R150, R151). -/
theorem step_write_cmd {s : State} {n : Nat} {w : Word} {rest : List HostEvent} (hp : s.pos = .idle)
    (hh : s.host = { wait := n, op := .write (s.base + 0x008) 4 w } :: rest) :
    step s = exec (decode w) { s with host := rest } :=
  step_write (off := 0x008) (by decide) (by decide) (.inl hp) hh

/-- Settles O5: the CMD write is the access to offset 0x008, and a core with no event goes on or rests. -/
theorem stepRunsTheWrittenCommand : Obligations.StepRunsTheWrittenCommand := by
  refine ⟨fun s n w rest hp hh => step_write_cmd hp hh, fun s w => ?_, fun s hp hh => ?_, fun s hp hh => ?_⟩
  · have hw : BitVec.ofNat 32 (w.toNat % 2 ^ 32) = w := by
      rw [Nat.mod_eq_of_lt w.isLt, BitVec.ofNat_toNat, BitVec.setWidth_eq]
    rw [State.withFetchWord, hw]
    exact step_write_cmd (s := placeCommand w s) rfl rfl
  · simp [step, hostStep, hh, (busy_eq_false_iff s).mpr hp]
  · have hu : undisturbed s.host = true := by rw [hh]; rfl
    rw [step, hostStep, hh]
    simp only [(busy_eq_true_iff s).mpr hp, if_true]
    rw [resume, budget_of_undisturbed hu, spend_of_undisturbed hu]

/-- Settles O6: acceptance is all that happens where the next event has no turn to wait for. -/
theorem acceptanceEffects : Obligations.AcceptanceEffects := by
  intro i s op rest hp hop hh
  have hbudget : budget (accept (encode i) s) = 0 := by simp [budget, hh, hop]
  have hspend : spend (accept (encode i) s) = accept (encode i) s := by simp [spend, hh, accept]
  rw [exec_of_idle i hp, resume, hbudget, hspend]
  rfl

/-! ### Commands of one turn -/

section
variable {i : Instr} {s t : State}

/-- A command from rest that nothing disturbs, and whose first turn ends it. -/
theorem exec_of_turn (hq : Quiet s) (h : turn (accept (encode i) s) = .next t) (ht : t.pos = .idle) :
    exec i s = .next t :=
  exec_of_run hq (run_one nofun h) ht (by unfold turnsToEnd; omega)

/-- The first turn of an accepted command that is not ready (R153). -/
theorem turn_accept_not_ready (hi : decode (encode i) = i) (hr : ready i s = false) :
    turn (accept (encode i) s) = .next (failed i .notReady s) := by
  have hready : ready i (accept (encode i) s) = ready i s := ready_accept i (encode i) s s.host
  rw [turn_start rfl, startTurn, running_accept, hi, hready, hr, if_neg Bool.false_ne_true]
  rfl

/-- R153: a command that is not ready fails in its first turn. -/
theorem exec_not_ready (hq : Quiet s) (hi : decode (encode i) = i) (hr : ready i s = false) :
    exec i s = .next (failed i .notReady s) :=
  exec_of_turn hq (turn_accept_not_ready hi hr) rfl

/-- R174: a command that begins by raising IllegalCommand, and closes no output, ends with it. -/
theorem exec_illegal (hq : Quiet s) (hi : decode (encode i) = i) (hr : ready i s = true) (hc : closesOutput i = false)
    (hb : beginCommand i (accept (encode i) s) = beginIllegal (accept (encode i) s)) :
    exec i s = .next (failed i .illegalCommand s) := by
  have hraise := raise_of_not_closes (s := accept (encode i) s) .illegalCommand (by rwa [running_accept, hi])
  exact exec_of_turn hq ((turn_accept hi hr).trans (congrArg _ (hb.trans hraise))) rfl

end

/-- Settles O18: NOP's first turn is the success epilogue. -/
theorem nopCompletes : Obligations.NopCompletes := fun _ hq =>
  exec_of_turn hq (turn_accept decode_encode_nop rfl) rfl

/-- Settles O19: neither row of illegal words closes the output. -/
theorem illegalWordFails : Obligations.IllegalWordFails := fun _ hq =>
  ⟨fun _ => exec_illegal hq (decode_encode_of_wellFormed rfl) rfl rfl rfl,
    fun _ op hres => exec_illegal hq (decode_encode_illegalRes op hres) rfl rfl rfl⟩

/-- Settles O20: each of the three is not ready. -/
theorem notReadyTouchesNothing : Obligations.NotReadyTouchesNothing := by
  intro s hq
  refine ⟨fun ht => ⟨exec_not_ready hq decode_encode_gencodes ht, exec_not_ready hq decode_encode_serialize ht⟩,
    fun h => exec_not_ready hq decode_encode_encode ?_⟩
  obtain ht | hc := h
  · simp [ready, ht]
  · simp [ready, hc]

/-- Settles O23: CLEAR's first turn empties the memories, and an unlisted cell holds 0 or an invalid entry. -/
theorem clearEmptiesTheMemories : Obligations.ClearEmptiesTheMemories := fun _ hq =>
  ⟨[], [], exec_of_turn hq (turn_accept decode_encode_clear rfl) rfl, fun _ => rfl, fun _ => ⟨rfl, rfl⟩⟩

/-! ### INRESET -/

section
variable {p : InPort}

/-- R88: a rewind that the environment lets through. -/
theorem InPort.rewind_of_draw (d : Nat) (hd : p.failed = false) (hf : (drawFail p.fails).1 = false)
    (hr : p.rewindable = true) :
    p.rewind d = (true, { p with pos := 0, eof := false, fails := (drawFail p.fails).2 }, d) := by
  simp [InPort.rewind, hd, hf, hr]

/-- R88: a port that cannot rewind, or whose environment fails, answers `IoErr`. -/
theorem InPort.rewind_ioErr (d : Nat) (hd : p.failed = false)
    (h : (drawFail p.fails).1 = true ∨ p.rewindable = false) : (p.rewind d).1 = false := by
  cases hf : (drawFail p.fails).1
  · have hr : p.rewindable = false := h.resolve_left (by simp [hf])
    simp [InPort.rewind, hd, hf, hr]
  · simp [InPort.rewind, hf]

end

section
variable {s : State}

/-- INRESET after its acceptance and its first turn (R171). -/
def inresetAsks (s : State) : State := beginInreset (accept (encode .inreset) s)

theorem run_inreset_begin (s : State) : run 1 (accept (encode .inreset) s) = .next (inresetAsks s) :=
  run_one nofun (turn_accept decode_encode_inreset rfl)

theorem exec_inreset_ok (hq : Quiet s) (hs : s.inp.silent = false) (h : (s.inp.rewind s.draws).1 = true) :
    exec .inreset s = .next { completed .inreset s with
      inp := (s.inp.rewind s.draws).2.1, draws := (s.inp.rewind s.draws).2.2 } := by
  have hrewind : turn (inresetAsks s) = .next ((inReset (inresetAsks s)).2.goto (.endOf .rewind)) := by
    rw [turn_rewind (s := inresetAsks s) rfl hs, rewindTurn]
    exact if_pos h
  have hend : turn ((inReset (inresetAsks s)).2.goto (.endOf .rewind)) =
      .next (finish ((inReset (inresetAsks s)).2.goto (.endOf .rewind))) := by
    rw [turn_endOf rfl, endOfTurn, if_neg]
    exact fun hr => nomatch decode_encode_inreset.symm.trans hr
  exact exec_of_run hq (run_trans (run_inreset_begin s) (run_trans (run_one nofun hrewind) (run_one nofun hend))) rfl
    (by unfold turnsToEnd; omega)

theorem exec_inreset_ioErr (hq : Quiet s) (hs : s.inp.silent = false) (h : (s.inp.rewind s.draws).1 = false) :
    exec .inreset s = .next { failed .inreset .portError s with
      inp := (s.inp.rewind s.draws).2.1, draws := (s.inp.rewind s.draws).2.2 } := by
  have hrewind : turn (inresetAsks s) = .next (failWith .portError (inReset (inresetAsks s)).2) := by
    rw [turn_rewind (s := inresetAsks s) rfl hs, rewindTurn, if_neg (Bool.not_eq_true _ ▸ h)]
    exact congrArg _ (raise_of_not_closes _ (congrArg closesOutput decode_encode_inreset))
  exact exec_of_run hq (run_trans (run_inreset_begin s) (run_one nofun hrewind)) rfl (by unfold turnsToEnd; omega)

end

/-- Settles O21: the answer of the port decides. -/
theorem inresetRewindsTheInput : Obligations.InresetRewindsTheInput := by
  intro s hq hs hd
  refine ⟨fun hf hr => ?_, fun h => ⟨_, _, exec_inreset_ioErr hq hs (InPort.rewind_ioErr s.draws hd h)⟩⟩
  have hok := InPort.rewind_of_draw s.draws hd hf hr
  rw [exec_inreset_ok hq hs (by rw [hok]), hok]
  rfl

/-! ### OUTCLOSE -/

theorem exists_of_drawFail {l : List Bool} (h : (drawFail l).1 = true) : ∃ rest, l = true :: rest := by
  cases l with
  | nil => cases h
  | cons b rest =>
    cases h
    exact ⟨rest, rfl⟩

section
variable {p : OutPort}

/-- R90: an OutClose that the environment lets through, on an open sink. -/
theorem OutPort.close_of_draw_open (d : Nat) (hd : p.failed = false) (hf : (drawFail p.fails).1 = false)
    (hc : p.closed = false) : p.close d = (true,
      { closedWith [] (padding d (padCount p.bits)) p with fails := (drawFail p.fails).2 },
      d + padCount p.bits) := by
  simp [OutPort.close, closedWith, hd, hf, hc]

/-- R90: an OutClose that the environment lets through, on a closed sink. -/
theorem OutPort.close_of_draw_closed (d : Nat) (hd : p.failed = false) (hf : (drawFail p.fails).1 = false)
    (hc : p.closed = true) : p.close d = (true, { p with fails := (drawFail p.fails).2 }, d) := by
  simp [OutPort.close, padding, hd, hf, hc]

end

section
variable {s : State}

/-- OUTCLOSE after its acceptance and its first turn (R172). -/
def outcloseAsks (s : State) : State := beginOutclose (accept (encode .outclose) s)

theorem exec_outclose {t : State} (hq : Quiet s) (h : turn (outcloseAsks s) = .next t) (ht : t.pos = .idle) :
    exec .outclose s = .next t :=
  exec_of_run hq (run_trans (run_one nofun (turn_accept decode_encode_outclose rfl)) (run_one nofun h)) ht
    (by unfold turnsToEnd; omega)

theorem exec_outclose_ok (hq : Quiet s) (hs : s.out.silent = false) (h : (s.out.close s.draws).1 = true) :
    exec .outclose s = .next { completed .outclose s with
      out := (s.out.close s.draws).2.1, draws := (s.out.close s.draws).2.2 } := by
  have hturn : turn (outcloseAsks s) = .next (finish (outClose (outcloseAsks s)).2) := by
    rw [turn_of_not_waiting (s := outcloseAsks s) (not_waiting_of_not_asksInput rfl hs)]
    exact if_pos h
  exact exec_outclose hq hturn rfl

theorem exec_outclose_fails (hq : Quiet s) (hs : s.out.silent = false) (h : (drawFail s.out.fails).1 = true) :
    ∃ o d, exec .outclose s = .next { failed .outclose .portError s with out := o, draws := d } := by
  obtain ⟨rest, hf⟩ := exists_of_drawFail h
  obtain ⟨o, d, -, hturn⟩ := turn_close_fails (s := outcloseAsks s) rfl hs hf
  exact ⟨o, d, exec_outclose hq hturn rfl⟩

end

/-- Settles O22: the answer of the port decides, and it is `IoErr` only where the environment draws a failure. -/
theorem outcloseFlushesAndCloses : Obligations.OutcloseFlushesAndCloses := by
  intro s hq hs hd
  refine ⟨fun hf hc => ?_, fun hf hc => ?_, exec_outclose_fails hq hs⟩
  · have hok := OutPort.close_of_draw_closed s.draws hd hf hc
    rw [exec_outclose_ok hq hs (by rw [hok]), hok]
    rfl
  · have hok := OutPort.close_of_draw_open s.draws hd hf hc
    refine ⟨padding s.draws (padCount s.out.bits), s.draws + padCount s.out.bits, ?_, ?_⟩
    · rw [exec_outclose_ok hq hs (by rw [hok]), hok]
    · simpa [PadsToBytes] using padCount_spec s.out.bits

end Sys2Proof.Machine

/-! SUPPORT. COUNT (R190): its result law (R192), the counts that a failure of the input leaves (R157, R86), and the
counter that meets one byte too many (I3). -/

namespace Sys2Proof.Machine

/-! ### Reads whose environment draws no failure -/

/-- The input port of `s` with the draws `l` still to come (R86, log 7). -/
def State.withDraws (l : List Bool) (s : State) : State := { s with inp := { s.inp with fails := l } }

/-- The draws still to come have no part in the answer of a port that serves a request (R86). -/
theorem InPort.serve_withDraws (n : Nat) (l : List Bool) (p : InPort) :
    InPort.serve n { p with fails := l } = ((p.serve n).1, { (p.serve n).2 with fails := l }) := by
  have hnext : InPort.next n { p with fails := l } = p.next n := rfl
  rw [InPort.serve, InPort.serve, hnext]
  by_cases he : p.eof = true
  · rw [if_pos he, if_pos he]
  · rw [if_neg he, if_neg he]
    cases p.next n <;> rfl

/-- R86: a draw of no failure is used up, and the read is that of a port whose environment draws none. -/
theorem InPort.read_withDraws {p : InPort} (n d : Nat) (l : List Bool) (ha : InputAnswers p) :
    InPort.read n d { p with fails := false :: l } =
      ((p.read n d).1, { (p.read n d).2.1 with fails := l }, (p.read n d).2.2) := by
  simp only [InPort.read, drawFail_cons, Bool.false_eq_true, if_false]
  rw [InPort.settle_of_conforming d (p := { p with fails := l }) ha.2.2, InPort.serve_withDraws]
  exact congrArg (fun r => (r.1, { r.2.1 with fails := l }, r.2.2)) (InPort.read_of_answers n d ha).symm

section
variable {s : State}

/-- R86: such a draw changes nothing in InRead but the draws still to come. -/
theorem inRead_withDraws (n : Nat) (l : List Bool) (ha : InputAnswers s.inp) :
    inRead n (s.withDraws (false :: l)) = ((inRead n s).1, (inRead n s).2.withDraws l) := by
  simp only [inRead, State.withDraws, InPort.read_withDraws n s.draws l ha]

end

/-! ### The loop of COUNT up to a failure -/

section
variable {s : State}

/-- R190: a whole byte is counted where this read draws no failure, whatever later ones draw. -/
theorem turn_countRead_drawn {u more : Bits} (l : List Bool) (hp : s.pos = .countRead) (ha : InputAnswers s.inp)
    (hl : u.length = 8) (hu : unread s.inp = u ++ more) (hlt : (s.histAt (val u)).toNat < Config.maxCount) :
    turn (s.withDraws (false :: l)) = .next ((countByte (val u) (consumed 8 s)).withDraws l) := by
  have hread := inRead_consumed ha (by omega) hu
  rw [hl] at hread
  rw [turn_countRead (s := s.withDraws (false :: l)) hp ha.1, countReadTurn, inRead_withDraws 8 l ha, hread]
  have hhist : (s.withDraws (false :: l)).histAt (val u) = s.histAt (val u) := rfl
  simp only [hhist, if_neg (Nat.ne_of_lt hlt), countByte_eq]
  rfl

theorem withDraws_pos_ne_idle (hp : s.pos = .countRead) (l : List Bool) : (s.withDraws l).pos ≠ .idle := by
  rw [State.withDraws, hp]
  nofun

/-- COUNT counts a symbol with each byte (R190, R40). -/
theorem countByte_of_count (b : Nat) (hr : running s = .count) : countByte b s = { s with
    hist := Memory.set 0#32 s.hist b (s.histAt b + 1#32), syms := s.syms + 1#32 } := by
  rw [countByte_eq, if_neg (by rw [hr]; nofun)]

/-- R190, R157, R86: COUNT counts the bytes `bs` that begin an input, and the read after them is a PortError. -/
theorem run_count_ioErr {bs more : List Nat} {rest : List Bool} (hp : s.pos = .countRead) (hr : running s = .count)
    (hw : Memory.wf 0#32 256 s.hist = true) (ha : InputAnswers s.inp) (hbs : bytesOfBits (unread s.inp) = bs ++ more)
    (hfit : ∀ c < 256, (s.histAt c).toNat + bs.count c ≤ Config.maxCount) :
    ∃ h p d, p.fails = rest ∧ (∀ c < 256, (Memory.get 0#32 h c).toNat = (s.histAt c).toNat + bs.count c) ∧
      run (bs.length + 1) (s.withDraws (List.replicate bs.length false ++ true :: rest)) =
        .next (failWith .portError { s with
          hist := h, inBits := s.inBits + BitVec.ofNat 32 (8 * bs.length)
          syms := s.syms + BitVec.ofNat 32 bs.length, inp := p, draws := d }) := by
  induction bs generalizing s with
  | nil =>
    have hfails := turn_input_fails (s := s.withDraws (true :: rest)) (congrArg asksInput hp) ha.1 rfl
    rw [raise_of_not_closes (s := inputFailed rest (s.withDraws (true :: rest))) _ (congrArg closesOutput hr)] at hfails
    refine ⟨s.hist, (inputFailed rest s).inp, s.draws + 1, rfl, fun _ _ => rfl, ?_⟩
    refine (run_one (withDraws_pos_ne_idle hp _) hfails).trans ?_
    simp [inputFailed, State.withDraws, InPort.redraw]
  | cons b bs ih =>
    have hb := lt_of_mem_bytesOfBits hbs b List.mem_cons_self
    obtain ⟨u, tail, hu, hlen, rfl, hrest⟩ := bytesOfBits_eq_cons hbs
    have hroom := hfit _ hb
    rw [List.count_cons_self] at hroom
    have hlt : (s.histAt (val u)).toNat < Config.maxCount := by omega
    have hturn := turn_countRead_drawn (List.replicate bs.length false ++ true :: rest) hp ha hlen hu hlt
    have hat := toNat_histAt_countByte (s := consumed 8 s) hw hlt
    have hu' := unread_consumed (s := s) (by omega) hu
    rw [hlen] at hu'
    have hcb := countByte_of_count (val u) (s := consumed 8 s) hr
    simp only [List.count_cons, beq_iff_eq] at hfit ⊢
    obtain ⟨h, p, d, hpf, hcount, hrun⟩ := ih (s := countByte (val u) (consumed 8 s)) (by rw [hcb]; exact hp)
      (by rw [hcb]; exact hr) (by rw [hcb]; exact Memory.wf_set _ hw _ hb) (by rw [hcb]; exact ha)
      (by rw [hcb]; exact hu' ▸ hrest)
      (fun c hc => by rw [hat, Nat.add_right_comm, Nat.add_assoc]; exact hfit c hc)
    refine ⟨h, p, d, hpf, fun c hc => ?_, ?_⟩
    · rw [hcount c hc, hat, Nat.add_right_comm, Nat.add_assoc]
      rfl
    · rw [List.length_cons, List.replicate_succ, List.cons_append,
        run_turn _ (withDraws_pos_ne_idle hp _) hturn, hrun, hcb, Nat.mul_succ,
        Nat.add_comm (8 * bs.length), Nat.add_comm bs.length 1]
      simp [consumed, BitVec.ofNat_add, BitVec.add_assoc]

/-! ### COUNT -/

/-- COUNT after its acceptance and its first turn (R190). -/
def countAsks (s : State) : State := beginCount (accept (encode .count) s)

theorem run_count_begin (s : State) : run 1 (accept (encode .count) s) = .next (countAsks s) :=
  run_one nofun (turn_accept decode_encode_count rfl)

/-- R190: every counter is 0 before the loop. -/
theorem histAt_countAsks (s : State) (c : Nat) : ((countAsks s).histAt c).toNat = 0 := rfl

/-- R160, R190: the end of the loop ends COUNT. -/
theorem run_count_finish (hp : s.pos = .endOf .count) (hr : running s = .count) : run 1 s = .next (finish s) := by
  refine run_one (by rw [hp]; nofun) ?_
  rw [turn_endOf hp, endOfTurn, if_neg]
  exact fun h => nomatch hr.symm.trans h

/-- The whole state after COUNT of `n` bytes (R192). -/
theorem finish_counted (h : Memory Word) (n : Nat) (s : State) : finish (counted h n (countAsks s)) =
    { completed .count s with
      hist := h, inBits := BitVec.ofNat 32 (8 * n), syms := BitVec.ofNat 32 n, inp := exhausted (8 * n) s.inp } := by
  have hr : ¬ running (countAsks s) = .compress := fun h => nomatch decode_encode_count.symm.trans h
  rw [counted, if_neg hr]
  simp [finish, countAsks, beginCount, completed]

/-- The turns of COUNT on `n` bytes of its input are within its bound (log 5). -/
theorem count_turns_le (n : Nat) (h : n ≤ (bytesOfBits (unread s.inp)).length) : n + 3 ≤ turnsToEnd s := by
  have hbytes := bytesOfBits_length_le (s := unread s.inp) rfl
  have hbits : (unread s.inp).length ≤ s.inp.bits.length := by
    unfold unread
    split <;> simp
  unfold turnsToEnd
  omega

end

/-- Settles O24: `run_count` from empty counters, between the first turn and the success epilogue. -/
theorem countBuildsTheHistogram : Obligations.CountBuildsTheHistogram := by
  intro s bs hq ha he hbs hfit
  obtain ⟨h, hwf, hcount, hloop⟩ := run_count (s := countAsks s) rfl rfl ha he hbs.symm fun c _ => by
    rw [histAt_countAsks, Nat.zero_add]
    exact hfit c
  simp only [histAt_countAsks, Nat.zero_add] at hcount
  have hend := run_count_finish (s := counted h bs.length (countAsks s)) rfl decode_encode_count
  have hturns := count_turns_le (s := s) bs.length (by rw [hbs])
  refine ⟨h, ?_, hwf, hcount, histTotal_of_count (s := { s with hist := h }) (lt_of_mem_bytesOfBits hbs.symm) hcount⟩
  rw [← finish_counted]
  exact exec_of_run hq (run_trans (run_count_begin s) (run_trans hloop hend)) rfl (by omega)

/-- Settles O25: `run_count_ioErr` on the first `k` bytes, from empty counters. -/
theorem countPortErrorKeepsTheCounts : Obligations.CountPortErrorKeepsTheCounts := by
  intro s bs k rest hq hs hd hf hbs hk hfit
  have hlen : (bs.take k).length = k := List.length_take_of_le hk
  have hdraws : ((countAsks s).withDraws []).withDraws (List.replicate k false ++ true :: rest) = countAsks s := by
    rw [← hf]
    rfl
  have hzero : ∀ c, (((countAsks s).withDraws []).histAt c).toNat = 0 := histAt_countAsks s
  obtain ⟨h, p, d, hp, hcount, hloop⟩ := run_count_ioErr (s := (countAsks s).withDraws []) (rest := rest) rfl
    decode_encode_count rfl ⟨hs, rfl, hd⟩ (hbs.symm.trans (List.take_append_drop k bs).symm) fun c _ => by
      rw [hzero, Nat.zero_add]
      exact hfit c
  rw [hlen, hdraws] at hloop
  simp only [hzero, Nat.zero_add] at hcount
  have hturns := count_turns_le (s := s) k (hbs ▸ hk)
  refine ⟨h, p, d, (exec_of_run hq (run_trans (run_count_begin s) hloop) rfl (by omega)).trans ?_, hp, hcount⟩
  simp [State.withDraws, countAsks, beginCount, failWith, failed]

/-- Settles O26: the byte is there, and its counter is full. -/
theorem countOverflowStops : Obligations.CountOverflowStops := by
  intro s b rest hp ha hb hu hfull
  have hval : val (bin 8 b) = b := (val_bin 8 b).trans (Nat.mod_eq_of_lt hb)
  rw [turn_countRead hp ha.1, countReadTurn, inRead_val ha (bin_length 8 b) (by omega) hu, hval]
  exact if_pos hfull

end Sys2Proof.Machine

/-! SUPPORT. BUILD as a sequence of merges (R210, R215): the two selections of a merge, what every merge keeps, how
the command ends (R160, R221), and what becomes of the weights of PQ. -/

namespace Sys2Proof.Machine

/-! ### The two selections -/

/-- R214: `LOWEST_INDEX` takes the smallest index among the minimum-weight elements. -/
theorem select_lowestIndex_le {s : State} {picks p : List Idx} (ht : s.par.tie = .lowestIndex)
    (hp : p.Pairwise (· < ·)) {j : Idx} (hj : j ∈ p) (hw : s.weightAt j = s.weightAt (select s picks p)) :
    select s picks p ≤ j := by
  obtain ⟨-, hmin⟩ := mem_lightest.mp (select_mem_lightest s picks (List.ne_nil_of_mem hj))
  have hmem : j ∈ lightest s p := mem_lightest.mpr ⟨hj, hw.trans hmin⟩
  have hsorted : (lightest s p).Pairwise (· < ·) := hp.filter _
  have hsel : select s picks p = (lightest s p).headD Config.nil := by rw [select, ht]
  rw [hsel]
  cases hq : lightest s p with
  | nil => simp [hq] at hmem
  | cons i q =>
    rw [hq] at hmem hsorted
    obtain rfl | hjq := List.mem_cons.mp hmem
    · exact BitVec.le_refl j
    · exact BitVec.le_of_lt (List.rel_of_pairwise_cons hsorted hjq)

/-- The node that a merge removes first (R215). -/
def firstPick (picks : List Idx) (s : State) : Idx := select s picks s.pq

/-- The node that a merge removes second (R215). -/
def secondPick (picks : List Idx) (s : State) : Idx :=
  select s (firstPick picks s :: picks) (s.pq.erase (firstPick picks s))

/-- PQ without the two nodes that a merge removes. -/
def unpicked (picks : List Idx) (s : State) : List Idx := (s.pq.erase (firstPick picks s)).erase (secondPick picks s)

/-- The state that a merge leaves (R210, R215). -/
def merged (n : Nat) (picks : List Idx) (s : State) : State :=
  mergeNodes n picks (firstPick picks s) (secondPick picks s) (unpicked picks s) s

section
variable {s : State} {n : Nat} {picks : List Idx}

theorem firstPick_spec (picks : List Idx) (hl : 1 < s.pq.length) :
    firstPick picks s ∈ s.pq ∧ ∀ j ∈ s.pq, s.weightAt (firstPick picks s) ≤ s.weightAt j :=
  select_spec s picks (List.ne_nil_of_length_pos (by omega))

/-- R214: the second selection is made from what the first one leaves. -/
theorem secondPick_spec (picks : List Idx) (hl : 1 < s.pq.length) :
    secondPick picks s ∈ s.pq.erase (firstPick picks s) ∧
      ∀ j ∈ s.pq.erase (firstPick picks s), s.weightAt (secondPick picks s) ≤ s.weightAt j :=
  select_spec s _
    (List.ne_nil_of_length_pos (by rw [List.length_erase_of_mem (firstPick_spec picks hl).1]; omega))

theorem perm_picks (picks : List Idx) (hl : 1 < s.pq.length) :
    s.pq.Perm (firstPick picks s :: secondPick picks s :: unpicked picks s) :=
  (List.perm_cons_erase (firstPick_spec picks hl).1).trans
    ((List.perm_cons_erase (secondPick_spec picks hl).1).cons _)

theorem merged_pq (n : Nat) (picks : List Idx) (s : State) :
    (merged n picks s).pq = unpicked picks s ++ [BitVec.ofNat 10 n] := rfl

/-- R215: each merge takes one element off PQ. -/
theorem merged_length (n : Nat) (picks : List Idx) (hl : 1 < s.pq.length) :
    (merged n picks s).pq.length + 1 = s.pq.length := by
  have := (perm_picks picks hl).length_eq
  simp only [merged_pq, List.length_append, List.length_cons, List.length_nil] at this ⊢
  omega

/-- R210: the turn of a merge, by the sum of the two weights. -/
theorem turn_merge_of_lt (hp : s.pos = .merge n picks) (hl : 1 < s.pq.length) : turn s =
    if Config.maxCount < s.weightAt (firstPick picks s) + s.weightAt (secondPick picks s) then
      .fault .weightOverflow
    else .next (merged n picks s) := by
  rw [turn_merge hp, mergeTurn, if_pos hl]
  rfl

end

/-- Settles O28: the two selections are made by `select`, and the new slot is the one that `mergeNodes` writes. -/
theorem mergeTakesTheTwoLightest : Obligations.MergeTakesTheTwoLightest := by
  intro s n picks hform hp hl
  obtain ⟨-, hm, -, hr⟩ := memoryForm_iff.mp hform
  obtain ⟨-, hle⟩ := (countersInRange_merge hp).mp hr
  obtain ⟨ha, hamin⟩ := firstPick_spec picks hl
  obtain ⟨hb, hbmin⟩ := secondPick_spec picks hl
  have hturn := turn_merge_of_lt hp hl
  refine ⟨firstPick picks s, secondPick picks s, ha, hamin, hb, hbmin,
    fun ht hsorted j hj hw => select_lowestIndex_le ht hsorted hj hw, fun hfit => ?_, fun hover => ?_⟩
  · have hnode := nodeAt_setNode_self hm (BitVec.ofNat 10 n) (mergedNode n (firstPick picks s) (secondPick picks s) s)
    rw [if_neg (by omega)] at hturn
    refine ⟨merged n picks s, hturn, rfl, congrArg Node.leaf hnode, congrArg Node.left hnode,
      congrArg Node.right hnode, (weightAt_mergeNodes hm (by omega) hfit).1, fun j hj => ?_⟩
    exact nodeAt_setNode_other s _ hj
  · rwa [if_pos hover] at hturn

/-! ### Merges -/

/-- One merge of BUILD whose sum fits into a weight (R210, R215). -/
inductive MergeStep (s : State) : State → Prop
  | merge (n : Nat) (picks : List Idx) (hp : s.pos = .merge n picks) (hl : 1 < s.pq.length)
      (hfit : s.weightAt (firstPick picks s) + s.weightAt (secondPick picks s) ≤ Config.maxCount) :
      MergeStep s (merged n picks s)

/-- Any number of merges. -/
abbrev Merges : State → State → Prop := Relation.ReflTransGen MergeStep

/-- The next merge would make a weight above 2^32 − 1 (R221). -/
def MergeOverflows (s : State) : Prop := ∃ n picks, s.pos = .merge n picks ∧ 1 < s.pq.length ∧
  Config.maxCount < s.weightAt (firstPick picks s) + s.weightAt (secondPick picks s)

/-- One element of PQ is left, and `n` slots are filled (R210). -/
def MergesDone (n : Nat) (s : State) : Prop := (∃ picks, s.pos = .merge n picks) ∧ s.pq.length = 1

namespace MergeStep
variable {s t : State}

theorem turn_eq (h : MergeStep s t) : turn s = .next t := by
  obtain ⟨n, picks, hp, hl, hfit⟩ := h
  rw [turn_merge_of_lt hp hl, if_neg (by omega)]

theorem busy (h : MergeStep s t) : s.pos ≠ .idle := by
  obtain ⟨n, picks, hp⟩ := h
  rw [hp]
  nofun

theorem length_pq (h : MergeStep s t) : t.pq.length + 1 = s.pq.length := by
  obtain ⟨n, picks, -, hl, -⟩ := h
  exact merged_length n picks hl

theorem keeps_treeInv (h : MergeStep s t) (hs : TreeInv s) : TreeInv t :=
  turn_keeps_treeInv s t hs h.busy h.turn_eq

/-- A merge writes NODE, PQ and the position. -/
theorem frame (h : MergeStep s t) : t = { s with node := t.node, pq := t.pq, pos := t.pos } := by
  cases h
  rfl

end MergeStep

namespace Merges
variable {s t : State}

/-- What each merge keeps, all merges keep. -/
theorem preserve {P : State → Prop} (hstep : ∀ s t, MergeStep s t → P s → P t) (h : Merges s t) (hs : P s) : P t := by
  induction h with
  | refl => exact hs
  | tail _ hlast ih => exact hstep _ _ hlast ih

theorem frame (h : Merges s t) : t = { s with node := t.node, pq := t.pq, pos := t.pos } := by
  refine h.preserve (P := fun t => t = { s with node := t.node, pq := t.pq, pos := t.pos }) (fun u v huv hu => ?_) rfl
  rw [huv.frame, hu]

theorem keep_treeInv (h : Merges s t) (hs : TreeInv s) : TreeInv t := h.preserve (fun _ _ huv => huv.keeps_treeInv) hs

/-- What each merge keeps of a state with the tree invariant, all merges keep. -/
theorem preserve_of_treeInv {P : State → Prop} (hstep : ∀ s t, TreeInv s → MergeStep s t → P s → P t)
    (h : Merges s t) (hs : TreeInv s) (hp : P s) : P t :=
  (h.preserve (P := fun t => TreeInv t ∧ P t)
    (fun u v huv hu => ⟨huv.keeps_treeInv hu.1, hstep u v hu.1 huv hu.2⟩) ⟨hs, hp⟩).2

/-- The turns that merges take. -/
theorem run_eq (h : Merges s t) : ∃ k, k + t.pq.length = s.pq.length ∧ run k s = .next t := by
  induction h using Relation.ReflTransGen.head_induction_on with
  | refl => exact ⟨0, Nat.zero_add _, rfl⟩
  | head hstep _ ih =>
    obtain ⟨k, hk, hrun⟩ := ih
    have hlen := hstep.length_pq
    exact ⟨k + 1, by omega, (run_turn k hstep.busy hstep.turn_eq).trans hrun⟩

end Merges

/-- R210, R221: the loop of BUILD merges until one element is left, or until a sum does not fit. -/
theorem exists_merges {k n : Nat} {picks : List Idx} {s : State} (hp : s.pos = .merge n picks)
    (hl : s.pq.length = k + 1) : ∃ t, Merges s t ∧ ((∃ m, MergesDone m t) ∨ MergeOverflows t) := by
  induction k generalizing s n picks with
  | zero => exact ⟨s, .refl, .inl ⟨n, ⟨picks, hp⟩, hl⟩⟩
  | succ k ih =>
    have hlt : 1 < s.pq.length := by omega
    by_cases hfit : s.weightAt (firstPick picks s) + s.weightAt (secondPick picks s) ≤ Config.maxCount
    · have hlen := merged_length n picks hlt
      obtain ⟨t, hmerges, hend⟩ := ih (s := merged n picks s) rfl (by omega)
      exact ⟨t, .head (.merge n picks hp hlt hfit) hmerges, hend⟩
    · exact ⟨s, .refl, .inr ⟨n, picks, hp, hlt, by omega⟩⟩

/-! ### The command -/

/-- BUILD after its acceptance and its first turn: the leaves stand in NODE and PQ (R210). -/
def buildStart (s : State) : State := beginBuild (accept (encode .build) s)

/-- What BUILD leaves once its merges have ended at `v` with `n` slots filled (R210, R160). -/
def afterBuild (n : Nat) (v s : State) : State :=
  { completed .build s with
    node := v.node, root := v.pq.headD Config.nil, nnodes := BitVec.ofNat 10 n
    nleaves := BitVec.ofNat 9 (leafList s).length, treeValid := true, codesValid := false }

section
variable {s t v : State} {n : Nat}

theorem buildStart_pos (s : State) : (buildStart s).pos = .merge (leafList s).length [] := rfl

theorem buildStart_pq (s : State) : (buildStart s).pq = (List.range (leafList s).length).map (BitVec.ofNat 10) := rfl

theorem buildStart_length (s : State) : (buildStart s).pq.length = (leafList s).length := by simp [buildStart_pq]

theorem run_buildStart (s : State) : run 1 (accept (encode .build) s) = .next (buildStart s) :=
  run_one nofun (turn_accept decode_encode_build rfl)

theorem buildStart_frame (s : State) : buildStart s = { clearTree (accept (encode .build) s) with
    phase := .building, node := (buildStart s).node, pq := (buildStart s).pq
    nleaves := BitVec.ofNat 9 (leafList s).length, pos := .merge (leafList s).length [] } := by
  rw [buildStart, beginBuild_frame]
  rfl

theorem treeInv_buildStart (hs : MemoryForm s) : TreeInv (buildStart s) := by
  have hform : MemoryForm (accept (encode .build) s) := accept_keeps_form _ hs
  have hv : (buildStart s).treeValid = false := by rw [buildStart_frame]; rfl
  exact ⟨beginBuild_form hform, fun h => (nomatch hv.symm.trans h),
    partialTree_merge (picks := []) rfl hv (beginBuild_forest hform)⟩

/-- R210: the single element of PQ is the root, and BUILD ends. -/
theorem exec_build_of_done (hq : Quiet s) (h : Merges (buildStart s) v) (hd : MergesDone n v) :
    exec .build s = .next (afterBuild n v s) := by
  obtain ⟨⟨picks, hp⟩, hl⟩ := hd
  obtain ⟨k, hk, hrun⟩ := h.run_eq
  have hframe := h.frame
  rw [buildStart_frame] at hframe
  have hrunning : running (buildDone n v) = .build := by
    rw [hframe]
    exact decode_encode_build
  have hend : turn (buildDone n v) = .next (finish (buildDone n v)) := by
    rw [turn_endOf rfl, endOfTurn, hrunning, if_neg (by nofun)]
  have hdone := run_trans (run_one (by rw [hp]; nofun) (turn_merge_done hp hl)) (run_one nofun hend)
  have hturns : 1 + (k + (1 + 1)) ≤ turnsToEnd s := by
    have := leafList_length_le s
    rw [buildStart_length] at hk
    unfold turnsToEnd
    omega
  refine (exec_of_run hq (run_trans (run_buildStart s) (run_trans hrun hdone)) rfl hturns).trans ?_
  rw [hframe]
  rfl

/-- R221: a sum that does not fit stops BUILD. -/
theorem exec_build_of_overflows (hq : Quiet s) (h : Merges (buildStart s) v) (ho : MergeOverflows v) :
    exec .build s = .fault .weightOverflow := by
  obtain ⟨n, picks, hp, hl, hover⟩ := ho
  have hturn := turn_merge_of_lt hp hl
  rw [if_pos hover] at hturn
  obtain ⟨k, hk, hrun⟩ := h.run_eq
  obtain ⟨j, hj⟩ : ∃ j, turnsToEnd s = 1 + (k + (j + 1)) := by
    have := leafList_length_le s
    rw [buildStart_length] at hk
    exact ⟨turnsToEnd s - k - 2, by unfold turnsToEnd; omega⟩
  rw [exec_eq_issue, issue_quiet _ hq, hj]
  refine run_trans (run_buildStart s) (run_trans hrun ?_)
  rw [run_succ j (by rw [hp]; nofun), hturn, andThen_fault]

/-- R210, R221: the two ways in which the merges of BUILD end. -/
theorem build_ends (s : State) : ∃ v, Merges (buildStart s) v ∧ ((∃ n, MergesDone n v) ∨ MergeOverflows v) := by
  have := leafList_length_pos s
  exact exists_merges (k := (leafList s).length - 1) (buildStart_pos s) (by rw [buildStart_length]; omega)

/-- A BUILD that answers a state has ended its merges. -/
theorem exists_done_of_exec (hq : Quiet s) (h : exec .build s = .next t) :
    ∃ v n, Merges (buildStart s) v ∧ MergesDone n v ∧ t = afterBuild n v s := by
  obtain ⟨v, hv, ⟨n, hd⟩ | ho⟩ := build_ends s
  · rw [exec_build_of_done hq hv hd] at h
    cases h
    exact ⟨v, n, hv, hd, rfl⟩
  · rw [exec_build_of_overflows hq hv ho] at h
    cases h

end

/-! ### Weights -/

/-- The weights of the elements of PQ. -/
def pqWeights (s : State) : Multiset Nat := (s.pq.map s.weightAt : List Nat)

theorem pqWeights_sum (s : State) : (pqWeights s).sum = weightOf s s.pq := Multiset.sum_coe _

section
variable {s t : State} {n : Nat} {picks : List Idx}

/-- While BUILD merges, NODE is canonical, the elements of PQ are filled slots, and the next slot is a slot of NODE. -/
theorem TreeInv.merging (hs : TreeInv s) (hp : s.pos = .merge n picks) :
    Memory.wf Node.blank Config.nodeCap s.node = true ∧ n + s.pq.length ≤ Config.nodeCap + 1 ∧ MergeForest s n := by
  obtain ⟨-, hm, -, hr⟩ := memoryForm_iff.mp hs.form
  have hparts := hs.parts
  rw [PartialTree, hp] at hparts
  exact ⟨hm, ((countersInRange_merge hp).mp hr).2, hparts.2⟩

theorem pqWeights_picks (picks : List Idx) (hl : 1 < s.pq.length) : pqWeights s =
    s.weightAt (firstPick picks s) ::ₘ s.weightAt (secondPick picks s) ::ₘ
      ((unpicked picks s).map s.weightAt : List Nat) :=
  Multiset.coe_eq_coe.mpr ((perm_picks picks hl).map s.weightAt)

/-- R215: a merge puts the sum of the two weights in their place. -/
theorem pqWeights_merged (hs : TreeInv s) (hp : s.pos = .merge n picks) (hl : 1 < s.pq.length)
    (hfit : s.weightAt (firstPick picks s) + s.weightAt (secondPick picks s) ≤ Config.maxCount) :
    pqWeights (merged n picks s) = (s.weightAt (firstPick picks s) + s.weightAt (secondPick picks s)) ::ₘ
      ((unpicked picks s).map s.weightAt : List Nat) := by
  obtain ⟨hm, hle, hforest⟩ := hs.merging hp
  obtain ⟨hnew, hold⟩ := weightAt_mergeNodes (n := n) (picks := picks) (rest := unpicked picks s) hm
    (by omega) hfit
  have hrest : (unpicked picks s).map (merged n picks s).weightAt = (unpicked picks s).map s.weightAt :=
    List.map_congr_left fun i hi => hold i (lt_of_mem_pq hforest (List.mem_of_mem_erase (List.mem_of_mem_erase hi)))
  have hnew' : (merged n picks s).weightAt (BitVec.ofNat 10 n) = _ := hnew
  rw [pqWeights, merged_pq, List.map_append, hrest, List.map_singleton, hnew']
  exact Multiset.coe_eq_coe.mpr (List.perm_append_singleton _ _)

theorem MergeStep.keeps_total (h : MergeStep s t) (hs : TreeInv s) : weightOf t t.pq = weightOf s s.pq := by
  obtain ⟨n, picks, hp, hl, hfit⟩ := h
  rw [← pqWeights_sum, ← pqWeights_sum, pqWeights_merged hs hp hl hfit, pqWeights_picks picks hl]
  simp only [Multiset.sum_cons, Nat.add_assoc]

/-- R216: merges keep the total weight of PQ, which is that of HIST and EOF_SYM. -/
theorem weightOf_of_merges {v : State} (hs : MemoryForm s) (h : Merges (buildStart s) v) :
    weightOf v v.pq = histTotal s + 1 := by
  have hm : Memory.wf Node.blank Config.nodeCap s.node = true := (memoryForm_iff.mp hs).2.1
  have hstart : weightOf (buildStart s) (buildStart s).pq = histTotal s + 1 :=
    weightOf_beginBuild (s := accept (encode .build) s) hm
  exact h.preserve_of_treeInv (P := fun t => weightOf t t.pq = histTotal s + 1)
    (fun _ _ hinv hstep ht => (hstep.keeps_total hinv).trans ht) (treeInv_buildStart hs) hstart

/-- R221: a merge whose sum does not fit takes two elements of a PQ whose total weight does not fit. -/
theorem MergeOverflows.total (h : MergeOverflows s) : Config.maxCount < weightOf s s.pq := by
  obtain ⟨n, picks, -, hl, hover⟩ := h
  rw [weightOf_erase (firstPick_spec picks hl).1, weightOf_erase (secondPick_spec picks hl).1]
  omega

/-- The root's weight is a weight. -/
theorem MergesDone.total (h : MergesDone n s) : weightOf s s.pq ≤ Config.maxCount := by
  obtain ⟨i, hi⟩ := List.length_eq_one_iff.mp h.2
  have := weightAt_lt s i
  simp only [hi, weightOf, List.map_singleton, List.sum_singleton]
  omega

/-- R221: where the total fits, the merges of BUILD end with one element. -/
theorem exists_mergesDone (hs : MemoryForm s) (hfit : histTotal s + 1 ≤ Config.maxCount) :
    ∃ v n, Merges (buildStart s) v ∧ MergesDone n v := by
  obtain ⟨v, hv, ⟨n, hd⟩ | ho⟩ := build_ends s
  · exact ⟨v, n, hv, hd⟩
  · have := ho.total
    rw [weightOf_of_merges hs hv] at this
    omega

end

/-- Settles O29: merges keep the total weight, which fits where one element is left and does not where a sum
overflows. -/
theorem buildOverflowStops : Obligations.BuildOverflowStops := by
  intro s hq hs
  obtain ⟨v, hv, ⟨n, hd⟩ | ho⟩ := build_ends s
  · have htotal := hd.total
    rw [weightOf_of_merges hs hv] at htotal
    rw [exec_build_of_done hq hv hd]
    exact ⟨nofun, fun h => by omega⟩
  · have htotal := ho.total
    rw [weightOf_of_merges hs hv] at htotal
    exact ⟨fun _ => htotal, fun _ => exec_build_of_overflows hq hv ho⟩

end Sys2Proof.Machine

/-! SUPPORT. The slots of NODE that BUILD fills (R211, R212, R220): its leaves, its internal nodes in creation order,
and the tree they make. -/

namespace Sys2Proof.Machine

/-! ### The leaves -/

/-- R211: the leaves of BUILD are the counted bytes, ascending, and EOF_SYM. -/
theorem leafList_eq (s : State) : leafList s =
    (codedBytes s).map (fun c => (BitVec.ofNat 9 c, s.histAt c)) ++ [(Config.eofSym, 1#32)] := by
  rw [leafList, codedBytes]
  congr 1
  induction List.range 256 with
  | nil => rfl
  | cons c l ih =>
    by_cases hc : s.histAt c = 0#32
    · simpa [hc] using ih
    · simpa [hc] using ih

theorem leafList_length (s : State) : (leafList s).length = (codedBytes s).length + 1 := by simp [leafList_eq]

/-- Slot `k` is a leaf of symbol `c` and weight `w` (R211). -/
def LeafSlot (m : Memory Node) (k : Nat) (c : Sym) (w : Word) : Prop :=
  (Memory.get Node.blank m k).leaf = true ∧ (Memory.get Node.blank m k).sym = c ∧
    (Memory.get Node.blank m k).weight = w

section
variable {l : List (Sym × Word)} {n k : Nat} {s : State}

/-- R210: each leaf stands in its slot. -/
theorem leafSlot_placeLeaves {e : Sym × Word} (hm : Memory.wf Node.blank Config.nodeCap s.node = true)
    (h : n + l.length ≤ Config.nodeCap) (he : l[k]? = some e) :
    LeafSlot (placeLeaves n l s).node (n + k) e.1 e.2 := by
  induction l generalizing n k s with
  | nil => simp at he
  | cons c rest ih =>
    simp only [List.length_cons] at h
    have hi : (BitVec.ofNat 10 n).toNat = n := toNat_ofNat_idx (by omega)
    unfold placeLeaves
    cases k with
    | zero =>
      obtain rfl : c = e := by simpa using he
      change LeafSlot _ n _ _
      rw [LeafSlot, get_placeLeaves_below (by omega) (by omega), setNode_node, hi, Memory.get_set_self _ hm]
      exact ⟨rfl, rfl, rfl⟩
    | succ k =>
      rw [← Nat.add_assoc, Nat.add_right_comm]
      exact ih (s := s.setNode _ _) (wf_setNode hm _ (by omega)) (by omega) (by simpa using he)

/-- Placing leaves leaves the slots above them as they are. -/
theorem get_placeLeaves_above (h : n + l.length ≤ Config.nodeCap) (hk : n + l.length ≤ k) :
    Memory.get Node.blank (placeLeaves n l s).node k = Memory.get Node.blank s.node k := by
  induction l generalizing n s with
  | nil => rfl
  | cons e rest ih =>
    simp only [List.length_cons] at h hk
    unfold placeLeaves
    rw [ih (by omega) (by omega)]
    exact Memory.get_set_other _ _ _ (by rw [toNat_ofNat_idx (by omega)]; omega)

end

/-- BUILD's start puts the leaves into slots 0 to L − 1, and leaves the others as they are (R211, R212, R220). -/
theorem buildStart_slots {s : State} (hs : MemoryForm s) :
    (∀ k e, (leafList s)[k]? = some e → LeafSlot (buildStart s).node k e.1 e.2) ∧
    ∀ k, (leafList s).length ≤ k →
      Memory.get Node.blank (buildStart s).node k = Memory.get Node.blank s.node k := by
  have hm : Memory.wf Node.blank Config.nodeCap s.node = true := (memoryForm_iff.mp hs).2.1
  have hcap : 0 + (leafList s).length ≤ Config.nodeCap := by
    have := leafList_length_le s
    unfold Config.nodeCap
    omega
  have hnode : (buildStart s).node =
      (placeLeaves 0 (leafList s) (clearTree ((accept (encode .build) s).setPhase .building))).node := rfl
  rw [hnode]
  refine ⟨fun k e he => ?_, fun k hk => get_placeLeaves_above hcap (by omega)⟩
  have := leafSlot_placeLeaves (s := clearTree ((accept (encode .build) s).setPhase .building)) hm hcap he
  rwa [Nat.zero_add] at this

/-! ### The internal nodes -/

/-- Slot `k` is an internal node of two different earlier slots, and has the sum of their weights (R215, R216). -/
def SumSlot (m : Memory Node) (k : Nat) : Prop :=
  (Memory.get Node.blank m k).leaf = false ∧
    (Memory.get Node.blank m k).left.toNat < k ∧ (Memory.get Node.blank m k).right.toNat < k ∧
    (Memory.get Node.blank m k).left ≠ (Memory.get Node.blank m k).right ∧
    (Memory.get Node.blank m k).weight.toNat
      = (Memory.get Node.blank m (Memory.get Node.blank m k).left.toNat).weight.toNat
        + (Memory.get Node.blank m (Memory.get Node.blank m k).right.toNat).weight.toNat

/-- BUILD between two merges, from `L` leaves in NODE `m0`: slots `L` to `n` − 1 are internal nodes, and the others
are as in `m0`; PQ is ascending and holds the last slot filled (R215, R220). -/
structure Merging (m0 : Memory Node) (L n : Nat) (s : State) : Prop where
  pos : ∃ picks, s.pos = .merge n picks
  le : L ≤ n
  count : n + s.pq.length = 2 * L
  last : BitVec.ofNat 10 (n - 1) ∈ s.pq
  sorted : s.pq.Pairwise (· < ·)
  others : ∀ k, k < L ∨ n ≤ k → Memory.get Node.blank s.node k = Memory.get Node.blank m0 k
  sums : ∀ k, L ≤ k → k < n → SumSlot s.node k

section
variable {m : Memory Node} {v : Node} {k n : Nat}

/-- A slot above an internal node and its children may be written. -/
theorem SumSlot.set (h : SumSlot m k) (hk : k < n) : SumSlot (Memory.set Node.blank m n v) k := by
  obtain ⟨hleaf, hl, hr, hne, hw⟩ := h
  unfold SumSlot
  simp only [Memory.get_set_other Node.blank m v (Nat.ne_of_lt hk),
    Memory.get_set_other Node.blank m v (Nat.ne_of_lt (hl.trans hk)),
    Memory.get_set_other Node.blank m v (Nat.ne_of_lt (hr.trans hk))]
  exact ⟨hleaf, hl, hr, hne, hw⟩

end

section
variable {s t : State} {m0 : Memory Node} {L n : Nat} {picks : List Idx}

theorem merged_node (picks : List Idx) (hn : n ≤ Config.nodeCap) : (merged n picks s).node =
    Memory.set Node.blank s.node n (mergedNode n (firstPick picks s) (secondPick picks s) s) :=
  mergeNodes_node _ _ _ _ _ hn

/-- R215, R216: the slot that a merge writes. -/
theorem sumSlot_merged (hs : TreeInv s) (hp : s.pos = .merge n picks) (hl : 1 < s.pq.length)
    (hnd : s.pq.Nodup)
    (hfit : s.weightAt (firstPick picks s) + s.weightAt (secondPick picks s) ≤ Config.maxCount) :
    SumSlot (merged n picks s).node n := by
  obtain ⟨hm, hle, hforest⟩ := hs.merging hp
  obtain ⟨hb, -⟩ := secondPick_spec picks hl
  obtain ⟨hbne, hb⟩ := hnd.mem_erase_iff.mp hb
  have ha := lt_of_mem_pq hforest (firstPick_spec picks hl).1
  have hb := lt_of_mem_pq hforest hb
  have ha' := Memory.get_set_other Node.blank s.node (mergedNode n (firstPick picks s) (secondPick picks s) s)
    (Nat.ne_of_lt ha)
  have hb' := Memory.get_set_other Node.blank s.node (mergedNode n (firstPick picks s) (secondPick picks s) s)
    (Nat.ne_of_lt hb)
  rw [merged_node picks (by omega), SumSlot, Memory.get_set_self _ hm]
  refine ⟨rfl, ha, hb, hbne.symm, ?_⟩
  refine Eq.trans ?_ (congrArg₂ (fun u w : Node => u.weight.toNat + w.weight.toNat) ha'.symm hb'.symm)
  exact (BitVec.toNat_add _ _).trans (Nat.mod_eq_of_lt (Nat.lt_succ_of_le hfit))

theorem Merging.keep (hs : TreeInv s) (h : Merging m0 L n s) (hstep : MergeStep s t) : Merging m0 L (n + 1) t := by
  obtain ⟨n', picks, hp, hl, hfit⟩ := hstep
  obtain ⟨⟨_, hp'⟩, hle, hcount, -, hsorted, hothers, hsums⟩ := h
  obtain ⟨rfl, -⟩ : n = n' ∧ _ := by simpa using hp'.symm.trans hp
  obtain ⟨hm, hcap, hforest⟩ := hs.merging hp
  have hlen := merged_length n picks hl
  have hsub : (unpicked picks s).Sublist s.pq := List.erase_sublist.trans List.erase_sublist
  have hnode := merged_node picks (s := s) (n := n) (by omega)
  refine ⟨⟨_, rfl⟩, by omega, by omega, ?_, ?_, fun k hk => ?_, fun k hk hkn => ?_⟩
  · simp [merged_pq]
  · rw [merged_pq, List.pairwise_append]
    refine ⟨hsorted.sublist hsub, List.pairwise_singleton _ _, fun i hi j hj => ?_⟩
    rw [List.mem_singleton.mp hj, BitVec.lt_def, toNat_ofNat_idx (by omega)]
    exact lt_of_mem_pq hforest (hsub.subset hi)
  · rw [hnode, Memory.get_set_other _ _ _ (by omega)]
    exact hothers k (by omega)
  · obtain hlt | rfl := Nat.lt_succ_iff_lt_or_eq.mp hkn
    · rw [hnode]
      exact (hsums k hk hlt).set hlt
    · exact sumSlot_merged hs hp hl (hsorted.imp fun h => BitVec.ne_of_lt h) hfit

theorem merging_buildStart (s : State) :
    Merging (buildStart s).node (leafList s).length (leafList s).length (buildStart s) := by
  have hpos := leafList_length_pos s
  have hle := leafList_length_le s
  have hcap : (leafList s).length ≤ Config.nodeCap := by unfold Config.nodeCap; omega
  refine ⟨⟨[], buildStart_pos s⟩, Nat.le_refl _, by rw [buildStart_length]; omega, ?_, ?_, fun _ _ => rfl,
    fun k _ _ => by omega⟩
  · rw [buildStart_pq]
    exact List.mem_map_of_mem (List.mem_range.mpr (by omega))
  · rw [buildStart_pq, List.pairwise_map]
    refine List.pairwise_lt_range.imp_of_mem fun {i j} hi hj hij => ?_
    rw [List.mem_range] at hi hj
    rwa [BitVec.lt_def, toNat_ofNat_idx (by omega), toNat_ofNat_idx (by omega)]

/-- R215, R220: the slots after any number of merges of BUILD. -/
theorem exists_merging {v : State} (hs : MemoryForm s) (h : Merges (buildStart s) v) :
    ∃ n, Merging (buildStart s).node (leafList s).length n v :=
  h.preserve_of_treeInv (P := fun t => ∃ n, Merging (buildStart s).node (leafList s).length n t)
    (fun _ _ hinv hstep ⟨n, hn⟩ => ⟨n + 1, hn.keep hinv hstep⟩) (treeInv_buildStart hs) ⟨_, merging_buildStart s⟩

/-- R220: the last merge has filled slot 2L − 2, which is the root. -/
theorem merging_of_done {v : State} (hs : MemoryForm s) (h : Merges (buildStart s) v) (hd : MergesDone n v) :
    n = 2 * (leafList s).length - 1 ∧ v.pq = [BitVec.ofNat 10 (2 * (leafList s).length - 2)] ∧
      Merging (buildStart s).node (leafList s).length n v := by
  obtain ⟨⟨picks, hp⟩, hl⟩ := hd
  obtain ⟨n', hn⟩ := exists_merging hs h
  obtain ⟨picks', hp'⟩ := hn.pos
  obtain ⟨rfl, -⟩ : n' = n ∧ _ := by simpa using hp'.symm.trans hp
  obtain ⟨i, hi⟩ := List.length_eq_one_iff.mp hl
  have hcount := hn.count
  have hlast := hn.last
  rw [hl] at hcount
  rw [hi, List.mem_singleton] at hlast
  exact ⟨by omega, by rw [hi, ← hlast, ← hcount]; rfl, hn⟩

/-- R231: the slots filled are one strict tree. -/
theorem tree_of_done {v : State} (hs : TreeInv v) (hd : MergesDone n v) :
    ∃ t, holds v.node (v.pq.headD Config.nil) t = true ∧
      (slotsOf v.node (v.pq.headD Config.nil) t).Perm (List.range n) ∧ t.leaves = v.nleaves.toNat := by
  obtain ⟨⟨picks, hp⟩, hl⟩ := hd
  obtain ⟨-, hle, hforest⟩ := hs.merging hp
  have hn : (BitVec.ofNat 10 n).toNat = n := toNat_ofNat_idx (by omega)
  obtain ⟨t, hh, hperm, hleaves⟩ := buildDone_strictTree hs.form hp (by omega) hforest
  rw [show (buildDone n v).nnodes.toNat = n from hn] at hperm
  exact ⟨t, hh, hperm, hleaves⟩

end

section
variable {s v : State} {n : Nat}

/-- R211, R212, R220: the leaves stay in their slots. -/
theorem leafSlot_of_merging (hs : MemoryForm s) (h : Merging (buildStart s).node (leafList s).length n v) {k : Nat}
    {e : Sym × Word} (he : (leafList s)[k]? = some e) : LeafSlot v.node k e.1 e.2 := by
  rw [LeafSlot, h.others k (.inl (List.getElem?_eq_some_iff.mp he).1)]
  exact (buildStart_slots hs).1 k e he

/-- Every slot that BUILD has filled is a leaf of its leaf set or an internal node. -/
theorem slot_cases (hs : MemoryForm s) (h : Merging (buildStart s).node (leafList s).length n v) {k : Nat}
    (hk : k < n) : (∃ e ∈ leafList s, LeafSlot v.node k e.1 e.2) ∨ SumSlot v.node k := by
  by_cases hL : k < (leafList s).length
  · exact .inl ⟨_, List.getElem_mem hL, leafSlot_of_merging hs h (List.getElem?_eq_getElem hL)⟩
  · exact .inr (h.sums k (by omega) hk)

end

/-- Settles O27: `Merging` and the tree invariant, at the end of the merges. -/
theorem buildMakesTheTree : Obligations.BuildMakesTheTree := by
  rintro s cs n hq hs rfl rfl hfit
  obtain ⟨v, n, hv, hd⟩ := exists_mergesDone hs hfit
  obtain ⟨rfl, hroot, hmerging⟩ := merging_of_done hs hv hd
  obtain ⟨t, hholds, hperm, hleaves⟩ := tree_of_done (hv.keep_treeInv (treeInv_buildStart hs)) hd
  obtain ⟨-, habove⟩ := buildStart_slots hs
  have hexec := exec_build_of_done hq hv hd
  have hweight := weightOf_of_merges hs hv
  have hle := leafList_length_le s
  have hlist := leafList_eq s
  have hnleaves : v.nleaves = BitVec.ofNat 9 (leafList s).length := by rw [hv.frame, buildStart_frame]
  have hleaf : ∀ k e, (leafList s)[k]? = some e → LeafSlot v.node k e.1 e.2 :=
    fun _ _ he => leafSlot_of_merging hs hmerging he
  rw [hroot] at hholds hperm hweight
  rw [afterBuild, hroot] at hexec
  rw [hnleaves, BitVec.toNat_ofNat, Nat.mod_eq_of_lt (by omega)] at hleaves
  rw [← leafList_length]
  refine ⟨v.node, t, hexec, hholds, hperm, hleaves, fun k c hc => ?_, ?_, hmerging.sums, ?_, fun k hk => ?_⟩
  · refine hleaf k (BitVec.ofNat 9 c, s.histAt c) ?_
    have hk : k < (codedBytes s).length := (List.getElem?_eq_some_iff.mp hc).1
    rw [hlist, List.getElem?_append_left (by simpa using hk), List.getElem?_map, hc]
    rfl
  · refine hleaf _ (Config.eofSym, 1#32) ?_
    rw [leafList_length, hlist]
    simp
  · rw [weightOf, List.map_singleton, List.sum_singleton, State.weightAt, State.nodeAt,
      toNat_ofNat_idx (by unfold Config.nodeCap; omega)] at hweight
    exact hweight
  · have hpos := leafList_length_pos s
    rw [hmerging.others k (.inr hk), habove k (by omega)]

/-! ### Trees of one and of two leaves -/

/-- R216: HIST adds up to the counts of the coded bytes. -/
theorem histTotal_eq (s : State) : histTotal s = ((codedBytes s).map fun c => (s.histAt c).toNat).sum := by
  have h := leafList_weight s
  rw [leafList_eq, List.map_append, List.sum_append, List.map_map] at h
  exact (Nat.succ.inj h).symm

/-- Where one element of PQ is left, no merge follows. -/
theorem Merges.eq_of_length_le {s t : State} (h : Merges s t) (hl : s.pq.length ≤ 1) : t = s := by
  obtain rfl | ⟨u, hstep, -⟩ := h.cases_head
  · rfl
  · cases hstep
    omega

/-- R218: BUILD of two leaves makes one merge. -/
theorem eq_merged_of_two_leaves {s v : State} {n : Nat} (hl : (leafList s).length = 2)
    (h : Merges (buildStart s) v) (hd : MergesDone n v) : v = merged 2 [] (buildStart s) := by
  have hlen := buildStart_length s
  obtain rfl | ⟨u, hstep, hrest⟩ := h.cases_head
  · have := hd.2
    omega
  · have := hstep.length_pq
    rw [Merges.eq_of_length_le hrest (by omega)]
    obtain ⟨n', picks, hp, -, -⟩ := hstep
    obtain ⟨rfl, rfl⟩ : 2 = n' ∧ [] = picks := by simpa [buildStart_pos, hl] using hp
    rfl

/-- R218, R214: of two leaves `LOWEST_INDEX` takes the lighter one first, and node 0 at equal weight. -/
theorem firstPick_two_leaves {s : State} {c : Nat} (hs : MemoryForm s) (hc : codedBytes s = [c])
    (ht : s.par.tie = .lowestIndex) :
    firstPick [] (buildStart s) = if s.histAt c = 1#32 then 0#10 else 1#10 := by
  have hlist : leafList s = [(BitVec.ofNat 9 c, s.histAt c), (Config.eofSym, 1#32)] := by rw [leafList_eq, hc]; rfl
  have hpq : (buildStart s).pq = [0#10, 1#10] := by rw [buildStart_pq, hlist]; rfl
  obtain ⟨hleaf, -⟩ := buildStart_slots hs
  have hw0 : (buildStart s).weightAt 0#10 = (s.histAt c).toNat :=
    congrArg BitVec.toNat (hleaf 0 (BitVec.ofNat 9 c, s.histAt c) (by rw [hlist]; rfl)).2.2
  have hw1 : (buildStart s).weightAt 1#10 = 1 :=
    congrArg BitVec.toNat (hleaf 1 (Config.eofSym, 1#32) (by rw [hlist]; rfl)).2.2
  have hne : s.histAt c ≠ 0#32 := by
    have : c ∈ codedBytes s := by rw [hc]; exact List.mem_singleton.mpr rfl
    simpa [codedBytes] using (List.mem_filter.mp this).2
  have hpos : (s.histAt c).toNat ≠ 0 := fun h => hne (BitVec.eq_of_toNat_eq h)
  obtain ⟨hmem, hmin⟩ := firstPick_spec [] (s := buildStart s) (by rw [hpq]; decide)
  have htie : (buildStart s).par.tie = .lowestIndex := by rw [buildStart_frame]; exact ht
  have hlow : ∀ j ∈ (buildStart s).pq,
      (buildStart s).weightAt j = (buildStart s).weightAt (firstPick [] (buildStart s)) →
        firstPick [] (buildStart s) ≤ j := fun j hj hw => select_lowestIndex_le htie (by rw [hpq]; decide) hj hw
  generalize firstPick [] (buildStart s) = a at hmem hmin hlow
  rw [hpq] at hmem hmin hlow
  obtain rfl | rfl : a = 0#10 ∨ a = 1#10 := by simpa using hmem
  · have := hmin 1#10 (by simp)
    rw [hw0, hw1] at this
    rw [if_pos (BitVec.eq_of_toNat_eq (by simp; omega))]
  · rw [if_neg fun h => ?_]
    refine absurd (hlow 0#10 (by simp) ?_) (by decide)
    rw [hw0, hw1, h]
    rfl

/-- Two different slots below 2 are slots 0 and 1. -/
theorem slots_below_two {a b : Idx} (ha : a.toNat < 2) (hb : b.toNat < 2) (hne : a ≠ b) :
    a = 0#10 ∧ b = 1#10 ∨ a = 1#10 ∧ b = 0#10 := by
  have hne' : a.toNat ≠ b.toNat := fun h => hne (BitVec.eq_of_toNat_eq h)
  obtain h | h : a.toNat = 0 ∨ a.toNat = 1 := by omega
  · exact .inl ⟨BitVec.eq_of_toNat_eq h, BitVec.eq_of_toNat_eq (by simp; omega)⟩
  · exact .inr ⟨BitVec.eq_of_toNat_eq h, BitVec.eq_of_toNat_eq (by simp; omega)⟩

/-- Settles O30: O27 for one and for two leaves, and the first selection among two. -/
theorem buildDegenerateTrees : Obligations.BuildDegenerateTrees := by
  intro s hq hs
  have htotal := histTotal_eq s
  refine ⟨fun hc => ?_, fun c hc hlt => ?_⟩
  · rw [hc] at htotal
    obtain ⟨m, -, hexec, -, -, -, -, ⟨hleaf, hsym, hw⟩, -⟩ := buildMakesTheTree s [] 1 hq hs hc.symm rfl
      (by simp [htotal, Config.maxCount])
    exact ⟨m, hexec, holds_leaf_iff.mpr ⟨by decide, hleaf, hsym⟩, hw⟩
  · rw [hc] at htotal
    have hfit : histTotal s + 1 ≤ Config.maxCount := by
      rw [htotal]
      simpa using hlt
    obtain ⟨m, -, hexec, -, -, -, hbyte, ⟨hleaf1, hsym1, hw1⟩, hinner, -⟩ :=
      buildMakesTheTree s [c] 2 hq hs hc.symm rfl hfit
    obtain ⟨hleaf0, hsym0, hw0⟩ := hbyte 0 c rfl
    obtain ⟨hleaf2, hl, hr, hne, -⟩ := hinner 2 (Nat.le_refl 2) (by decide)
    have h0 : holds m 0#10 (.leaf (BitVec.ofNat 9 c)) = true := holds_leaf_iff.mpr ⟨by decide, hleaf0, hsym0⟩
    have h1 : holds m 1#10 (.leaf 256#9) = true := holds_leaf_iff.mpr ⟨by decide, hleaf1, hsym1⟩
    refine ⟨m, hexec, ?_, hleaf0, hsym0, hw0, hleaf1, hsym1, hw1, fun ht => ?_⟩
    · have h2 {l r : HuffTree} (hl : holds m (Memory.get Node.blank m 2).left l = true)
          (hr : holds m (Memory.get Node.blank m 2).right r = true) : holds m 2#10 (.node l r) = true :=
        holds_node (by decide) hleaf2 hl hr
      obtain ⟨ha, hb⟩ | ⟨ha, hb⟩ := slots_below_two hl hr hne
      · exact .inl (h2 (by rw [ha]; exact h0) (by rw [hb]; exact h1))
      · exact .inr (h2 (by rw [ha]; exact h1) (by rw [hb]; exact h0))
    · obtain ⟨v, n, hv, hd, hafter⟩ := exists_done_of_exec hq hexec
      have hlen : (leafList s).length = 2 := by rw [leafList_length, hc]; rfl
      have hm : m = (merged 2 [] (buildStart s)).node := by
        rw [← eq_merged_of_two_leaves hlen hv hd]
        exact congrArg State.node hafter
      obtain ⟨hwf, -⟩ := (treeInv_buildStart hs).merging (buildStart_pos s)
      rw [hm, merged_node [] (by decide), Memory.get_set_self _ hwf, ← firstPick_two_leaves hs hc ht]
      rfl

end Sys2Proof.Machine

/-! SUPPORT. BUILD is a function of HIST and `TIE` (R214): two BUILDs from equal HIST go through equal merges, in slots
that agree in all that is meaningful in them (R51). -/

namespace Sys2Proof.Machine

/-- R213, R214: a selection depends on HIST, the policy and the weights of the elements. -/
theorem select_congr {s u : State} {picks p : List Idx} (hh : s.hist = u.hist) (ht : s.par.tie = u.par.tie)
    (hw : ∀ i ∈ p, s.weightAt i = u.weightAt i) : select s picks p = select u picks p := by
  have hmin : minWeight s p = minWeight u p := by
    unfold minWeight
    induction p with
    | nil => rfl
    | cons i p ih =>
      rw [List.forall_mem_cons] at hw
      rw [List.foldr_cons, List.foldr_cons, hw.1, ih hw.2]
  have hlight : lightest s p = lightest u p := by
    unfold lightest ofWeight
    rw [hmin]
    exact List.filter_congr fun i hi => by rw [hw i hi]
  rw [select, select, hlight, hh, ht]

/-- Two slots agree in all that is meaningful in them (R51). -/
def SameNode (v w : Node) : Prop :=
  v.leaf = w.leaf ∧ v.weight = w.weight ∧ (v.leaf = true → v.sym = w.sym) ∧
    (v.leaf = false → v.left = w.left ∧ v.right = w.right)

/-- Two BUILDs between merges, with the same HIST, policy and PQ, after the same selections, and slots that agree. -/
structure Twin (s u : State) : Prop where
  hist : s.hist = u.hist
  tie : s.par.tie = u.par.tie
  pq : s.pq = u.pq
  pos : s.pos = u.pos
  nodes : ∀ n picks, s.pos = .merge n picks →
    ∀ k < n, SameNode (Memory.get Node.blank s.node k) (Memory.get Node.blank u.node k)

section
variable {s u t : State}

theorem leafList_congr (h : s.hist = u.hist) : leafList s = leafList u := by
  unfold leafList State.histAt
  rw [h]

theorem twin_buildStart (hs : MemoryForm s) (hu : MemoryForm u) (hh : s.hist = u.hist)
    (ht : s.par.tie = u.par.tie) : Twin (buildStart s) (buildStart u) := by
  have hl := leafList_congr hh
  refine ⟨?_, ?_, ?_, ?_, fun n picks hp k hk => ?_⟩
  · rw [buildStart_frame s, buildStart_frame u]
    exact hh
  · rw [buildStart_frame s, buildStart_frame u]
    exact ht
  · rw [buildStart_pq, buildStart_pq, hl]
  · rw [buildStart_pos, buildStart_pos, hl]
  · obtain ⟨rfl, -⟩ : (leafList s).length = n ∧ _ := by simpa [buildStart_pos] using hp
    obtain ⟨hleaf, hsym, hw⟩ := (buildStart_slots hs).1 k _ (List.getElem?_eq_getElem hk)
    obtain ⟨hleaf', hsym', hw'⟩ := (buildStart_slots hu).1 k _ (by rw [← hl]; exact List.getElem?_eq_getElem hk)
    exact ⟨hleaf.trans hleaf'.symm, hw.trans hw'.symm, fun _ => hsym.trans hsym'.symm,
      fun h => nomatch hleaf.symm.trans h⟩

/-- R214: the same merge follows in both. -/
theorem Twin.step (h : Twin s u) (hs : TreeInv s) (hu : TreeInv u) (hstep : MergeStep s t) :
    ∃ t', MergeStep u t' ∧ Twin t t' := by
  obtain ⟨n, picks, hp, hl, hfit⟩ := hstep
  obtain ⟨hh, ht, hpq, hpos, hnodes⟩ := h
  have hp' := hpos.symm.trans hp
  obtain ⟨hm, hcap, hforest⟩ := hs.merging hp
  obtain ⟨hm', -, -⟩ := hu.merging hp'
  have hnodes := hnodes n picks hp
  have hw : ∀ i ∈ s.pq, s.weightAt i = u.weightAt i := fun i hi =>
    congrArg BitVec.toNat (hnodes i.toNat (lt_of_mem_pq hforest hi)).2.1
  have ha : firstPick picks s = firstPick picks u := by
    rw [firstPick, firstPick, ← hpq]
    exact select_congr hh ht hw
  have hb : secondPick picks s = secondPick picks u := by
    rw [secondPick, secondPick, ← ha, ← hpq]
    exact select_congr hh ht fun i hi => hw i (List.mem_of_mem_erase hi)
  have hamem := (firstPick_spec picks hl).1
  have hbmem := List.mem_of_mem_erase (secondPick_spec picks hl).1
  refine ⟨merged n picks u, .merge n picks hp' (hpq ▸ hl) ?_, ⟨hh, ht, ?_, ?_, fun n' picks' hp'' k hk => ?_⟩⟩
  · rw [← ha, ← hb, ← hw _ hamem, ← hw _ hbmem]
    exact hfit
  · rw [merged_pq, merged_pq, unpicked, unpicked, ← ha, ← hb, hpq]
  · rw [merged, merged, ← ha, ← hb]
    rfl
  · obtain ⟨rfl, -⟩ : n + 1 = n' ∧ _ := by simpa [merged, mergeNodes] using hp''
    rw [merged_node picks (by omega), merged_node picks (by omega), ← ha, ← hb]
    obtain hlt | rfl := Nat.lt_succ_iff_lt_or_eq.mp hk
    · rw [Memory.get_set_other _ _ _ (Nat.ne_of_lt hlt), Memory.get_set_other _ _ _ (Nat.ne_of_lt hlt)]
      exact hnodes k hlt
    · rw [Memory.get_set_self _ hm, Memory.get_set_self _ hm']
      have hwa := (hnodes _ (lt_of_mem_pq hforest hamem)).2.1
      have hwb := (hnodes _ (lt_of_mem_pq hforest hbmem)).2.1
      exact ⟨rfl, congrArg₂ (· + ·) hwa hwb, nofun, fun _ => ⟨rfl, rfl⟩⟩

/-- R214: the same merges follow in both. -/
theorem exists_twin (hs : MemoryForm s) (hu : MemoryForm u) (hh : s.hist = u.hist) (ht : s.par.tie = u.par.tie)
    (h : Merges (buildStart s) t) : ∃ t', Merges (buildStart u) t' ∧ Twin t t' :=
  h.preserve_of_treeInv (P := fun t => ∃ t', Merges (buildStart u) t' ∧ Twin t t')
    (fun _ _ hinv hstep ⟨_, hm, htwin⟩ =>
      let ⟨t'', hstep', htwin'⟩ := htwin.step hinv (hm.keep_treeInv (treeInv_buildStart hu)) hstep
      ⟨t'', hm.tail hstep', htwin'⟩)
    (treeInv_buildStart hs) ⟨_, .refl, twin_buildStart hs hu hh ht⟩

end

/-- A tree in slots of which the children lie below is the same tree in slots that agree with them. -/
theorem tree_of_sameNode {m m' : Memory Node} {n : Nat}
    (hsame : ∀ k < n, SameNode (Memory.get Node.blank m k) (Memory.get Node.blank m' k))
    (hbelow : ∀ k < n, (Memory.get Node.blank m k).leaf = false →
      (Memory.get Node.blank m k).left.toNat < n ∧ (Memory.get Node.blank m k).right.toNat < n)
    {t : HuffTree} {i : Idx} (hi : i.toNat < n) (h : holds m i t = true) :
    holds m' i t = true ∧ slotsOf m' i t = slotsOf m i t := by
  induction t generalizing i with
  | leaf c =>
    obtain ⟨hleaf, -, hsym, -⟩ := hsame _ hi
    obtain ⟨hlt, hl, hc⟩ := holds_leaf_iff.mp h
    exact ⟨holds_leaf_iff.mpr ⟨hlt, hleaf ▸ hl, (hsym hl).symm.trans hc⟩, rfl⟩
  | node l r ihl ihr =>
    obtain ⟨hleaf, -, -, hchildren⟩ := hsame _ hi
    obtain ⟨hlt, hl, hhl, hhr⟩ := holds_node_iff.mp h
    obtain ⟨hbl, hbr⟩ := hbelow _ hi hl
    obtain ⟨hel, her⟩ := hchildren hl
    obtain ⟨hhl', hsl⟩ := ihl hbl hhl
    obtain ⟨hhr', hsr⟩ := ihr hbr hhr
    refine ⟨holds_node_iff.mpr ⟨hlt, hleaf ▸ hl, hel ▸ hhl', her ▸ hhr'⟩, ?_⟩
    rw [slotsOf, slotsOf, ← hel, ← her, hsl, hsr]

/-- Settles O31: the second BUILD makes the merges of the first one, and its slots agree with the first one's. -/
theorem buildIsDeterministic : Obligations.BuildIsDeterministic := by
  intro s u t v tr hq hq' hs hu hh ht hexec hexec' hholds
  obtain ⟨x, n, hx, hd, rfl⟩ := exists_done_of_exec hq hexec
  obtain ⟨y, hy, htwin⟩ := exists_twin hs hu hh ht hx
  obtain ⟨picks, hp⟩ := hd.1
  rw [exec_build_of_done hq' hy (n := n) ⟨⟨picks, htwin.pos ▸ hp⟩, htwin.pq ▸ hd.2⟩] at hexec'
  cases hexec'
  obtain ⟨rfl, hroot, hmerging⟩ := merging_of_done hs hx hd
  have hroot' : (afterBuild (2 * (leafList s).length - 1) y u).root = x.pq.headD Config.nil := by rw [htwin.pq]; rfl
  have hlt : (x.pq.headD Config.nil).toNat < 2 * (leafList s).length - 1 := by
    have := leafList_length_pos s
    have := leafList_length_le s
    rw [hroot, List.headD_cons, toNat_ofNat_idx (by unfold Config.nodeCap; omega)]
    omega
  have htree := tree_of_sameNode (htwin.nodes _ _ hp) (fun k hk hleaf => ?_) hlt hholds
  · rw [hroot']
    exact ⟨rfl, rfl, congrArg (fun l : List (Sym × Word) => BitVec.ofNat 9 l.length) (leafList_congr hh).symm, htree⟩
  · obtain ⟨e, -, hk', -⟩ | ⟨-, hl, hr, -⟩ := slot_cases hs hmerging hk
    · exact nomatch hk'.symm.trans hleaf
    · exact ⟨hl.trans hk, hr.trans hk⟩

end Sys2Proof.Machine

/-! SUPPORT. BUILD's tree has the least weighted path length (R222). A tree with the same leaves is followed through
the merges by the weights and depths of its leaves: wherever BUILD merges the two least weights, they can be moved to
two deepest leaves and put together there, at a saving of at least their sum. -/

namespace Sys2Proof.Machine

/-! ### Leaf depths -/

/-- The depths of the leaves of a strict binary tree: that of a single leaf, and those after a leaf is split in two. -/
inductive LeafDepths : Multiset Nat → Prop
  | root : LeafDepths {0}
  | split (d : Nat) (m : Multiset Nat) (h : LeafDepths (d ::ₘ m)) : LeafDepths ((d + 1) ::ₘ (d + 1) ::ₘ m)

/-- Two deepest leaves can be put together into one. -/
theorem LeafDepths.exists_deepest {m : Multiset Nat} (h : LeafDepths m) (hc : 1 < m.card) :
    ∃ d r, m = (d + 1) ::ₘ (d + 1) ::ₘ r ∧ LeafDepths (d ::ₘ r) ∧ ∀ e ∈ r, e ≤ d + 1 := by
  induction h with
  | root => simp at hc
  | split d m h ih =>
    by_cases hdeep : ∀ e ∈ m, e ≤ d + 1
    · exact ⟨d, m, rfl, h, hdeep⟩
    · push Not at hdeep
      obtain ⟨x, hx, hlt⟩ := hdeep
      obtain ⟨c, r, heq, hr, hle⟩ := ih (by simpa using Multiset.card_pos_iff_exists_mem.mpr ⟨x, hx⟩)
      have hxc : x ≤ c + 1 := by
        have : x ∈ (c + 1) ::ₘ (c + 1) ::ₘ r := heq ▸ Multiset.mem_cons_of_mem hx
        obtain rfl | h := by simpa using this
        · exact Nat.le_refl _
        · exact hle x h
      have hdr : d ∈ r := by
        have : d ∈ (c + 1) ::ₘ (c + 1) ::ₘ r := heq ▸ Multiset.mem_cons_self d m
        simpa [show d ≠ c + 1 by omega] using this
      obtain ⟨r, rfl⟩ := Multiset.exists_cons_of_mem hdr
      have hm : m = (c + 1) ::ₘ (c + 1) ::ₘ r := by
        rw [Multiset.cons_swap (c + 1) d, Multiset.cons_swap (c + 1) d, Multiset.cons_inj_right] at heq
        exact heq
      refine ⟨c, (d + 1) ::ₘ (d + 1) ::ₘ r, ?_, ?_, ?_⟩
      · rw [hm]
        simp only [← Multiset.singleton_add]
        abel
      · rw [Multiset.cons_swap c, Multiset.cons_swap c]
        exact .split d _ (by rwa [Multiset.cons_swap])
      · simp only [Multiset.mem_cons] at hle ⊢
        rintro e (rfl | rfl | he)
        · omega
        · omega
        · exact hle e (.inr he)

/-- A leaf can be replaced by a tree. -/
theorem LeafDepths.graft {k : Nat} {r m : Multiset Nat} (hr : LeafDepths (k ::ₘ r)) (hm : LeafDepths m) :
    LeafDepths (m.map (· + k) + r) := by
  induction hm with
  | root => simpa using hr
  | split d m _ ih =>
    simp only [Multiset.map_cons, Multiset.cons_add, Nat.add_right_comm d 1 k] at ih ⊢
    exact .split _ _ ih

/-- The depths of the leaves of two trees under a common root. -/
theorem LeafDepths.join {l r : Multiset Nat} (hl : LeafDepths l) (hr : LeafDepths r) :
    LeafDepths (l.map (· + 1) + r.map (· + 1)) := by
  have hl' := LeafDepths.graft (LeafDepths.split 0 0 .root) hl
  rw [Multiset.add_cons, add_zero] at hl'
  rw [add_comm]
  exact LeafDepths.graft hl' hr

/-! ### Weights and depths -/

/-- The weighted path length of leaves given by their weights and depths. -/
def profileCost (p : Multiset (Nat × Nat)) : Nat := (p.map fun e => e.1 * e.2).sum

@[simp] theorem profileCost_cons (e : Nat × Nat) (p : Multiset (Nat × Nat)) :
    profileCost (e ::ₘ p) = e.1 * e.2 + profileCost p := by simp [profileCost]

theorem exists_cons_of_depth {p : Multiset (Nat × Nat)} {d : Nat} {m : Multiset Nat}
    (h : p.map Prod.snd = d ::ₘ m) : ∃ x q, p = (x, d) ::ₘ q ∧ q.map Prod.snd = m := by
  obtain ⟨⟨x, _⟩, hmem, rfl, hq⟩ := (Multiset.map_eq_cons _ _ _ _).mpr h
  exact ⟨x, _, (Multiset.cons_erase hmem).symm, hq⟩

/-- A least weight `a` can take the place of a deepest leaf: the other leaves, with the weights and depths that are
left, cost no more than before beside it. -/
theorem exists_least_deepest {p : Multiset (Nat × Nat)} {a d : Nat} {m r : Multiset Nat}
    (hm : p.map Prod.snd = d ::ₘ m) (hd : ∀ e ∈ m, e ≤ d) (hw : p.map Prod.fst = a ::ₘ r) (hr : ∀ z ∈ r, a ≤ z) :
    ∃ q, q.map Prod.snd = m ∧ q.map Prod.fst = r ∧ a * d + profileCost q ≤ profileCost p := by
  obtain ⟨x, p, rfl, rfl⟩ := exists_cons_of_depth hm
  rw [Multiset.map_cons] at hw
  obtain rfl | ha : a = x ∨ a ∈ p.map Prod.fst := Multiset.mem_cons.mp (hw ▸ Multiset.mem_cons_self a r)
  · exact ⟨p, rfl, (Multiset.cons_inj_right _).mp hw, (profileCost_cons (a, d) p).ge⟩
  · obtain ⟨⟨a, c⟩, hmem, rfl⟩ := Multiset.mem_map.mp ha
    have hc : c ≤ d := hd c (Multiset.mem_map_of_mem Prod.snd hmem)
    obtain ⟨p, rfl⟩ := Multiset.exists_cons_of_mem hmem
    obtain rfl : x ::ₘ p.map Prod.fst = r := by
      rw [Multiset.map_cons, Multiset.cons_swap] at hw
      exact (Multiset.cons_inj_right _).mp hw
    refine ⟨(x, c) ::ₘ p, by simp, by simp, ?_⟩
    obtain ⟨j, rfl⟩ := Nat.exists_eq_add_of_le (hr x (Multiset.mem_cons_self x _))
    obtain ⟨k, rfl⟩ := Nat.exists_eq_add_of_le hc
    simp only [profileCost_cons]
    nlinarith [Nat.zero_le (j * k)]

/-- R222: the two least weights can be put together into one leaf, at a saving of at least their sum. -/
theorem exists_mergeProfile {p : Multiset (Nat × Nat)} {a b : Nat} {r : Multiset Nat}
    (hd : LeafDepths (p.map Prod.snd)) (hw : p.map Prod.fst = a ::ₘ b ::ₘ r) (hab : a ≤ b)
    (hr : ∀ z ∈ r, b ≤ z) :
    ∃ q, LeafDepths (q.map Prod.snd) ∧ q.map Prod.fst = (a + b) ::ₘ r ∧
      a + b + profileCost q ≤ profileCost p := by
  have hcard : 1 < (p.map Prod.snd).card := by
    rw [Multiset.card_map, ← Multiset.card_map Prod.fst, hw, Multiset.card_cons, Multiset.card_cons]
    omega
  obtain ⟨d, m, hm, hdepths, hdeep⟩ := hd.exists_deepest hcard
  obtain ⟨q, hq, hwq, hcq⟩ := exists_least_deepest hm
    (Multiset.forall_mem_cons.mpr ⟨Nat.le_refl _, hdeep⟩) hw
    (Multiset.forall_mem_cons.mpr ⟨hab, fun z hz => hab.trans (hr z hz)⟩)
  obtain ⟨q, hq, hwq, hcq'⟩ := exists_least_deepest hq hdeep hwq hr
  refine ⟨(a + b, d) ::ₘ q, ?_, ?_, ?_⟩
  · rwa [Multiset.map_cons, hq]
  · rw [Multiset.map_cons, hwq]
  · rw [profileCost_cons]
    linarith

/-! ### Trees -/

/-- The weights and depths of the leaves of a tree. -/
def HuffTree.profile (w : Sym → Nat) (t : HuffTree) : Multiset (Nat × Nat) :=
  ((t.paths []).map fun e => (w e.1, e.2.length) : List (Nat × Nat))

section
variable (w : Sym → Nat)

theorem profileCost_profile (t : HuffTree) : profileCost (t.profile w) = t.cost w := by
  simp [profileCost, HuffTree.profile, HuffTree.cost, Function.comp_def]

theorem profile_node (l r : HuffTree) : (HuffTree.node l r).profile w =
    (l.profile w).map (fun e => (e.1, e.2 + 1)) + (r.profile w).map (fun e => (e.1, e.2 + 1)) := by
  simp only [HuffTree.profile, HuffTree.paths, List.nil_append]
  rw [paths_eq_map l [false], paths_eq_map r [true]]
  simp [Function.comp_def]

theorem profile_weights (t : HuffTree) : (t.profile w).map Prod.fst = (t.syms.map w : List Nat) := by
  induction t with
  | leaf c => rfl
  | node l r ihl ihr =>
    rw [profile_node, Multiset.map_add, Multiset.map_map, Multiset.map_map]
    change (l.profile w).map Prod.fst + (r.profile w).map Prod.fst = _
    rw [ihl, ihr, HuffTree.syms, List.map_append]
    rfl

theorem leafDepths_profile (t : HuffTree) : LeafDepths ((t.profile w).map Prod.snd) := by
  induction t with
  | leaf c => exact .root
  | node l r ihl ihr =>
    rw [profile_node, Multiset.map_add, Multiset.map_map, Multiset.map_map]
    simpa [Function.comp_def] using ihl.join ihr

/-- One level up, every leaf is one bit deeper. -/
theorem profileCost_deeper (p : Multiset (Nat × Nat)) :
    profileCost (p.map fun e => (e.1, e.2 + 1)) = profileCost p + (p.map Prod.fst).sum := by
  simp [profileCost, Nat.mul_succ, Multiset.sum_map_add]

/-- The weighted path length counts the weight of each internal node once (R216, R222). -/
theorem HuffTree.cost_node (l r : HuffTree) : (HuffTree.node l r).cost w =
    l.cost w + r.cost w + ((l.syms.map w).sum + (r.syms.map w).sum) := by
  rw [← profileCost_profile, profile_node, profileCost, Multiset.map_add, Multiset.sum_add, ← profileCost,
    ← profileCost, profileCost_deeper, profileCost_deeper, profileCost_profile, profileCost_profile,
    profile_weights, profile_weights, Multiset.sum_coe, Multiset.sum_coe]
  omega

end

/-- NODE holds one tree at a slot. -/
theorem holds_unique {m : Memory Node} {i : Idx} {t u : HuffTree} (ht : holds m i t = true)
    (hu : holds m i u = true) : t = u := by
  induction t generalizing i u with
  | leaf c =>
    obtain ⟨-, hleaf, rfl⟩ := holds_leaf_iff.mp ht
    cases u with
    | leaf d => rw [(holds_leaf_iff.mp hu).2.2]
    | node l r => exact nomatch hleaf.symm.trans (holds_node_iff.mp hu).2.1
  | node l r ihl ihr =>
    obtain ⟨-, hleaf, hl, hr⟩ := holds_node_iff.mp ht
    cases u with
    | leaf d => exact nomatch hleaf.symm.trans (holds_leaf_iff.mp hu).2.1
    | node l' r' =>
      obtain ⟨-, -, hl', hr'⟩ := holds_node_iff.mp hu
      rw [ihl hl hl', ihr hr hr']

/-! ### Slots -/

/-- The weight of slot `k`. -/
def slotWeight (m : Memory Node) (k : Nat) : Nat := (Memory.get Node.blank m k).weight.toNat

/-- The weight of slot `k` if it is an internal node. -/
def innerWeight (m : Memory Node) (k : Nat) : Nat := if (Memory.get Node.blank m k).leaf then 0 else slotWeight m k

/-- The weights of the leaves among some slots. -/
def leafWeights (m : Memory Node) (l : List Nat) : List Nat :=
  (l.filter fun k => (Memory.get Node.blank m k).leaf).map (slotWeight m)

/-- R216, R222: a tree in slots whose leaves have the weights `w` of their symbols, and whose internal nodes have the
weight sums of their children. -/
theorem tree_weights {m : Memory Node} {n : Nat} {w : Sym → Nat}
    (hslots : ∀ k < n, ((Memory.get Node.blank m k).leaf = true ∧
      slotWeight m k = w (Memory.get Node.blank m k).sym) ∨ SumSlot m k)
    {t : HuffTree} {i : Idx} (hi : i.toNat < n) (h : holds m i t = true) :
    slotWeight m i.toNat = (t.syms.map w).sum ∧ leafWeights m (slotsOf m i t) = t.syms.map w ∧
      ((slotsOf m i t).map (innerWeight m)).sum = t.cost w := by
  induction t generalizing i with
  | leaf c =>
    obtain ⟨-, hleaf, rfl⟩ := holds_leaf_iff.mp h
    obtain ⟨-, hw⟩ | ⟨hnot, -⟩ := hslots _ hi
    · simp [HuffTree.syms, slotsOf, leafWeights, innerWeight, HuffTree.cost, HuffTree.paths, hleaf, hw]
    · exact nomatch hleaf.symm.trans hnot
  | node l r ihl ihr =>
    obtain ⟨-, hnot, hl, hr⟩ := holds_node_iff.mp h
    obtain ⟨hleaf, -⟩ | ⟨-, hlt, hrt, -, hw⟩ := hslots _ hi
    · exact nomatch hleaf.symm.trans hnot
    · obtain ⟨hwl, hll, hcl⟩ := ihl (hlt.trans hi) hl
      obtain ⟨hwr, hlr, hcr⟩ := ihr (hrt.trans hi) hr
      have hsum : slotWeight m i.toNat = (l.syms.map w).sum + (r.syms.map w).sum := by
        rw [← hwl, ← hwr]
        exact hw
      refine ⟨by simpa [HuffTree.syms] using hsum, ?_, ?_⟩
      · rw [HuffTree.syms, List.map_append, ← hll, ← hlr]
        simp [leafWeights, slotsOf, hnot]
      · rw [HuffTree.cost_node, ← hcl, ← hcr, ← hsum]
        simp [slotsOf, innerWeight, hnot]
        omega

/-! ### BUILD -/

/-- The internal nodes made so far, and leaves of some tree whose weights are those of PQ, cost at most `c` together
(R222). -/
def CostWithin (c : Nat) (s : State) : Prop :=
  ∃ n picks p, s.pos = .merge n picks ∧ LeafDepths (p.map Prod.snd) ∧ p.map Prod.fst = pqWeights s ∧
    ((List.range n).map (innerWeight s.node)).sum + profileCost p ≤ c

section
variable {s t : State} {n c : Nat} {picks : List Idx}

/-- R215: a merge makes one internal node, of the sum of the two weights. -/
theorem innerWeights_merged (hs : TreeInv s) (hp : s.pos = .merge n picks) (hl : 1 < s.pq.length)
    (hfit : s.weightAt (firstPick picks s) + s.weightAt (secondPick picks s) ≤ Config.maxCount) :
    ((List.range (n + 1)).map (innerWeight (merged n picks s).node)).sum =
      ((List.range n).map (innerWeight s.node)).sum +
        (s.weightAt (firstPick picks s) + s.weightAt (secondPick picks s)) := by
  obtain ⟨hm, hcap, -⟩ := hs.merging hp
  have hold : ∀ k ∈ List.range n, innerWeight (merged n picks s).node k = innerWeight s.node k := fun k hk => by
    rw [innerWeight, slotWeight, merged_node picks (by omega),
      Memory.get_set_other _ _ _ (Nat.ne_of_lt (List.mem_range.mp hk))]
    rfl
  have hnew : innerWeight (merged n picks s).node n =
      s.weightAt (firstPick picks s) + s.weightAt (secondPick picks s) := by
    rw [innerWeight, slotWeight, merged_node picks (by omega), Memory.get_set_self _ hm]
    exact (BitVec.toNat_add _ _).trans (Nat.mod_eq_of_lt (Nat.lt_succ_of_le hfit))
  rw [List.range_succ, List.map_append, List.sum_append, List.map_congr_left hold, List.map_singleton,
    List.sum_singleton, hnew]

/-- R214, R222: a merge of the two least weights costs no more than putting them together in the other tree saves. -/
theorem MergeStep.keeps_costWithin (h : MergeStep s t) (hs : TreeInv s) (hc : CostWithin c s) : CostWithin c t := by
  obtain ⟨n, picks, hp, hl, hfit⟩ := h
  obtain ⟨n', picks', p, hp', hdepths, hweights, hle⟩ := hc
  obtain ⟨rfl, -⟩ : n = n' ∧ _ := by simpa using hp.symm.trans hp'
  obtain ⟨-, hamin⟩ := firstPick_spec picks hl
  obtain ⟨hb, hbmin⟩ := secondPick_spec picks hl
  rw [pqWeights_picks picks hl] at hweights
  obtain ⟨q, hq, hwq, hcq⟩ := exists_mergeProfile hdepths hweights (hamin _ (List.mem_of_mem_erase hb)) fun z hz => by
    obtain ⟨j, hj, rfl⟩ := List.mem_map.mp hz
    exact hbmin j (List.mem_of_mem_erase hj)
  refine ⟨n + 1, _, q, rfl, hq, hwq.trans (pqWeights_merged hs hp hl hfit).symm, ?_⟩
  rw [innerWeights_merged hs hp hl hfit]
  omega

/-- R211: the leaves' weights are those of their symbols. -/
theorem leafWeight_of_mem_leafList {e : Sym × Word} (he : e ∈ leafList s) : leafWeight s e.1 = e.2.toNat := by
  rw [leafList_eq, List.mem_append, List.mem_map, List.mem_singleton] at he
  obtain ⟨b, hb, rfl⟩ | rfl := he
  · have hlt : b < 256 := List.mem_range.mp (List.mem_of_mem_filter hb)
    have hnat : (BitVec.ofNat 9 b).toNat = b := by
      rw [BitVec.toNat_ofNat]
      exact Nat.mod_eq_of_lt (by omega)
    have hne : BitVec.ofNat 9 b ≠ Config.eofSym := fun h => by
      have := congrArg BitVec.toNat h
      rw [hnat] at this
      simp [Config.eofSym] at this
      omega
    rw [leafWeight, if_neg hne, hnat]
  · rfl

/-- R210: PQ begins with the weights of the leaves. -/
theorem pqWeights_buildStart (hs : MemoryForm s) :
    pqWeights (buildStart s) = ((leafList s).map fun e => e.2.toNat : List Nat) := by
  have hle := leafList_length_le s
  rw [← weightAt_placeLeaves (n := 0) (s := clearTree ((accept (encode .build) s).setPhase .building))
    (memoryForm_iff.mp hs).2.1 (by unfold Config.nodeCap; omega), ← List.range_eq_range', pqWeights, buildStart_pq,
    List.map_map]
  rfl

/-- A tree with the leaf weights of BUILD bounds the cost that BUILD begins with. -/
theorem costWithin_buildStart (hs : MemoryForm s) {w : Sym → Nat} {other : HuffTree}
    (hw : (other.syms.map w).Perm ((leafList s).map fun e => e.2.toNat)) :
    CostWithin (other.cost w) (buildStart s) := by
  have hzero : ∀ k ∈ List.range (leafList s).length, innerWeight (buildStart s).node k = 0 := fun k hk => by
    obtain ⟨hleaf, -⟩ := (buildStart_slots hs).1 k _ (List.getElem?_eq_getElem (List.mem_range.mp hk))
    rw [innerWeight, if_pos hleaf]
  refine ⟨_, [], other.profile w, buildStart_pos s, leafDepths_profile w other, ?_, ?_⟩
  · rw [profile_weights, pqWeights_buildStart hs]
    exact Multiset.coe_eq_coe.mpr hw
  · rw [List.map_congr_left hzero, profileCost_profile]
    simp

/-- The leaves among the slots that BUILD has filled are slots 0 to L − 1, with the weights of its leaf set (R220). -/
theorem leafWeights_of_merging {v : State} (hs : MemoryForm s)
    (h : Merging (buildStart s).node (leafList s).length n v) :
    leafWeights v.node (List.range n) = (leafList s).map fun e => e.2.toNat := by
  have hget {k : Nat} (hk : k < (leafList s).length) := leafSlot_of_merging hs h (List.getElem?_eq_getElem hk)
  have hfilter : (List.range n).filter (fun k => (Memory.get Node.blank v.node k).leaf) =
      List.range (leafList s).length := by
    obtain ⟨j, rfl⟩ := Nat.exists_eq_add_of_le h.le
    rw [List.range_add, List.filter_append, List.filter_eq_self.mpr fun k hk => (hget (List.mem_range.mp hk)).1,
      List.filter_eq_nil_iff.mpr, List.append_nil]
    intro k hk
    obtain ⟨i, hi, rfl⟩ := List.mem_map.mp hk
    have := List.mem_range.mp hi
    simp [(h.sums _ (Nat.le_add_right _ i) (by omega)).1]
  rw [leafWeights, hfilter]
  refine List.ext_getElem (by simp) fun k hk hk' => ?_
  rw [List.getElem_map, List.getElem_map, List.getElem_range]
  exact congrArg BitVec.toNat (hget (by simpa using hk)).2.2

end

/-- Settles O32: the cost of the other tree bounds that of BUILD's internal nodes from merge to merge, and these are
the weighted path length of BUILD's tree. -/
theorem buildIsOptimal : Obligations.BuildIsOptimal := by
  intro s t tr other hq hs hexec hholds hsyms
  obtain ⟨v, n, hv, hd, rfl⟩ := exists_done_of_exec hq hexec
  have hinv := treeInv_buildStart hs
  obtain ⟨tr', hholds', hperm, -⟩ := tree_of_done (hv.keep_treeInv hinv) hd
  obtain rfl := holds_unique hholds hholds'
  obtain ⟨-, -, hmerging⟩ := merging_of_done hs hv hd
  have hroot : (v.pq.headD Config.nil).toNat < n :=
    List.mem_range.mp (hperm.mem_iff.mp (by cases tr <;> simp [slotsOf]))
  have hslots : ∀ k < n, ((Memory.get Node.blank v.node k).leaf = true ∧
      slotWeight v.node k = leafWeight s (Memory.get Node.blank v.node k).sym) ∨ SumSlot v.node k := fun k hk => by
    obtain ⟨e, he, hleaf, hsym, hw⟩ | hsum := slot_cases hs hmerging hk
    · exact .inl ⟨hleaf, by rw [hsym, leafWeight_of_mem_leafList he, slotWeight, hw]⟩
    · exact .inr hsum
  obtain ⟨-, hleaves, hcost⟩ := tree_weights hslots hroot hholds'
  have hw : (other.syms.map (leafWeight s)).Perm ((leafList s).map fun e => e.2.toNat) := by
    refine (hsyms.map _).trans ?_
    rw [← hleaves, ← leafWeights_of_merging hs hmerging]
    exact (hperm.filter _).map _
  obtain ⟨n', picks, p, hp, -, -, hle⟩ := hv.preserve_of_treeInv (P := CostWithin (other.cost (leafWeight s)))
    (fun _ _ hu hstep => hstep.keeps_costWithin hu) hinv (costWithin_buildStart hs hw)
  obtain ⟨picks', hp'⟩ := hd.1
  obtain ⟨rfl, -⟩ : n' = n ∧ _ := by simpa using hp.symm.trans hp'
  rw [← hcost, (hperm.map _).sum_eq]
  exact (Nat.le_add_right _ _).trans hle

end Sys2Proof.Machine

/-! SUPPORT. The code table (R240-R245): the entries that GENCODES leaves, that no path to a leaf of a
tree begins another one, and the symbols that have a leaf in BUILD's tree. -/

namespace Sys2Proof.Machine

/-! ### The entries that the walk records -/

/-- The entry for symbol `k` after the leaves `l` were recorded, each with its path: that of the last one of that
symbol (R243). -/
def lastEntry (l : List (Sym × Bits)) (k : Nat) : CodeEntry :=
  ((l.reverse.find? fun e => e.1.toNat == k).map fun e => { valid := true, bits := e.2 }).getD CodeEntry.invalid

theorem codeOf_eq_lastEntry (t : HuffTree) (k : Nat) : t.codeOf k = lastEntry (t.paths []) k := by
  unfold HuffTree.codeOf lastEntry
  cases (t.paths []).reverse.find? fun e => e.1.toNat == k <;> rfl

/-- R243: a later leaf of the same symbol overwrites. -/
theorem lastEntry_append_singleton (l : List (Sym × Bits)) (e : Sym × Bits) (k : Nat) :
    lastEntry (l ++ [e]) k = if e.1.toNat = k then { valid := true, bits := e.2 } else lastEntry l k := by
  rw [lastEntry, List.reverse_append, List.reverse_singleton, List.singleton_append]
  by_cases h : e.1.toNat = k
  · rw [List.find?_cons_of_pos (by simpa using h), if_pos h]
    rfl
  · rw [List.find?_cons_of_neg (by simpa using h), if_neg h, lastEntry]

theorem recordPaths_append_singleton (l : List (Sym × Bits)) (e : Sym × Bits) (m : Memory CodeEntry) :
    recordPaths (l ++ [e]) m = if e.1.toNat ≤ 256 then
      Memory.set CodeEntry.invalid (recordPaths l m) e.1.toNat { valid := true, bits := e.2 }
    else recordPaths l m := recordPaths_append l [e] m

theorem recordPaths_wf (l : List (Sym × Bits)) : Memory.wf CodeEntry.invalid 257 (recordPaths l []) = true := by
  induction l using List.reverseRecOn with
  | nil => rfl
  | append_singleton l e ih =>
    rw [recordPaths_append_singleton]
    split
    · exact Memory.wf_set _ ih _ (by omega)
    · exact ih

/-- R240, R243: an empty CODE holds, after the walk, the last path of each symbol that has an entry. -/
theorem get_recordPaths (l : List (Sym × Bits)) {k : Nat} (hk : k ≤ 256) :
    Memory.get CodeEntry.invalid (recordPaths l []) k = lastEntry l k := by
  induction l using List.reverseRecOn with
  | nil => rfl
  | append_singleton l e ih =>
    rw [recordPaths_append_singleton, lastEntry_append_singleton]
    by_cases h : e.1.toNat = k
    · rw [if_pos (h ▸ hk), if_pos h, h]
      exact Memory.get_set_self_of_ne _ _ _ nofun
    · rw [if_neg h, ← ih]
      split
      · exact Memory.get_set_other _ _ _ (Ne.symm h)
      · rfl

/-- R243: a symbol without a leaf has no entry, and any other has the path of one of its leaves. -/
theorem codeOf_cases (t : HuffTree) (k : Nat) :
    (t.codeOf k = CodeEntry.invalid ∧ ∀ e ∈ t.paths [], e.1.toNat ≠ k) ∨
      ∃ e ∈ t.paths [], e.1.toNat = k ∧ t.codeOf k = { valid := true, bits := e.2 } := by
  rw [codeOf_eq_lastEntry, lastEntry]
  cases h : (t.paths []).reverse.find? fun e => e.1.toNat == k with
  | none => exact .inl ⟨rfl, by simpa using h⟩
  | some e => exact .inr ⟨e, by simpa using List.mem_of_find?_eq_some h, by simpa using List.find?_some h, rfl⟩

theorem toNat_ofNat_sym {k : Nat} (h : k ≤ 256) : (BitVec.ofNat 9 k).toNat = k := by
  rw [BitVec.toNat_ofNat]
  exact Nat.mod_eq_of_lt (by omega)

/-- R242: a valid code is the path of a leaf of its symbol. -/
theorem mem_paths_of_valid {t : HuffTree} {k : Nat} (h : (t.codeOf k).valid = true) :
    (BitVec.ofNat 9 k, (t.codeOf k).bits) ∈ t.paths [] := by
  obtain ⟨hc, -⟩ | ⟨e, he, rfl, hc⟩ := codeOf_cases t k
  · rw [hc] at h
    cases h
  · simpa [hc] using he

theorem map_fst_paths (t : HuffTree) (p : Bits) : (t.paths p).map Prod.fst = t.syms := by
  induction t generalizing p with
  | leaf c => rfl
  | node l r ihl ihr => rw [HuffTree.paths, List.map_append, ihl, ihr, HuffTree.syms]

/-- The valid codes are those of the symbols that have a leaf (R240). -/
theorem codeOf_valid_iff {t : HuffTree} {k : Nat} : (t.codeOf k).valid = true ↔ ∃ c ∈ t.syms, c.toNat = k := by
  rw [← map_fst_paths t []]
  obtain ⟨hc, hno⟩ | ⟨e, he, hk, hc⟩ := codeOf_cases t k
  · rw [hc]
    refine ⟨nofun, fun ⟨_, hm, hk⟩ => ?_⟩
    obtain ⟨e, he, rfl⟩ := List.mem_map.mp hm
    exact absurd hk (hno e he)
  · rw [hc]
    exact ⟨fun _ => ⟨e.1, List.mem_map_of_mem he, hk⟩, fun _ => rfl⟩

/-! ### The command -/

/-- GENCODES after its walk: no call waits, and CODE holds the paths of the tree `t` (R240). -/
def walked (t : HuffTree) (s : State) : State :=
  { beginGencodes (accept (encode .gencodes) s) with stack := [], code := recordPaths (t.paths []) [] }

/-- R160, R240: the walk of a whole tree, and the end of GENCODES after it. -/
theorem exec_gencodes {s : State} {t : HuffTree} (hq : Quiet s) (hv : s.treeValid = true)
    (hh : holds s.node s.root t = true) (ht : t.leaves ≤ 257) : exec .gencodes s =
    .next { completed .gencodes s with codesValid := true, code := recordPaths (t.paths []) [] } := by
  have hcmd : ¬ running (walked t s) = .compress := fun h => nomatch decode_encode_gencodes.symm.trans h
  have hstart := run_one (by nofun) (turn_accept (s := s) decode_encode_gencodes hv)
  have hwalk : run t.size (beginGencodes (accept (encode .gencodes) s)) = .next (walked t s) :=
    run_walk t (s := beginGencodes (accept (encode .gencodes) s)) rfl rfl hh
  have hempty : turn (walked t s) = .next { walked t s with codesValid := true, pos := .endOf .gencodes } :=
    turn_walk rfl
  have hend : turn { walked t s with codesValid := true, pos := .endOf .gencodes } =
      .next (finish { walked t s with codesValid := true, pos := .endOf .gencodes }) :=
    (turn_endOf rfl).trans (congrArg _ (if_neg hcmd))
  refine exec_of_run hq (run_trans hstart (run_trans hwalk (run_trans (run_one (by nofun) hempty)
    (run_one (by nofun) hend)))) rfl ?_
  have := t.size_add_one
  unfold turnsToEnd
  omega

/-- Settles O33: the walk records the paths of the tree's leaves in preorder. -/
theorem gencodesMakesTheCodeTable : Obligations.GencodesMakesTheCodeTable := fun _ t hq hv hh ht =>
  ⟨recordPaths (t.paths []) [], exec_gencodes hq hv hh ht, recordPaths_wf _,
    fun k hk => (get_recordPaths _ hk).trans (codeOf_eq_lastEntry t k).symm⟩

/-- CODE after GENCODES (R240). -/
theorem codeAt_of_exec_gencodes {s u : State} {t : HuffTree} (hq : Quiet s) (hv : s.treeValid = true)
    (hh : holds s.node s.root t = true) (ht : t.leaves ≤ 257) (hu : exec .gencodes s = .next u) {k : Nat}
    (hk : k ≤ 256) : u.codeAt k = t.codeOf k := by
  obtain ⟨c, hexec, -, hcode⟩ := gencodesMakesTheCodeTable s t hq hv hh ht
  cases hexec.symm.trans hu
  exact hcode k hk

/-! ### No path begins another -/

/-- R242: the path to a leaf begins no other leaf's path: they part at a node above both. -/
theorem eq_of_path_prefix {t : HuffTree} {c d : Sym} {p q : Bits} (hp : (c, p) ∈ t.paths [])
    (hq : (d, q) ∈ t.paths []) (h : p <+: q) : c = d ∧ p = q := by
  induction t generalizing p q with
  | leaf e =>
    obtain ⟨rfl, rfl⟩ := mem_paths_leaf hp
    obtain ⟨rfl, rfl⟩ := mem_paths_leaf hq
    exact ⟨rfl, rfl⟩
  | node l r ihl ihr =>
    obtain ⟨a, p, rfl, hp'⟩ := mem_paths_node hp
    obtain ⟨b, q, rfl, hq'⟩ := mem_paths_node hq
    obtain ⟨rfl, hpq⟩ := List.cons_prefix_cons.mp h
    have ih : c = d ∧ p = q := by
      cases a with
      | false => exact ihl hp' hq' hpq
      | true => exact ihr hp' hq' hpq
    exact ⟨ih.1, congrArg _ ih.2⟩

/-- No leaf of a tree is listed twice, even where a symbol labels several (R243). -/
theorem nodup_paths (t : HuffTree) : (t.paths []).Nodup := by
  have hinj (b : Bool) : Function.Injective fun e : Sym × Bits => (e.1, [b] ++ e.2) := fun e f h => by
    simpa [Prod.ext_iff] using h
  induction t with
  | leaf c => exact List.nodup_singleton _
  | node l r ihl ihr =>
    rw [HuffTree.paths, paths_eq_map l, paths_eq_map r]
    refine (ihl.map (hinj false)).append (ihr.map (hinj true)) fun e he hf => ?_
    obtain ⟨_, -, rfl⟩ := List.mem_map.mp he
    obtain ⟨_, -, hf⟩ := List.mem_map.mp hf
    simp at hf

/-- R242: a path leads to one leaf. -/
theorem filter_paths_eq {t : HuffTree} {c : Sym} {p : Bits} (h : (c, p) ∈ t.paths []) :
    (t.paths []).filter (fun e => e.2 == p) = [(c, p)] := by
  have hiff : ∀ e ∈ t.paths [], (e.2 == p) = (e == (c, p)) := fun e he => by
    rw [Bool.eq_iff_iff, beq_iff_eq, beq_iff_eq]
    exact ⟨fun hp => Prod.ext (eq_of_path_prefix he h (hp ▸ List.prefix_refl _)).1 hp, congrArg Prod.snd⟩
  rw [List.filter_congr hiff, List.filter_beq, List.count_eq_one_of_mem (nodup_paths t) h, List.replicate_one]

/-- Settles O34: each valid code is the path of a leaf, no path of a tree begins another one, and each is shorter than
the tree has leaves. -/
theorem codesArePrefixFree : Obligations.CodesArePrefixFree := by
  intro s u t hq hv hh ht hu
  have hcode {k : Nat} (hk : k ≤ 256) := codeAt_of_exec_gencodes hq hv hh ht hu hk
  refine ⟨fun c hc => ?_, fun c hc hcv => ?_, fun c hc d hd hne hcv hdv => ?_⟩
  · rw [hcode hc]
    obtain ⟨hno, -⟩ | ⟨e, he, -, hsome⟩ := codeOf_cases t c
    · rw [hno]
      exact Nat.zero_le 256
    · rw [hsome]
      exact Nat.le_of_lt_succ ((path_length_lt he).trans_le ht)
  · rw [hcode hc] at hcv ⊢
    exact filter_paths_eq (mem_paths_of_valid hcv)
  · rw [hcode hc] at hcv ⊢
    rw [hcode hd] at hdv ⊢
    intro h
    have hsym := (eq_of_path_prefix (mem_paths_of_valid hcv) (mem_paths_of_valid hdv) h).1
    rw [← toNat_ofNat_sym hc, ← toNat_ofNat_sym hd, hsym] at hne
    exact hne rfl

/-! ### The symbols of BUILD's tree -/

/-- The symbols of a tree are those of the leaves among its slots. -/
theorem mem_syms_iff {m : Memory Node} {t : HuffTree} {i : Idx} (h : holds m i t = true) {c : Sym} : c ∈ t.syms ↔
    ∃ k ∈ slotsOf m i t, (Memory.get Node.blank m k).leaf = true ∧ (Memory.get Node.blank m k).sym = c := by
  induction t generalizing i with
  | leaf d =>
    obtain ⟨-, hleaf, hsym⟩ := holds_leaf_iff.mp h
    rw [HuffTree.syms, slotsOf, List.mem_singleton]
    simp only [List.mem_singleton, exists_eq_left, hleaf, hsym, true_and]
    exact eq_comm
  | node l r ihl ihr =>
    obtain ⟨-, hnot, hl, hr⟩ := holds_node_iff.mp h
    rw [HuffTree.syms, List.mem_append, ihl hl, ihr hr]
    simp [slotsOf, hnot, or_and_right, exists_or]

/-- R211: the leaves of BUILD's tree are its leaf set. -/
theorem mem_syms_of_build {s v : State} {n : Nat} {t : HuffTree} (hs : MemoryForm s)
    (hv : Merging (buildStart s).node (leafList s).length n v) (hh : holds v.node (v.pq.headD Config.nil) t = true)
    (hperm : (slotsOf v.node (v.pq.headD Config.nil) t).Perm (List.range n)) {c : Sym} :
    c ∈ t.syms ↔ ∃ e ∈ leafList s, e.1 = c := by
  rw [mem_syms_iff hh]
  constructor
  · rintro ⟨k, hk, hleaf, rfl⟩
    obtain ⟨e, he, -, hsym, -⟩ | ⟨hnot, -⟩ := slot_cases hs hv (List.mem_range.mp (hperm.mem_iff.mp hk))
    · exact ⟨e, he, hsym.symm⟩
    · exact nomatch hleaf.symm.trans hnot
  · rintro ⟨e, he, rfl⟩
    obtain ⟨k, hk⟩ := List.mem_iff_getElem?.mp he
    obtain ⟨hleaf, hsym, -⟩ := leafSlot_of_merging hs hv hk
    have hlt := (List.getElem?_eq_some_iff.mp hk).1.trans_le hv.le
    exact ⟨k, hperm.mem_iff.mpr (List.mem_range.mpr hlt), hleaf, hsym⟩

/-- R211: the symbols of BUILD's leaf set. -/
theorem exists_leafList_iff {s : State} {k : Nat} :
    (∃ e ∈ leafList s, e.1.toNat = k) ↔ k = 256 ∨ (k < 256 ∧ s.histAt k ≠ 0#32) := by
  rw [leafList_eq]
  constructor
  · rintro ⟨e, he, rfl⟩
    obtain he | he := List.mem_append.mp he
    · obtain ⟨b, hb, rfl⟩ := List.mem_map.mp he
      obtain ⟨hlt, hne⟩ := List.mem_filter.mp hb
      rw [List.mem_range] at hlt
      rw [toNat_ofNat_sym hlt.le]
      exact .inr ⟨hlt, bne_iff_ne.mp hne⟩
    · rw [List.mem_singleton.mp he]
      exact .inl rfl
  · rintro (rfl | ⟨hlt, hne⟩)
    · exact ⟨_, List.mem_append_right _ (List.mem_singleton_self _), rfl⟩
    · refine ⟨_, List.mem_append_left _ (List.mem_map_of_mem (List.mem_filter.mpr ⟨List.mem_range.mpr hlt, ?_⟩)),
        toNat_ofNat_sym hlt.le⟩
      exact bne_iff_ne.mpr hne

/-- Settles O35: the symbols that have a leaf in BUILD's tree are those of its leaf set. -/
theorem codesCoverTheCountedSymbols : Obligations.CodesCoverTheCountedSymbols := by
  intro s t u hq hs ht hu c hc
  obtain ⟨v, n, hv, hd, rfl⟩ := exists_done_of_exec hq ht
  obtain ⟨tree, hh, hperm, hleaves⟩ := tree_of_done (hv.keep_treeInv (treeInv_buildStart hs)) hd
  obtain ⟨-, -, hmerging⟩ := merging_of_done hs hv hd
  have hle : tree.leaves ≤ 257 := by
    have := leafList_length_le s
    rw [hleaves, hv.frame, buildStart_frame]
    simp only [BitVec.toNat_ofNat]
    omega
  rw [codeAt_of_exec_gencodes (s := afterBuild n v s) ⟨rfl, hq.2⟩ rfl hh hle hu hc, codeOf_valid_iff,
    ← exists_leafList_iff]
  simp only [mem_syms_of_build hs hmerging hh hperm, exists_exists_and_eq_and]

end Sys2Proof.Machine

/-! SUPPORT. SERIALIZE (R260): `WriteTree`'s run over a tree in NODE, and the command around it. -/

namespace Sys2Proof.Machine

/-- A state whose command has written the bits `b` to an open sink (R39, R89). -/
def appended (b : Bits) (s : State) : State :=
  { s with out := { s.out with bits := s.out.bits ++ b }, outBits := s.outBits + BitVec.ofNat 32 b.length }

theorem appended_appended (b c : Bits) (s : State) : appended c (appended b s) = appended (b ++ c) s := by
  simp [appended, BitVec.add_assoc, BitVec.ofNat_add]

/-- A checked write to an open sink appends its bits and goes on. -/
theorem checkWrite_appended {s : State} (n v : Nat) (k : State → State) (ho : SinkOpen s.out) :
    checkWrite n v s k = .next (k (appended (bin n v) s)) := by
  rw [checkWrite_open n v k ho, appended, bin_length]

section
variable {s : State} {f : Frame} {rest : List Frame}

/-- R260: the tag of an internal node; its subtrees come next, the left one first. -/
theorem turn_writeTree_node {l r : HuffTree} (hp : s.pos = .writeTree) (hst : s.stack = f :: rest)
    (ho : SinkOpen s.out) (hh : holds s.node f.idx (.node l r) = true) : turn s = .next { appended [false] s with
      stack := { idx := (s.nodeAt f.idx).left, path := [], leftDone := false }
        :: { idx := (s.nodeAt f.idx).right, path := [], leftDone := false } :: rest } := by
  obtain ⟨hlt, hleaf, -, -⟩ := holds_node_iff.mp hh
  rw [turn_writeTree hp ho.1.1, writeTreeTurn, hst]
  dsimp only
  rw [withNode_of_lt _ hlt, State.nodeAt, hleaf, if_neg Bool.false_ne_true, checkWrite_appended _ _ _ ho]
  rfl

/-- R260: the tag of a leaf. -/
theorem turn_writeTree_leaf {c : Sym} (hp : s.pos = .writeTree) (hst : s.stack = f :: rest) (ho : SinkOpen s.out)
    (hh : holds s.node f.idx (.leaf c) = true) :
    turn s = .next { appended [true] s with stack := rest, pos := .writeSym f.idx } := by
  obtain ⟨hlt, hleaf, -⟩ := holds_leaf_iff.mp hh
  rw [turn_writeTree hp ho.1.1, writeTreeTurn, hst]
  dsimp only
  rw [withNode_of_lt _ hlt, State.nodeAt, hleaf, if_pos rfl, checkWrite_appended _ _ _ ho]
  rfl

theorem turn_writeSym {i : Idx} (hp : s.pos = .writeSym i) (ho : s.out.silent = false) :
    turn s = writeSymTurn i s := by simp [turn, waiting, asksInput, pieceAt, hp, ho]

/-- R260: the Symbol of a leaf. -/
theorem turn_writeSym_open {i : Idx} {c : Sym} (hp : s.pos = .writeSym i) (ho : SinkOpen s.out)
    (hh : holds s.node i (.leaf c) = true) :
    turn s = .next { appended (bin 9 c.toNat) s with pos := .writeTree } := by
  obtain ⟨hlt, -, hsym⟩ := holds_leaf_iff.mp hh
  rw [turn_writeSym hp ho.1.1, writeSymTurn, withNode_of_lt _ hlt, State.nodeAt, hsym, checkWrite_appended _ _ _ ho]
  rfl

end

/-- R260, R262: `WriteTree` of a tree appends the bits of the tree. -/
theorem run_writeTree (t : HuffTree) {s : State} {f : Frame} {rest : List Frame} (hp : s.pos = .writeTree)
    (hst : s.stack = f :: rest) (ho : SinkOpen s.out) (hh : holds s.node f.idx t = true) :
    run (t.size + t.leaves) s = .next { appended t.bits s with stack := rest } := by
  have hbusy : s.pos ≠ .idle := by rw [hp]; nofun
  induction t generalizing s f rest with
  | leaf c =>
    have h1 := turn_writeTree_leaf hp hst ho hh
    have h2 := turn_writeSym_open (s := { appended [true] s with stack := rest, pos := .writeSym f.idx }) rfl ho hh
    rw [HuffTree.bits, ← List.singleton_append, ← appended_appended]
    refine (run_trans (run_one hbusy h1) (run_one nofun h2)).trans ?_
    rw [← hp]
    rfl
  | node l r ihl ihr =>
    obtain ⟨-, -, hl, hr⟩ := holds_node_iff.mp hh
    have h0 := run_one hbusy (turn_writeTree_node hp hst ho hh)
    have h1 := ihl (s := { appended [false] s with
      stack := { idx := (s.nodeAt f.idx).left, path := [], leftDone := false }
        :: { idx := (s.nodeAt f.idx).right, path := [], leftDone := false } :: rest }) hp rfl ho hl hbusy
    have h2 := ihr (s := { appended l.bits (appended [false] s) with
      stack := { idx := (s.nodeAt f.idx).right, path := [], leftDone := false } :: rest }) hp rfl ho hr hbusy
    rw [show (HuffTree.node l r).size + (HuffTree.node l r).leaves = 1 + (l.size + l.leaves + (r.size + r.leaves)) by
        simp only [HuffTree.size, HuffTree.leaves]; omega,
      HuffTree.bits, ← List.singleton_append, ← appended_appended, ← appended_appended]
    exact run_trans h0 (run_trans h1 h2)

/-- R260: SERIALIZE once its tree is written. -/
def treeWritten (t : HuffTree) (s : State) : State :=
  { appended t.bits (beginWriteTree (accept (encode .serialize) s)) with stack := [] }

/-- Settles O36: `WriteTree` of the whole tree, between the first turn and the success epilogue. -/
theorem serializeWritesTheTree : Obligations.SerializeWritesTheTree := by
  intro s t hq hv hh ht ho
  have hstart := run_one (by nofun) (turn_accept (s := s) decode_encode_serialize hv)
  have hwrite : run (t.size + t.leaves) (beginWriteTree (accept (encode .serialize) s)) = .next (treeWritten t s) :=
    run_writeTree t rfl rfl ho hh
  have hempty : turn (treeWritten t s) = .next ((treeWritten t s).goto (.endOf .writeTree)) :=
    turn_writeTree rfl ho.1.1
  have hcmd : running ((treeWritten t s).goto (.endOf .writeTree)) = .serialize := decode_encode_serialize
  have hend : turn ((treeWritten t s).goto (.endOf .writeTree)) =
      .next (finish ((treeWritten t s).goto (.endOf .writeTree))) :=
    (turn_endOf (st := .writeTree) rfl).trans (congrArg _ (if_pos hcmd))
  refine (exec_of_run hq (run_trans hstart (run_trans hwrite (run_trans (run_one (by nofun) hempty)
    (run_one (by nofun) hend)))) rfl ?_).trans ?_
  · have := t.size_add_one
    unfold turnsToEnd
    omega
  · have hlen : 11 * t.leaves - 1 = t.bits.length := by have := t.bits_length_add_one; omega
    rw [hlen, ← BitVec.zero_add (BitVec.ofNat 32 t.bits.length)]
    rfl

end Sys2Proof.Machine

/-! SUPPORT. DESERIALIZE (R270, R271) over the bits of a tree (R273), and what SERIALIZE wrote read back (R275). -/

namespace Sys2Proof.Machine

/-- DESERIALIZE once the tree `t` is read: it stands in NODE `m`, and no further bit is read (R271, R273). -/
def treeReadIn (m : Memory Node) (t : HuffTree) (s : State) : State :=
  { consumed t.bits.length (beginReadTree (accept (encode .deserialize) s)) with
    node := m, root := 0#10, nnodes := BitVec.ofNat 10 t.size, nleaves := BitVec.ofNat 9 t.leaves
    treeValid := true, stack := [], pos := .endOf .readTree }

/-- Settles O38: `ReadTree` of the whole tree, between the first turn and the success epilogue. -/
theorem deserializeReadsTheTree : Obligations.DeserializeReadsTheTree := by
  intro s t rest hq hform ha hu ht
  obtain ⟨-, hm, -, -⟩ := memoryForm_iff.mp hform
  have hsize := t.size_add_one
  have hfit : 0 + t.size ≤ Config.nodeCap := by unfold Config.nodeCap; omega
  obtain ⟨m, p, st, hread, hrun⟩ := run_readTree t (s := beginReadTree (accept (encode .deserialize) s)) rfl hm ha hu
    hfit
  rw [Nat.zero_add, Nat.zero_add] at hrun
  have hstart := run_one (by nofun) (turn_accept (s := s) decode_encode_deserialize rfl)
  have hcmd : ¬ running (treeReadIn m t s) = .decode := fun h => nomatch decode_encode_deserialize.symm.trans h
  have hend : turn (treeReadIn m t s) = .next (finish (treeReadIn m t s)) :=
    (turn_endOf (st := .readTree) rfl).trans (if_neg hcmd)
  refine ⟨m, (exec_of_run hq (run_trans hstart (run_trans hrun (run_one (by nofun) hend))) rfl ?_).trans ?_,
    holds_of_preorderAt hfit hread.tree, hread.tree, fun k hk => hread.others k (.inr (by omega))⟩
  · unfold turnsToEnd
    omega
  · rw [show 2 * t.leaves - 1 = t.size by omega, ← BitVec.zero_add (BitVec.ofNat 32 t.bits.length)]
    rfl

/-- Settles O40: O36 gives the bits that are written, and O38 reads them. -/
theorem headerIdempotence : Obligations.HeaderIdempotence := by
  intro s u t rest hqs hv hh ht ho hqu hform ha
  refine ⟨_, t.bits, serializeWritesTheTree s t hqs hv hh ht ho, rfl, rfl, fun hu => ?_⟩
  obtain ⟨m, hexec, hholds, -, -⟩ := deserializeReadsTheTree u t rest hqu hform ha hu ht
  exact ⟨_, hexec, rfl, rfl, hholds, rfl⟩

end Sys2Proof.Machine

/-! SUPPORT. `ReadTree` over bits that begin with no tree that NODE has room for (R271, R274, R276): it fails. -/

namespace Sys2Proof.Machine

/-! ### Trees still to be read -/

/-- The trees that the waiting callers of `ReadNode` read after the current one: the right child of each caller whose
left child has not been read (R271). -/
def pending (st : List Frame) : Nat := st.countP fun f => !f.leftDone

/-- The bits `h` begin with no `k` trees that fit in the NODE slots from `n` on. -/
def NoForest (h : Bits) (n k : Nat) : Prop :=
  ∀ (ts : List HuffTree) (rest : Bits), ts.length = k → h = ts.flatMap HuffTree.bits ++ rest →
    Config.nodeCap < n + (ts.map HuffTree.size).sum

section
variable {h : Bits} {n k : Nat}

/-- A tree of more than 257 leaves does not fit in NODE (R274). -/
theorem noForest_one (hh : ∀ (t : HuffTree) (rest : Bits), h = t.bits ++ rest → 257 < t.leaves) : NoForest h 0 1 := by
  intro ts rest hl he
  obtain ⟨t, rfl⟩ := List.length_eq_one_iff.mp hl
  have hleaves := hh t rest (by simpa using he)
  have hsize := t.size_add_one
  simp only [Config.nodeCap, List.map_cons, List.map_nil, List.sum_cons, List.sum_nil]
  omega

theorem NoForest.of_zero (hf : NoForest h n 0) : Config.nodeCap < n := hf [] h rfl rfl

/-- R127: after the tag of an internal node, its two subtrees are to be read in its place. -/
theorem NoForest.node (hf : NoForest (false :: h) n (k + 1)) : NoForest h (n + 1) (k + 2) := by
  rintro (_ | ⟨l, _ | ⟨r, ts⟩⟩) rest hl rfl
  · cases hl
  · cases hl
  · have := hf (.node l r :: ts) rest (by simpa using hl) (by simp [HuffTree.bits])
    simp only [List.map_cons, List.sum_cons, HuffTree.size] at this ⊢
    omega

/-- R127: a leaf is a whole tree. -/
theorem NoForest.leaf {c : Sym} (hf : NoForest (true :: (bin 9 c.toNat ++ h)) n (k + 1)) : NoForest h (n + 1) k := by
  rintro ts rest hl rfl
  have := hf (.leaf c :: ts) rest (by simpa using hl) (by simp [HuffTree.bits])
  simp only [List.map_cons, List.sum_cons, HuffTree.size] at this
  omega

end

/-- Nine bits are the bits of a Symbol (R127). -/
theorem exists_sym_bits {h : Bits} (hl : 9 ≤ h.length) : ∃ (c : Sym) (rest : Bits), h = bin 9 c.toNat ++ rest := by
  have hlen : (h.take 9).length = 9 := by rw [List.length_take]; omega
  refine ⟨BitVec.ofNat 9 (val (h.take 9)), h.drop 9, ?_⟩
  have hlt := val_lt (h.take 9)
  have hbits := bin_val (h.take 9)
  rw [hlen] at hlt hbits
  rw [BitVec.toNat_ofNat, Nat.mod_eq_of_lt hlt, hbits, List.take_append_drop]

/-- R271: where a right child is still to be read, `return i` goes on with the innermost one. -/
theorem returnNode_of_pending {n leaves : Nat} {st : List Frame} {i : Idx} {s : State} (h : 0 < pending st) :
    ∃ m st', pending st' + 1 = pending st ∧
      returnNode n leaves st i s = { s with node := m, stack := st', pos := .readTag n leaves } := by
  induction st generalizing i s with
  | nil => cases h
  | cons f rest ih =>
    cases hd : f.leftDone with
    | false => exact ⟨_, _, by simp [pending, hd], returnNode_of_left n leaves rest i s hd⟩
    | true =>
      have heq : pending (f :: rest) = pending rest := by simp [pending, hd]
      rw [heq] at h ⊢
      rw [returnNode_of_right n leaves rest i s hd]
      obtain ⟨m, st', hst, hret⟩ := ih (s := s.setNode f.idx { s.nodeAt f.idx with right := i }) h
      exact ⟨m, st', hst, hret⟩

/-- Unread bits are bits of the port (R86). -/
theorem unread_length_le (p : InPort) : (unread p).length ≤ p.bits.length := by
  unfold unread
  split <;> simp

/-! ### The failing run -/

/-- What `ReadTree` has changed since `s`, where it stood before a tag bit with `n` slots taken, when it raises
CorruptHeader in `t`: of tags of internal nodes only, it has read the 514th, for which NODE has no slot (R274). -/
structure ReadFails (n : Nat) (s t : State) : Prop where
  frame : t = { s with node := t.node, inp := t.inp, inBits := t.inBits, stack := t.stack, pos := t.pos }
  full : ∀ rest, unread s.inp = List.replicate (514 - n) false ++ rest →
    t.inp = advance (514 - n) s.inp ∧ t.inBits = s.inBits + BitVec.ofNat 32 (514 - n)

/-- A run of `ReadTree` from `s`, before a tag bit with `n` slots taken, into CorruptHeader. -/
def FailsToRead (n : Nat) (s : State) : Prop :=
  ∃ k t, k ≤ (unread s.inp).length + 1 ∧ run k s = .next (raise .corruptHeader t) ∧ ReadFails n s t

section
variable {s : State} {n leaves : Nat}

/-- R271: the input ends before a tag bit. -/
theorem failsToRead_of_end (hp : s.pos = .readTag n leaves) (ha : InputAnswers s.inp) (he : InputEnds s.inp)
    (hn : n ≤ Config.nodeCap) (hu : unread s.inp = []) : FailsToRead n s := by
  have hturn : turn s = .next (raise .corruptHeader { s with inp := exhausted 0 s.inp }) := by
    rw [turn_readTag hp ha.1, readTagTurn, inRead_short ha he (by simp [hu])]
  refine ⟨1, _, by omega, run_one (by rw [hp]; nofun) hturn, rfl, fun rest hz => ?_⟩
  have := congrArg List.length hz
  simp only [hu, List.length_append, List.length_replicate, List.length_nil, Config.nodeCap] at this hn
  omega

/-- R274: a tag bit is read, and no slot is free. -/
theorem failsToRead_of_full {b : Bool} {rest : Bits} (hp : s.pos = .readTag Config.nodeCap leaves)
    (ha : InputAnswers s.inp) (hu : unread s.inp = b :: rest) : FailsToRead Config.nodeCap s := by
  have hturn : turn s = .next (raise .corruptHeader (consumed 1 s)) := by
    rw [turn_readTag hp ha.1, readTagTurn, inRead_bit ha hu]
    simp only [tagRead, if_true]
  exact ⟨1, _, by omega, run_one (by rw [hp]; nofun) hturn, rfl, fun _ _ => ⟨rfl, rfl⟩⟩

theorem turn_readSym_short {i : Idx} (hp : s.pos = .readSym i n leaves) (ha : InputAnswers s.inp)
    (he : InputEnds s.inp) (hl : (unread s.inp).length < 9) :
    turn s = .next (raise .corruptHeader { s with inp := exhausted 0 s.inp }) := by
  rw [turn_readSym hp ha.1, readSymTurn, inRead_short ha he hl]

/-- R271: the input ends within the Symbol of a leaf. -/
theorem failsToRead_of_short_sym {rest : Bits} (hp : s.pos = .readTag n leaves) (ha : InputAnswers s.inp)
    (he : InputEnds s.inp) (hn : n < Config.nodeCap) (hu : unread s.inp = true :: rest) (hl : rest.length < 9) :
    FailsToRead n s := by
  have htag := run_one (by rw [hp]; nofun) (turn_readTag_leaf hp ha hu hn)
  have hrest : unread (consumed 1 s).inp = rest := unread_consumed (u := [true]) Nat.one_pos hu
  have hsym := run_one (by nofun)
    (turn_readSym_short (s := { consumed 1 s with pos := .readSym (BitVec.ofNat 10 n) (n + 1) leaves }) rfl ha he
      (by rw [hrest]; exact hl))
  refine ⟨1 + 1, _, by simp [hu], run_trans htag hsym, rfl, fun rest' hz => ?_⟩
  rw [hu, show 514 - n = 513 - n + 1 by unfold Config.nodeCap at hn; omega, List.replicate_succ] at hz
  cases hz

/-- A run over the tag of an internal node, or over a whole leaf, that takes slot `n`, and a failure after it. -/
theorem failsToRead_of_run {u rest : Bits} {k : Nat} {m : Memory Node} {st : List Frame} {p : Pos}
    (hb : u = [false] ∨ ∃ w, u = true :: w) (hk : k ≤ u.length) (hn : n < Config.nodeCap)
    (hu : unread s.inp = u ++ rest)
    (hrun : run k s = .next { consumed u.length s with node := m, stack := st, pos := p })
    (hf : FailsToRead (n + 1) { consumed u.length s with node := m, stack := st, pos := p }) : FailsToRead n s := by
  have h0 : 0 < u.length := by obtain rfl | ⟨w, rfl⟩ := hb <;> simp
  have hrest := unread_consumed h0 hu
  obtain ⟨j, t, hj, hrun', hframe, hfull⟩ := hf
  dsimp only at hj hfull
  rw [hrest] at hj hfull
  refine ⟨k + j, t, by rw [hu, List.length_append]; omega, run_trans hrun hrun', hframe, fun rest' hz => ?_⟩
  have hleft : 514 - n = 514 - (n + 1) + 1 := by unfold Config.nodeCap at hn; omega
  rw [hu, hleft, List.replicate_succ, List.cons_append] at hz
  obtain rfl | ⟨w, rfl⟩ := hb
  · obtain ⟨hinp, hbits⟩ := hfull rest' (List.cons.inj hz).2
    rw [hleft, Nat.add_comm _ 1, hinp, hbits]
    exact ⟨advance_advance _ 1 _, congrArg State.inBits (consumed_consumed _ 1 s)⟩
  · cases hz

/-- R271: a leaf is read, and the innermost right child that is still to be read comes next. -/
theorem run_readLeaf {c : Sym} {rest : Bits} (hp : s.pos = .readTag n leaves) (ha : InputAnswers s.inp)
    (hn : n < Config.nodeCap) (hu : unread s.inp = true :: (bin 9 c.toNat ++ rest)) (hpend : 0 < pending s.stack) :
    ∃ m st, pending st + 1 = pending s.stack ∧ run 2 s = .next { consumed (true :: bin 9 c.toNat).length s with
      node := m, stack := st, pos := .readTag (n + 1) (leaves + 1) } := by
  have htag := run_one (by rw [hp]; nofun) (turn_readTag_leaf hp ha hu hn)
  have hrest : unread (consumed 1 s).inp = bin 9 c.toNat ++ rest := unread_consumed (u := [true]) Nat.one_pos hu
  have hsym := run_one (by nofun) (turn_readSym_bits (k := n)
    (s := { consumed 1 s with pos := .readSym (BitVec.ofNat 10 n) (n + 1) leaves }) rfl ha hrest hn.le)
  obtain ⟨m, st, hst, hret⟩ := returnNode_of_pending (n := n + 1) (leaves := leaves + 1)
    (i := BitVec.ofNat 10 n) (s := { consumed 9 (consumed 1 s) with
      node := Memory.set Node.blank s.node n
        { Memory.get Node.blank s.node n with leaf := true, sym := c, weight := 0#32 }
      pos := .readSym (BitVec.ofNat 10 n) (n + 1) leaves }) hpend
  refine ⟨m, st, hst, (run_trans htag hsym).trans ((congrArg _ hret).trans ?_)⟩
  rw [List.length_cons, bin_length, Nat.add_comm 9, ← consumed_consumed]

end

/-- R271, R274, R276: `ReadTree` fails on bits that begin with no trees that fit in NODE for it and for its callers. -/
theorem failsToRead_of_noForest {s : State} {n leaves : Nat} (hp : s.pos = .readTag n leaves)
    (ha : InputAnswers s.inp) (he : InputEnds s.inp) (hn : n ≤ Config.nodeCap)
    (hf : NoForest (unread s.inp) n (pending s.stack + 1)) : FailsToRead n s := by
  have hbusy : s.pos ≠ .idle := by rw [hp]; nofun
  induction hlen : (unread s.inp).length using Nat.strong_induction_on generalizing s n leaves with
  | _ len ih =>
    match hu : unread s.inp with
    | [] => exact failsToRead_of_end hp ha he hn hu
    | b :: h =>
      rw [hu] at hf hlen
      obtain rfl | hlt := hn.eq_or_lt
      · exact failsToRead_of_full hp ha hu
      cases b with
      | false =>
        have hrest : unread (consumed [false].length s).inp = h := unread_consumed Nat.one_pos hu
        refine failsToRead_of_run (u := [false]) (.inl rfl) le_rfl hlt hu
          (run_one hbusy (turn_readTag_node hp ha hu hlt))
          (ih h.length (by rw [← hlen]; simp) rfl ha he hlt ?_ nofun (congrArg List.length hrest))
        dsimp only
        rw [hrest]
        simpa [pending] using hf.node
      | true =>
        by_cases hl : h.length < 9
        · exact failsToRead_of_short_sym hp ha he hlt hu hl
        obtain ⟨c, rest, rfl⟩ := exists_sym_bits (by omega : 9 ≤ h.length)
        have hrest : unread (consumed (true :: bin 9 c.toNat).length s).inp = rest :=
          unread_consumed (by simp) hu
        have hf' := hf.leaf
        have hpend : 0 < pending s.stack := by
          refine Nat.pos_of_ne_zero fun h0 => ?_
          rw [h0] at hf'
          have := hf'.of_zero
          omega
        obtain ⟨m, st, hst, hrun⟩ := run_readLeaf hp ha hlt hu hpend
        refine failsToRead_of_run (.inr ⟨_, rfl⟩) (by simp) hlt hu hrun
          (ih rest.length (by rw [← hlen]; simp) rfl ha he hlt ?_ nofun (congrArg List.length hrest))
        dsimp only
        rw [hrest, hst]
        exact hf'

/-! ### The commands -/

section
variable {s t : State}

/-- R356: the failure epilogue's close of an open sink. -/
theorem run_raise_open (k : ErrKind) (hc : closesOutput (running s) = true) (ho : SinkOpen s.out) :
    run 1 (raise k s) = .next (failWith k { s with
      phase := .closing, pos := .failClose k, out := closedWith [] (padding s.draws (padCount s.out.bits)) s.out
      draws := s.draws + padCount s.out.bits }) := by
  rw [raise_of_closes k hc]
  refine run_one nofun ?_
  rw [turn_failClose (s := { s with phase := .closing, pos := .failClose k }) rfl ho.1.1, failCloseTurn,
    outClose_open (s := { s with phase := .closing, pos := .failClose k }) ho]

theorem ReadFails.running {n : Nat} (h : ReadFails n s t) : running t = running s := by rw [h.frame]; rfl

theorem ReadFails.out {n : Nat} (h : ReadFails n s t) : t.out = s.out := by rw [h.frame]

/-- R271: DESERIALIZE on bits that begin with no tree that fits in NODE. -/
theorem exec_deserialize_fails (hq : Quiet s) (ha : InputAnswers s.inp) (he : InputEnds s.inp)
    (hf : NoForest (unread s.inp) 0 1) : ∃ t, exec .deserialize s = .next (failWith .corruptHeader t) ∧
      ReadFails 0 (beginReadTree (accept (encode .deserialize) s)) t := by
  obtain ⟨k, t, hk, hrun, hfails⟩ := failsToRead_of_noForest
    (s := beginReadTree (accept (encode .deserialize) s)) rfl ha he (Nat.zero_le _) hf
  have hcmd : running t = .deserialize := hfails.running.trans decode_encode_deserialize
  have hstart := run_one (by nofun) (turn_accept (s := s) decode_encode_deserialize rfl)
  rw [raise_of_not_closes _ (congrArg closesOutput hcmd)] at hrun
  refine ⟨t, exec_of_run hq (run_trans hstart hrun) rfl ?_, hfails⟩
  have hlen : (unread s.inp).length ≤ s.inp.bits.length := unread_length_le s.inp
  have : k ≤ (unread s.inp).length + 1 := hk
  unfold turnsToEnd
  omega

theorem unread_after_magic {h : Bits} (hu : unread s.inp = bin 32 s.par.magic.toNat ++ h) :
    unread (consumed 32 s).inp = h := by
  rw [← bin_length 32 s.par.magic.toNat]
  exact unread_consumed (by simp) hu

/-- R320, R357: DECODE on MAGIC and such bits. -/
theorem exec_decode_fails {h : Bits} (hq : Quiet s) (ha : InputAnswers s.inp) (he : InputEnds s.inp)
    (ho : SinkOpen s.out) (hf : NoForest h 0 1) (hu : unread s.inp = bin 32 s.par.magic.toNat ++ h) :
    ∃ t, exec .decode s = .next (failWith .corruptHeader { t with
        phase := .closing, pos := .failClose .corruptHeader
        out := closedWith [] (padding t.draws (padCount t.out.bits)) t.out
        draws := t.draws + padCount t.out.bits }) ∧
      ReadFails 0 (beginReadTree (consumed 32 (beginDecode (accept (encode .decode) s)))) t := by
  have hrest := unread_after_magic hu
  obtain ⟨k, t, hk, hrun, hfails⟩ := failsToRead_of_noForest
    (s := beginReadTree (consumed 32 (beginDecode (accept (encode .decode) s)))) rfl ha he (Nat.zero_le _)
    (hrest.symm ▸ hf)
  have hcmd : running t = .decode := hfails.running.trans decode_encode_decode
  have hstart := run_one (by nofun) (turn_accept (s := s) decode_encode_decode rfl)
  have hmagic := run_one (by nofun) (turn_getMagic_ok (s := beginDecode (accept (encode .decode) s)) rfl ha hu)
  have hclose := run_raise_open .corruptHeader (congrArg closesOutput hcmd) (hfails.out ▸ ho)
  refine ⟨t, exec_of_run hq (run_trans hstart (run_trans hmagic (run_trans hrun hclose))) rfl ?_, hfails⟩
  have hlen := unread_length_le s.inp
  have hk' : k ≤ h.length + 1 := hk.trans_eq (congrArg (·.length + 1) hrest)
  rw [hu, List.length_append] at hlen
  unfold turnsToEnd
  omega

end

/-- Settles O39: both commands run `ReadTree` on bits that begin with no tree that fits in NODE. -/
theorem deserializeRejectsOtherInput : Obligations.DeserializeRejectsOtherInput := by
  intro s h hq _ ha he hnone
  have hf := noForest_one hnone
  constructor
  · rintro rfl
    obtain ⟨t, hexec, hframe, hfull⟩ := exec_deserialize_fails hq ha he hf
    refine ⟨t.node, t.inp, t.inBits, hexec.trans ?_, fun rest hz => ?_⟩
    · rw [hframe]
      rfl
    · obtain ⟨hinp, hbits⟩ := hfull rest hz
      exact ⟨hbits, hinp⟩
  · intro ho hu
    obtain ⟨t, hexec, hframe, hfull⟩ := exec_decode_fails hq ha he ho hf hu
    refine ⟨t.node, t.inp, t.inBits, padding s.draws (padCount s.out.bits), s.draws + padCount s.out.bits,
      hexec.trans ?_, ?_, fun rest hz => ?_⟩
    · rw [hframe]
      rfl
    · rw [PadsToBytes, padding_length]
      exact padCount_spec _
    · obtain ⟨hinp, hbits⟩ := hfull rest ((unread_after_magic hu).trans hz)
      exact ⟨hbits, hinp.trans (advance_advance _ _ _)⟩

end Sys2Proof.Machine

/-! SUPPORT. The encoder (R290-R296): its header, the codes of the bytes that have one, and the ways in which an
encoding ends on an open sink. -/

namespace Sys2Proof.Machine

/-- The codes in CODE of the bytes `bs`, one after another (R296). -/
def codesOf (s : State) (bs : List Nat) : Bits := bs.flatMap fun b => (s.codeAt b).bits

/-- An encoding that has read the bytes `bs` and written their codes (R290). -/
def encoded (bs : List Nat) (s : State) : State :=
  { appended (codesOf s bs) (consumed (8 * bs.length) s) with syms := s.syms + BitVec.ofNat 32 bs.length }

@[simp] theorem encoded_nil (s : State) : encoded [] s = s := by simp [encoded, codesOf, appended]

theorem encoded_singleton (b : Nat) (s : State) :
    encoded [b] s = (appended (s.codeAt b).bits (consumed 8 s)).countSym := by
  simp [encoded, codesOf, State.countSym, appended, consumed]

theorem encoded_cons (b : Nat) (bs : List Nat) (s : State) : encoded bs (encoded [b] s) = encoded (b :: bs) s := by
  simp [encoded, codesOf, appended, consumed, advance_advance, BitVec.add_assoc, ← BitVec.ofNat_add, Nat.mul_add,
    Nat.add_comm, State.codeAt]

/-- The whole bytes left unread after the bytes `bs` (R91). -/
theorem bytesOfBits_unread_advance {p : InPort} {bs more : List Nat} (h : bytesOfBits (unread p) = bs ++ more) :
    bytesOfBits (unread (advance (8 * bs.length) p)) = more := by
  induction bs generalizing p with
  | nil => exact h
  | cons b bs ih =>
    obtain ⟨u, rest, hu, hlen, -, hrest⟩ := bytesOfBits_eq_cons h
    rw [List.length_cons, Nat.mul_succ, Nat.add_comm, ← advance_advance]
    exact ih (by rw [unread_advance hlen (by omega) hu]; exact hrest)

/-- A state whose command has met the end of the input (R86). -/
def inputEnded (s : State) : State := { s with inp := exhausted 0 s.inp }

/-- A state whose output is closed after its padding (R90). -/
def flushed (s : State) : State :=
  { s with
    out := closedWith [] (padding s.draws (padCount s.out.bits)) s.out, draws := s.draws + padCount s.out.bits }

@[simp] theorem consumed_appended (n : Nat) (b : Bits) (s : State) :
    consumed n (appended b s) = appended b (consumed n s) := rfl

@[simp] theorem inputEnded_appended (b : Bits) (s : State) :
    inputEnded (appended b s) = appended b (inputEnded s) := rfl

section
variable {s : State}

/-! ### Turns -/

theorem turn_encodeRead (hp : s.pos = .encodeRead) (hi : s.inp.silent = false) : turn s = encodeReadTurn s := by
  simp [turn, waiting, asksOutput, pieceAt, hp, hi]

theorem turn_emit {b : BitVec 8} (hp : s.pos = .emit b) (ho : s.out.silent = false) : turn s = emitTurn b s := by
  simp [turn, waiting, asksInput, pieceAt, hp, ho]

theorem turn_emitEof (hp : s.pos = .emitEof) (ho : s.out.silent = false) : turn s = emitEofTurn s := by
  simp [turn, waiting, asksInput, pieceAt, hp, ho]

theorem turn_close (hp : s.pos = .close) (ho : s.out.silent = false) : turn s = closeTurn s := by
  simp [turn, waiting, asksInput, pieceAt, hp, ho]

/-- R290: a whole byte is read. -/
theorem turn_encodeRead_byte {u rest : Bits} (hp : s.pos = .encodeRead) (ha : InputAnswers s.inp) (hl : u.length = 8)
    (hu : unread s.inp = u ++ rest) : turn s = .next (encodeByte (val u) (consumed 8 s)) := by
  have hread := inRead_consumed ha (by omega) hu
  rw [hl] at hread
  rw [turn_encodeRead hp ha.1, encodeReadTurn, hread]

/-- R290: the input ends. -/
theorem turn_encodeRead_end (hp : s.pos = .encodeRead) (ha : InputAnswers s.inp) (he : InputEnds s.inp)
    (hl : (unread s.inp).length < 8) : turn s = .next (terminator (inputEnded s)) := by
  rw [turn_encodeRead hp ha.1, encodeReadTurn, inRead_short ha he hl]
  rfl

/-- R291: `Emit` writes the code's own bits. -/
theorem emitCode_open (c : Nat) (k : State → State) (ho : SinkOpen s.out) :
    emitCode c s k = .next (k (appended (s.codeAt c).bits s)) := by
  rw [emitCode, checkWrite_appended _ _ _ ho, bin_val]

/-- R290: `Emit(b)` for an input byte, and SYMS. -/
theorem turn_emit_open {b : BitVec 8} (hp : s.pos = .emit b) (ho : SinkOpen s.out) :
    turn s = .next ((appended (s.codeAt b.toNat).bits s).countSym.goto .encodeRead) := by
  rw [turn_emit hp ho.1.1, emitTurn, emitCode_open _ _ ho]

/-- R290: `Emit(256)`. -/
theorem turn_emitEof_open (hp : s.pos = .emitEof) (ho : SinkOpen s.out) :
    turn s = .next (beginClose (appended (s.codeAt 256).bits s)) := by
  rw [turn_emitEof hp ho.1.1, emitEofTurn, emitCode_open _ _ ho]

/-- R292: a code of no bits writes nothing. -/
theorem appended_of_no_code {c : Nat} (h : ¬ 0 < (s.codeAt c).len) : appended (s.codeAt c).bits s = s := by
  have hnil : (s.codeAt c).bits = [] := List.length_eq_zero_iff.mp (Nat.eq_zero_of_not_pos h)
  simp [hnil, appended]

/-! ### Bytes -/

/-- R290, R292: the code of a byte is written, in a turn of its own if it has any bits, and the byte is counted. -/
theorem run_encodeByte {b : Nat} (hp : s.pos = .encodeRead) (ho : SinkOpen s.out) (hb : b < 256)
    (hv : (s.codeAt b).valid = true) :
    ∃ k ≤ 1, run k (encodeByte b s) = .next (appended (s.codeAt b).bits s).countSym := by
  rw [encodeByte, if_pos hv]
  by_cases hlen : 0 < (s.codeAt b).len
  · rw [if_pos hlen]
    have hbyte : (BitVec.ofNat 8 b).toNat = b := Nat.mod_eq_of_lt hb
    have hemit := turn_emit_open (s := s.goto (.emit (BitVec.ofNat 8 b))) rfl ho
    rw [hbyte] at hemit
    refine ⟨1, le_rfl, (run_one (by nofun) hemit).trans ?_⟩
    rw [State.goto, ← hp]
    rfl
  · rw [if_neg hlen, appended_of_no_code hlen]
    exact ⟨0, Nat.zero_le 1, rfl⟩

/-- R290, R296: the codes of bytes that have one are written. -/
theorem run_encode_bytes {bs more : List Nat} (hp : s.pos = .encodeRead) (ha : InputAnswers s.inp)
    (ho : SinkOpen s.out) (hbs : bytesOfBits (unread s.inp) = bs ++ more)
    (hv : ∀ b ∈ bs, (s.codeAt b).valid = true) : ∃ k ≤ 2 * bs.length, run k s = .next (encoded bs s) := by
  induction bs generalizing s with
  | nil => exact ⟨0, le_rfl, by simp⟩
  | cons b bs ih =>
    rw [List.forall_mem_cons] at hv
    obtain ⟨u, rest, hu, hlen, rfl, hrest⟩ := bytesOfBits_eq_cons hbs
    have hread := run_one (by rw [hp]; nofun) (turn_encodeRead_byte hp ha hlen hu)
    obtain ⟨j, hj, hbyte⟩ := run_encodeByte (s := consumed 8 s) hp ho
      (lt_of_mem_bytesOfBits hbs _ List.mem_cons_self) hv.1
    have hrest' : bytesOfBits (unread (consumed 8 s).inp) = bs ++ more := bytesOfBits_unread_advance (bs := [val u]) hbs
    obtain ⟨k, hk, hrun⟩ := ih (s := (appended (s.codeAt (val u)).bits (consumed 8 s)).countSym) hp ha ho hrest'
      hv.2
    rw [← encoded_cons, encoded_singleton]
    exact ⟨1 + (j + k), by rw [List.length_cons]; omega, run_trans hread (run_trans hbyte hrun)⟩

/-! ### The header -/

/-- An encoding that has written MAGIC and the tree `t`, and asks for its first byte (R290). -/
def headed (t : HuffTree) (s : State) : State :=
  { appended (bin 32 s.par.magic.toNat ++ t.bits) s with phase := .encodingBody, stack := [], pos := .encodeRead }

/-- R260, R290: `WriteTree` as step 2 of an encoding. -/
theorem run_treeStage {t : HuffTree} (hc : closesOutput (running s) = true) (ho : SinkOpen s.out)
    (hh : holds s.node s.root t = true) : run (t.size + t.leaves + (1 + 1)) (beginWriteTree s) = .next
      { appended t.bits s with phase := .encodingBody, stack := [], pos := .encodeRead } := by
  have htree := run_writeTree t (s := beginWriteTree s) rfl rfl ho hh
  have hempty : turn { appended t.bits (beginWriteTree s) with stack := [] } =
      .next { appended t.bits (beginWriteTree s) with stack := [], pos := .endOf .writeTree } :=
    turn_writeTree rfl ho.1.1
  have hcmd : ¬ running s = .serialize := fun h => by rw [h] at hc; cases hc
  have hend : turn { appended t.bits (beginWriteTree s) with stack := [], pos := .endOf .writeTree } =
      .next (beginBody { appended t.bits (beginWriteTree s) with stack := [], pos := .endOf .writeTree }) :=
    (turn_endOf rfl).trans (congrArg _ (if_neg hcmd))
  exact run_trans htree (run_trans (run_one nofun hempty) (run_one nofun hend))

/-- R290: steps 1 and 2 of an encoding. -/
theorem run_encode_header {t : HuffTree} (hp : s.pos = .putMagic) (hc : closesOutput (running s) = true)
    (ho : SinkOpen s.out) (hh : holds s.node s.root t = true) :
    run (1 + (t.size + t.leaves + (1 + 1))) s = .next (headed t s) := by
  have hmagic : turn s = .next (beginWriteTree (appended (bin 32 s.par.magic.toNat) s)) := by
    rw [turn_putMagic hp ho.1.1, putMagicTurn, checkWrite_appended _ _ _ ho]
  have htree := run_treeStage (s := appended (bin 32 s.par.magic.toNat) s) hc ho hh
  rw [headed, ← appended_appended]
  exact run_trans (run_one (by rw [hp]; nofun) hmagic) htree

/-- The bits that an encoding has written after its header and the bytes `bs` (R296). -/
def streamUpTo (t : HuffTree) (bs : List Nat) (s : State) : Bits :=
  bin 32 s.par.magic.toNat ++ t.bits ++ codesOf s bs

/-- What an encoding has changed after its header and `n` bytes, but for what it has written (R290). -/
def bodyRead (n : Nat) (s : State) : State :=
  { consumed (8 * n) s with
    syms := s.syms + BitVec.ofNat 32 n, phase := .encodingBody, stack := [], pos := .encodeRead }

theorem encoded_headed (t : HuffTree) (bs : List Nat) (s : State) :
    encoded bs (headed t s) = appended (streamUpTo t bs s) (bodyRead bs.length s) := by
  rw [streamUpTo, ← appended_appended]
  rfl

/-- R290: an encoding up to a byte without a code, or to the end of its input. -/
theorem run_encoding {t : HuffTree} {bs more : List Nat} (hp : s.pos = .putMagic)
    (hc : closesOutput (running s) = true) (ho : SinkOpen s.out) (hh : holds s.node s.root t = true)
    (ht : t.leaves ≤ 257) (ha : InputAnswers s.inp) (hbs : bytesOfBits (unread s.inp) = bs ++ more)
    (hv : ∀ b ∈ bs, (s.codeAt b).valid = true) :
    ∃ k ≤ 2 * bs.length + 773, run k s = .next (appended (streamUpTo t bs s) (bodyRead bs.length s)) := by
  rw [← encoded_headed]
  obtain ⟨k, hk, hrun⟩ := run_encode_bytes (s := headed t s) rfl ha ho hbs hv
  have hsize := t.size_add_one
  exact ⟨_, by omega, run_trans (run_encode_header hp hc ho hh) hrun⟩

/-! ### The three ends -/

/-- R290, R160: the checked close and the success epilogue. -/
theorem run_beginClose (ho : SinkOpen s.out) : run 1 (beginClose s) = .next (finish (flushed s)) := by
  refine run_one nofun ?_
  rw [turn_close (s := beginClose s) rfl ho.1.1, closeTurn, outClose_open (s := beginClose s) ho]
  rfl

/-- R356, R357: UncodedSymbol closes the output. -/
theorem run_uncoded (hc : closesOutput (running s) = true) (ho : SinkOpen s.out) :
    run 1 (raise .uncodedSymbol s) = .next (failWith .uncodedSymbol (flushed s)) :=
  run_raise_open .uncodedSymbol hc ho

/-- R290, R292: the code of EOF_SYM is written, in a turn of its own if it has any bits, and the encoding
finishes. -/
theorem run_terminator (ho : SinkOpen s.out) (hv : (s.codeAt 256).valid = true) :
    ∃ k ≤ 2, run k (terminator s) = .next (finish (flushed (appended (s.codeAt 256).bits s))) := by
  rw [terminator, if_pos hv]
  by_cases hlen : 0 < (s.codeAt 256).len
  · rw [if_pos hlen]
    have hemit := turn_emitEof_open (s := s.goto .emitEof) rfl ho
    exact ⟨1 + 1, le_rfl, run_trans (run_one nofun hemit)
      (run_beginClose (s := appended (s.codeAt 256).bits (s.goto .emitEof)) ho)⟩
  · rw [if_neg hlen, appended_of_no_code hlen]
    exact ⟨1, by omega, run_beginClose ho⟩

/-- R290, R296: an input that ends, and a code for EOF_SYM. -/
theorem run_encode_eof (hp : s.pos = .encodeRead) (ha : InputAnswers s.inp) (he : InputEnds s.inp)
    (ho : SinkOpen s.out) (hbs : bytesOfBits (unread s.inp) = []) (hv : (s.codeAt 256).valid = true) :
    ∃ k ≤ 3, run k s = .next (finish (flushed (appended (s.codeAt 256).bits (inputEnded s)))) := by
  have hread := run_one (by rw [hp]; nofun) (turn_encodeRead_end hp ha he (length_lt_of_bytesOfBits_eq_nil hbs))
  obtain ⟨k, hk, hrun⟩ := run_terminator (s := inputEnded s) ho hv
  exact ⟨1 + k, by omega, run_trans hread hrun⟩

/-- R295: a byte without a code. -/
theorem run_encode_uncoded_byte {b : Nat} {post : List Nat} (hp : s.pos = .encodeRead) (ha : InputAnswers s.inp)
    (hc : closesOutput (running s) = true) (ho : SinkOpen s.out) (hbs : bytesOfBits (unread s.inp) = b :: post)
    (hv : (s.codeAt b).valid = false) :
    run 2 s = .next (failWith .uncodedSymbol (flushed (consumed 8 s))) := by
  obtain ⟨u, rest, hu, hlen, rfl, -⟩ := bytesOfBits_eq_cons hbs
  have hread := turn_encodeRead_byte hp ha hlen hu
  rw [encodeByte, show ((consumed 8 s).codeAt (val u)).valid = false from hv, if_neg Bool.false_ne_true] at hread
  exact run_trans (run_one (by rw [hp]; nofun) hread) (run_uncoded (s := consumed 8 s) hc ho)

/-- R290: an input that ends, and no code for EOF_SYM. -/
theorem run_encode_uncoded_eof (hp : s.pos = .encodeRead) (ha : InputAnswers s.inp) (he : InputEnds s.inp)
    (hc : closesOutput (running s) = true) (ho : SinkOpen s.out) (hbs : bytesOfBits (unread s.inp) = [])
    (hv : (s.codeAt 256).valid = false) :
    run 2 s = .next (failWith .uncodedSymbol (flushed (inputEnded s))) := by
  have hread := turn_encodeRead_end hp ha he (length_lt_of_bytesOfBits_eq_nil hbs)
  rw [terminator, show ((inputEnded s).codeAt 256).valid = false from hv, if_neg Bool.false_ne_true] at hread
  exact run_trans (run_one (by rw [hp]; nofun) hread) (run_uncoded (s := inputEnded s) hc ho)

end

end Sys2Proof.Machine

/-! SUPPORT. ENCODE (R290): its output law (R296), and a symbol without a code (R295). -/

namespace Sys2Proof.Machine

/-- ENCODE after its acceptance and its first turn (R290). -/
def encodeAsks (s : State) : State := beginEncode (accept (encode .encode) s)

/-- The close of a sink to which the bits `b` were written (R90). -/
theorem flushed_appended (b : Bits) (s : State) : flushed (appended b s) = { s with
    out := closedWith b (padding s.draws (padCount (s.out.bits ++ b))) s.out
    outBits := s.outBits + BitVec.ofNat 32 b.length, draws := s.draws + padCount (s.out.bits ++ b) } := by
  simp [flushed, appended, closedWith]

/-- R90: the padding of such a close ends on a byte boundary. -/
theorem exists_padding (b : Bits) (s : State) : ∃ pad d, flushed (appended b s) = { s with
    out := closedWith b pad s.out, outBits := s.outBits + BitVec.ofNat 32 b.length, draws := d } ∧
    PadsToBytes (s.out.bits ++ b) pad := by
  refine ⟨_, _, flushed_appended b s, ?_⟩
  rw [PadsToBytes, padding_length]
  exact padCount_spec _

section
variable {s u : State} {t : HuffTree} {bs more : List Nat} {k : Nat}

/-- ENCODE that comes to rest within three turns after its header and the bytes `bs`. -/
theorem exec_encode_of_run (hq : Quiet s) (hv : s.treeValid = true) (hcv : s.codesValid = true)
    (hh : holds s.node s.root t = true) (ht : t.leaves ≤ 257) (ha : InputAnswers s.inp) (ho : SinkOpen s.out)
    (hbs : bytesOfBits (unread s.inp) = bs ++ more) (hcoded : ∀ b ∈ bs, (s.codeAt b).valid = true) (hk : k ≤ 3)
    (hrun : run k (appended (streamUpTo t bs s) (bodyRead bs.length (encodeAsks s))) = .next u)
    (hu : u.pos = .idle) : exec .encode s = .next u := by
  have hstart := run_one (by nofun) (turn_accept (s := s) decode_encode_encode (by simp [ready, hv, hcv]))
  obtain ⟨j, hj, hbody⟩ := run_encoding (s := encodeAsks s) rfl (congrArg closesOutput decode_encode_encode) ho hh
    ht ha hbs hcoded
  refine exec_of_run hq (run_trans hstart (run_trans hbody hrun)) hu ?_
  have hlen := (bytesOfBits_length_le hbs).trans (unread_length_le s.inp)
  rw [List.length_append] at hlen
  unfold turnsToEnd
  omega

end

/-- Settles O41: after the header and all bytes the code of EOF_SYM is written, and the close pads. -/
theorem encodeOutputLaw : Obligations.EncodeOutputLaw := by
  intro s t bs stream hq hv hcv hh ht ha he ho hbs hcoded heof hstream
  have hbs' : bytesOfBits (unread s.inp) = bs ++ [] := by rw [List.append_nil, hbs]
  obtain ⟨k, hk, hrun⟩ := run_encode_eof (s := appended (streamUpTo t bs s) (bodyRead bs.length (encodeAsks s))) rfl
    ha he ho (bytesOfBits_unread_advance hbs') heof
  have hexec := exec_encode_of_run hq hv hcv hh ht ha ho hbs' hcoded hk hrun rfl
  have hwritten : appended (s.codeAt 256).bits (inputEnded (appended (streamUpTo t bs s)
      (bodyRead bs.length (encodeAsks s)))) = appended stream (inputEnded (bodyRead bs.length (encodeAsks s))) :=
    hstream ▸ appended_appended (streamUpTo t bs s) _ (inputEnded (bodyRead bs.length (encodeAsks s)))
  obtain ⟨pad, d, hclose, hpad⟩ := exists_padding stream (inputEnded (bodyRead bs.length (encodeAsks s)))
  refine ⟨pad, d, hexec.trans ?_, hpad⟩
  refine (congrArg (fun u => Host.Outcome.next (finish (flushed u))) hwritten).trans ?_
  rw [hclose]
  simp [finish, bodyRead, consumed, inputEnded, encodeAsks, beginEncode, completed, exhausted_advance]

/-- Settles O42: the same header and codes, and then the byte, or the terminator, that raises the error. -/
theorem encodeUncodedSymbol : Obligations.EncodeUncodedSymbol := by
  intro s t pre stream hq hv hcv hh ht ha ho hcoded hstream
  obtain rfl : stream = streamUpTo t pre s := hstream
  have hcloses : closesOutput (running (encodeAsks s)) = true := congrArg closesOutput decode_encode_encode
  refine ⟨fun b post hbs hb => ?_, fun he hbs hb => ?_⟩
  · have hrun := run_encode_uncoded_byte (s := appended (streamUpTo t pre s) (bodyRead pre.length (encodeAsks s))) rfl
      ha hcloses ho (bytesOfBits_unread_advance hbs) hb
    have hexec := exec_encode_of_run hq hv hcv hh ht ha ho hbs hcoded (by omega) hrun rfl
    obtain ⟨pad, d, hclose, hpad⟩ := exists_padding (streamUpTo t pre s)
      (consumed 8 (bodyRead pre.length (encodeAsks s)))
    rw [consumed_appended, hclose] at hexec
    refine ⟨pad, d, hexec.trans ?_, hpad⟩
    simp [failWith, bodyRead, consumed, encodeAsks, beginEncode, failed, advance_advance, Nat.mul_add,
      BitVec.ofNat_add]
  · have hbs' : bytesOfBits (unread s.inp) = pre ++ [] := by rw [List.append_nil, hbs]
    have hrun := run_encode_uncoded_eof (s := appended (streamUpTo t pre s) (bodyRead pre.length (encodeAsks s))) rfl
      ha he hcloses ho (bytesOfBits_unread_advance hbs') hb
    have hexec := exec_encode_of_run hq hv hcv hh ht ha ho hbs' hcoded (by omega) hrun rfl
    obtain ⟨pad, d, hclose, hpad⟩ := exists_padding (streamUpTo t pre s)
      (inputEnded (bodyRead pre.length (encodeAsks s)))
    rw [inputEnded_appended, hclose] at hexec
    refine ⟨pad, d, hexec.trans ?_, hpad⟩
    simp [failWith, bodyRead, consumed, inputEnded, encodeAsks, beginEncode, failed, exhausted_advance]

end Sys2Proof.Machine

/-! SUPPORT. An encoding ends alike whichever command runs it, but for CMD and the bits counted before (R290, R300,
R302). -/

namespace Sys2Proof.Machine

/-- The state `s` as another command has it, by the word that was accepted and the bits it had read before (R38,
R152). -/
def State.under (c b : Word) (s : State) : State := { s with cmd := c, inBits := b + s.inBits }

/-- What follows `s` comes to rest within `n` turns, and alike under every command that closes the output. -/
def EndsAlike (n : Nat) (s : State) : Prop := ∃ e : State, e.pos = .idle ∧
  ∀ c b, closesOutput (decode c) = true → ∃ k ≤ n, run k (s.under c b) = .next (e.under c b)

theorem EndsAlike.mono {m n : Nat} {s : State} (h : EndsAlike m s) (hmn : m ≤ n) : EndsAlike n s :=
  let ⟨e, hidle, hend⟩ := h
  ⟨e, hidle, fun c b hc => let ⟨k, hk, hrun⟩ := hend c b hc; ⟨k, hk.trans hmn, hrun⟩⟩

/-- Eight bits make a whole byte (R91). -/
theorem eight_mul_bytes_le (s : Bits) : 8 * (bytesOfBits s).length ≤ s.length := by
  induction hbs : bytesOfBits s generalizing s with
  | nil => exact Nat.zero_le _
  | cons b bs ih =>
    obtain ⟨u, rest, rfl, hu, -, hrest⟩ := bytesOfBits_eq_cons hbs
    have := ih rest hrest
    rw [List.length_cons, List.length_append]
    omega

section
variable {s : State} {t : HuffTree}

theorem consumed_under (n : Nat) (c b : Word) (s : State) : consumed n (s.under c b) = (consumed n s).under c b := by
  simp [consumed, State.under, BitVec.add_assoc]

theorem bodyRead_under (n : Nat) (c b : Word) (s : State) : bodyRead n (s.under c b) = (bodyRead n s).under c b := by
  rw [bodyRead, consumed_under]
  rfl

/-! ### The encoding -/

/-- Bytes up to the first one without a code. -/
theorem exists_coded_bytes (s : State) (bs : List Nat) : ∃ pre post, bs = pre ++ post ∧
    (∀ b ∈ pre, (s.codeAt b).valid = true) ∧ ∀ x rest, post = x :: rest → (s.codeAt x).valid = false := by
  induction bs with
  | nil => exact ⟨[], [], rfl, nofun, nofun⟩
  | cons b bs ih =>
    cases hv : (s.codeAt b).valid with
    | false => exact ⟨[], b :: bs, rfl, nofun, fun x rest h => (List.cons.inj h).1 ▸ hv⟩
    | true =>
      obtain ⟨pre, post, rfl, hpre, hpost⟩ := ih
      exact ⟨b :: pre, post, rfl, List.forall_mem_cons.mpr ⟨hv, hpre⟩, hpost⟩

/-- R290: the three ends of an encoding. -/
theorem endsAlike_body (hp : s.pos = .encodeRead) (ha : InputAnswers s.inp) (he : InputEnds s.inp)
    (ho : SinkOpen s.out) (hnext : ∀ b post, bytesOfBits (unread s.inp) = b :: post → (s.codeAt b).valid = false) :
    EndsAlike 3 s := by
  cases hbs : bytesOfBits (unread s.inp) with
  | nil =>
    cases hv : (s.codeAt 256).valid with
    | true => exact ⟨finish (flushed (appended (s.codeAt 256).bits (inputEnded s))), rfl, fun c b _ =>
        run_encode_eof (s := s.under c b) hp ha he ho hbs hv⟩
    | false => exact ⟨failWith .uncodedSymbol (flushed (inputEnded s)), rfl, fun c b hc =>
        ⟨2, by omega, run_encode_uncoded_eof (s := s.under c b) hp ha he hc ho hbs hv⟩⟩
  | cons x post =>
    refine ⟨failWith .uncodedSymbol (flushed (consumed 8 s)), rfl, fun c b hc => ⟨2, by omega, ?_⟩⟩
    have hrun := run_encode_uncoded_byte (s := s.under c b) hp ha hc ho hbs (hnext x post hbs)
    rw [consumed_under] at hrun
    exact hrun

/-- R290, R403: an encoding, on an open sink or on a closed one. -/
theorem endsAlike_encoding (hp : s.pos = .putMagic) (ha : InputAnswers s.inp) (he : InputEnds s.inp)
    (ho : OutputAnswers s.out) (hh : holds s.node s.root t = true) (ht : t.leaves ≤ 257) :
    EndsAlike (2 * (bytesOfBits (unread s.inp)).length + 776) s := by
  cases hcl : s.out.closed with
  | true => exact ⟨failWith .portError s, rfl, fun c b hc =>
      ⟨2, by omega, run_putMagic_closed (s := s.under c b) hp hc ho hcl⟩⟩
  | false =>
    obtain ⟨pre, post, hsplit, hcoded, hnext⟩ := exists_coded_bytes s (bytesOfBits (unread s.inp))
    obtain ⟨e, hidle, hend⟩ := endsAlike_body (s := appended (streamUpTo t pre s) (bodyRead pre.length s)) rfl ha he
      ⟨ho, hcl⟩ fun x rest hx => hnext x rest ((bytesOfBits_unread_advance hsplit).symm.trans hx)
    refine ⟨e, hidle, fun c b hc => ?_⟩
    obtain ⟨j, hj, hbody⟩ := run_encoding (s := s.under c b) hp hc ⟨ho, hcl⟩ hh ht ha hsplit hcoded
    rw [bodyRead_under] at hbody
    obtain ⟨k, hk, hrun⟩ := hend c b hc
    refine ⟨j + k, ?_, run_trans hbody hrun⟩
    have := congrArg List.length hsplit
    rw [List.length_append] at this
    omega

/-- R290, R302: ENCODE, and its stages under COMPRESS, leave the same state, but for CMD and the bits counted before. -/
theorem exists_end_of_encode (hq : Quiet s) (hv : s.treeValid = true) (hcv : s.codesValid = true)
    (ha : InputAnswers s.inp) (he : InputEnds s.inp) (ho : OutputAnswers s.out) (hh : holds s.node s.root t = true)
    (ht : t.leaves ≤ 257) : ∃ e : State, e.pos = .idle ∧
      exec .encode s = .next (e.under (encode .encode) 0#32) ∧
      ∀ b, ∃ k ≤ s.inp.bits.length + 776, run k ((encodeAsks s).under (encode .compress) b) =
        .next (e.under (encode .compress) b) := by
  have hlen := (eight_mul_bytes_le _).trans (unread_length_le s.inp)
  obtain ⟨e, hidle, hend⟩ := (endsAlike_encoding (s := encodeAsks s) rfl ha he ho hh ht).mono
    (show 2 * (bytesOfBits (unread s.inp)).length + 776 ≤ s.inp.bits.length + 776 by omega)
  obtain ⟨k, hk, hrun⟩ := hend (encode .encode) 0#32 (congrArg closesOutput decode_encode_encode)
  have hstart := run_one (by nofun) (turn_accept (s := s) decode_encode_encode (by simp [ready, hv, hcv]))
  exact ⟨e, hidle, exec_of_run hq (run_trans hstart hrun) hidle (by unfold turnsToEnd; omega),
    fun b => hend (encode .compress) b (congrArg closesOutput decode_encode_compress)⟩

end

end Sys2Proof.Machine

/-! SUPPORT. COMPRESS as the sequence of its stages (R300, R302), and the stream it writes (R126, R296). -/

namespace Sys2Proof.Machine

/-! ### COUNT and the rewind -/

/-- What COUNT leaves after `n` bytes counted in `h` (R192). -/
def afterCount (h : Memory Word) (n : Nat) (s : State) : State :=
  { completed .count s with
    hist := h, inBits := BitVec.ofNat 32 (8 * n), syms := BitVec.ofNat 32 n, inp := exhausted (8 * n) s.inp }

/-- An input port at its start again (R88). -/
def rewound (p : InPort) : InPort := { p with pos := 0, eof := false }

/-- What INRESET leaves after that COUNT (R171). -/
def afterPass (h : Memory Word) (n : Nat) (s : State) : State :=
  { completed .inreset (afterCount h n s) with inp := rewound (afterCount h n s).inp }

section
variable {s t : State}

/-- R190, I3: bytes that COUNT's loop gets past overflow no counter. -/
theorem count_le_of_run {n : Nat} {bs : List Nat} (hp : s.pos = .countRead)
    (hw : Memory.wf 0#32 256 s.hist = true) (ha : InputAnswers s.inp) (hbs : bytesOfBits (unread s.inp) = bs)
    (hn : bs.length ≤ n) (hrun : run n s = .next t) (c : Nat) :
    (s.histAt c).toNat + bs.count c ≤ Config.maxCount := by
  induction bs generalizing s n with
  | nil => exact Nat.le_of_lt_succ (s.histAt c).isLt
  | cons b bs ih =>
    obtain ⟨n, rfl⟩ : ∃ m, n = m + 1 := ⟨n - 1, by rw [List.length_cons] at hn; omega⟩
    have hb := lt_of_mem_bytesOfBits hbs b List.mem_cons_self
    obtain ⟨u, rest, hu, hlen, rfl, hrest⟩ := bytesOfBits_eq_cons hbs
    have hbusy : s.pos ≠ .idle := by rw [hp]; nofun
    have hlt : (s.histAt (val u)).toNat < Config.maxCount := by
      refine lt_of_le_of_ne (Nat.le_of_lt_succ (s.histAt _).isLt) fun hfull => ?_
      rw [run_succ n hbusy, countOverflowStops s (val u) rest hp ha hb (by rw [← hlen, bin_val]; exact hu) hfull]
        at hrun
      cases hrun
    rw [run_turn n hbusy (turn_countRead_byte hp ha hlen hu hlt)] at hrun
    have hu' := unread_consumed (s := s) (by omega) hu
    rw [hlen] at hu'
    have hcb := countByte_eq (val u) (consumed 8 s)
    have hfit := ih (s := countByte (val u) (consumed 8 s)) (by rw [hcb]; exact hp)
      (by rw [hcb]; exact Memory.wf_set _ hw _ hb) (by rw [hcb]; exact ha) (by rw [hcb]; exact hu' ▸ hrest)
      (Nat.le_of_succ_le_succ hn) hrun
    rw [toNat_histAt_countByte (s := consumed 8 s) hw hlt, show (consumed 8 s).histAt c = s.histAt c from rfl] at hfit
    simp only [List.count_cons, beq_iff_eq]
    omega

/-- R190, R192: a COUNT that answers a state has counted every byte of its input. -/
theorem exists_counts_of_exec {bs : List Nat} (hq : Quiet s) (ha : InputAnswers s.inp) (he : InputEnds s.inp)
    (hbs : bytesOfBits (unread s.inp) = bs) (hexec : exec .count s = .next t) : ∃ h, Memory.wf 0#32 256 h = true ∧
      (∀ c < 256, (Memory.get 0#32 h c).toNat = bs.count c) ∧ (∀ c, bs.count c ≤ Config.maxCount) ∧
      t = afterCount h bs.length s := by
  have hfit : ∀ c, bs.count c ≤ Config.maxCount := fun c => by
    have hturns := count_turns_le (s := s) bs.length (by rw [hbs])
    obtain ⟨m, hm⟩ : ∃ m, turnsToEnd s = 1 + m := ⟨turnsToEnd s - 1, by omega⟩
    rw [exec_eq_issue, issue_quiet _ hq, hm, run_add, run_count_begin, andThen_next] at hexec
    have := count_le_of_run (s := countAsks s) rfl rfl ha hbs (by omega) hexec c
    rwa [histAt_countAsks, Nat.zero_add] at this
  obtain ⟨h, hcount, hwf, hat, -⟩ := countBuildsTheHistogram s bs hq ha he hbs.symm hfit
  cases hexec.symm.trans hcount
  exact ⟨h, hwf, hat, hfit, rfl⟩

/-- R171, R88: INRESET after COUNT, at a port that can rewind. -/
theorem exec_inreset_afterCount (h : Memory Word) (n : Nat) (hq : Quiet s) (ha : InputAnswers s.inp)
    (hr : s.inp.rewindable = true) : exec .inreset (afterCount h n s) = .next (afterPass h n s) := by
  have hok := InPort.rewind_ok (p := (afterCount h n s).inp) s.draws ha hr
  rw [exec_inreset_ok (s := afterCount h n s) ⟨rfl, hq.2⟩ ha.1 (congrArg Prod.fst hok)]
  exact congrArg (fun r => Host.Outcome.next { completed .inreset (afterCount h n s) with inp := r.1, draws := r.2 })
    (congrArg Prod.snd hok)

theorem memoryForm_afterPass {h : Memory Word} (n : Nat) (hs : MemoryForm s) (hwf : Memory.wf 0#32 256 h = true) :
    MemoryForm (afterPass h n s) := by
  obtain ⟨-, hm, hc, -⟩ := memoryForm_iff.mp hs
  exact memoryForm_iff.mpr ⟨hwf, hm, hc, rfl⟩

/-- COMPRESS between its two passes (R300). -/
def passDone (h : Memory Word) (n : Nat) (s : State) : State :=
  { accept (encode .compress) s with
    hist := h, inBits := BitVec.ofNat 32 (8 * n), inp := rewound s.inp, phase := .inResetting, pos := .endOf .rewind }

/-- R300: COMPRESS counts the bytes of its input, wherever it stands (`run_firstPass` has it at its start), and
rewinds it. -/
theorem run_pass {h : Memory Word} {bs : List Nat} (ha : InputAnswers s.inp) (he : InputEnds s.inp)
    (hr : s.inp.rewindable = true) (hbs : bytesOfBits (unread s.inp) = bs) (hwf : Memory.wf 0#32 256 h = true)
    (hat : ∀ c < 256, (Memory.get 0#32 h c).toNat = bs.count c) (hfit : ∀ c, bs.count c ≤ Config.maxCount) :
    run (bs.length + 4) (accept (encode .compress) s) = .next (passDone h bs.length s) := by
  have hcmd : running (beginCount (accept (encode .compress) s)) = .compress := decode_encode_compress
  have hzero : ∀ c, ((beginCount (accept (encode .compress) s)).histAt c).toNat = 0 := fun _ => rfl
  obtain ⟨h', hwf', hat', hloop⟩ := run_count (s := beginCount (accept (encode .compress) s)) rfl rfl ha he hbs
    fun c _ => by rw [hzero, Nat.zero_add]; exact hfit c
  obtain rfl : h' = h := Memory.eq_of_get_eq 0#32 hwf' hwf fun c => by
    by_cases hc : c < 256
    · exact BitVec.eq_of_toNat_eq (by rw [hat' c hc, hat c hc, hzero, Nat.zero_add])
    · rw [Memory.get_above 0#32 hwf' (by omega), Memory.get_above 0#32 hwf (by omega)]
  have hstart := run_one (by nofun) (turn_accept (s := s) decode_encode_compress rfl)
  have hnext : turn (counted h' bs.length (beginCount (accept (encode .compress) s))) =
      .next (beginInreset (counted h' bs.length (beginCount (accept (encode .compress) s)))) := by
    rw [turn_endOf rfl, endOfTurn]
    exact congrArg _ (if_pos hcmd)
  have hrewind := run_one (by nofun) (turn_rewind_ok
    (s := beginInreset (counted h' bs.length (beginCount (accept (encode .compress) s)))) rfl ha hr)
  rw [show bs.length + 4 = 1 + (bs.length + 1 + (1 + 1)) by omega]
  refine (run_trans hstart (run_trans hloop (run_trans (run_one (by nofun) hnext) hrewind))).trans ?_
  rw [counted_of_compress hcmd]
  exact congrArg (fun b => Host.Outcome.next { passDone h' bs.length s with inBits := b }) (BitVec.zero_add _)

end

/-! ### BUILD -/

/-- The state `s` of BUILD as COMPRESS has it, with `b` bits read and a stack of its own (R58). -/
def State.building (b : Word) (st : List Frame) (s : State) : State :=
  { s with cmd := encode .compress, inBits := b, stack := st }

section
variable {s u v t : State} {n : Nat} {b : Word} {st : List Frame}

theorem MergeStep.building (h : MergeStep s t) : MergeStep (s.building b st) (t.building b st) := by
  obtain ⟨n, picks, hp, hl, hfit⟩ := h
  exact .merge (s := s.building b st) n picks hp hl hfit

theorem Merges.building (h : Merges s t) : Merges (s.building b st) (t.building b st) :=
  h.lift _ fun _ _ hstep => hstep.building

/-- R210: the merge loop and its end, as a stage of COMPRESS. -/
theorem run_merges_building (h : Merges (buildStart s) v) (hd : MergesDone n v) :
    ∃ k ≤ 257, run k ((buildStart s).building b st) = .next ((buildDone n v).building b st) := by
  obtain ⟨⟨picks, hp⟩, hl⟩ := hd
  obtain ⟨k, hk, hrun⟩ := (h.building (b := b) (st := st)).run_eq
  have hone : (v.building b st).pq.length = 1 := hl
  have hdone := turn_merge_done (s := v.building b st) hp hone
  have hlen : ((buildStart s).building b st).pq.length = (leafList s).length := buildStart_length s
  have hle := leafList_length_le s
  exact ⟨k + 1, by omega, run_trans hrun (run_one (by change v.pos ≠ .idle; rw [hp]; nofun) hdone)⟩

theorem placeLeaves_node_congr (l : List (Sym × Word)) (n : Nat) (h : s.node = u.node) :
    (placeLeaves n l s).node = (placeLeaves n l u).node := by
  induction l generalizing n s u with
  | nil => exact h
  | cons e rest ih =>
    refine ih (n + 1) ?_
    rw [setNode_node, setNode_node, State.nodeAt, State.nodeAt, h]

/-- R211, R220: the start of BUILD depends on HIST and NODE. -/
theorem beginBuild_congr (hh : s.hist = u.hist) (hn : s.node = u.node) :
    (beginBuild s).node = (beginBuild u).node ∧ (beginBuild s).pq = (beginBuild u).pq ∧
      (beginBuild s).nleaves = (beginBuild u).nleaves := by
  unfold beginBuild
  rw [leafList_congr hh]
  exact ⟨placeLeaves_node_congr _ 0 hn, rfl, rfl⟩

/-- R300: COMPRESS begins BUILD as the command does after COUNT and INRESET. -/
theorem beginBuild_passDone (h : Memory Word) (n : Nat) (s : State) : beginBuild (passDone h n s) =
    (buildStart (afterPass h n s)).building (BitVec.ofNat 32 (8 * n)) s.stack := by
  obtain ⟨hnode, hpq, hnl⟩ := beginBuild_congr (s := passDone h n s)
    (u := accept (encode .build) (afterPass h n s)) rfl rfl
  have hl : leafList (passDone h n s) = leafList (accept (encode .build) (afterPass h n s)) :=
    leafList_congr rfl
  rw [buildStart, beginBuild_frame (passDone h n s), hnode, hpq, hnl, hl,
    beginBuild_frame (accept (encode .build) (afterPass h n s))]
  rfl

end

/-! ### GENCODES and ENCODE -/

/-- What GENCODES leaves (R240). -/
def afterGencodes (c : Memory CodeEntry) (s : State) : State :=
  { completed .gencodes s with codesValid := true, code := c }

section
variable {s v : State} {n : Nat} {t : HuffTree}

theorem encodeAsks_under (c b : Word) (s : State) :
    (encodeAsks s).under c b = { encodeAsks s with cmd := c, inBits := b } := by
  rw [State.under, show (encodeAsks s).inBits = 0#32 from rfl, BitVec.add_zero]

/-- R300: COMPRESS comes to its encoding as ENCODE does after the four other commands, but for CMD and IN_BITS. -/
theorem run_to_encoding {h : Memory Word} {bs : List Nat} (ha : InputAnswers s.inp) (he : InputEnds s.inp)
    (hr : s.inp.rewindable = true) (hbs : bytesOfBits (unread s.inp) = bs) (hwf : Memory.wf 0#32 256 h = true)
    (hat : ∀ c < 256, (Memory.get 0#32 h c).toNat = bs.count c) (hfit : ∀ c, bs.count c ≤ Config.maxCount)
    (hv : Merges (buildStart (afterPass h bs.length s)) v) (hd : MergesDone n v)
    (hh : holds v.node (v.pq.headD Config.nil) t = true) (ht : t.leaves ≤ 257) :
    ∃ k ≤ bs.length + 778, run k (accept (encode .compress) s) =
      .next ((encodeAsks (afterGencodes (recordPaths (t.paths []) []) (afterBuild n v (afterPass h bs.length s)))).under
        (encode .compress) (BitVec.ofNat 32 (8 * bs.length))) := by
  have hpass := run_pass ha he hr hbs hwf hat hfit
  have hcmd : running (passDone h bs.length s) = .compress := decode_encode_compress
  have hturn : turn (passDone h bs.length s) = .next (beginBuild (passDone h bs.length s)) :=
    (turn_endOf rfl).trans (congrArg _ (if_pos hcmd))
  rw [beginBuild_passDone] at hturn
  obtain ⟨k, hk, hmerges⟩ := run_merges_building (b := BitVec.ofNat 32 (8 * bs.length)) (st := s.stack) hv hd
  have hcodes := run_codesStage (s := (buildDone n v).building (BitVec.ofNat 32 (8 * bs.length)) s.stack) rfl
    decode_encode_compress hh
  have hsize := t.size_add_one
  refine ⟨_, ?_, (run_trans hpass (run_trans (run_one (by nofun) hturn) (run_trans hmerges hcodes))).trans ?_⟩
  · omega
  · have hframe := hv.frame
    rw [buildStart_frame] at hframe
    rw [encodeAsks_under, hframe]
    rfl

end

/-- R52, R210: the tree that BUILD's merges end with has at most 257 leaves. -/
theorem exists_tree_of_done {s v : State} {n : Nat} (hs : MemoryForm s) (hv : Merges (buildStart s) v)
    (hd : MergesDone n v) : ∃ t, holds v.node (v.pq.headD Config.nil) t = true ∧ t.leaves ≤ 257 := by
  obtain ⟨t, hh, -, hleaves⟩ := tree_of_done (hv.keep_treeInv (treeInv_buildStart hs)) hd
  refine ⟨t, hh, ?_⟩
  have := leafList_length_le s
  rw [hleaves, hv.frame, buildStart_frame]
  simp only [BitVec.toNat_ofNat]
  omega

theorem under_of_under_zero (c d b : Word) (s : State) : (s.under c 0#32).under d b = s.under d b := by
  simp [State.under]

/-- Settles O44: COMPRESS comes to its encoding as ENCODE does, and an encoding ends alike in both. -/
theorem compressEqualsTheSequence : Obligations.CompressEqualsTheSequence := by
  intro s t u hq hform ha he hr ho hcount hseq
  obtain ⟨bs, hbs⟩ : ∃ bs, bytesOfBits (unread s.inp) = bs := ⟨_, rfl⟩
  obtain ⟨h, hwf, hat, hfit, rfl⟩ := exists_counts_of_exec hq ha he hbs hcount
  rw [exec_inreset_afterCount h bs.length hq ha hr, andThen_next, andThen_eq_next] at hseq
  obtain ⟨t₃, hbuild, hseq⟩ := hseq
  obtain ⟨v, n, hv, hd, rfl⟩ := exists_done_of_exec (s := afterPass h bs.length s) ⟨rfl, hq.2⟩ hbuild
  obtain ⟨tree, hh, hle⟩ := exists_tree_of_done (memoryForm_afterPass bs.length hform hwf) hv hd
  rw [exec_gencodes (s := afterBuild n v (afterPass h bs.length s)) (t := tree) ⟨rfl, hq.2⟩ rfl hh hle,
    andThen_next] at hseq
  obtain ⟨e, hidle, hencode, hend⟩ := exists_end_of_encode
    (s := afterGencodes (recordPaths (tree.paths []) []) (afterBuild n v (afterPass h bs.length s)))
    ⟨rfl, hq.2⟩ rfl rfl ha he ho hh hle
  cases hencode.symm.trans hseq
  obtain ⟨j, hj, hrun⟩ := run_to_encoding ha he hr hbs hwf hat hfit hv hd hh hle
  obtain ⟨k, hk, hrun'⟩ := hend (BitVec.ofNat 32 (8 * bs.length))
  refine (exec_of_run hq (run_trans hrun hrun') hidle ?_).trans ?_
  · have hlen := (bytesOfBits_length_le hbs).trans (unread_length_le s.inp)
    have hk : k ≤ s.inp.bits.length + 776 := hk
    unfold turnsToEnd
    omega
  · exact congrArg Host.Outcome.next (under_of_under_zero _ _ _ e).symm

/-! ### The stream -/

/-- What BUILD leaves of a tree of `l` leaves (R210, R212). -/
def treeBuilt (m : Memory Node) (r : Idx) (l : Nat) (s : State) : State :=
  { completed .build s with
    node := m, root := r, nnodes := BitVec.ofNat 10 (2 * l - 1), nleaves := BitVec.ofNat 9 l
    treeValid := true, codesValid := false }

/-- R211, R240, R245: BUILD and GENCODES make a tree and its codes, which every counted byte and EOF_SYM have. -/
theorem exists_codes_of_counts {s : State} (hq : Quiet s) (hs : MemoryForm s)
    (hfit : histTotal s + 1 ≤ Config.maxCount) : ∃ m r t c, exec .build s = .next (treeBuilt m r t.leaves s) ∧
      exec .gencodes (treeBuilt m r t.leaves s) = .next (afterGencodes c (treeBuilt m r t.leaves s)) ∧
      holds m r t = true ∧ t.leaves ≤ 257 ∧ (∀ k ≤ 256, Memory.get CodeEntry.invalid c k = t.codeOf k) ∧
      ∀ k ≤ 256, ((t.codeOf k).valid = true ↔ k = 256 ∨ (k < 256 ∧ s.histAt k ≠ 0#32)) := by
  obtain ⟨m, t, hbuild, hh, -, hleaves, -⟩ := buildMakesTheTree s _ _ hq hs rfl rfl hfit
  have hle : t.leaves ≤ 257 := by
    have := leafList_length_le s
    rw [leafList_length] at this
    omega
  rw [← hleaves] at hbuild hh
  obtain ⟨c, hgencodes, -, hcode⟩ := gencodesMakesTheCodeTable (treeBuilt m _ t.leaves s) t ⟨rfl, hq.2⟩ rfl hh
    hle
  refine ⟨m, _, t, c, hbuild, hgencodes, hh, hle, hcode, fun k hk => ?_⟩
  rw [← codesCoverTheCountedSymbols s _ _ hq hs hbuild hgencodes k hk, ← hcode k hk]
  rfl

/-- R302: COMPRESS, from what each of the five commands leaves. -/
theorem exec_compress_of_commands {s t₁ t₂ t₃ t₄ u : State} (hq : Quiet s) (hform : MemoryForm s)
    (ha : InputAnswers s.inp) (he : InputEnds s.inp) (hr : s.inp.rewindable = true) (ho : OutputAnswers s.out)
    (hcount : exec .count s = .next t₁) (hinreset : exec .inreset t₁ = .next t₂)
    (hbuild : exec .build t₂ = .next t₃) (hgencodes : exec .gencodes t₃ = .next t₄)
    (hencode : exec .encode t₄ = .next u) :
    exec .compress s = .next { u with cmd := encode .compress, inBits := t₁.inBits + u.inBits } :=
  compressEqualsTheSequence s t₁ u hq hform ha he hr ho hcount
    (by rw [hinreset, andThen_next, hbuild, andThen_next, hgencodes, andThen_next, hencode])

/-- The compressed stream of the bytes `bs` in the codes of the tree `t` (R126, R296). -/
def streamOf (magic : Word) (t : HuffTree) (bs : List Nat) : Bits :=
  bin 32 magic.toNat ++ t.bits ++ bs.flatMap (fun b => (t.codeOf b).bits) ++ (t.codeOf 256).bits

/-- R296: the output of an encoding whose table holds the codes of its tree. -/
theorem streamUpTo_of_codes {s : State} {t : HuffTree} {bs : List Nat} (hbs : ∀ b ∈ bs, b < 256)
    (hcode : ∀ k ≤ 256, s.codeAt k = t.codeOf k) :
    streamOf s.par.magic t bs = streamUpTo t bs s ++ (s.codeAt 256).bits := by
  have hbytes : codesOf s bs = bs.flatMap fun b => (t.codeOf b).bits :=
    List.flatMap_congr fun b hb => congrArg CodeEntry.bits (hcode b (hbs b hb).le)
  rw [streamOf, streamUpTo, hbytes, hcode 256 le_rfl]

/-- R216, R245: a byte that COUNT met has a count. -/
theorem histAt_ne_zero {s : State} {bs : List Nat} {b : Nat} (hat : (s.histAt b).toNat = bs.count b) (hb : b ∈ bs) :
    s.histAt b ≠ 0#32 := by
  intro hzero
  have hpos := List.count_pos_iff.mpr hb
  rw [← hat, hzero] at hpos
  cases hpos

/-- Settles O45: the five commands complete, each by its own law, and COMPRESS leaves what they leave. -/
theorem compressWritesTheStream : Obligations.CompressWritesTheStream := by
  intro s bs hq hform ha he hr hpos heof ho hbs hfit
  have hlt := lt_of_mem_bytesOfBits hbs.symm
  have hu : bytesOfBits (unread s.inp) = bs := by rw [unread, heof, hpos]; exact hbs.symm
  obtain ⟨h, hcount, hwf, hat, -⟩ := countBuildsTheHistogram s bs hq ha he hu.symm
    fun c => List.count_le_length.trans (by omega)
  have hinreset := exec_inreset_afterCount h bs.length hq ha hr
  have htotal : histTotal (afterPass h bs.length s) = bs.length := histTotal_of_count hlt hat
  obtain ⟨m, r, t, c, hbuild, hgencodes, hh, hle, hcode, hvalid⟩ := exists_codes_of_counts
    (s := afterPass h bs.length s) ⟨rfl, hq.2⟩ (memoryForm_afterPass bs.length hform hwf)
    (by rw [htotal]; exact hfit)
  have hcoded : ∀ b ∈ bs, (t.codeOf b).valid = true := fun b hb => (hvalid b (hlt b hb).le).mpr
    (.inr ⟨hlt b hb, histAt_ne_zero (s := afterPass h bs.length s) (hat b (hlt b hb)) hb⟩)
  have heofcoded : (t.codeOf 256).valid = true := (hvalid 256 le_rfl).mpr (.inl rfl)
  have hstream := streamUpTo_of_codes (s := afterGencodes c (treeBuilt m r t.leaves (afterPass h bs.length s))) hlt
    hcode
  obtain ⟨pad, d, hencode, hpad⟩ := encodeOutputLaw
    (afterGencodes c (treeBuilt m r t.leaves (afterPass h bs.length s))) t bs _ ⟨rfl, hq.2⟩ rfl rfl hh hle ha he ho
    hbs (fun b hb => (congrArg CodeEntry.valid (hcode b (hlt b hb).le)).trans (hcoded b hb))
    ((congrArg CodeEntry.valid (hcode 256 le_rfl)).trans heofcoded) hstream
  have hcompress := exec_compress_of_commands hq hform ha he hr ho.1 hcount hinreset hbuild hgencodes hencode
  have hinp : exhausted (8 * bs.length) (rewound (exhausted (8 * bs.length) s.inp)) =
    exhausted (8 * bs.length) s.inp := congrArg _ (rewound_exhausted _ hpos heof)
  have hbits : BitVec.ofNat 32 (8 * bs.length) + BitVec.ofNat 32 (8 * bs.length) =
    BitVec.ofNat 32 (16 * bs.length) := by rw [← BitVec.ofNat_add, ← Nat.add_mul]
  refine ⟨h, m, c, t, r, streamOf s.par.magic t bs, pad, d, hcompress.trans ?_, hat, hh, hcode, rfl, hcoded,
    heofcoded, hpad⟩
  simp only [completed, afterGencodes, treeBuilt, afterPass, afterCount, hinp, hbits]

end Sys2Proof.Machine

/-! SUPPORT. DECODE's body (R320, R322, R323, R326): the codes of leaves, and the three ways in which it ends on an
open sink. -/

namespace Sys2Proof.Machine

/-! ### Paths -/

theorem mem_paths_cons {l r : HuffTree} {c : Sym} {b : Bool} {p : Bits} (h : (c, p) ∈ (subtree b l r).paths []) :
    (c, b :: p) ∈ (HuffTree.node l r).paths [] := by
  rw [HuffTree.paths, List.mem_append, paths_eq_map l, paths_eq_map r]
  cases b with
  | false => exact .inl (List.mem_map.mpr ⟨_, h, rfl⟩)
  | true => exact .inr (List.mem_map.mpr ⟨_, h, rfl⟩)

/-- In a tree of two or more leaves no path is empty. -/
theorem path_ne_nil {t : HuffTree} {c : Sym} {p : Bits} (ht : 1 < t.leaves) (h : (c, p) ∈ t.paths []) : p ≠ [] := by
  obtain ⟨l, r, rfl⟩ := t.exists_node ht
  obtain ⟨b, q, rfl, -⟩ := mem_paths_node h
  exact nofun

/-- A path of at least one bit leads through an internal node. -/
theorem one_lt_leaves_of_path {t : HuffTree} {c : Sym} {p : Bits} (h : (c, p) ∈ t.paths []) (hp : p ≠ []) :
    1 < t.leaves := by
  have hlt := path_length_lt h
  have hpos := List.length_pos_iff.mpr hp
  omega

/-- Where the empty path leads to a leaf, the tree is that leaf. -/
theorem eq_leaf_of_nil_mem_paths {t : HuffTree} {c : Sym} (h : (c, []) ∈ t.paths []) : t = .leaf c := by
  cases t with
  | leaf d => rw [(mem_paths_leaf h).1]
  | node l r => obtain ⟨b, q, hp, -⟩ := mem_paths_node h; cases hp

theorem exists_mem_paths (t : HuffTree) : ∃ c p, (c, p) ∈ t.paths [] := by
  induction t with
  | leaf c => exact ⟨c, [], List.mem_singleton_self _⟩
  | node l r ihl _ =>
    obtain ⟨c, p, h⟩ := ihl
    exact ⟨c, false :: p, mem_paths_cons (b := false) h⟩

/-- From the root, any bits either pass a leaf or end inside a path (R320, R322). -/
theorem passes_leaf_or_ends_inside (t : HuffTree) (bits : Bits) :
    (∃ e ∈ t.paths [], e.2 <+: bits) ∨ ∃ e ∈ t.paths [], bits <+: e.2 ∧ bits ≠ e.2 := by
  induction t generalizing bits with
  | leaf c => exact .inl ⟨(c, []), List.mem_singleton_self _, List.nil_prefix⟩
  | node l r ihl ihr =>
    cases bits with
    | nil =>
      obtain ⟨c, p, h⟩ := exists_mem_paths l
      exact .inr ⟨_, mem_paths_cons (b := false) h, List.nil_prefix, nofun⟩
    | cons b bits =>
      have ih : (∃ e ∈ (subtree b l r).paths [], e.2 <+: bits) ∨
          ∃ e ∈ (subtree b l r).paths [], bits <+: e.2 ∧ bits ≠ e.2 := by
        cases b with
        | false => exact ihl bits
        | true => exact ihr bits
      obtain ⟨e, he, hpre⟩ | ⟨e, he, hpre, hne⟩ := ih
      · exact .inl ⟨_, mem_paths_cons he, List.cons_prefix_cons.mpr ⟨rfl, hpre⟩⟩
      · exact .inr ⟨_, mem_paths_cons he, List.cons_prefix_cons.mpr ⟨rfl, hpre⟩, fun h => hne (List.cons.inj h).2⟩

/-- The codes of the leaves `body`, one after another. -/
def leafCodes (body : List (Sym × Bits)) : Bits := body.flatMap fun e => e.2

/-- What DECODE writes for the leaves `body` (R324). -/
def leafBytes (body : List (Sym × Bits)) : Bits := body.flatMap fun e => bin 8 e.1.toNat

/-- R325: over a tree of two or more leaves any bits are codes of leaves and a part of one more. -/
theorem exists_leafCodes {t : HuffTree} (ht : 1 < t.leaves) (bits : Bits) : ∃ body last part,
    (∀ e ∈ body, e ∈ t.paths []) ∧ last ∈ t.paths [] ∧ part <+: last.2 ∧ part ≠ last.2 ∧
      bits = leafCodes body ++ part := by
  obtain ⟨e, he, rest, hrest⟩ | ⟨e, he, hpre, hne⟩ := passes_leaf_or_ends_inside t bits
  · have hshorter : rest.length < bits.length := by
      have hpos := List.length_pos_iff.mpr (path_ne_nil ht he)
      rw [← hrest, List.length_append]
      omega
    obtain ⟨body, last, part, hbody, hlast, hpart, hne, rfl⟩ := exists_leafCodes ht rest
    refine ⟨e :: body, last, part, List.forall_mem_cons.mpr ⟨he, hbody⟩, hlast, hpart, hne, hrest.symm.trans ?_⟩
    exact (List.append_assoc ..).symm
  · exact ⟨[], e, bits, nofun, he, hpre, hne, rfl⟩
termination_by bits.length

/-! ### Turns -/

/-- DECODE in its body, its cursor at slot `i` (R320). -/
def walking (i : Idx) (s : State) : State := { s with phase := .traversingBody, cur := i, pos := .decodeRead }

section
variable {s : State} {t : HuffTree}

/-- R326: the body of a one-leaf tree. -/
theorem turn_beginWalkBody_leaf {c : Sym} (hp : s.pos = .endOf .readTree) (hr : running s = .decode)
    (hh : holds s.node s.root (.leaf c) = true) : turn s = .next
      (if c = Config.eofSym then beginClose { s with phase := .traversingBody, cur := s.root }
      else raise .corruptHeader { s with phase := .traversingBody, cur := s.root }) := by
  obtain ⟨hlt, hleaf, hsym⟩ := holds_leaf_iff.mp hh
  rw [turn_endOf hp, endOfTurn, if_pos hr, beginWalkBody]
  dsimp only
  rw [withNode_of_lt _ hlt, State.nodeAt, hleaf, hsym, if_pos rfl]
  split <;> rfl

/-- R320: a bit moves the cursor to the subtree it selects. -/
theorem turn_decodeRead_bit {l r : HuffTree} {b : Bool} {rest : Bits} (hp : s.pos = .decodeRead)
    (ha : InputAnswers s.inp) (hh : holds s.node s.cur (.node l r) = true) (hu : unread s.inp = b :: rest) :
    ∃ i, holds s.node i (subtree b l r) = true ∧ turn s = arriveAt i (consumed 1 s) := by
  refine ⟨_, holds_subtree b hh, ?_⟩
  rw [turn_decodeRead hp ha.1, decodeReadTurn, inRead_bit ha hu]
  dsimp only
  rw [withNode_of_lt _ (holds_lt hh), State.nodeAt]
  cases b <;> rfl

/-- R320, R323: the cursor comes to an EOF_SYM leaf. -/
theorem arriveAt_eof {i : Idx} (hh : holds s.node i (.leaf Config.eofSym) = true) :
    arriveAt i s = .next (beginClose { s with cur := i }) := by
  obtain ⟨hlt, hleaf, hsym⟩ := holds_leaf_iff.mp hh
  unfold arriveAt
  dsimp only
  rw [withNode_of_lt _ hlt]
  simp only [State.nodeAt, hleaf, hsym, if_true]

/-- R322: the input ends before the next bit. -/
theorem turn_decodeRead_end (hp : s.pos = .decodeRead) (ha : InputAnswers s.inp) (he : InputEnds s.inp)
    (hu : unread s.inp = []) : turn s = .next (raise .truncatedStream (inputEnded s)) := by
  rw [turn_decodeRead hp ha.1, decodeReadTurn, inRead_short ha he (by rw [hu]; exact Nat.one_pos)]
  rfl

/-! ### Codes -/

/-- What is unread after the bits `u`, if any. -/
theorem unread_consumed_append {u rest : Bits} (hu : unread s.inp = u ++ rest) :
    unread (consumed u.length s).inp = rest := by
  cases u with
  | nil => rw [List.length_nil, consumed_zero]; exact hu
  | cons b u => exact unread_consumed (Nat.succ_pos _) hu

/-- R320: bits that end inside a path move the cursor to an internal node. -/
theorem run_decode_prefix {i : Idx} {c : Sym} {p q rest : Bits} {b : Bool} (ha : InputAnswers s.inp)
    (hh : holds s.node i t = true) (hmem : (c, p ++ b :: q) ∈ t.paths []) (hu : unread s.inp = p ++ rest) :
    ∃ j l r, holds s.node j (.node l r) = true ∧ (c, q) ∈ (subtree b l r).paths [] ∧
      run p.length (walking i s) = .next (walking j (consumed p.length s)) := by
  induction p generalizing s t i with
  | nil =>
    cases t with
    | leaf d => exact nomatch (mem_paths_leaf hmem).2
    | node l r =>
      obtain ⟨b', q', hq, hmem'⟩ := mem_paths_node hmem
      cases hq
      exact ⟨i, l, r, hh, hmem', by simp⟩
  | cons a p ih =>
    cases t with
    | leaf d => exact nomatch (mem_paths_leaf hmem).2
    | node l r =>
      obtain ⟨a', p', hp', hmem'⟩ := mem_paths_node hmem
      cases hp'
      obtain ⟨i', hi', hturn⟩ := turn_decodeRead_bit (s := walking i s) rfl ha hh hu
      have hnode : ∃ l' r', subtree a l r = .node l' r' := by
        cases hsub : subtree a l r with
        | leaf d => rw [hsub] at hmem'; simpa using (mem_paths_leaf hmem').2
        | node l' r' => exact ⟨l', r', rfl⟩
      obtain ⟨l', r', hsub⟩ := hnode
      rw [arriveAt_of_not_eof (s := consumed 1 (walking i s)) hi' (by rw [hsub]; nofun), hsub] at hturn
      obtain ⟨j, l'', r'', hj, hq, hrun⟩ := ih (s := consumed 1 s) ha hi' hmem'
        (unread_consumed (u := [a]) Nat.one_pos hu)
      refine ⟨j, l'', r'', hj, hq, ?_⟩
      rw [List.length_cons, Nat.add_comm, ← consumed_consumed]
      exact run_trans (run_one nofun hturn) hrun

/-- DECODE after the codes of the leaves `body`, whose bytes it has written (R320). -/
def decoded (body : List (Sym × Bits)) (s : State) : State :=
  appended (leafBytes body)
    { consumed (leafCodes body).length s with syms := s.syms + BitVec.ofNat 32 body.length }

@[simp] theorem decoded_nil (s : State) : decoded [] s = s := by simp [decoded, leafCodes, leafBytes, appended]

theorem decoded_inp (body : List (Sym × Bits)) (s : State) :
    (decoded body s).inp = (consumed (leafCodes body).length s).inp := rfl

theorem sinkOpen_decoded {body : List (Sym × Bits)} (ho : SinkOpen s.out) : SinkOpen (decoded body s).out := ho

theorem decoded_cons (e : Sym × Bits) (body : List (Sym × Bits)) (s : State) :
    decoded body (decoded [e] s) = decoded (e :: body) s := by
  simp [decoded, leafCodes, leafBytes, appended, consumed, advance_advance, BitVec.add_assoc, ← BitVec.ofNat_add,
    Nat.add_comm]

/-- R320: the code of a leaf other than EOF_SYM, and its byte. -/
theorem run_decode_leaf {e : Sym × Bits} {rest : Bits} (ha : InputAnswers s.inp) (ho : SinkOpen s.out)
    (ht : 1 < t.leaves) (hh : holds s.node s.root t = true) (he : e ∈ t.paths [] ∧ e.1 ≠ Config.eofSym)
    (hu : unread s.inp = e.2 ++ rest) :
    run (e.2.length + 1) (walking s.root s) = .next (walking s.root (decoded [e] s)) := by
  obtain ⟨l, r, hnode⟩ := t.exists_node ht
  obtain ⟨i, hi, hwalk⟩ := run_decode_path (s := walking s.root s) (by rw [hnode]; rfl) ha hh he.1 he.2 hu
  have hbyte := turn_putByte_open (s := { consumed e.2.length (walking s.root s) with cur := i, pos := .putByte })
    rfl ho hi
  refine (run_trans hwalk (run_one nofun hbyte)).trans ?_
  simp [decoded, leafCodes, leafBytes, appended, consumed, walking]

/-- R320: the codes of leaves other than EOF_SYM. -/
theorem run_decode_leaves {body : List (Sym × Bits)} {rest : Bits} (ha : InputAnswers s.inp) (ho : SinkOpen s.out)
    (ht : 1 < t.leaves) (hh : holds s.node s.root t = true)
    (hbody : ∀ e ∈ body, e ∈ t.paths [] ∧ e.1 ≠ Config.eofSym) (hu : unread s.inp = leafCodes body ++ rest) :
    ∃ k ≤ 2 * (leafCodes body).length,
      run k (walking s.root s) = .next (walking s.root (decoded body s)) ∧ unread (decoded body s).inp = rest := by
  induction body generalizing s with
  | nil => exact ⟨0, Nat.zero_le _, by rw [decoded_nil]; rfl, by rw [decoded_nil]; exact hu⟩
  | cons e body ih =>
    rw [List.forall_mem_cons] at hbody
    have hcodes : leafCodes (e :: body) = e.2 ++ leafCodes body := rfl
    rw [hcodes, List.append_assoc] at hu
    have hpos := List.length_pos_iff.mpr (path_ne_nil ht hbody.1.1)
    have hfirst := run_decode_leaf ha ho ht hh hbody.1 hu
    obtain ⟨k, hk, hrun, hrest⟩ := ih (s := decoded [e] s) ha ho hh hbody.2
      (by rw [decoded_inp, show leafCodes [e] = e.2 from List.append_nil _]; exact unread_consumed hpos hu)
    rw [decoded_cons] at hrun hrest
    refine ⟨_, ?_, run_trans hfirst hrun, hrest⟩
    rw [hcodes, List.length_append]
    omega

end

/-! ### The ends -/

section
variable {s : State} {t : HuffTree}

/-- R323: the path of an EOF_SYM leaf ends the body, and the close finishes the command. -/
theorem run_decode_eofPath {p rest : Bits} (ha : InputAnswers s.inp) (ho : SinkOpen s.out) (ht : 1 < t.leaves)
    (hh : holds s.node s.root t = true) (hmem : (Config.eofSym, p) ∈ t.paths []) (hu : unread s.inp = p ++ rest) :
    ∃ i, run (p.length + 1) (walking s.root s) =
      .next (finish (flushed { consumed p.length s with cur := i })) := by
  obtain ⟨q, b, rfl⟩ := List.eq_nil_or_concat p |>.resolve_left (path_ne_nil ht hmem)
  rw [List.concat_eq_append] at hmem hu ⊢
  rw [List.append_assoc] at hu
  obtain ⟨j, l, r, hj, hleaf, hwalk⟩ := run_decode_prefix ha hh hmem hu
  obtain ⟨i, hi, hturn⟩ := turn_decodeRead_bit (s := walking j (consumed q.length s)) rfl ha hj
    (unread_consumed_append hu)
  rw [eq_leaf_of_nil_mem_paths hleaf] at hi
  rw [arriveAt_eof (s := consumed 1 (walking j (consumed q.length s))) hi] at hturn
  refine ⟨i, ?_⟩
  rw [List.length_append, ← consumed_consumed]
  exact run_trans (run_trans hwalk (run_one nofun hturn))
    (run_beginClose (s := { consumed 1 (walking j (consumed q.length s)) with cur := i }) ho)

/-- R322: an input that ends inside a path. -/
theorem run_decode_truncated {c : Sym} {p q : Bits} {b : Bool} (ha : InputAnswers s.inp) (he : InputEnds s.inp)
    (hc : closesOutput (running s) = true) (ho : SinkOpen s.out)
    (hh : holds s.node s.root t = true) (hmem : (c, p ++ b :: q) ∈ t.paths []) (hu : unread s.inp = p) :
    ∃ i, run (p.length + 2) (walking s.root s) =
      .next (failWith .truncatedStream (flushed { inputEnded (consumed p.length s) with cur := i })) := by
  rw [← List.append_nil p] at hu
  obtain ⟨j, l, r, -, -, hwalk⟩ := run_decode_prefix ha hh hmem hu
  have hend := run_one (by nofun) (turn_decodeRead_end (s := walking j (consumed p.length s)) rfl ha he
    (unread_consumed_append hu))
  have hclose := run_raise_open .truncatedStream (s := inputEnded (walking j (consumed p.length s))) hc ho
  exact ⟨j, run_trans hwalk (run_trans hend hclose)⟩

/-- R326: DECODE after the header of a one-leaf tree. -/
theorem run_decode_oneLeaf {c : Sym} (hp : s.pos = .endOf .readTree) (hr : running s = .decode) (ho : SinkOpen s.out)
    (hh : holds s.node s.root (.leaf c) = true) : run 2 s = .next
      (if c = Config.eofSym then finish (flushed { s with cur := s.root })
      else failWith .corruptHeader (flushed { s with cur := s.root })) := by
  have hturn := run_one (by rw [hp]; nofun) (turn_beginWalkBody_leaf hp hr hh)
  by_cases hc : c = Config.eofSym
  · rw [if_pos hc] at hturn ⊢
    exact run_trans hturn (run_beginClose (s := { s with phase := .traversingBody, cur := s.root }) ho)
  · rw [if_neg hc] at hturn ⊢
    exact run_trans hturn (run_raise_open .corruptHeader (s := { s with phase := .traversingBody, cur := s.root })
      (congrArg closesOutput hr) ho)

/-! ### The command -/

theorem unread_headerRead (m : Memory Node) {rest : Bits}
    (hu : unread s.inp = bin 32 s.par.magic.toNat ++ t.bits ++ rest) : unread (headerRead m t s).inp = rest := by
  simpa [headerRead, consumed] using unread_consumed (s := s) (by simp) hu

/-- DECODE, from its header on, where it comes to rest within the turns that the bits after the header leave. -/
theorem exec_decode_of_run {rest : Bits} (hq : Quiet s) (hform : MemoryForm s) (ha : InputAnswers s.inp)
    (ht : t.leaves ≤ 257) (hu : unread s.inp = bin 32 s.par.magic.toNat ++ t.bits ++ rest) :
    ∃ m, TreeRead s.node m 0 t ∧ holds m 0#10 t = true ∧ ∀ k u, k ≤ 2 * rest.length + 3 →
      run k (headerRead m t s) = .next u → u.pos = .idle → exec .decode s = .next u := by
  obtain ⟨-, hm, -, -⟩ := memoryForm_iff.mp hform
  obtain ⟨m, hread, hheader⟩ := run_decode_header hm ha ht hu
  have hsize := t.size_add_one
  refine ⟨m, hread, holds_of_preorderAt (by unfold Config.nodeCap; omega) hread.tree, fun k u hk hrun hidle => ?_⟩
  refine exec_of_run hq (run_trans hheader hrun) hidle ?_
  have hlen := unread_length_le s.inp
  rw [hu, List.length_append] at hlen
  unfold turnsToEnd
  omega

/-- DECODE's body of a tree of two or more leaves, after the codes of the leaves `body`. -/
theorem run_decode_body {m : Memory Node} {body : List (Sym × Bits)} {rest : Bits} (ha : InputAnswers s.inp)
    (ho : SinkOpen s.out) (ht : 1 < t.leaves) (hh : holds m 0#10 t = true)
    (hbody : ∀ e ∈ body, e ∈ t.paths [] ∧ e.1 ≠ Config.eofSym)
    (hu : unread s.inp = bin 32 s.par.magic.toNat ++ t.bits ++ (leafCodes body ++ rest)) :
    ∃ k ≤ 2 * (leafCodes body).length + 1,
      run k (headerRead m t s) = .next (walking 0#10 (decoded body (headerRead m t s))) ∧
        unread (decoded body (headerRead m t s)).inp = rest := by
  obtain ⟨l, r, hnode⟩ := t.exists_node ht
  have hbegin := turn_beginWalkBody (s := headerRead m t s) (l := l) (r := r) rfl decode_encode_decode (hnode ▸ hh)
  obtain ⟨k, hk, hrun, hrest⟩ := run_decode_leaves (s := headerRead m t s) ha ho ht hh hbody (unread_headerRead m hu)
  exact ⟨1 + k, by omega, run_trans (run_one nofun hbegin) hrun, hrest⟩

/-- DECODE's state but for STATUS after its header and the codes of the leaves `body`, its output closed. -/
theorem exists_flushed_decoded (n : Nat) (m : Memory Node) (t : HuffTree) (body : List (Sym × Bits)) (s : State) :
    ∃ pad d, flushed (consumed n (decoded body (headerRead m t s))) = { headerRead m t s with
      inp := advance (32 + t.bits.length + (leafCodes body).length + n) s.inp
      inBits := BitVec.ofNat 32 (32 + t.bits.length + (leafCodes body).length + n)
      syms := BitVec.ofNat 32 body.length, out := closedWith (leafBytes body) pad s.out
      outBits := BitVec.ofNat 32 (leafBytes body).length, draws := d } ∧
      PadsToBytes (s.out.bits ++ leafBytes body) pad := by
  obtain ⟨pad, d, hclose, hpad⟩ := exists_padding (leafBytes body) (consumed n
    { consumed (leafCodes body).length (headerRead m t s) with
      syms := (headerRead m t s).syms + BitVec.ofNat 32 body.length })
  refine ⟨pad, d, hclose.trans ?_, hpad⟩
  simp [headerRead, consumed, advance_advance, BitVec.ofNat_add]

end

end Sys2Proof.Machine

/-! SUPPORT. DECODE (R320): to the EOF_SYM leaf (R323, R324), over a one-leaf tree (R326), of an input that ends early
(R322, R325), and of one that does not begin with MAGIC (R321). -/

namespace Sys2Proof.Machine

section
variable {s : State} {t : HuffTree} {m : Memory Node} {body : List (Sym × Bits)}

/-- R320, R323, R326: DECODE after its header, over the codes of leaves and the path of an EOF_SYM leaf. -/
theorem run_decode_eof {p rest : Bits} (ha : InputAnswers s.inp) (ho : SinkOpen s.out) (hh : holds m 0#10 t = true)
    (hbody : ∀ e ∈ body, e ∈ t.paths [] ∧ e.1 ≠ Config.eofSym) (hmem : (Config.eofSym, p) ∈ t.paths [])
    (hu : unread s.inp = bin 32 s.par.magic.toNat ++ t.bits ++ (leafCodes body ++ (p ++ rest))) :
    ∃ k ≤ 2 * (leafCodes body ++ (p ++ rest)).length + 3, ∃ i, run k (headerRead m t s) =
      .next (finish (flushed { consumed p.length (decoded body (headerRead m t s)) with cur := i })) := by
  rw [List.length_append, List.length_append]
  cases t with
  | leaf c =>
    obtain ⟨rfl, rfl⟩ := mem_paths_leaf hmem
    obtain rfl : body = [] := List.eq_nil_iff_forall_not_mem.mpr fun e he =>
      (hbody e he).2 (mem_paths_leaf (hbody e he).1).1
    rw [decoded_nil, List.length_nil, consumed_zero]
    exact ⟨2, by omega, 0#10, run_decode_oneLeaf (s := headerRead m _ s) rfl decode_encode_decode ho hh⟩
  | node l r =>
    have ht : 1 < (HuffTree.node l r).leaves := by
      obtain ⟨b, q, rfl, -⟩ := mem_paths_node hmem
      exact one_lt_leaves_of_path hmem nofun
    obtain ⟨k, hk, hrun, hrest⟩ := run_decode_body ha ho ht hh hbody hu
    obtain ⟨i, hend⟩ := run_decode_eofPath (s := decoded body (headerRead m (.node l r) s)) ha
      (sinkOpen_decoded ho) ht hh hmem hrest
    exact ⟨_, by omega, i, run_trans hrun hend⟩

end

/-- Settles O46: the codes of the leaves, and then the path of EOF_SYM. -/
theorem decodeWalksToEof : Obligations.DecodeWalksToEof := by
  intro s t body p rest stream bytes hq hform ha ho ht hbody hmem hstream hu hbytes
  obtain rfl : bytes = leafBytes body := hbytes
  have hu' : unread s.inp = bin 32 s.par.magic.toNat ++ t.bits ++ (leafCodes body ++ (p ++ rest)) := by
    rw [hu, hstream, leafCodes]
    simp only [List.append_assoc]
  have hlen : stream.length = 32 + t.bits.length + (leafCodes body).length + p.length := by
    rw [hstream, leafCodes]
    simp only [List.length_append, bin_length]
  have hsize := t.size_add_one
  obtain ⟨m, hread, hh, hexec⟩ := exec_decode_of_run hq hform ha ht hu'
  obtain ⟨k, hk, i, hrun⟩ := run_decode_eof ha ho hh hbody hmem hu'
  obtain ⟨pad, d, hclose, hpad⟩ := exists_flushed_decoded p.length m t body s
  refine ⟨m, i, pad, d, (hexec k _ hk hrun rfl).trans ?_, hh, hread.tree,
    fun j hj => hread.others j (.inr (by omega)), hpad⟩
  refine (congrArg (fun u : State => Host.Outcome.next (finish { u with cur := i })) hclose).trans ?_
  rw [hlen, show 2 * t.leaves - 1 = t.size by omega]
  rfl

/-- Settles O49: the turn after the header of a one-leaf tree, and the close. -/
theorem decodeOneLeafTree : Obligations.DecodeOneLeafTree := by
  intro s c rest hq hform ha ho hu
  obtain ⟨m, -, hh, hexec⟩ := exec_decode_of_run (t := .leaf c) hq hform ha (by simp [HuffTree.leaves]) hu
  have hrun := run_decode_oneLeaf (s := headerRead m (.leaf c) s) rfl decode_encode_decode ho hh
  obtain ⟨pad, d, hclose, hpad⟩ := exists_flushed_decoded 0 m (.leaf c) [] s
  rw [consumed_zero, decoded_nil] at hclose
  refine ⟨m, 0#10, pad, d, ?_, hh, ?_⟩
  · by_cases hc : c = Config.eofSym
    · rw [if_pos hc] at hrun
      rw [if_pos (show c = 256#9 from hc)]
      refine (hexec 2 _ (by omega) hrun rfl).trans ?_
      exact congrArg (fun u : State => Host.Outcome.next (finish { u with cur := 0#10 })) hclose
    · rw [if_neg hc] at hrun
      rw [if_neg (show ¬ c = 256#9 from hc)]
      refine (hexec 2 _ (by omega) hrun rfl).trans ?_
      exact congrArg (fun u : State => Host.Outcome.next (failWith .corruptHeader { u with cur := 0#10 })) hclose
  · simpa [leafBytes] using hpad

section
variable {s : State} {t : HuffTree} {body : List (Sym × Bits)}

/-- R322: DECODE of an input that ends inside a path. -/
theorem exec_decode_truncated {last : Sym × Bits} {part stream : Bits} (hq : Quiet s) (hform : MemoryForm s)
    (ha : InputAnswers s.inp) (he : InputEnds s.inp) (ho : SinkOpen s.out) (ht : t.leaves ≤ 257)
    (hbody : ∀ e ∈ body, e ∈ t.paths [] ∧ e.1 ≠ Config.eofSym) (hlast : last ∈ t.paths [])
    (hpart : part <+: last.2) (hne : part ≠ last.2)
    (hstream : stream = bin 32 s.par.magic.toNat ++ t.bits ++ leafCodes body ++ part) (hu : unread s.inp = stream) :
    ∃ m cur pad d, exec .decode s = .next { failed .decode .truncatedStream s with
        node := m, root := 0#10, nnodes := BitVec.ofNat 10 (2 * t.leaves - 1), nleaves := BitVec.ofNat 9 t.leaves
        treeValid := true, codesValid := false, cur := cur, inBits := BitVec.ofNat 32 stream.length
        outBits := BitVec.ofNat 32 (leafBytes body).length, syms := BitVec.ofNat 32 body.length
        inp := exhausted stream.length s.inp, out := closedWith (leafBytes body) pad s.out, draws := d } ∧
      holds m 0#10 t = true ∧ PadsToBytes (s.out.bits ++ leafBytes body) pad := by
  obtain ⟨q, hpq⟩ := hpart
  obtain ⟨b, q, rfl⟩ := List.exists_cons_of_ne_nil (l := q) fun hnil => hne (by rw [← hpq, hnil, List.append_nil])
  have hmem : (last.1, part ++ b :: q) ∈ t.paths [] := by rw [hpq]; exact hlast
  have hleaves := one_lt_leaves_of_path hmem (by simp)
  have hsize := t.size_add_one
  have hlen : stream.length = 32 + t.bits.length + (leafCodes body).length + part.length := by
    simp only [hstream, List.length_append, bin_length]
  rw [hstream, List.append_assoc] at hu
  obtain ⟨m, -, hh, hexec⟩ := exec_decode_of_run hq hform ha ht hu
  obtain ⟨k, hk, hrun, hrest⟩ := run_decode_body ha ho hleaves hh hbody hu
  obtain ⟨i, hend⟩ := run_decode_truncated (s := decoded body (headerRead m t s)) ha he
    (congrArg closesOutput decode_encode_decode) (sinkOpen_decoded ho) hh hmem hrest
  obtain ⟨pad, d, hclose, hpad⟩ := exists_flushed_decoded part.length m t body s
  refine ⟨m, i, pad, d, (hexec _ _ (by rw [List.length_append]; omega) (run_trans hrun hend) rfl).trans ?_, hh, hpad⟩
  refine (congrArg (fun u : State => Host.Outcome.next (failWith .truncatedStream
    { u with inp := exhausted 0 u.inp, cur := i })) hclose).trans ?_
  rw [hlen, show 2 * t.leaves - 1 = t.size by omega, exhausted_advance]
  rfl

end

/-- Settles O48: an input that ends inside a path; over a tree without EOF_SYM every body does. -/
theorem decodeTruncatedStream : Obligations.DecodeTruncatedStream := by
  intro s t header hq hform ha he ho ht hheader
  subst hheader
  constructor
  · intro body last part stream bytes hbody hlast hpart hne hstream hu hbytes
    subst hbytes
    exact exec_decode_truncated hq hform ha he ho ht hbody hlast hpart hne hstream hu
  · intro rest hleaves hsyms hu
    obtain ⟨body, last, part, hbody, hlast, hpart, hne, rfl⟩ := exists_leafCodes hleaves rest
    have hnotEof : ∀ e ∈ body, e ∈ t.paths [] ∧ e.1 ≠ Config.eofSym := fun e hmem =>
      ⟨hbody e hmem, fun h => hsyms (map_fst_paths t [] ▸ List.mem_map.mpr ⟨e, hbody e hmem, h⟩)⟩
    obtain ⟨m, i, pad, d, hexec, -, -⟩ := exec_decode_truncated hq hform ha he ho ht hnotEof hlast hpart hne
      (List.append_assoc ..).symm hu
    exact ⟨_, hexec, rfl, rfl, rfl, by rw [List.length_append]⟩

/-! ### MAGIC -/

section
variable {s : State}

/-- R321: 32 bits that are not MAGIC. -/
theorem turn_getMagic_other {u rest : Bits} (hp : s.pos = .getMagic) (ha : InputAnswers s.inp)
    (hlen : u.length = 32) (hu : unread s.inp = u ++ rest) (hne : u ≠ bin 32 s.par.magic.toNat) :
    turn s = .next (raise .unrecognizedFormat (consumed 32 s)) := by
  have hread := inRead_consumed ha (by omega) hu
  have hval : val u ≠ s.par.magic.toNat := fun h => hne (by rw [← h, ← hlen, bin_val])
  rw [hlen] at hread
  rw [turn_getMagic hp ha.1, getMagicTurn, hread]
  exact if_neg hval

/-- R321: fewer than 32 bits. -/
theorem turn_getMagic_short (hp : s.pos = .getMagic) (ha : InputAnswers s.inp) (he : InputEnds s.inp)
    (hlen : (unread s.inp).length < 32) : turn s = .next (raise .unrecognizedFormat (inputEnded s)) := by
  rw [turn_getMagic hp ha.1, getMagicTurn, inRead_short ha he hlen]
  rfl

/-- R321, R357: DECODE whose first transaction raises UnrecognizedFormat. -/
theorem exec_decode_of_getMagic_fails {t : State} (hq : Quiet s)
    (hturn : turn (beginDecode (accept (encode .decode) s)) = .next (raise .unrecognizedFormat t))
    (hc : closesOutput (running t) = true) (ho : SinkOpen t.out) :
    exec .decode s = .next (failWith .unrecognizedFormat (flushed t)) := by
  have hstart := run_one (by nofun) (turn_accept (s := s) decode_encode_decode rfl)
  exact exec_of_run hq (run_trans hstart (run_trans (run_one (by nofun) hturn) (run_raise_open _ hc ho))) rfl
    (by unfold turnsToEnd; omega)

end

/-- Settles O47: the first transaction answers other bits than MAGIC, or the end of the input. -/
theorem decodeUnrecognizedFormat : Obligations.DecodeUnrecognizedFormat := by
  intro s hq ha ho hne hlong
  refine ⟨padding s.draws (padCount s.out.bits), s.draws + padCount s.out.bits, ?_, ?_, ?_⟩
  · by_cases hlen : 32 ≤ (unread s.inp).length
    · have hturn := turn_getMagic_other (s := beginDecode (accept (encode .decode) s)) rfl ha
        (List.length_take_of_le hlen) (List.take_append_drop 32 (unread s.inp)).symm hne
      rw [if_pos hlen, if_pos hlen]
      exact exec_decode_of_getMagic_fails hq hturn (congrArg closesOutput decode_encode_decode) ho
    · have hturn := turn_getMagic_short (s := beginDecode (accept (encode .decode) s)) rfl ha
        (hlong.resolve_left hlen) (Nat.not_le.mp hlen)
      rw [if_neg hlen, if_neg hlen]
      exact exec_decode_of_getMagic_fails hq hturn (congrArg closesOutput decode_encode_decode) ho
  · rw [PadsToBytes, padding_length]
    exact padCount_spec _
  · intro hempty
    rw [hempty]
    rfl

end Sys2Proof.Machine

/-! SUPPORT. The round trip (R327): DECODE walks the paths whose bits COMPRESS wrote (R242, R296). -/

namespace Sys2Proof.Machine

/-- R52, R210, R300: the tree that COMPRESS leaves has at most 257 leaves. -/
theorem leaves_le_of_compress {s u : State} {t : HuffTree} {bs : List Nat} (hq : Quiet s) (hform : MemoryForm s)
    (ha : InputAnswers s.inp) (he : InputEnds s.inp) (hr : s.inp.rewindable = true) (ho : OutputAnswers s.out)
    (hbs : bs = bytesOfBits (unread s.inp)) (hfit : bs.length + 1 ≤ Config.maxCount)
    (hexec : exec .compress s = .next u) (hh : holds u.node u.root t = true) : t.leaves ≤ 257 := by
  obtain ⟨h, hcount, hwf, hat, -⟩ := countBuildsTheHistogram s bs hq ha he hbs
    fun c => List.count_le_length.trans (by omega)
  have htotal : histTotal (afterPass h bs.length s) = bs.length :=
    histTotal_of_count (lt_of_mem_bytesOfBits hbs.symm) hat
  obtain ⟨m, r, t', c, hbuild, hgencodes, hh', hle, -, -⟩ := exists_codes_of_counts
    (s := afterPass h bs.length s) ⟨rfl, hq.2⟩ (memoryForm_afterPass bs.length hform hwf)
    (by rw [htotal]; exact hfit)
  obtain ⟨e, -, hencode, -⟩ := exists_end_of_encode
    (s := afterGencodes c (treeBuilt m r t'.leaves (afterPass h bs.length s))) ⟨rfl, hq.2⟩ rfl rfl ha he ho hh' hle
  have hcompress := exec_compress_of_commands hq hform ha he hr ho hcount
    (exec_inreset_afterCount h bs.length hq ha hr) hbuild hgencodes hencode
  obtain ⟨-, -, -, -, -, -, -, -, -, -, htree, -⟩ := commandFrame .encode _ _ rfl rfl hencode
  obtain ⟨hnode, hroot, -⟩ := htree rfl
  cases hcompress.symm.trans hexec
  have hheld : holds e.node e.root t' = true := by
    rw [show e.node = m from hnode, show e.root = r from hroot]
    exact hh'
  exact holds_unique hh hheld ▸ hle

theorem bitsOfBytes_length (bs : List Nat) : (bitsOfBytes bs).length = bs.length * 8 := by
  simp [bitsOfBytes, List.length_flatMap]

/-- R90: whole bytes get no padding. -/
theorem eq_nil_of_padsToBytes {bs : List Nat} {pad : Bits} (h : PadsToBytes (bitsOfBytes bs) pad) : pad = [] := by
  obtain ⟨hle, hmod⟩ := h
  rw [bitsOfBytes_length] at hmod
  exact List.length_eq_zero_iff.mp (by omega)

/-- The leaves whose codes stand in the compressed stream of the bytes `bs` (R296). -/
def leavesOf (t : HuffTree) (bs : List Nat) : List (Sym × Bits) :=
  bs.map fun b => (BitVec.ofNat 9 b, (t.codeOf b).bits)

theorem leafCodes_leavesOf (t : HuffTree) (bs : List Nat) :
    leafCodes (leavesOf t bs) = bs.flatMap fun b => (t.codeOf b).bits := List.flatMap_map ..

theorem leafBytes_leavesOf (t : HuffTree) {bs : List Nat} (hlt : ∀ b ∈ bs, b < 256) :
    leafBytes (leavesOf t bs) = bitsOfBytes bs :=
  (List.flatMap_map ..).trans (List.flatMap_congr fun b hb => by rw [toNat_ofNat_sym (hlt b hb).le])

/-- R242: the codes of bytes that have one are paths to leaves other than EOF_SYM. -/
theorem mem_paths_of_mem_leavesOf {t : HuffTree} {bs : List Nat} (hlt : ∀ b ∈ bs, b < 256)
    (hv : ∀ b ∈ bs, (t.codeOf b).valid = true) : ∀ e ∈ leavesOf t bs, e ∈ t.paths [] ∧ e.1 ≠ 256#9 := by
  intro e he
  obtain ⟨b, hb, rfl⟩ := List.mem_map.mp he
  refine ⟨mem_paths_of_valid (hv b hb), fun h => ?_⟩
  have hsym := congrArg BitVec.toNat h
  have hbyte := hlt b hb
  rw [toNat_ofNat_sym hbyte.le] at hsym
  exact absurd hsym hbyte.ne

/-- Settles O50: COMPRESS writes the codes of paths of its tree, and DECODE walks them. -/
theorem roundTrip : Obligations.RoundTrip := by
  intro s bs hq hform ha he hr hpos heof ho hempty hlt hbits hfit
  have hbs : bs = bytesOfBits s.inp.bits := by rw [hbits, bytesOfBits_bitsOfBytes hlt]
  obtain ⟨h, m, c, t, r, stream, pad, d, hexec, -, hh, -, hstream, hcoded, heofCoded, hpad⟩ :=
    compressWritesTheStream s bs hq hform ha he hr hpos heof ho hbs hfit
  have hle : t.leaves ≤ 257 := leaves_le_of_compress hq hform ha he hr ho.1
    (by rw [unread, heof, hpos]; exact hbs) hfit hexec hh
  refine ⟨_, stream, pad, hexec, rfl, ?_, hpad.1, ?_⟩
  · simp [closedWith, hempty]
  · intro u otherPad hqu hformu hmagic hau hu hou hemptyu
    obtain ⟨m', cur, pad', d', hdecode, -, -, -, hpad'⟩ := decodeWalksToEof u t (leavesOf t bs) (t.codeOf 256).bits
      otherPad stream (bitsOfBytes bs) hqu hformu hau hou hle (mem_paths_of_mem_leavesOf hlt hcoded)
      (mem_paths_of_valid heofCoded) (by rw [hstream, hmagic, ← leafCodes_leavesOf]; rfl) hu
      (leafBytes_leavesOf t hlt).symm
    rw [hemptyu, List.nil_append] at hpad'
    refine ⟨_, hdecode, rfl, ?_, rfl, rfl⟩
    simp [closedWith, hemptyu, eq_nil_of_padsToBytes hpad']

end Sys2Proof.Machine

/-! SUPPORT. Which errors a command can end with (R351): the kinds that each piece of pseudocode raises, and the failure
epilogue, which puts the kind raised in ERRCODE whatever its OutClose answers (R356, R358). -/

namespace Sys2Proof.Machine

/-! ### The table of R351 -/

section
variable {i : Instr}

theorem mayRaise_portError_of_usesInput (h : usesInput i = true) : mayRaise i .portError = true := by
  cases i <;> simp_all [usesInput, mayRaise]

theorem mayRaise_portError_of_usesOutput (h : usesOutput i = true) : mayRaise i .portError = true := by
  cases i <;> simp_all [usesOutput, mayRaise]

theorem mayRaise_notReady_of_not_ready {s : State} (h : ready i s = false) : mayRaise i .notReady = true := by
  cases i <;> simp_all [ready, mayRaise]

theorem mayRaise_corruptHeader_of_permits (h : permits i (.endOf .readTree) = true) :
    mayRaise i .corruptHeader = true := by
  cases i <;> simp_all [permits, mayRaise]

theorem mayRaise_uncodedSymbol_of_permits (h : permits i .encodeRead = true) : mayRaise i .uncodedSymbol = true := by
  cases i <;> simp_all [permits, mayRaise]

theorem eq_decode_of_permits (h : permits i .decodeRead = true) : i = .decode := by simpa [permits] using h

end

/-! ### The errors of a state -/

/-- The error kind in ERRCODE, and the one that the failure epilogue under way will put there (R356), are among `E`. -/
structure ErrorsIn (E : ErrKind → Bool) (s : State) : Prop where
  raised : ∀ k, s.errcode = some k → E k = true
  pending : ∀ k, s.pos = .failClose k → E k = true

/-- The errors of the state that the result leaves, if it leaves one, are among `E`. -/
def AnswersErrorsIn (E : ErrKind → Bool) (r : Result) : Prop := ∀ t, r = .next t → ErrorsIn E t

section
variable {E : ErrKind → Bool} {s u : State}

theorem answersErrorsIn_next : AnswersErrorsIn E (.next s) ↔ ErrorsIn E s :=
  ⟨fun h => h s rfl, fun h t ht => by cases ht; exact h⟩

theorem answersErrorsIn_fault (e : Fault) : AnswersErrorsIn E (.fault e) := fun _ h => nomatch h

theorem errorsIn_failWith {k : ErrKind} (hk : E k = true) : ErrorsIn E (failWith k u) :=
  ⟨fun _ hj => Option.some.inj hj ▸ hk, nofun⟩

/-- R356: the kind raised is the one that ERRCODE takes, at once or after the close. -/
theorem ErrorsIn.raise {k : ErrKind} (h : ErrorsIn E s) (he : u.errcode = s.errcode) (hk : E k = true) :
    ErrorsIn E (raise k u) := by
  obtain hr | hr := raise_cases k u <;> rw [hr]
  · exact ⟨fun j hj => h.raised j (he ▸ hj), fun _ hj => Pos.failClose.inj hj ▸ hk⟩
  · exact errorsIn_failWith hk

theorem answersErrorsIn_withNode {i : Idx} {k : Node → Result} (h : ∀ nd, AnswersErrorsIn E (k nd)) :
    AnswersErrorsIn E (withNode i s k) :=
  fun t ht => h _ t (withNode_eq_next.mp ht).2

theorem answersErrorsIn_checkWrite {n v : Nat} {k : State → State} (h : ErrorsIn E s) (hport : E .portError = true)
    (hk : ErrorsIn E (k (outWrite n v s).2)) : AnswersErrorsIn E (checkWrite n v s k) := by
  unfold checkWrite
  split <;> rw [answersErrorsIn_next]
  · exact hk
  · exact h.raise rfl hport

theorem ErrorsIn.beginBuild (h : ErrorsIn E s) : ErrorsIn E (beginBuild s) := by
  rw [beginBuild_frame]
  exact ⟨h.raised, nofun⟩

/-! ### The errors that each piece raises -/

/-- R174: only an illegal word begins with an error. -/
theorem errorsIn_beginCommand {i : Instr} (h : ErrorsIn (mayRaise i) s) :
    ErrorsIn (mayRaise i) (beginCommand i s) := by
  cases i with
  | build => exact h.beginBuild
  | illegalOp | illegalRes => exact h.raise rfl rfl
  | _ => exact ⟨h.raised, nofun⟩

/-- R153, R174. -/
theorem answersErrorsIn_startTurn (h : ErrorsIn (mayRaise (running s)) s) :
    AnswersErrorsIn (mayRaise (running s)) (startTurn s) := by
  unfold startTurn
  split <;> rw [answersErrorsIn_next]
  · exact errorsIn_beginCommand h
  · next hr => exact errorsIn_failWith (mayRaise_notReady_of_not_ready (Bool.eq_false_of_not_eq_true hr))

theorem answersErrorsIn_countReadTurn (h : ErrorsIn E s) (hport : E .portError = true) :
    AnswersErrorsIn E (countReadTurn s) := by
  unfold countReadTurn
  split
  · exact answersErrorsIn_next.mpr ⟨h.raised, nofun⟩
  · exact answersErrorsIn_next.mpr (h.raise rfl hport)
  · split
    · exact answersErrorsIn_fault _
    · rw [answersErrorsIn_next, countByte_eq]
      exact ⟨h.raised, h.pending⟩

theorem answersErrorsIn_rewindTurn (h : ErrorsIn E s) (hport : E .portError = true) :
    AnswersErrorsIn E (rewindTurn s) := by
  unfold rewindTurn
  split <;> rw [answersErrorsIn_next]
  · exact ⟨h.raised, nofun⟩
  · exact h.raise rfl hport

theorem answersErrorsIn_mergeTurn (n : Nat) (picks : List Idx) (h : ErrorsIn E s) :
    AnswersErrorsIn E (mergeTurn n picks s) := by
  unfold mergeTurn
  dsimp only
  split
  · split
    · exact answersErrorsIn_fault _
    · exact answersErrorsIn_next.mpr ⟨h.raised, nofun⟩
  · exact answersErrorsIn_next.mpr ⟨h.raised, nofun⟩

theorem answersErrorsIn_walkTurn (h : ErrorsIn E s) : AnswersErrorsIn E (walkTurn s) := by
  unfold walkTurn
  split
  · exact answersErrorsIn_next.mpr ⟨h.raised, nofun⟩
  · refine answersErrorsIn_withNode fun nd => ?_
    split <;> rw [answersErrorsIn_next]
    · rw [recordCode_frame]
      exact ⟨h.raised, h.pending⟩
    · exact ⟨h.raised, h.pending⟩

/-- R260. -/
theorem answersErrorsIn_writeTreeTurn (hp : s.pos = .writeTree) (h : ErrorsIn E s)
    (hport : asksOutput s = true → E .portError = true) : AnswersErrorsIn E (writeTreeTurn s) := by
  unfold writeTreeTurn
  split
  · exact answersErrorsIn_next.mpr ⟨h.raised, nofun⟩
  · next f rest hst =>
    have ha : asksOutput s = true := by simp [asksOutput, hp, hst]
    refine answersErrorsIn_withNode fun nd => ?_
    split
    · exact answersErrorsIn_checkWrite h (hport ha) ⟨h.raised, nofun⟩
    · exact answersErrorsIn_checkWrite h (hport ha) ⟨h.raised, h.pending⟩

/-- R271, R274. -/
theorem answersErrorsIn_readTagTurn (n leaves : Nat) (h : ErrorsIn E s) (hport : E .portError = true)
    (hheader : E .corruptHeader = true) : AnswersErrorsIn E (readTagTurn n leaves s) := by
  unfold readTagTurn
  split <;> rw [answersErrorsIn_next]
  · exact h.raise rfl hheader
  · exact h.raise rfl hport
  · unfold tagRead
    split
    · exact h.raise rfl hheader
    · dsimp only
      split <;> exact ⟨h.raised, nofun⟩

/-- R271. -/
theorem answersErrorsIn_readSymTurn (i : Idx) (n leaves : Nat) (h : ErrorsIn E s) (hport : E .portError = true)
    (hheader : E .corruptHeader = true) : AnswersErrorsIn E (readSymTurn i n leaves s) := by
  unfold readSymTurn
  split <;> rw [answersErrorsIn_next]
  · exact h.raise rfl hheader
  · exact h.raise rfl hport
  · constructor
    · rw [returnNode_frame]
      exact h.raised
    · obtain hp | hp := returnNode_pos n (leaves + 1) _ i _ <;> rw [hp] <;> nofun

/-- R290, R295. -/
theorem answersErrorsIn_encodeReadTurn (h : ErrorsIn E s) (hport : E .portError = true)
    (huncoded : E .uncodedSymbol = true) : AnswersErrorsIn E (encodeReadTurn s) := by
  unfold encodeReadTurn
  split <;> rw [answersErrorsIn_next]
  · unfold terminator
    split
    · split <;> exact ⟨h.raised, nofun⟩
    · exact h.raise rfl huncoded
  · exact h.raise rfl hport
  · unfold encodeByte
    split
    · split
      · exact ⟨h.raised, nofun⟩
      · exact ⟨h.raised, h.pending⟩
    · exact h.raise rfl huncoded

theorem answersErrorsIn_emitTurn (b : BitVec 8) (h : ErrorsIn E s) (hport : E .portError = true) :
    AnswersErrorsIn E (emitTurn b s) := by
  unfold emitTurn emitCode
  exact answersErrorsIn_checkWrite h hport ⟨h.raised, nofun⟩

/-- R320, R321. -/
theorem answersErrorsIn_getMagicTurn (h : ErrorsIn E s) (hport : E .portError = true)
    (hformat : E .unrecognizedFormat = true) : AnswersErrorsIn E (getMagicTurn s) := by
  unfold getMagicTurn
  split
  · exact answersErrorsIn_next.mpr (h.raise rfl hport)
  · exact answersErrorsIn_next.mpr (h.raise rfl hformat)
  · split <;> rw [answersErrorsIn_next]
    · exact ⟨h.raised, nofun⟩
    · exact h.raise rfl hformat

theorem answersErrorsIn_arriveAt (i : Idx) (h : ErrorsIn E s) : AnswersErrorsIn E (arriveAt i s) := by
  unfold arriveAt
  refine answersErrorsIn_withNode fun nd => ?_
  split
  · split <;> exact answersErrorsIn_next.mpr ⟨h.raised, nofun⟩
  · exact answersErrorsIn_next.mpr ⟨h.raised, nofun⟩

/-- R320, R322. -/
theorem answersErrorsIn_decodeReadTurn (h : ErrorsIn E s) (hport : E .portError = true)
    (htruncated : E .truncatedStream = true) : AnswersErrorsIn E (decodeReadTurn s) := by
  unfold decodeReadTurn
  split
  · exact answersErrorsIn_next.mpr (h.raise rfl htruncated)
  · exact answersErrorsIn_next.mpr (h.raise rfl hport)
  · exact answersErrorsIn_withNode fun nd => answersErrorsIn_arriveAt _ ⟨h.raised, h.pending⟩

theorem answersErrorsIn_closeTurn (h : ErrorsIn E s) (hport : E .portError = true) :
    AnswersErrorsIn E (closeTurn s) := by
  unfold closeTurn
  split <;> rw [answersErrorsIn_next]
  · exact ⟨h.raised, nofun⟩
  · exact errorsIn_failWith hport

/-- R326. -/
theorem answersErrorsIn_beginWalkBody (h : ErrorsIn E s) (hheader : E .corruptHeader = true) :
    AnswersErrorsIn E (beginWalkBody s) := by
  unfold beginWalkBody
  refine answersErrorsIn_withNode fun nd => ?_
  split
  · split <;> rw [answersErrorsIn_next]
    · exact ⟨h.raised, nofun⟩
    · exact h.raise rfl hheader
  · exact answersErrorsIn_next.mpr ⟨h.raised, nofun⟩

/-- Of the stages, only ReadTree can be followed by an error, and only in DECODE (R326). -/
theorem answersErrorsIn_endOfTurn (st : Stage) (h : ErrorsIn E s)
    (hheader : running s = .decode → E .corruptHeader = true) : AnswersErrorsIn E (endOfTurn st s) := by
  cases st with
  | readTree =>
    unfold endOfTurn
    dsimp only
    split
    · next hd => exact answersErrorsIn_beginWalkBody h (hheader hd)
    · exact answersErrorsIn_next.mpr ⟨h.raised, nofun⟩
  | rewind =>
    refine answersErrorsIn_next.mpr ?_
    split
    · exact h.beginBuild
    · exact ⟨h.raised, nofun⟩
  | _ =>
    refine answersErrorsIn_next.mpr ?_
    split <;> exact ⟨h.raised, nofun⟩

end

/-! ### Every command -/

/-- A turn of a command raises no error that R351 marks with a dash for it. -/
theorem answersErrorsIn_turn {s : State} (hp : permits (running s) s.pos = true)
    (h : ErrorsIn (mayRaise (running s)) s) : AnswersErrorsIn (mayRaise (running s)) (turn s) := by
  have hin (ha : asksInput s.pos = true) := mayRaise_portError_of_usesInput (usesInput_of_asksInput hp ha)
  have hout (ha : asksOutput s = true) := mayRaise_portError_of_usesOutput (usesOutput_of_asksOutput hp ha)
  unfold turn
  split
  · exact answersErrorsIn_next.mpr h
  · unfold pieceAt
    cases hpos : s.pos with rw [hpos] at hp hin
    | idle => exact answersErrorsIn_next.mpr h
    | start => exact answersErrorsIn_startTurn h
    | countRead => exact answersErrorsIn_countReadTurn h (hin rfl)
    | rewind => exact answersErrorsIn_rewindTurn h (hin rfl)
    | merge n picks => exact answersErrorsIn_mergeTurn n picks h
    | walk => exact answersErrorsIn_walkTurn h
    | writeTree => exact answersErrorsIn_writeTreeTurn hpos h hout
    | putMagic | emitEof =>
      exact answersErrorsIn_checkWrite h (hout (by simp [asksOutput, hpos])) ⟨h.raised, nofun⟩
    | emit b => exact answersErrorsIn_emitTurn b h (hout (by simp [asksOutput, hpos]))
    | writeSym | putByte =>
      refine answersErrorsIn_withNode fun nd => ?_
      exact answersErrorsIn_checkWrite h (hout (by simp [asksOutput, hpos])) ⟨h.raised, nofun⟩
    | readTag n leaves =>
      exact answersErrorsIn_readTagTurn n leaves h (hin rfl) (mayRaise_corruptHeader_of_permits hp)
    | readSym j n leaves =>
      exact answersErrorsIn_readSymTurn j n leaves h (hin rfl) (mayRaise_corruptHeader_of_permits hp)
    | encodeRead => exact answersErrorsIn_encodeReadTurn h (hin rfl) (mayRaise_uncodedSymbol_of_permits hp)
    | getMagic => exact answersErrorsIn_getMagicTurn h (hin rfl) (by rw [eq_decode_of_permits hp]; rfl)
    | decodeRead => exact answersErrorsIn_decodeReadTurn h (hin rfl) (by rw [eq_decode_of_permits hp]; rfl)
    | close => exact answersErrorsIn_closeTurn h (hout (by simp [asksOutput, hpos]))
    | failClose k => exact answersErrorsIn_next.mpr (errorsIn_failWith (h.pending k hpos))
    | endOf st => exact answersErrorsIn_endOfTurn st h fun hd => by rw [hd]; rfl

theorem turn_keeps_errorsIn {i : Instr} {s : State} : ∀ t u, Running i s t ∧ ErrorsIn (mayRaise i) t →
    t.pos ≠ .idle → turn t = .next u → Running i s u ∧ ErrorsIn (mayRaise i) u := by
  rintro t u ⟨hrun, he⟩ hp h
  have hrun' := turn_keeps_running t u hrun hp h
  obtain ⟨rfl, hperm, -, -⟩ := hrun
  exact ⟨hrun', answersErrorsIn_turn hperm he u h⟩

/-- Settles O54: acceptance clears ERRCODE, and every turn raises errors of the running command's row of R351 only. -/
theorem errorsByCommand : Obligations.ErrorsByCommand := by
  intro i s t k hi hp h hk
  obtain ⟨n, hs, hrun⟩ := exists_run_of_exec hp h
  obtain ⟨-, he⟩ := run_preserves _ turn_keeps_errorsIn n _ t ⟨running_of_accepted hi s hs, nofun, nofun⟩ hrun
  exact he.raised k hk

/-! ### The failure epilogue -/

/-- Settles O52: the turn of the failure epilogue is its OutClose, of which only the port and the draw count stay. -/
theorem firstErrorWins : Obligations.FirstErrorWins := by
  intro s k hp ho
  exact ⟨(outClose s).2.out, (outClose s).2.draws, turn_failClose hp ho⟩

end Sys2Proof.Machine

/-! SUPPORT. Hardware reset as a step of the machine (R390): due at once on an idle core, and in the middle of a command
whenever no turn stands before it. -/

namespace Sys2Proof.Machine

/-- Settles O16: the reset is due, so the step is the reset of the core, the event taken from the host's queue. -/
theorem hardwareResetRestoresTheCore : Obligations.HardwareResetRestoresTheCore := by
  intro s n rest hd hh
  have hdue : s.pos = .idle ∨ (n = 0 ∧ HostOp.hardwareReset ≠ .waitIdle) := hd.imp_right fun hn => ⟨hn, nofun⟩
  calc step s
    _ = perform .hardwareReset { s with host := rest } := step_of_due hh hdue
    _ = .next (hardwareReset { s with host := rest }) := rfl

end Sys2Proof.Machine
